-- ==== Sys2Proof/Word.lean ====
section
/-! DEFINITION. The plain types every other file uses: bytes, dock numbers, frame addresses and kinds. -/

namespace Sys2Proof

/-- One byte of a frame or of a settings record (12, "Multi-byte fields"). -/
abbrev Byte := BitVec 8

/-- A dock of the row, numbered 0 to 15 (R1). Channel n of the drive unit drives dock n (R111). -/
abbrev DockId := Fin 16

/-- The six low bits of header byte 0 or 1: a node of a segment (R170). -/
abbrev Address := BitVec 6

/-- The six low bits of header byte 2: the kind of a frame (R170, section 12.1). -/
abbrev KindCode := BitVec 6

/-- A set of the twelve event kinds: bit n stands for the kind numbered n in section 8.5. -/
abbrev EventSet := BitVec 12

/-- A code of the 12-bit converter (chapter 7). -/
abbrev Code := BitVec 12

end Sys2Proof
end

