-- ==== Sys2Proof/Config.lean ====
section
/-! DEFINITION. The free values: what the spec leaves open, as constants with no body. -/

namespace Sys2Proof.Config

/-- DESIGN CHOICE (entry 5), safe: an arbitrary number for each free choice the spec leaves open. It is applied
to State.freeCount, which every use advances; nothing says what it is, so a claim holds for every value. -/
opaque freeIndex : Nat → Nat

end Sys2Proof.Config
end

