-- ==== Sys2Proof/Syntax.lean ====
section
/-! DEFINITION. The commands of the part: one constructor of Instr for each row of spec/opcode_table.json. -/

namespace Sys2Proof

/-- The two ports of the link unit (R167). -/
inductive PortId
  | station | dock
  deriving DecidableEq, Repr

/-- The two sensor inputs of a dock (section 1.3). -/
inductive SensorId
  | bikePresent | latchOpen
  deriving DecidableEq, Repr

/-- What a sender that won arbitration reads back by the end of its attempt (R175): a bit other than the one it
sent, or no such bit and the ack slot dominant or recessive. -/
inductive ReadBack
  | mismatch | ackDominant | ackRecessive
  deriving DecidableEq, Repr

/-- What stands at the pins as a frame departs: what its sender has read back (R175), and the address straps, which
the full reset at a RESTART REPLY's departure samples (R167, R192; entry 10). -/
structure DepartureLevels where
  readBack : ReadBack
  straps : BitVec 3
  deriving DecidableEq, Repr

/-- The ways a settings-memory transaction fails (R196). -/
inductive I2cFailure
  | notAcknowledged | timedOut | dataLineLow
  deriving DecidableEq, Repr

/-- The commands, in the order of spec/opcode_table.json. A row that TAKES a frame has no operand: its frame is
the one at the head of its receive buffer, placed there by FRAME_RECEIVED (R180, R184). -/
inductive Instr
  | resetRelease (straps : BitVec 3) (stop : Bool) (bike latch : BitVec 16)
  | settingsRecordRead (record : List Byte)
  | i2cTransactionTimeout (cause : I2cFailure)
  | sensorRawChange (d : DockId) (sensor : SensorId)
  | bikePresentRise (d : DockId)
  | bikePresentFall (d : DockId)
  | latchOpenRise (d : DockId)
  | latchOpenFall (d : DockId)
  | returnPendingTimerExpiry (d : DockId)
  | bikeId
  | tap
  | stationTimeAdvance
  | timeSet
  | reserve
  | cancelReserve
  | setService
  | clearService
  | staffUnlock
  | unknownDockCommand
  | passWrite
  | passDelete
  | passRead
  | denyWrite
  | denyDelete
  | keyWrite
  | keyClear
  | rearrangementEnd
  | referralAnswerAdmit
  | referralAnswerRefuse
  | referralTimeout (d : DockId)
  | notice
  | orderDeadline (d : DockId)
  | stopAssertion
  | stopRelease
  | stopAll
  | pullInStart (d : DockId)
  | pullLimitExpiry (d : DockId)
  | extensionExpiry (d : DockId)
  | holdExpiry (d : DockId)
  | closingLimitExpiry (d : DockId)
  | coilFaultReport
  | supplyConversionComplete (code : Code)
  | coilConversionComplete (code : Code)
  | idleSupplyTurn
  | fixingPeriodStart
  | coilSamplingInstant
  | profileWrite
  | supplyWrite
  | collect
  | eventRead
  | eventClear
  | eventMask
  | eventForce
  | statusRead
  | restart
  | badKind
  | messageFromReader
  | messageToReader
  | frameDiscarded (p : PortId)
  | frameReceived (p : PortId) (header : BitVec 32) (payload : List Byte) (check : BitVec 16)
  | frameSendStart (p : PortId)
  | arbitrationLost (p : PortId) (lineHeader : BitVec 16)
  | frameDeparture (p : PortId) (levels : DepartureLevels)
  | pwmPeriodStart (d : DockId)
  | resetInputAsserted
  | lineIdle (p : PortId)
  | dominantBitInWaiting (p : PortId)
  | otherNodeStartBit (p : PortId)
  | headerNoEnd (p : PortId) (header : BitVec 32)
  | lastEndBit (p : PortId)
  | referralAnswerBadCode
  deriving DecidableEq, Repr

end Sys2Proof
end

