-- ==== Sys2Proof/Decode.lean ====
section
/-! DEFINITION. The command a word spells by the bits of spec/opcode_table.json, and the fields of a frame header. -/

namespace Sys2Proof

/-- No row of spec/opcode_table.json gives bits (98: n_rows_with_fixed is 0), so no word spells a command. -/
def decodeTableWord (_nbits _w : Nat) : Option Instr := none

/-- The payload length a header carries, in the six low bits of byte 3 (R170). Bytes 0 to 3 of a header stand in
bits 31 to 24, 23 to 16, 15 to 8 and 7 to 0 of the 32-bit number. -/
def headerLength (header : BitVec 32) : Nat := (header.extractLsb' 0 6).toNat

/-- The reserved bits of a header, the two high bits of bytes 1, 2 and 3, are 0 (R170). -/
def headerReservedClear (header : BitVec 32) : Bool :=
  header.extractLsb' 22 2 == 0#2 && header.extractLsb' 14 2 == 0#2 && header.extractLsb' 6 2 == 0#2

/-- A header with no end to wait for: a length above 32 or a reserved bit set (R169). -/
def headerHasNoEnd (header : BitVec 32) : Bool :=
  decide (32 < headerLength header) || !headerReservedClear header

/-- The two high bits of byte 0 (R170). -/
def headerPriority (header : BitVec 32) : BitVec 2 := header.extractLsb' 30 2

/-- The six low bits of byte 0 (R170). -/
def headerDest (header : BitVec 32) : Address := header.extractLsb' 24 6

/-- The six low bits of byte 1 (R170). -/
def headerSource (header : BitVec 32) : Address := header.extractLsb' 16 6

/-- The six low bits of byte 2 (R170). -/
def headerKind (header : BitVec 32) : KindCode := header.extractLsb' 8 6

/-- The station address: 2 plus the value of the three straps (R167). -/
def stationAddress (straps : BitVec 3) : Address := 2#6 + straps.setWidth 6

end Sys2Proof
end

