-- ==== Sys2Proof/Machine/State.lean ====
section
/-! DEFINITION. The state of the part, as plain data, and its value after a full reset. Each type and field names
the rule of spec/ that gives it; INVENTORY.md lists them with their reset values. -/

namespace Sys2Proof.Machine

/-! ### Dock records (chapter 1) -/

/-- Held in reset, STARTING or RUNNING (R194, R195, R199). -/
inductive Phase
  | inReset | starting | running
  deriving DecidableEq, Repr

/-- The nine dock states (R1); `opened` is OPEN. -/
inductive DockState
  | vacant | loose | parked | reserved | queued | pulling | opened | closing | service
  deriving DecidableEq, Repr

/-- The fault kinds of a dock in SERVICE (R1). -/
inductive FaultKind
  | unconfigured | latchJam | overcurrent | undercurrent | staffSet
  deriving DecidableEq, Repr

/-- What created an order (R1, R92). -/
inductive Origin
  | rider | referred | staff
  deriving DecidableEq, Repr

/-- The return pending timer, with the uptime count at which it runs out (R1, R11). -/
inductive ReturnTimer
  | stopped | runningForBike (due : Nat) | runningForId (due : Nat)
  deriving DecidableEq, Repr

/-- A reservation: a pass id and an until time in station seconds (R1). -/
structure Reservation where
  passId : Nat
  untilTime : Nat
  deriving DecidableEq, Repr

/-- A dock's profile in the coded units of R187. -/
structure Profile where
  pullIn : Nat
  hold : Nat
  maxPullIn : Nat
  holdTime : Nat
  iMax : Nat
  iMin : Nat
  deriving DecidableEq, Repr

/-- The defaults of R187. -/
def Profile.default : Profile := ⟨120, 45, 50, 20, 100, 25⟩

/-- The reasons of an UNLOCK_FAILED (R147). -/
inductive Reason
  | supplyTimeout | latchJam | noOpenLowSupply | overcurrent | undercurrent
  | abortedStop | abortedService | tampered
  deriving DecidableEq, Repr

/-- The kinds of an outcome record (R147); `returned` is RETURN. -/
inductive OutcomeKind
  | rideStart | notTaken | unlockFailed | returned
  deriving DecidableEq, Repr

/-- An outcome record (R147). -/
structure OutcomeRecord where
  kind : OutcomeKind
  origin : Origin
  dock : DockId
  passId : Option Nat
  serial : Option Nat
  admitTime : Option Nat
  endTime : Option Nat
  throwTime : Option Nat
  bikeId : Option Nat
  reason : Option Reason
  underdriven : Bool
  refundApplied : Bool
  timeUnknown : Bool
  deriving DecidableEq, Repr

/-- An order (R92). -/
structure Order where
  dock : DockId
  origin : Origin
  passId : Option Nat
  serial : Option Nat
  admitTime : Option Nat
  admitUptime : Nat
  profile : Profile
  underdriven : Bool
  stopMark : Bool
  throwTime : Option Nat
  deriving DecidableEq, Repr

/-- A sensor filter (R4, R5): the raw level, the debounced level, and the uptime of the last raw change, from
which the stable interval runs. `true` is HIGH. -/
structure Filter where
  raw : Bool
  level : Bool
  lastChange : Option Nat
  deriving DecidableEq, Repr

/-- The phase timer of a channel with its expiry uptime (R111). -/
inductive PhaseTimer
  | stopped | pullLimit (due : Nat) | extension (due : Nat) | hold (due : Nat) | closingLimit (due : Nat)
  deriving DecidableEq, Repr

/-- A PWM channel (R111). -/
structure Channel where
  applied : Nat
  pending : Nat
  pullInStart : Option Nat
  timer : PhaseTimer
  deriving DecidableEq, Repr

/-- The activity of a channel (R113, R132). -/
inductive Activity
  | inactive | pullIn | hold
  deriving DecidableEq, Repr

/-- The sense unit's state of one channel (R132). -/
structure SenseChannel where
  activity : Activity
  latest : Option Code
  violations : Nat
  deriving DecidableEq, Repr

/-- All that belongs to one dock: its record (R1), its two filters (R4, R5), the order held with it from its
grant on (R92), its PWM channel (R111) and its channel of the sense unit (R132). The bike-present and latch-open
levels of R1 are the debounced levels of the filters. -/
structure Dock where
  state : DockState
  fault : Option FaultKind
  bikeId : Option Nat
  reservation : Option Reservation
  boundPass : Option Nat
  boundSerial : Option Nat
  origin : Option Origin
  returnTimer : ReturnTimer
  pendingReturn : Option OutcomeRecord
  profile : Profile
  configured : Bool
  bike : Filter
  latch : Filter
  order : Option Order
  chan : Channel
  sense : SenseChannel
  deriving DecidableEq, Repr

/-! ### Pass store (chapter 2) -/

/-- The class of a pass (R27). -/
inductive PassClass
  | rider | staff
  deriving DecidableEq, Repr

/-- How the last serial became known (R41); `localUse` is LOCAL. -/
inductive SerialSource
  | localUse | notice | written
  deriving DecidableEq, Repr

/-- A pass entry (R27). -/
structure PassEntry where
  id : Nat
  cls : PassClass
  validFrom : Nat
  validUntil : Option Nat
  ridesLeft : Nat
  bikesMax : Nat
  lastSerial : Nat
  source : SerialSource
  inFlight : Nat
  deriving DecidableEq, Repr

/-- A deny entry (R42). -/
structure DenyEntry where
  id : Nat
  floor : Option Nat
  deriving DecidableEq, Repr

/-- What the end of a rearrangement does (R34, R30, R32, R44, R45, R84): an ADMIT answer keeps the dock and the
token bytes of the referral it ended. -/
inductive RearrangementWork
  | passInsert (entry : PassEntry)
  | passDelete
  | denyInsert (entry : DenyEntry)
  | denyDelete
  | answerInsert (entry : PassEntry) (d : DockId) (token : List Byte)
  deriving DecidableEq, Repr

/-- A rearrangement in progress: the step it began at and the entries it moves, 1 µs each (R34). -/
structure Rearrangement where
  startedAt : Nat
  moved : Nat
  work : RearrangementWork
  deriving DecidableEq, Repr

/-! ### Admission unit (chapters 3 and 4) -/

/-- The identity settings (R51, R197); the clear mode is held by the event unit. -/
structure Identity where
  group : Nat
  skew : Nat
  referralEnable : Bool
  noticeEnable : Bool
  deriving DecidableEq, Repr

/-- The state of a referral (R78). -/
inductive ReferralState
  | awaitingSend | awaitingAnswer
  deriving DecidableEq, Repr

/-- A referral (R78). `number` is the model's own tag that ties its REFERRAL frame to it (R79; entry 25). -/
structure Referral where
  number : Nat
  dock : DockId
  token : List Byte
  created : Nat
  state : ReferralState
  deriving DecidableEq, Repr

/-! ### Latch scheduler (chapter 5) -/

/-- The supply level (R99). -/
inductive SupplyLevel
  | normal | low | belowFloor
  deriving DecidableEq, Repr

/-- The supply settings S, L and F, the level and the effective slot count (section 5.3). -/
structure Supply where
  slots : Nat
  lowMark : Nat
  floor : Nat
  level : SupplyLevel
  effective : Nat
  deriving DecidableEq, Repr

/-! ### Sense unit (chapter 7) -/

/-- The turn that follows the one in progress (R132). -/
inductive Turn
  | supply | coil
  deriving DecidableEq, Repr

/-- The converter (R132). WAITING holds its channel, the step of its sampling instant once the fixing period
start has come, and whether the channel's activity has changed since then (R136, R140). CONVERTING holds the step
of its sampling instant. -/
inductive Converter
  | idle
  | waiting (d : DockId) (instant : Option Nat) (changed : Bool)
  | convertingSupply (sampledAt : Nat)
  | convertingCoil (d : DockId) (sampledAt : Nat) (changed : Bool)
  deriving DecidableEq, Repr

/-- The kinds of a coil fault report (R144). -/
inductive CoilFault
  | overcurrent | undercurrent
  deriving DecidableEq, Repr

/-- The sense unit's own state (R132), and the fault reports made and not yet taken, oldest first (R145). -/
structure Sense where
  converter : Converter
  nextTurn : Turn
  pointer : Option DockId
  lastSupplyStart : Nat
  latest : Option Code
  reports : List (DockId × CoilFault)
  deriving DecidableEq, Repr

/-! ### Event unit and handler (chapters 8 and 10) -/

/-- The clear mode (R156). -/
inductive ClearMode
  | readClears | clearByRequest
  deriving DecidableEq, Repr

/-- The attention state (R156). -/
inductive Attention
  | armed | owed | sent
  deriving DecidableEq, Repr

/-- The last-duplicate record (R91). -/
structure LastDuplicate where
  passId : Nat
  serial : Nat
  sibling : Address
  deriving DecidableEq, Repr

/-- The event unit (R156). -/
structure Events where
  pending : EventSet
  mask : EventSet
  carried : EventSet
  clearMode : ClearMode
  attention : Attention
  lastDuplicate : Option LastDuplicate
  deriving DecidableEq, Repr

/-- The three marks of the station request handler (R184). -/
structure Marks where
  collect : Bool
  eventRead : Bool
  restart : Bool
  deriving DecidableEq, Repr

/-! ### Link unit (chapter 9) -/

/-- The bit rates: 62.5, 125 and 250 kbit/s (R167). -/
inductive Rate
  | kbit62 | kbit125 | kbit250
  deriving DecidableEq, Repr

/-- The line states of a port (R169). WAITING holds the step at which the recessive count was last 0; RECEIVING
the step of the start bit and, once the frame is judged, its payload length, which tells where it ends; SENDING the
step of the start bit. -/
inductive LineState
  | waiting (countFrom : Nat)
  | idle
  | receiving (since : Nat) (judged : Option Nat)
  | sending (since : Nat)
  deriving DecidableEq, Repr

/-- A frame (R170), less the check that follows from it. -/
structure Frame where
  priority : BitVec 2
  dest : Address
  source : Address
  kind : KindCode
  payload : List Byte
  deriving DecidableEq, Repr

/-- Whom the link unit tells how a frame left (R176); `none` are the frames whose owners do nothing. -/
inductive Owner
  | none
  | referral (number : Nat)
  | collect
  | eventRead
  | restart
  deriving DecidableEq, Repr

/-- A frame of a transmit queue with its owner (R176). -/
structure TxFrame where
  frame : Frame
  owner : Owner
  deriving DecidableEq, Repr

/-- A port (R167). -/
structure Port where
  rate : Rate
  line : LineState
  address : Address
  rx : List Frame
  tx : List TxFrame
  reserved : Nat
  deriving DecidableEq, Repr

/-! ### Settings loader (chapter 11) -/

/-- The load status (R198). -/
inductive LoadStatus
  | loading | complete | error (index : Nat) | absent
  deriving DecidableEq, Repr

/-- The settings loader: status, the record being read, the tag of the record before it, the uptime at which the
transaction began (R196 to R198), and the rates loaded for the two segments (R168). -/
structure Loader where
  status : LoadStatus
  index : Nat
  lastTag : Option Nat
  startedAt : Nat
  stationRate : Rate
  dockRate : Rate
  deriving DecidableEq, Repr

/-! ### The whole state -/

/-- The state of the part. `stopLevel` is the present level of the STOP input, `stopChange` the uptime of its last
change, from which the 1 ms of R105 runs, and `stopAsserted` the STOP state. `straps` are the address straps as last
sampled (R167). The model's own fields are `referralCount`, `pwmPhase` (the step after reset release of
channel 0's first period start, which the spec leaves open, entry 4), `freeCount` (how many free choices have been
read, entry 5) and `pending`, the commands that wait, first in first out. -/
structure State where
  phase : Phase
  clock : Nat
  stationTime : Nat
  timeKnown : Bool
  secondFrom : Nat
  identity : Identity
  keys : Vector (Option (List Byte)) 4
  referrals : List Referral
  referralCount : Nat
  passes : List PassEntry
  denies : List DenyEntry
  rearrangement : Option Rearrangement
  docks : Vector Dock 16
  queue : List Order
  supply : Supply
  stopAsserted : Bool
  stopLevel : Bool
  stopChange : Option Nat
  sense : Sense
  log : List OutcomeRecord
  events : Events
  marks : Marks
  station : Port
  dockPort : Port
  straps : BitVec 3
  loader : Loader
  pwmPhase : Nat
  freeCount : Nat
  pending : List Instr
  deriving DecidableEq, Repr

/-- The part names no condition under which it stops: an illegal frame is discarded or answered (R171, R185) and a
coil or latch fault is a dock state and an event (R119). So no command ends in a fault and this type has no
constructor. -/
inductive Fault
  deriving DecidableEq, Repr

/-- Why a command is refused. -/
inductive Refusal
  /-- Raised by an arm of exec whose command has no meaning yet; safe. No arm of this model raises it. -/
  | notModelled (mnemonic : String)
  /-- Raised by SETTINGS_RECORD_READ and FRAME_RECEIVED for an operand that is not of the row's shape
  (Instr.wellFormed): no record of another length is read (R196) and no port reads more or fewer payload bytes
  than the header's length (R169). Safe: the hardware has no such arrival. -/
  | illFormed (mnemonic : String)
  deriving DecidableEq, Repr

/-! ### Reset values -/

/-- A filter at reset release: the raw level sampled there is the debounced level and no interval runs (R7). -/
def Filter.atReset (raw : Bool) : Filter := ⟨raw, raw, none⟩

/-- A channel after a full reset (R111). -/
def Channel.atReset : Channel := ⟨0, 0, none, .stopped⟩

/-- A sense channel after a full reset (R132). -/
def SenseChannel.atReset : SenseChannel := ⟨.inactive, none, 0⟩

/-- A dock after a full reset with the raw sensor levels at reset release (R1, R7, R26). -/
def Dock.atReset (bikeRaw latchRaw : Bool) : Dock where
  state := .service
  fault := some .unconfigured
  bikeId := none
  reservation := none
  boundPass := none
  boundSerial := none
  origin := none
  returnTimer := .stopped
  pendingReturn := none
  profile := .default
  configured := false
  bike := .atReset bikeRaw
  latch := .atReset latchRaw
  order := none
  chan := .atReset
  sense := .atReset

/-- A port after a full reset (R167). -/
def Port.atReset (address : Address) : Port := ⟨.kbit125, .waiting 0, address, [], [], 0⟩

/-- The supply settings and level after a full reset (R98, section 5.3). -/
def Supply.atReset : Supply := ⟨2, 200, 150, .normal, 2⟩

/-- The sense unit after a full reset: a supply turn begins at reset release (R132, R134). -/
def Sense.atReset : Sense := ⟨.convertingSupply 0, .coil, none, 0, none, []⟩

/-- The event unit after a full reset (R156). -/
def Events.atReset : Events := ⟨0, 0, 0, .readClears, .armed, none⟩

/-- The loader after a full reset (R194, R196). -/
def Loader.atReset : Loader := ⟨.loading, 0, none, 0, .kbit125, .kbit125⟩

/-- A full reset at reset release (R194), with the pin levels sampled there: straps (R167), STOP (R105) and the
raw sensor levels of the docks (R7). `phase`, `pwmPhase` and `freeCount` are the model's own, and the commands
that wait are outside the part. -/
def State.afterReset (straps : BitVec 3) (stop : Bool) (docks : Vector Dock 16)
    (pwmPhase freeCount : Nat) (pending : List Instr) : State where
  phase := .starting
  clock := 0
  stationTime := 0
  timeKnown := false
  secondFrom := 0
  identity := ⟨0, 30, true, true⟩
  keys := Vector.replicate 4 none
  referrals := []
  referralCount := 0
  passes := []
  denies := []
  rearrangement := none
  docks := docks
  queue := []
  supply := .atReset
  stopAsserted := stop
  stopLevel := stop
  stopChange := none
  sense := .atReset
  log := []
  events := .atReset
  marks := ⟨false, false, false⟩
  station := .atReset (stationAddress straps)
  dockPort := .atReset 1
  straps := straps
  loader := .atReset
  pwmPhase := pwmPhase
  freeCount := freeCount
  pending := pending

/-- The part right after reset release, in STARTING (R194). The pins are inputs: DESIGN CHOICE (entry 3), straps 0,
STOP released, every sensor LOW. DESIGN CHOICE (entries 4, 5): pwmPhase and freeCount 0. -/
def State.reset : State :=
  .afterReset 0 false (Vector.replicate 16 (.atReset false false)) 0 0 []

end Sys2Proof.Machine
end

