-- ==== Sys2Proof/Machine/Ops.lean ====
section
/-! DEFINITION. The named operations over the state's parts: the clock, docks, ports, pass entries and free
choices. Every meaning is written over these. -/

namespace Sys2Proof.Machine

/-! ### Time (R48, R112) -/

/-- One unit of uptime, 0.1 ms, is 2,048 steps of 1/20.48 MHz (R48, R112). -/
def stepsPerCount : Nat := 2048

/-- Uptime: the count of whole 0.1 ms units, the fraction dropped (R48). -/
def State.uptime (s : State) : Nat := s.clock / stepsPerCount

/-- The clock at `n` steps, or where it stands if that is later: an arrival due at `n` is taken there (entry 1). -/
def State.advanceTo (s : State) (n : Nat) : State := { s with clock := max s.clock n }

/-- The clock at the uptime count at which a timer expires (R48; entry 1). -/
def State.advanceToCount (s : State) (count : Nat) : State := s.advanceTo (count * stepsPerCount)

/-- The steps that have begun when `n` µs have passed: 1 µs is 512/25 steps of 1/20.48 MHz. -/
def microSteps (n : Nat) : Nat := (n * 512 + 24) / 25

/-- What an idle step does (entry 1): uptime counts on, to the next 0.1 ms; held in reset it does not run (R48). -/
def State.tick (s : State) : State :=
  match s.phase with
  | .inReset => s
  | _ => { s with clock := (s.uptime + 1) * stepsPerCount }

/-- The present station time, absent while time is not known (R49). -/
def State.now (s : State) : Option Nat := if s.timeKnown then some s.stationTime else none

/-- A command's effect, which a part held in reset does not have (R194; entry 14). -/
def State.unlessReset (s : State) (effect : State → State) : State :=
  match s.phase with
  | .inReset => s
  | _ => effect s

/-! ### Docks -/

/-- The record of dock `d` (R1). -/
def State.dock (s : State) (d : DockId) : Dock := s.docks[d.val]

/-- Dock `d` changed by `f`, every other dock as it was. -/
def State.modDock (s : State) (d : DockId) (f : Dock → Dock) : State :=
  { s with docks := s.docks.set d.val (f (s.dock d)) }

/-- In flight: QUEUED, PULLING, OPEN or CLOSING (section 1.2). -/
def DockState.inFlight : DockState → Bool
  | .queued | .pulling | .opened | .closing => true
  | _ => false

/-- A dock in flight (section 1.2). -/
def Dock.inFlight (k : Dock) : Bool := k.state.inFlight

/-- The number of docks in flight (section 1.2). -/
def State.inFlight (s : State) : Nat := s.docks.countP Dock.inFlight

/-- The number of docks in PULLING (R102). -/
def State.pullingCount (s : State) : Nat := s.docks.countP fun k => k.state == .pulling

/-- The docks of the row in ascending order. -/
def allDocks : List DockId := List.finRange 16

/-- The numbered dock, absent above 15 (R20, R57). -/
def dockOf (n : Nat) : Option DockId := if h : n < 16 then some ⟨n, h⟩ else none

/-! ### Inputs that must hold (R4, R5, R105) -/

/-- The capture timestamp of the edge to `level` that the filter is to deliver: the raw level stands at `level` and
differs from the debounced one (R4). With none, no such edge can come. -/
def Filter.edgeTo (f : Filter) (level : Bool) : Option Nat :=
  if f.raw = level ∧ f.level ≠ level then f.lastChange else none

/-! ### Ports (R167, R177) -/

/-- The port of a segment. -/
def State.port (s : State) : PortId → Port
  | .station => s.station
  | .dock => s.dockPort

/-- Port `p` changed by `f`. -/
def State.modPort (s : State) (p : PortId) (f : Port → Port) : State :=
  match p with
  | .station => { s with station := f s.station }
  | .dock => { s with dockPort := f s.dockPort }

/-- The free slots of a transmit queue: 8 less the frames held and the reserved count (R177). -/
def Port.free (q : Port) : Nat := 8 - q.tx.length - q.reserved

/-- A frame joins the queue at its tail (R173). -/
def Port.push (q : Port) (t : TxFrame) : Port := { q with tx := q.tx ++ [t] }

/-- A frame queued into its reservation (R177). -/
def Port.pushReserved (q : Port) (t : TxFrame) : Port :=
  { q with tx := q.tx ++ [t], reserved := q.reserved - 1 }

/-- A slot reserved at an acknowledgment (R177, R178). -/
def Port.reserve (q : Port) : Port := { q with reserved := q.reserved + 1 }

/-- A frame placed at the tail of the receive buffer (R179). -/
def Port.place (q : Port) (f : Frame) : Port := { q with rx := q.rx ++ [f] }

/-- The head frame leaves the receive buffer (R179). -/
def Port.popRx (q : Port) : Port := { q with rx := q.rx.tail }

/-- A frame that needs a free slot is queued if there is one and not queued if there is none (R177). -/
def State.offer (s : State) (p : PortId) (t : TxFrame) : State :=
  if (s.port p).free = 0 then s else s.modPort p (·.push t)

/-- A bit time in µs (R168). -/
def Rate.bitMicros : Rate → Nat
  | .kbit62 => 16
  | .kbit125 => 8
  | .kbit250 => 4

/-- The step at which `n` bit times from step `since` have passed. -/
def Port.bitsAfter (q : Port) (since n : Nat) : Nat := since + microSteps (n * q.rate.bitMicros)

/-- The recessive count of a port in WAITING: the whole bit times since it was last 0, up to 11 (R167, R169). -/
def State.recessiveCount (s : State) (p : PortId) : Nat :=
  match (s.port p).line with
  | .waiting from_ => min 11 ((s.clock - from_) * 25 / (512 * (s.port p).rate.bitMicros))
  | _ => 0

/-! ### Pass entries (R28) -/

/-- A lookup: the entry whose pass id is `id`, if one is present (R28). -/
def State.findPass (s : State) (id : Nat) : Option PassEntry := s.passes.find? fun e => e.id == id

/-- The entry with pass id `id`, if present, changed by `f`. -/
def State.modPass (s : State) (id : Nat) (f : PassEntry → PassEntry) : State :=
  { s with passes := s.passes.map fun e => if e.id = id then f e else e }

/-- The deny entry whose pass id is `id`, if one is present (R43). -/
def State.findDeny (s : State) (id : Nat) : Option DenyEntry := s.denies.find? fun e => e.id == id

/-- The pass store is busy while a rearrangement is in progress (R34). -/
def State.busy (s : State) : Bool := s.rearrangement.isSome

/-! ### The referral of a dock (R78) -/

/-- The referral outstanding at a dock, if there is one (R78). -/
def State.referralAt (s : State) (d : DockId) : Option Referral := s.referrals.find? fun r => r.dock == d

/-! ### The order of a dock (R92) -/

/-- The order held with the dock record or in the latch queue for the dock (R92). -/
def State.orderAt (s : State) (d : DockId) : Option Order :=
  match (s.dock d).order with
  | some o => some o
  | none => s.queue.find? fun o => o.dock == d

/-- The order held with dock `d` changed by `f` (R92: the drive unit writes the flag, the mark and the throw time). -/
def Dock.modOrder (k : Dock) (f : Order → Order) : Dock := { k with order := k.order.map f }

/-! ### Free choices (Config.freeIndex; entry 5) -/

/-- The free value numbered `k` from the present count. -/
def State.free (s : State) (k : Nat) : Nat := Config.freeIndex (s.freeCount + k)

/-- `k` free values have been read. -/
def State.spendFree (s : State) (k : Nat) : State := { s with freeCount := s.freeCount + k }

/-- `x` placed in a list at an index that a free value gives. -/
def insertFree {α : Type} (n : Nat) (x : α) (ys : List α) : List α :=
  ys.take (n % (ys.length + 1)) ++ x :: ys.drop (n % (ys.length + 1))

/-- A list in an arbitrary order, by the free values from number `k` on. -/
def arrangeFree {α : Type} (free : Nat → Nat) : Nat → List α → List α
  | _, [] => []
  | _, [x] => [x]
  | k, x :: xs => insertFree (free k) x (arrangeFree free (k + 1) xs)

/-- Two lists interleaved arbitrarily, each in its own order, by the free values from number `k` on. -/
def mergeFree {α : Type} (free : Nat → Nat) : Nat → List α → List α → List α
  | _, xs, [] => xs
  | _, [], ys => ys
  | k, x :: xs, ys =>
    ys.take (free k % (ys.length + 1)) ++ x :: mergeFree free (k + 1) xs (ys.drop (free k % (ys.length + 1)))

end Sys2Proof.Machine
end

