-- ==== Sys2Proof/Machine/Operands.lean ====
section
/-! DEFINITION. The operand fields of frame payloads and settings records (R200, chapter 12), the check of a frame
(R170) and the check code of a token (R53). -/

namespace Sys2Proof.Machine

/-! ### Bytes and numbers, most significant byte first (00 section 5) -/

/-- The number a list of bytes spells, most significant byte first. -/
def numberOf (bs : List Byte) : Nat := bs.foldl (fun n b => n * 256 + b.toNat) 0

/-- `n` in `k` bytes, most significant byte first. -/
def bytesOf : Nat → Nat → List Byte
  | 0, _ => []
  | k + 1, n => BitVec.ofNat 8 (n / 256 ^ k) :: bytesOf k n

/-- The field of `size` bytes at offset `off` of a payload (chapter 12). -/
def fieldAt (p : List Byte) (off size : Nat) : Nat := numberOf ((p.drop off).take size)

/-- A field in which 0 stands for absence (00 section 5). -/
def optionalField (n : Nat) : Option Nat := if n = 0 then none else some n

/-- `x` clamped to lo to hi (00 section 5). -/
def clamp (lo hi x : Nat) : Nat := max lo (min hi x)

/-! ### Cyclic checks, most significant bit first (R53, R170) -/

/-- The bits of a byte, most significant first. -/
def byteBits (b : Byte) : List Bool :=
  [b.getLsbD 7, b.getLsbD 6, b.getLsbD 5, b.getLsbD 4, b.getLsbD 3, b.getLsbD 2, b.getLsbD 1, b.getLsbD 0]

/-- One bit taken into a CRC register. -/
def crcBit {w : Nat} (poly r : BitVec w) (b : Bool) : BitVec w :=
  if (r.msb ^^ b) then (r <<< 1) ^^^ poly else r <<< 1

/-- The CRC of a list of bytes, before any final complement. -/
def crc {w : Nat} (poly init : BitVec w) (bs : List Byte) : BitVec w :=
  (bs.flatMap byteBits).foldl (crcBit poly) init

/-- The check of a frame over its header and payload bytes: polynomial 0x1021, initial value 0xFFFF, no final
complement (R170). -/
def frameCheck (bs : List Byte) : BitVec 16 := crc 0x1021#16 0xFFFF#16 bs

/-- The check code over the key and the 15 token bytes: polynomial 0x04C11DB7, initial value 0xFFFFFFFF, the final
value complemented (R53). -/
def checkCode (key tokenBytes : List Byte) : Nat :=
  (~~~ crc 0x04C11DB7#32 0xFFFFFFFF#32 (key ++ tokenBytes)).toNat

/-! ### Frames on the line (R170) -/

/-- The four header bytes as one 32-bit number (section 12.1). -/
def Frame.header (f : Frame) : BitVec 32 :=
  f.priority ++ f.dest ++ 0#2 ++ f.source ++ 0#2 ++ f.kind ++ 0#2 ++ BitVec.ofNat 6 f.payload.length

/-- Header bytes 0 and 1 as one 16-bit number, which arbitration compares (R172). -/
def Frame.arbitration (f : Frame) : BitVec 16 := f.header.extractLsb' 16 16

/-- The check the part sends with a frame (R170). -/
def Frame.check (f : Frame) : BitVec 16 := frameCheck (bytesOf 4 f.header.toNat ++ f.payload)

/-- The frame a port reads from header, payload and check, if it is well formed: reserved bits 0, length at most
32, and the check equal to the one computed over what was received (R171). -/
def receivedFrame (header : BitVec 32) (payload : List Byte) (check : BitVec 16) : Option Frame :=
  if headerHasNoEnd header || check != frameCheck (bytesOf 4 header.toNat ++ payload) then none
  else some ⟨headerPriority header, headerDest header, headerSource header, headerKind header, payload⟩

/-- The bit times of a frame of `n` payload bytes, from its start bit to its last end bit (R170). -/
def frameBits (n : Nat) : Nat := 57 + 8 * n

/-- The bit times up to the last check bit: the start bit, 4 header bytes, the payload and 2 check bytes (R170). -/
def checkBits (n : Nat) : Nat := 49 + 8 * n

/-! ### Kind codes (section 12.1) -/

/-- The kind codes of section 12.1. -/
inductive Kind
  | tap | bikeId | verdict | result | message
  | passWrite | passDelete | passRead | denyWrite | denyDelete | keyWrite | keyClear | timeSet | dockCommand
  | profileWrite | supplyWrite | referralAnswer | collect | eventRead | eventClear | eventMask | eventForce
  | statusRead | stopAll | restart | notice | reply | referral | attention
  deriving DecidableEq, Repr

/-- The code of a kind (section 12.1). -/
def Kind.code : Kind → KindCode
  | .tap => 0x01 | .bikeId => 0x02 | .verdict => 0x03 | .result => 0x04 | .message => 0x05
  | .passWrite => 0x10 | .passDelete => 0x11 | .passRead => 0x12 | .denyWrite => 0x13 | .denyDelete => 0x14
  | .keyWrite => 0x15 | .keyClear => 0x16 | .timeSet => 0x17 | .dockCommand => 0x18 | .profileWrite => 0x19
  | .supplyWrite => 0x1A | .referralAnswer => 0x1B | .collect => 0x1C | .eventRead => 0x1D | .eventClear => 0x1E
  | .eventMask => 0x1F | .eventForce => 0x20 | .statusRead => 0x21 | .stopAll => 0x22 | .restart => 0x23
  | .notice => 0x24 | .reply => 0x28 | .referral => 0x29 | .attention => 0x2A

/-- The kinds of the station requests the handler takes, REFERRAL_ANSWER among the requests but taken by the
admission unit (R184, section 10.5). -/
def requestKinds : List Kind :=
  [.passWrite, .passDelete, .passRead, .denyWrite, .denyDelete, .keyWrite, .keyClear, .timeSet, .dockCommand,
   .profileWrite, .supplyWrite, .referralAnswer, .collect, .eventRead, .eventClear, .eventMask, .eventForce,
   .statusRead, .stopAll, .restart]

/-- A broadcast frame, sent to destination 0 (R171). -/
def Frame.isBroadcast (f : Frame) : Bool := f.dest == 0

/-- An addressed frame of kind `k`. -/
def Frame.isAddressed (f : Frame) (k : Kind) : Bool := !f.isBroadcast && f.kind == k.code

/-- A broadcast frame of kind `k`. -/
def Frame.isBroadcastOf (f : Frame) (k : Kind) : Bool := f.isBroadcast && f.kind == k.code

/-- The priority of the REPLY to a request of a kind (R172): 3 for the table, key, profile and supply writes and
COLLECT, 2 for every other. -/
def replyPriority (kind : KindCode) : BitVec 2 :=
  if kind ∈ [Kind.passWrite, .passDelete, .denyWrite, .denyDelete, .keyWrite, .keyClear, .profileWrite,
      .supplyWrite, .collect].map Kind.code then 3 else 2

/-! ### Dock segment payloads (section 12.2) -/

/-- The token fields of a TAP payload (R52). -/
structure Token where
  dock : Nat
  passId : Nat
  keySlot : Nat
  serial : Nat
  issueTime : Nat
  lifetime : Nat
  scope : Nat
  check : Nat
  deriving DecidableEq, Repr

/-- The token fields at their offsets (section 12.2). -/
def tokenOf (p : List Byte) : Token where
  dock := fieldAt p 0 1
  passId := fieldAt p 1 4
  keySlot := fieldAt p 5 1
  serial := fieldAt p 6 2
  issueTime := fieldAt p 8 4
  lifetime := fieldAt p 12 2
  scope := fieldAt p 14 2
  check := fieldAt p 16 4

/-- The 15 token bytes, pass id through scope, over which the check code is computed (R53). -/
def tokenBytes (p : List Byte) : List Byte := (p.drop 1).take 15

/-! ### Station segment payloads (section 12.3) -/

/-- The class a code names: RIDER 1, STAFF 2 (section 12.3). -/
def classOf : Nat → Option PassClass
  | 1 => some .rider
  | 2 => some .staff
  | _ => none

/-- The entry fields written by PASS_WRITE and by an ADMIT answer: class, valid from, valid until, rides left,
bikes max and last serial in 14 bytes from offset `off`; bikes max is clamped to 1 to 4 and the last serial's
source is WRITTEN (R29, R30, R84). The in-flight count is computed at the insert. -/
def writtenEntry (id : Nat) (cls : PassClass) (p : List Byte) (off : Nat) : PassEntry where
  id := id
  cls := cls
  validFrom := fieldAt p (off + 1) 4
  validUntil := optionalField (fieldAt p (off + 5) 4)
  ridesLeft := fieldAt p (off + 9) 2
  bikesMax := clamp 1 4 (fieldAt p (off + 11) 1)
  lastSerial := fieldAt p (off + 12) 2
  source := .written
  inFlight := 0

/-- Valid until is present and less than valid from (R29, R83). -/
def PassEntry.datesCrossed (e : PassEntry) : Bool :=
  match e.validUntil with
  | some u => u < e.validFrom
  | none => false

/-- The six profile bytes from offset `off`, clamped, the hold setting then to at most the pull-in setting as
clamped (R187). -/
def profileOf (p : List Byte) (off : Nat) : Profile :=
  let pullIn := clamp 60 240 (fieldAt p off 1)
  { pullIn := pullIn
    hold := min pullIn (clamp 20 240 (fieldAt p (off + 1) 1))
    maxPullIn := clamp 10 125 (fieldAt p (off + 2) 1)
    holdTime := clamp 5 120 (fieldAt p (off + 3) 1)
    iMax := clamp 1 255 (fieldAt p (off + 4) 1)
    iMin := clamp 0 255 (fieldAt p (off + 5) 1) }

/-- The supply settings in 5 bytes from offset `off`, clamped, F against L as clamped (R189). -/
def supplySettingsOf (p : List Byte) (off : Nat) (u : Supply) : Supply :=
  let lowMark := clamp 60 400 (fieldAt p (off + 1) 2)
  { u with
    slots := clamp 1 4 (fieldAt p off 1)
    lowMark := lowMark
    floor := clamp 50 (lowMark - 5) (fieldAt p (off + 3) 2) }

/-- An event set of 2 bytes, absent if a bit of 12 to 15 is set: it then names a position outside the twelve
kinds (R161, R162, R200). -/
def eventSetOf (p : List Byte) : Option EventSet :=
  if fieldAt p 0 2 < 4096 then some (BitVec.ofNat 12 (fieldAt p 0 2)) else none

/-- The delta of a NOTICE, one signed byte: 0xFF is −1, 0x00 is 0 and 0x01 is +1; any other is none (R89, R200). -/
def deltaOf (p : List Byte) : Option Int :=
  match fieldAt p 6 1 with
  | 0 => some 0
  | 1 => some 1
  | 255 => some (-1)
  | _ => none

/-- The five dock commands (section 12.3). -/
inductive DockCommand
  | staffUnlock | setService | clearService | reserve | cancelReserve
  deriving DecidableEq, Repr

/-- The command a code names (section 12.3). -/
def dockCommandOf : Nat → Option DockCommand
  | 1 => some .staffUnlock
  | 2 => some .setService
  | 3 => some .clearService
  | 4 => some .reserve
  | 5 => some .cancelReserve
  | _ => none

/-- The payload length of a named dock command: 10 for RESERVE, 2 for the others (R185). -/
def DockCommand.length : DockCommand → Nat
  | .reserve => 10
  | _ => 2

end Sys2Proof.Machine
end

