-- ==== Sys2Proof/Machine/Formats.lean ====
section
/-! DEFINITION. The codes and payloads the part sends (chapter 12), and the queueing of a VERDICT, RESULT, NOTICE
and REPLY. -/

namespace Sys2Proof.Machine

/-! ### Code tables (chapter 12) -/

/-- The verdicts (R72). -/
inductive Verdict
  | admitted | pending | stopped | dockService | dockEmpty | dockNotReady | dockBusy | reserved | stationBusy
  | badToken | wrongStation | revoked | unknownPass | busy | timeUnknown | expired | passNotValid | tokenUsed
  | noRides | limit | refusedByStation | noAnswer
  deriving DecidableEq, Repr

/-- The verdict codes (section 12.2); 11 is not used. -/
def Verdict.code : Verdict → Nat
  | .admitted => 1 | .pending => 2 | .stopped => 3 | .dockService => 4 | .dockEmpty => 5 | .dockNotReady => 6
  | .dockBusy => 7 | .reserved => 8 | .stationBusy => 9 | .badToken => 10 | .wrongStation => 12 | .revoked => 13
  | .unknownPass => 14 | .busy => 15 | .timeUnknown => 16 | .expired => 17 | .passNotValid => 18
  | .tokenUsed => 19 | .noRides => 20 | .limit => 21 | .refusedByStation => 22 | .noAnswer => 23

/-- The statuses of a REPLY (R186). -/
inductive Status
  | ok | tableFull | notFound | badValue | badState | dockFault | logFull | noReferral | busyCollect | empty
  | badKind | badLength
  deriving DecidableEq, Repr

/-- The status codes (section 12.4). -/
def Status.code : Status → Nat
  | .ok => 0 | .tableFull => 1 | .notFound => 2 | .badValue => 3 | .badState => 4 | .dockFault => 5
  | .logFull => 6 | .noReferral => 7 | .busyCollect => 8 | .empty => 9 | .badKind => 10 | .badLength => 11

/-- The reason codes (section 12.2). -/
def Reason.code : Reason → Nat
  | .supplyTimeout => 1 | .latchJam => 2 | .noOpenLowSupply => 3 | .overcurrent => 4 | .undercurrent => 5
  | .abortedStop => 6 | .abortedService => 7 | .tampered => 8

/-- The result codes (section 12.2); `opened` is OPEN. -/
inductive LatchResult
  | opened | closed | failed
  deriving DecidableEq, Repr

/-- OPEN 1, CLOSED 2, FAILED 3 (section 12.2). -/
def LatchResult.code : LatchResult → Nat
  | .opened => 1 | .closed => 2 | .failed => 3

/-- The dock state codes (section 12.4). -/
def DockState.code : DockState → Nat
  | .vacant => 0 | .loose => 1 | .parked => 2 | .reserved => 3 | .queued => 4 | .pulling => 5 | .opened => 6
  | .closing => 7 | .service => 8

/-- The class codes (section 12.3). -/
def PassClass.code : PassClass → Nat
  | .rider => 1 | .staff => 2

/-- The last serial source codes (section 12.4). -/
def SerialSource.code : SerialSource → Nat
  | .localUse => 1 | .notice => 2 | .written => 3

/-- The outcome kind codes (R201). -/
def OutcomeKind.code : OutcomeKind → Nat
  | .rideStart => 1 | .notTaken => 2 | .unlockFailed => 3 | .returned => 4

/-- The origin codes (R201). -/
def Origin.code : Origin → Nat
  | .rider => 1 | .referred => 2 | .staff => 3

/-- The supply level codes (section 12.4). -/
def SupplyLevel.code : SupplyLevel → Nat
  | .normal => 0 | .low => 1 | .belowFloor => 2

/-- The clear mode codes (section 12.4). -/
def ClearMode.code : ClearMode → Nat
  | .readClears => 0 | .clearByRequest => 1

/-- The load status codes (section 12.4). LOADING is never reported (R198); it has no code there, and 0 stands here
for it (DESIGN CHOICE, entry 22). -/
def LoadStatus.code : LoadStatus → Nat
  | .loading => 0 | .complete => 1 | .error _ => 2 | .absent => 3

/-- The record index reported, 0 unless ERROR (section 12.4). -/
def LoadStatus.index : LoadStatus → Nat
  | .error i => i
  | _ => 0

/-- Bit `n` of a byte, set when `b` holds. -/
def flagBit (n : Nat) (b : Bool) : Nat := if b then 2 ^ n else 0

/-! ### Payloads (R200, R201) -/

/-- The 26 bytes of an outcome record (R201). -/
def OutcomeRecord.bytes (r : OutcomeRecord) : List Byte :=
  bytesOf 1 r.kind.code ++ bytesOf 1 r.origin.code ++ bytesOf 1 r.dock.val ++ bytesOf 4 (r.passId.getD 0)
    ++ bytesOf 2 (r.serial.getD 0) ++ bytesOf 4 (r.admitTime.getD 0) ++ bytesOf 4 (r.endTime.getD 0)
    ++ bytesOf 2 (r.throwTime.getD 0) ++ bytesOf 4 (r.bikeId.getD 0)
    ++ bytesOf 1 ((r.reason.map Reason.code).getD 0)
    ++ bytesOf 1 (flagBit 0 r.underdriven + flagBit 1 r.refundApplied + flagBit 2 r.timeUnknown)
    ++ bytesOf 1 (flagBit 0 r.admitTime.isSome + flagBit 1 r.endTime.isSome + flagBit 2 r.throwTime.isSome)

/-- The 20 bytes of a pass entry in a PASS_READ reply (section 12.4). -/
def PassEntry.bytes (e : PassEntry) : List Byte :=
  bytesOf 4 e.id ++ bytesOf 1 e.cls.code ++ bytesOf 4 e.validFrom ++ bytesOf 4 (e.validUntil.getD 0)
    ++ bytesOf 2 e.ridesLeft ++ bytesOf 1 e.bikesMax ++ bytesOf 2 e.lastSerial ++ bytesOf 1 e.source.code
    ++ bytesOf 1 e.inFlight

/-- The present states of SUPPLY_LOW (bit 0) and SUPPLY_FLOOR (bit 1): functions of the level (R100). -/
def SupplyLevel.presentStates (l : SupplyLevel) : Nat :=
  flagBit 0 (l != .normal) + flagBit 1 (l == .belowFloor)

/-- The items of an EVENT_READ reply after its status (R158, section 12.4). -/
def State.eventReport (s : State) : List Byte :=
  bytesOf 2 s.events.pending.toNat ++ bytesOf 2 s.events.mask.toNat ++ bytesOf 1 s.supply.level.presentStates
    ++ bytesOf 1 s.events.clearMode.code ++ bytesOf 1 (flagBit 0 s.events.lastDuplicate.isSome)
    ++ bytesOf 4 ((s.events.lastDuplicate.map (·.passId)).getD 0)
    ++ bytesOf 2 ((s.events.lastDuplicate.map (·.serial)).getD 0)
    ++ bytesOf 1 ((s.events.lastDuplicate.map (·.sibling.toNat)).getD 0)

/-- The dock states, two per byte, the even dock in the high half (section 12.4). -/
def dockStateBytes : List Dock → List Byte
  | a :: b :: rest => BitVec.ofNat 8 (a.state.code * 16 + b.state.code) :: dockStateBytes rest
  | _ => []

/-- The items of a STATUS_READ reply after its status (R190, section 12.4). -/
def State.statusReport (s : State) : List Byte :=
  bytesOf 1 s.station.address.toNat ++ bytesOf 2 s.identity.group ++ dockStateBytes s.docks.toList
    ++ bytesOf 1 s.queue.length ++ bytesOf 1 s.log.length ++ bytesOf 1 s.supply.level.code
    ++ bytesOf 2 ((s.sense.latest.map BitVec.toNat).getD 0) ++ bytesOf 1 s.supply.effective
    ++ bytesOf 1 (flagBit 0 s.timeKnown) ++ bytesOf 1 s.loader.status.code ++ bytesOf 1 s.loader.status.index
    ++ bytesOf 2 s.passes.length ++ bytesOf 2 s.denies.length

/-! ### Frames the part queues (R172) -/

/-- The reader of dock `d`, at address 16 plus the dock number (section 9.3). -/
def readerOf (d : DockId) : Address := 16#6 + BitVec.ofNat 6 d.val

/-- A frame the part sends on port `p`: its source is the port's own address (R172). -/
def State.frameFrom (s : State) (p : PortId) (priority : BitVec 2) (dest : Address) (k : Kind)
    (payload : List Byte) : Frame := ⟨priority, dest, (s.port p).address, k.code, payload⟩

/-- A VERDICT queued on the dock port, or discarded if no slot is free (R72, R73). -/
def State.verdict (s : State) (dest : Address) (dock passId serial : Nat) (v : Verdict) (reason : Nat) : State :=
  s.offer .dock ⟨s.frameFrom .dock 1 dest .verdict
    (bytesOf 1 dock ++ bytesOf 4 passId ++ bytesOf 2 serial ++ bytesOf 1 v.code ++ bytesOf 1 reason), .none⟩

/-- A RESULT queued to the dock's reader, or discarded if no slot is free (R131). -/
def State.result (s : State) (d : DockId) (r : LatchResult) (reason : Nat) : State :=
  s.offer .dock ⟨s.frameFrom .dock 1 (readerOf d) .result
    (bytesOf 1 d.val ++ bytesOf 1 r.code ++ bytesOf 1 reason), .none⟩

/-- The byte of a delta (R200). -/
def deltaByte (delta : Int) : Byte := BitVec.ofInt 8 delta

/-- A NOTICE broadcast to the siblings when notices are enabled, or discarded if no slot is free (R74, R109). -/
def State.sendNotice (s : State) (passId serial : Nat) (delta : Int) : State :=
  if s.identity.noticeEnable then
    s.offer .station ⟨s.frameFrom .station 2 0 .notice (bytesOf 4 passId ++ bytesOf 2 serial ++ [deltaByte delta]),
      .none⟩
  else s

/-- The REPLY to the request at the head of the station receive buffer, queued into its reservation; the request
then leaves the buffer (R184, R186). -/
def State.replyWith (s : State) (status : Status) (data : List Byte) (owner : Owner) : State :=
  match s.station.rx with
  | [] => s
  | f :: _ =>
    s.modPort .station fun q => (q.popRx).pushReserved
      ⟨s.frameFrom .station (replyPriority f.kind) f.source .reply (bytesOf 1 status.code ++ data), owner⟩

/-- A REPLY that carries its status alone (R186). -/
def State.reply (s : State) (status : Status) : State := s.replyWith status [] .none

end Sys2Proof.Machine
end

