-- ==== Sys2Proof/Machine/Flags.lean ====
section
/-! DEFINITION. The event unit: latching, the ATTENTION rule (sections 8.5 to 8.7), and the outcome log with its
pending return slots (sections 8.1 to 8.3). -/

namespace Sys2Proof.Machine

/-- The event kinds (section 8.5). -/
inductive EventKind
  | bikeRemoved | bikeReturned | latchFault | tamper | supplyLow | supplyFloor | logHigh | logOverrun
  | duplicateUse | loadError | referralTimeout | reservationExpired
  deriving DecidableEq, Repr

/-- The number of a kind (section 8.5). -/
def EventKind.number : EventKind → Nat
  | .bikeRemoved => 0 | .bikeReturned => 1 | .latchFault => 2 | .tamper => 3 | .supplyLow => 4 | .supplyFloor => 5
  | .logHigh => 6 | .logOverrun => 7 | .duplicateUse => 8 | .loadError => 9 | .referralTimeout => 10
  | .reservationExpired => 11

/-- The set that holds one kind. -/
def EventKind.bit (k : EventKind) : EventSet := BitVec.twoPow 12 k.number

/-- The unmasked pending set (R163). -/
def Events.unmasked (e : Events) : EventSet := e.pending &&& ~~~e.mask

/-- The ATTENTION frame: to the station controller at priority 2, with the unmasked pending set (R163). -/
def State.attentionFrame (s : State) : TxFrame :=
  ⟨s.frameFrom .station 2 1 .attention (bytesOf 2 s.events.unmasked.toNat), .none⟩

/-- The attention state becomes `a`. -/
def State.setAttention (s : State) (a : Attention) : State := { s with events := { s.events with attention := a } }

/-- The ATTENTION rule, by the table of R163. -/
def State.attend (s : State) : State :=
  match s.events.attention with
  | .armed =>
    if s.events.unmasked = 0 then s
    else if s.station.free = 0 then s.setAttention .owed
    else (s.offer .station s.attentionFrame).setAttention .sent
  | .owed | .sent => if s.events.unmasked = 0 then s.setAttention .armed else s

/-- A departure of a frame from the station transmit queue, at the event unit in the OWED state (R164). -/
def State.attendOwed (s : State) : State :=
  match s.events.attention with
  | .owed =>
    if s.events.unmasked = 0 ∨ s.station.free = 0 then s
    else (s.offer .station s.attentionFrame).setAttention .sent
  | _ => s

/-- Kinds join the pending set and leave the carried set (R157). -/
def State.addPending (s : State) (kinds : EventSet) : State :=
  { s with events := { s.events with
      pending := s.events.pending ||| kinds, carried := s.events.carried &&& ~~~kinds } }

/-- The ATTENTION rule is applied in RUNNING and not in STARTING (R166). -/
def State.attendIfRunning (s : State) : State :=
  match s.phase with
  | .running => s.attend
  | _ => s

/-- A set of kinds latches at once, the ATTENTION rule applied after (R157, R162). -/
def State.latchSet (s : State) (kinds : EventSet) : State := (s.addPending kinds).attendIfRunning

/-- An event latches (R157). -/
def State.latch (s : State) (k : EventKind) : State := s.latchSet k.bit

/-- Kinds leave the pending set (R159, R161). -/
def State.removePending (s : State) (kinds : EventSet) : State :=
  { s with events := { s.events with pending := s.events.pending &&& ~~~kinds } }

/-! ### The outcome log (R146, R149 to R153) -/

/-- The sum of R149: the log count plus the number of docks in flight. -/
def State.logSum (s : State) : Nat := s.log.length + s.inFlight

/-- The room test: there is room for one more order when the sum is at most 63 (R149). -/
def State.roomForOrder (s : State) : Bool := s.logSum ≤ 63

/-- A record is appended at the tail of the log (R146). -/
def State.appendLog (s : State) (r : OutcomeRecord) : State := { s with log := s.log ++ [r] }

/-- LOG_HIGH latches when a record has raised the log count from 47 to 48 (R153). -/
def State.testLogHigh (s : State) : State := if s.log.length = 48 then s.latch .logHigh else s

/-- An order's record enters the log (R150). -/
def State.logOrder (s : State) (r : OutcomeRecord) : State := (s.appendLog r).testLogHigh

/-- A RETURN record enters the log: it is appended, BIKE_RETURNED latches and LOG_HIGH is tested (R151, R152). -/
def State.logReturn (s : State) (r : OutcomeRecord) : State := ((s.appendLog r).latch .bikeReturned).testLogHigh

/-- A RETURN record handed to the log unit: into the log if the sum is below 64, else into the dock's pending
return slot, with LOG_OVERRUN if it replaces a record held there (R151). -/
def State.handOverReturn (s : State) (d : DockId) (r : OutcomeRecord) : State :=
  if s.logSum < 64 then s.logReturn r
  else if (s.dock d).pendingReturn.isSome then
    (s.modDock d fun k => { k with pendingReturn := some r }).latch .logOverrun
  else s.modDock d fun k => { k with pendingReturn := some r }

/-- The lowest-numbered dock whose pending return slot is occupied (R152). -/
def State.firstPendingReturn (s : State) : Option (DockId × OutcomeRecord) :=
  allDocks.findSome? fun d => (s.dock d).pendingReturn.map fun r => (d, r)

/-- A pending return slot is drained when a record leaves the log (R152). -/
def State.drainReturn (s : State) : State :=
  match s.firstPendingReturn with
  | some (d, r) => (s.modDock d fun k => { k with pendingReturn := none }).logReturn r
  | none => s

/-- The head record leaves the log, and a pending return slot is drained (R152, R155). -/
def State.removeLogHead (s : State) : State := { s with log := s.log.tail }.drainReturn

/-- The RETURN record of R16 for dock `d` with bike id `bikeId`. -/
def State.returnRecord (s : State) (d : DockId) (bikeId : Option Nat) : OutcomeRecord where
  kind := .returned
  origin := .rider
  dock := d
  passId := none
  serial := none
  admitTime := none
  endTime := s.now
  throwTime := none
  bikeId := bikeId
  reason := none
  underdriven := false
  refundApplied := false
  timeUnknown := !s.timeKnown

end Sys2Proof.Machine
end

