-- ==== Sys2Proof/Machine/Sense.lean ====
section
/-! DEFINITION. The sense unit: turns of the converter, activity changes and the judging of coil samples
(chapter 7). -/

namespace Sys2Proof.Machine

/-- One conversion lasts 512 steps (chapter 7). -/
def conversionSteps : Nat := 512

/-- One PWM period is 1,024 steps (R112). -/
def periodSteps : Nat := 1024

/-- The first period start of channel `d` at or after the present step: the periods of channel n start n × 64
steps after those of channel 0 (R112), whose place after reset release is State.pwmPhase (entry 4). -/
def State.nextPeriodStart (s : State) (d : DockId) : Nat :=
  s.clock + ((s.pwmPhase + 64 * d.val) % periodSteps + periodSteps - s.clock % periodSteps) % periodSteps

/-- The level of coil output `d` at the present step: high for the first applied-duty steps of each period
(R112), low while the part is held in reset (R194). -/
def State.coilHigh (s : State) (d : DockId) : Bool :=
  s.phase != .inReset
    && decide ((s.clock + periodSteps - (s.pwmPhase + 64 * d.val) % periodSteps) % periodSteps
        < (s.dock d).chan.applied)

/-- An active channel: in pull-in or in hold (R132). -/
def Dock.active (k : Dock) : Bool := k.sense.activity != .inactive

/-- The active channels in ascending order. -/
def State.activeChannels (s : State) : List DockId := allDocks.filter fun d => (s.dock d).active

/-- The channel a coil turn chooses: the lowest active one above the pointer, else the lowest active one (R135). -/
def State.chosenChannel (s : State) : Option DockId :=
  match s.sense.pointer with
  | none => s.activeChannels.head?
  | some p =>
    match s.activeChannels.find? fun d => decide (p < d) with
    | some d => some d
    | none => s.activeChannels.head?

/-- The sense unit's own state changed by `f`. -/
def State.modSense (s : State) (f : Sense → Sense) : State := { s with sense := f s.sense }

/-- The converter becomes `c`. -/
def State.setConverter (s : State) (c : Converter) : State := s.modSense fun x => { x with converter := c }

/-- A supply turn begins: the supply is sampled now (R138), and the next turn is a coil turn (R133). -/
def State.beginSupplyTurn (s : State) : State :=
  s.modSense fun x =>
    { x with converter := .convertingSupply s.clock, nextTurn := .coil, lastSupplyStart := s.uptime }

/-- A coil turn begins: it chooses its channel and waits for its fixing period start, and the next turn is a supply
turn (R133, R135, R136). With no active channel the converter is IDLE and the item stays at COIL (R133). -/
def State.beginCoilTurn (s : State) : State :=
  match s.chosenChannel with
  | some d => s.modSense fun x => { x with converter := .waiting d none false, nextTurn := .supply, pointer := some d }
  | none => s.setConverter .idle

/-- A turn ends and the one the item names begins at once (R133). -/
def State.endTurn (s : State) : State :=
  match s.sense.nextTurn with
  | .supply => s.beginSupplyTurn
  | .coil => s.beginCoilTurn

/-- The converter at a change of channel `d`'s activity to `a`. A turn that WAITS for the channel ends if it
becomes inactive (R136; up to the sampling instant: entry 12), and otherwise notes a change after the fixing
period start; a conversion of the channel notes the change (R140); an IDLE converter begins a coil turn when a
channel becomes active (R134). -/
def State.converterAtChange (s : State) (d : DockId) (a : Activity) : State :=
  match s.sense.converter with
  | .idle => if a = .inactive then s else s.beginCoilTurn
  | .waiting e instant changed =>
    if e ≠ d then s
    else if a = .inactive then s.endTurn
    else s.setConverter (.waiting e instant (changed || instant.isSome))
  | .convertingSupply _ => s
  | .convertingCoil e sampledAt changed => s.setConverter (.convertingCoil e sampledAt (changed || e == d))

/-- The drive unit tells the sense unit that channel `d` is now `a` (R113): at a change the violation counter
becomes 0 and the latest coil sample absent (R141). -/
def State.setActivity (s : State) (d : DockId) (a : Activity) : State :=
  if (s.dock d).sense.activity = a then s
  else (s.modDock d fun k => { k with sense := ⟨a, none, 0⟩ }).converterAtChange d a

/-! ### Judging a coil sample (section 7.5) -/

/-- A sample judged in PULL_IN is blanked when its sampling instant lies less than 20 ms after the pull-in start
(R142). A channel in PULL_IN has a pull-in start; without one nothing is blanked. -/
def Dock.blanked (k : Dock) (sampledAt : Nat) : Bool :=
  match k.sense.activity, k.chan.pullInStart with
  | .pullIn, some start => sampledAt / stepsPerCount < start + 200
  | _, _ => false

/-- An over violation: 2 × C mA is above 32 × I_max mA (R143). -/
def Profile.overLimit (p : Profile) (c : Code) : Bool := 32 * p.iMax < 2 * c.toNat

/-- An under violation: the channel is in HOLD, I_min is above 0 and 2 × C mA is below 8 × I_min mA (R143). -/
def Profile.underLimit (p : Profile) (a : Activity) (c : Code) : Bool :=
  a == .hold && decide (0 < p.iMin) && decide (2 * c.toNat < 8 * p.iMin)

/-- The kind of violation of a compared sample, if it is one (R143, R144). With I_min above 4 × I_max a sample in HOLD
may be over and under at once; R144 then gives it both kinds, and which is taken is a free choice (entry 35). -/
def violationOf (p : Profile) (a : Activity) (c : Code) (choice : Nat) : Option CoilFault :=
  match p.overLimit c, p.underLimit a c with
  | true, true => if choice % 2 = 0 then some .overcurrent else some .undercurrent
  | true, false => some .overcurrent
  | false, true => some .undercurrent
  | false, false => none

/-- The violation counter of channel `d` becomes `n`. -/
def State.setViolations (s : State) (d : DockId) (n : Nat) : State :=
  s.modDock d fun k => { k with sense := { k.sense with violations := n } }

/-- A compared sample acts on the counter; the third consecutive violation makes a fault report and sets the
counter to 0 (R144). -/
def State.compareSample (s : State) (d : DockId) (v : Option CoilFault) : State :=
  match v with
  | none => s.setViolations d 0
  | some fault =>
    if 2 ≤ (s.dock d).sense.violations then
      (s.setViolations d 0).modSense fun x => { x with reports := x.reports ++ [(d, fault)] }
    else s.setViolations d ((s.dock d).sense.violations + 1)

/-- A conversion that is not discarded: the code becomes the latest coil sample, and unless it is blanked it is
compared with the window of the order's snapshot (R140 to R144). An active channel's dock holds an order (R92). A free
value is read for each compared sample (entry 35). -/
def State.judgeSample (s : State) (d : DockId) (sampledAt : Nat) (c : Code) : State :=
  let stored := s.modDock d fun k => { k with sense := { k.sense with latest := some c } }
  match (s.dock d).order with
  | none => stored
  | some o =>
    if (s.dock d).blanked sampledAt then stored
    else (stored.spendFree 1).compareSample d (violationOf o.profile (s.dock d).sense.activity c (s.free 0))

end Sys2Proof.Machine
end

