-- ==== Sys2Proof/Machine/Orders.lean ====
section
/-! DEFINITION. The life of an order: creation and the latch queue, grants, duties, the order-end rule, endings by
the drive unit, and the supply level (chapters 5 and 6). -/

namespace Sys2Proof.Machine

/-! ### A dock's resting state (R2, R3) -/

/-- The state the debounced levels give (R2). -/
def Dock.sensed (k : Dock) : DockState :=
  if !k.bike.level then .vacant else if k.latch.level then .loose else .parked

/-- Entering VACANT: the bike id becomes absent and a timer in RUNNING_FOR_ID stops (R3). -/
def Dock.enterVacant (k : Dock) : Dock :=
  { k with
    state := .vacant
    bikeId := none
    returnTimer := match k.returnTimer with
      | .runningForId _ => .stopped
      | t => t }

/-- The dock takes the resting state `st` (VACANT, LOOSE or PARKED): it then has no fault kind and no reservation
(R1), and entering VACANT has the effects of R3. -/
def Dock.takeRest (st : DockState) (k : Dock) : Dock :=
  match st with
  | .vacant => { k with fault := none, reservation := none }.enterVacant
  | _ => { k with fault := none, reservation := none, state := st }

/-- The dock takes its state from the sensors (R2). -/
def Dock.takeFromSensors (k : Dock) : Dock := k.takeRest k.sensed

/-- The dock becomes SERVICE with a fault kind, and any reservation absent (R1, R21). -/
def Dock.takeService (f : FaultKind) (k : Dock) : Dock :=
  { k with state := .service, fault := some f, reservation := none }

/-- What an ending names for the dock (section 5.6). -/
inductive NamedState
  | vacant | loose | parked | service (f : FaultKind) | fromSensors
  deriving DecidableEq, Repr

/-- The named resting state if the debounced levels agree with it, and otherwise the state the sensors give (R3). -/
def Dock.settleRest (st : DockState) (k : Dock) : Dock :=
  if k.sensed = st then k.takeRest st else k.takeFromSensors

/-- The dock takes what the ending names (R3, R110). -/
def Dock.settle (n : NamedState) (k : Dock) : Dock :=
  match n with
  | .vacant => k.settleRest .vacant
  | .loose => k.settleRest .loose
  | .parked => k.settleRest .parked
  | .service f => k.takeService f
  | .fromSensors => k.takeFromSensors

/-! ### Duties (section 6.2) -/

/-- The target duty for a setting of `v` mV at a supply of `vs` mV: 1,024 if vs is at or below v, else
v × 1,024 / vs rounded up (R114). -/
def targetDuty (v vs : Nat) : Nat := if vs ≤ v then 1024 else (v * 1024 + vs - 1) / vs

/-- The supply in mV of a supply code, 10 mV each (R98, R114). -/
def supplyMillivolts (c : Code) : Nat := 10 * c.toNat

/-- The supply of the latest sample, 0 mV if no supply conversion has completed (R116). -/
def State.latestSupply (s : State) : Nat := (s.sense.latest.map supplyMillivolts).getD 0

/-- A pull-in target is computed at `vs`: it becomes the pending duty, and a supply strictly below the pull-in
setting marks the order underdriven (R115, R116, R117). -/
def Dock.computePullIn (vs : Nat) (o : Order) (k : Dock) : Dock :=
  { k with
    order := some { o with underdriven := o.underdriven || decide (vs < 100 * o.profile.pullIn) }
    chan := { k.chan with pending := targetDuty (100 * o.profile.pullIn) vs } }

/-- A hold target is computed at `vs` and becomes the pending duty (R116, R122). -/
def Dock.computeHold (vs : Nat) (o : Order) (k : Dock) : Dock :=
  { k with chan := { k.chan with pending := targetDuty (100 * o.profile.hold) vs } }

/-- A supply delivery at one channel: recomputed if its dock is PULLING or OPEN (R116). -/
def Dock.recompute (vs : Nat) (k : Dock) : Dock :=
  match k.state, k.order with
  | .pulling, some o => k.computePullIn vs o
  | .opened, some o => k.computeHold vs o
  | _, _ => k

/-- A supply delivery at the drive unit (R116). -/
def State.recomputeDuties (s : State) (vs : Nat) : State := { s with docks := s.docks.map (Dock.recompute vs) }

/-- The coil goes off: pending and applied duty become 0 at once (R112). -/
def Dock.coilOff (k : Dock) : Dock := { k with chan := { k.chan with applied := 0, pending := 0 } }

/-! ### Orders and grants (R92 to R94, R102 to R104) -/

/-- An order created at dock `d` from the dock's profile (R92, R93). -/
def State.newOrder (s : State) (d : DockId) (origin : Origin) (passId serial : Option Nat) : Order where
  dock := d
  origin := origin
  passId := passId
  serial := serial
  admitTime := s.now
  admitUptime := s.uptime
  profile := (s.dock d).profile
  underdriven := false
  stopMark := false
  throwTime := none

/-- A grant: the order leaves the head of the queue, its dock becomes PULLING and holds it, and the drive unit
computes the pull-in duty from the latest sample (R103, R117). -/
def State.grant (s : State) (o : Order) (rest : List Order) : State :=
  { s with queue := rest }.modDock o.dock fun k =>
    ({ k with state := .pulling }).computePullIn s.latestSupply o

/-- Grants to the orders of a queue, oldest first, while STOP is released and fewer docks are PULLING than the
effective slot count (R102). -/
def State.grantLoop : List Order → State → State
  | [], s => s
  | o :: rest, s =>
    if !s.stopAsserted && decide (s.pullingCount < s.supply.effective) then State.grantLoop rest (s.grant o rest)
    else s

/-- A grant evaluation (R102). -/
def State.evaluateGrants (s : State) : State := State.grantLoop s.queue s

/-- An order created at dock `d` joins the queue behind every order in it, its dock becomes QUEUED, bound to the
pass and serial, with its reservation and fault kind absent, and grants are evaluated (R23, R71, R92, R94). -/
def State.queueOrder (s : State) (d : DockId) (origin : Origin) (passId serial : Option Nat) : State :=
  ({ s with queue := s.queue ++ [s.newOrder d origin passId serial] }.modDock d fun k =>
    { k with
      state := .queued
      fault := none
      reservation := none
      boundPass := passId
      boundSerial := serial
      origin := some origin }).evaluateGrants

/-! ### The order-end rule (section 5.6) -/

/-- What the rule that takes an ending names (section 5.6). -/
structure Ending where
  kind : OutcomeKind
  reason : Option Reason
  named : NamedState
  deriving DecidableEq, Repr

/-- An UNLOCK_FAILED ending. -/
def Ending.failed (r : Reason) (n : NamedState) : Ending := ⟨.unlockFailed, some r, n⟩

/-- A NOT_TAKEN ending of an order whose stop mark is set is UNLOCK_FAILED with ABORTED_STOP (R108). -/
def Ending.settleKind (e : Ending) (o : Order) : Ending :=
  if e.kind = .notTaken ∧ o.stopMark then Ending.failed .abortedStop e.named else e

/-- The pass id whose entry an order's end acts on: none for an order of origin STAFF (R109). -/
def Order.passToSettle (o : Order) : Option Nat :=
  match o.origin with
  | .staff => none
  | _ => o.passId

/-- The in-flight count of the order's entry falls by one if the entry is present (R38). -/
def State.lowerInFlight (s : State) (o : Order) : State :=
  match o.passToSettle with
  | some id => s.modPass id fun e => { e with inFlight := e.inFlight - 1 }
  | none => s

/-- A refund applies to an entry that is limited and not of class STAFF (R40). -/
def PassEntry.refundable (e : PassEntry) : Bool := e.ridesLeft != 65535 && e.cls != .staff

/-- The refund request of an ending is applied (R40, R109). -/
def State.refundApplies (s : State) (o : Order) (kind : OutcomeKind) : Bool :=
  kind != .rideStart &&
    match o.passToSettle.bind s.findPass with
    | some e => e.refundable
    | none => false

/-- Rides left raised by one, saturating at 65,534 (R40). -/
def PassEntry.refund (e : PassEntry) : PassEntry := { e with ridesLeft := min 65534 (e.ridesLeft + 1) }

/-- An applied refund: the ride is returned and a NOTICE of delta +1 goes to the siblings (R40, R109). -/
def State.refund (s : State) (o : Order) : State :=
  match o.passToSettle with
  | some id => (s.modPass id PassEntry.refund).sendNotice id (o.serial.getD 0) 1
  | none => s

/-- The outcome record of an order's end (R108). -/
def State.orderRecord (s : State) (o : Order) (e : Ending) (refunded : Bool) : OutcomeRecord where
  kind := e.kind
  origin := o.origin
  dock := o.dock
  passId := o.passId
  serial := o.serial
  admitTime := o.admitTime
  endTime := s.now
  throwTime := o.throwTime
  bikeId := (s.dock o.dock).bikeId
  reason := e.reason
  underdriven := o.underdriven
  refundApplied := refunded
  timeUnknown := o.admitTime.isNone || !s.timeKnown

/-- RESULT FAILED for an ending recorded as UNLOCK_FAILED (R110). -/
def State.resultFailed (s : State) (d : DockId) (e : Ending) : State :=
  match e.kind, e.reason with
  | .unlockFailed, some r => s.result d .failed r.code
  | _, _ => s

/-- The order of dock `d` is gone: it leaves the queue, and the dock, no longer bound, takes what the ending names
(R110). -/
def State.releaseDock (s : State) (d : DockId) (n : NamedState) : State :=
  { s with queue := s.queue.filter fun o => o.dock != d }.modDock d fun k =>
    ({ k with boundPass := none, boundSerial := none, origin := none, order := none }).settle n

/-- The order-end rule for the order `o` of a dock and a settled ending (R108 to R110). -/
def State.endSettled (s : State) (o : Order) (e : Ending) : State :=
  let refunded := s.refundApplies o e.kind
  let lowered := s.lowerInFlight o
  let refundedState := if refunded then lowered.refund o else lowered
  ((refundedState.logOrder (refundedState.orderRecord o e refunded)).resultFailed o.dock e).releaseDock o.dock e.named

/-- The order-end rule at dock `d` (R108 to R110). -/
def State.endOrder (s : State) (d : DockId) (e : Ending) : State :=
  match s.orderAt d with
  | some o => s.endSettled { o with dock := d } (e.settleKind o)
  | none => s

/-! ### Endings by the drive unit (R119) -/

/-- An event that belongs to an ending latches, if there is one. -/
def State.latchOption (s : State) (k : Option EventKind) : State :=
  match k with
  | some e => s.latch e
  | none => s

/-- The channel of a dock that leaves the drive unit: the coil off, the timer stopped, no pull-in start (R119). -/
def Dock.leaveDrive (k : Dock) : Dock :=
  { k.coilOff with chan := { k.coilOff.chan with pullInStart := none, timer := .stopped } }

/-- An ending of an order by the drive unit, in the sequence of R119; a dock that was in PULLING frees its slot. -/
def State.driveEnd (s : State) (d : DockId) (event : Option EventKind) (closed : Bool) (e : Ending) : State :=
  let off := (s.modDock d Dock.leaveDrive).setActivity d .inactive
  let told := off.latchOption event
  let resulted := if closed then told.result d .closed 0 else told
  let ended := resulted.endOrder d e
  if (s.dock d).state = .pulling then ended.evaluateGrants else ended

/-- The coil goes off at an OPEN dock and it becomes CLOSING with 1 s to run (R126, R129). -/
def State.beginClosing (s : State) (d : DockId) (stopMark : Bool) : State :=
  (s.modDock d fun k =>
    { k.coilOff with
      state := .closing
      order := k.order.map fun o => { o with stopMark := o.stopMark || stopMark }
      chan := { k.coilOff.chan with timer := .closingLimit (s.uptime + 10000) } }).setActivity d .inactive

/-! ### The supply level (R98 to R101) -/

/-- The level after an evaluation at `vs` mV (R99). -/
def Supply.nextLevel (u : Supply) (vs : Nat) : SupplyLevel :=
  match u.level with
  | .normal => if vs < 100 * u.floor then .belowFloor else if vs < 100 * u.lowMark then .low else .normal
  | .low => if vs < 100 * u.floor then .belowFloor else if 100 * u.lowMark + 500 ≤ vs then .normal else .low
  | .belowFloor =>
    if vs < 100 * u.floor + 500 then .belowFloor else if 100 * u.lowMark + 500 ≤ vs then .normal else .low

/-- The effective slot count of a level and a configured count (R101). -/
def effectiveSlots (l : SupplyLevel) (slots : Nat) : Nat :=
  match l with
  | .normal => slots
  | .low => max 1 (slots / 2)
  | .belowFloor => 0

/-- The effective slot count recomputed from the level as it stands (R101). -/
def Supply.recount (u : Supply) : Supply := { u with effective := effectiveSlots u.level u.slots }

/-- SUPPLY_LOW and SUPPLY_FLOOR both latch at a direct fall to BELOW_FLOOR (R100). Whether one after the other, in
which order, or at once is open, and decides what an ATTENTION queued here carries: a free choice (entry 7), read
only where an ATTENTION may be queued. -/
def State.latchBothSupply (s : State) : State :=
  match s.events.attention with
  | .armed =>
    match s.free 0 % 3 with
    | 0 => ((s.spendFree 1).latch .supplyLow).latch .supplyFloor
    | 1 => ((s.spendFree 1).latch .supplyFloor).latch .supplyLow
    | _ => (s.spendFree 1).latchSet (EventKind.supplyLow.bit ||| EventKind.supplyFloor.bit)
  | _ => (s.latch .supplyLow).latch .supplyFloor

/-- The events of a move of the level from `before` to `after` (R100). -/
def State.latchLevelMove (s : State) (before after : SupplyLevel) : State :=
  match before, after with
  | .normal, .low => s.latch .supplyLow
  | .normal, .belowFloor => s.latchBothSupply
  | .low, .belowFloor => s.latch .supplyFloor
  | _, _ => s

/-- An evaluation of the supply level: the level moves, its events latch, the effective slot count is recomputed,
and a change of it evaluates grants (R99 to R102). -/
def State.evaluateLevel (s : State) (vs : Nat) : State :=
  let moved := { s with supply := ({ s.supply with level := s.supply.nextLevel vs }).recount }
  let told := moved.latchLevelMove s.supply.level (s.supply.nextLevel vs)
  if moved.supply.effective = s.supply.effective then told else told.evaluateGrants

end Sys2Proof.Machine
end

