-- ==== Sys2Proof/Machine/Taking.lean ====
section
/-! DEFINITION. The taking of frames from the receive buffers (R35, R180, R184, R185, R193), and the ending of a
referral (R80), which several blocks share. -/

namespace Sys2Proof.Machine

/-- The outcome of a command whose effect the rules give on every path. -/
abbrev Result := Host.Outcome State Fault Refusal

/-- A command of a part that is not held in reset (R194). -/
def State.perform (s : State) (effect : State → State) : Result := .next (s.unlessReset effect)

/-- The head frame of the dock receive buffer is taken, if it is one that the taker accepts. Nothing is taken
outside RUNNING (R195) or while the restart-pending mark is set (R193). -/
def State.takeDock (s : State) (accepts : Frame → Bool) (act : Frame → State → State) : State :=
  match s.phase, s.marks.restart, s.dockPort.rx with
  | .running, false, f :: _ => if accepts f then act f s else s
  | _, _, _ => s

/-- The head frame of the station receive buffer is taken, if it is one that the taker accepts. While the pass
store is busy the request that made it so holds the head, and no station frame is taken (R35, R184). -/
def State.takeStation (s : State) (accepts : Frame → Bool) (act : Frame → State → State) : State :=
  match s.phase, s.marks.restart, s.busy, s.station.rx with
  | .running, false, false, f :: _ => if accepts f then act f s else s
  | _, _, _, _ => s

/-- The taken frame leaves its receive buffer (R179). -/
def State.release (s : State) (p : PortId) : State := s.modPort p Port.popRx

/-- A station request of kind `k` and its payload length `n`: another length is replied BAD_LENGTH (R185). -/
def State.takeRequest (s : State) (k : Kind) (n : Nat) (act : List Byte → State → State) : State :=
  s.takeStation (fun f => f.isAddressed k) fun f t =>
    if f.payload.length = n then act f.payload t else t.reply .badLength

/-- A DOCK_COMMAND that names `c`: another length than the command's is replied BAD_LENGTH (R185), and a dock above
15 BAD_VALUE (R20). -/
def State.takeCommand (s : State) (c : DockCommand) (act : DockId → List Byte → State → State) : State :=
  s.takeStation (fun f => f.isAddressed .dockCommand && dockCommandOf (fieldAt f.payload 0 1) == some c) fun f t =>
    if f.payload.length ≠ c.length then t.reply .badLength
    else match dockOf (fieldAt f.payload 1 1) with
      | some d => act d f.payload t
      | none => t.reply .badValue

/-- The dock is bound to no pass (R80). -/
def Dock.unbind (k : Dock) : Dock := { k with boundPass := none, boundSerial := none }

/-- A referral ends: it leaves the list, its dock's binding is cleared and a VERDICT goes to the dock's reader
(R80). -/
def State.endReferral (s : State) (r : Referral) (v : Verdict) (reason : Nat) : State :=
  ({ s with referrals := s.referrals.filter fun x => x.number != r.number }.modDock r.dock Dock.unbind).verdict
    (readerOf r.dock) r.dock.val (tokenOf r.token).passId (tokenOf r.token).serial v reason

/-- The referral outstanding at a dock, if there is one, ends with NO_ANSWER (R88). -/
def State.endReferralAt (s : State) (d : DockId) : State :=
  match s.referralAt d with
  | some r => s.endReferral r .noAnswer 0
  | none => s

end Sys2Proof.Machine
end

