-- ==== Sys2Proof/Machine/Admission.lean ====
section
/-! DEFINITION. Token admission (chapter 3): the check chain, admission, and TAP. -/

namespace Sys2Proof.Machine

/-! ### The check chain (section 3.5) -/

/-- Step 1: the STOP line is released (R56). -/
def State.stopTest (s : State) : Option Verdict := if s.stopAsserted then some .stopped else none

/-- What step 2 finds (R57, R58): a refusal, a repeat answered again, or a dock that can take an order. -/
inductive DockTest
  | refuse (v : Verdict) | again (v : Verdict) | pass (d : DockId)
  deriving DecidableEq, Repr

/-- The token's pass id and serial both equal the dock's bound ones (R59). -/
def Dock.bindingMatches (k : Dock) (t : Token) : Bool :=
  k.boundPass == some t.passId && k.boundSerial == some t.serial

/-- Rows 6 to 8 of R58: a RESERVED dock only for the reserved pass, a PARKED dock for any. -/
def Dock.reservationTest (k : Dock) (d : DockId) (t : Token) : DockTest :=
  match k.state, k.reservation with
  | .reserved, some r => if r.passId = t.passId then .pass d else .refuse .reserved
  | _, _ => .pass d

/-- The rows of R58 for a configured dock. -/
def State.dockRows (s : State) (d : DockId) (t : Token) : DockTest :=
  match (s.dock d).state with
  | .vacant => .refuse .dockEmpty
  | .loose => .refuse .dockNotReady
  | .service => .refuse .dockService
  | .queued | .pulling | .opened | .closing =>
    if (s.dock d).bindingMatches t then .again .admitted else .refuse .dockBusy
  | .parked | .reserved =>
    if (s.referralAt d).isSome then
      if (s.dock d).bindingMatches t then .again .pending else .refuse .dockBusy
    else (s.dock d).reservationTest d t

/-- Step 2 (R57, R58). -/
def State.dockTest (s : State) (t : Token) : DockTest :=
  match dockOf t.dock with
  | none => .refuse .dockService
  | some d => if (s.dock d).configured then s.dockRows d t else .refuse .dockService

/-- Step 3: room in the outcome log for one more order (R60). -/
def State.roomTest (s : State) : Option Verdict := if s.roomForOrder then none else some .stationBusy

/-- The key a slot holds; a slot above 3 holds none (R46, R61). -/
def State.keyAt (s : State) (slot : Nat) : Option (List Byte) := if h : slot < 4 then s.keys[slot] else none

/-- Step 4: the key slot is loaded and the check code matches (R53, R61). `p` is the TAP payload. -/
def State.keyTest (s : State) (p : List Byte) : Option Verdict :=
  match s.keyAt (tokenOf p).keySlot with
  | some key => if checkCode key (tokenBytes p) = (tokenOf p).check then none else some .badToken
  | none => some .badToken

/-- Step 5: scope 0 or the station group (R62). -/
def State.scopeTest (s : State) (t : Token) : Option Verdict :=
  if t.scope = 0 ∨ t.scope = s.identity.group then none else some .wrongStation

/-- The deny check: whether a pass id and serial are revoked (R43). The comparison with the floor is made for serial 0
too, which a floor of 1 revokes (DEDUCED, entry 37). -/
def State.revoked (s : State) (passId serial : Nat) : Bool :=
  match s.findDeny passId with
  | none => false
  | some e =>
    match e.floor with
    | none => true
    | some floor => serial < floor

/-- Step 6: the deny check (R63). -/
def State.denyTest (s : State) (t : Token) : Option Verdict :=
  if s.revoked t.passId t.serial then some .revoked else none

/-- Step 8: the token time window (R65). A STAFF pass is tested only while time is known. -/
def State.windowTest (s : State) (t : Token) (e : PassEntry) : Option Verdict :=
  match s.now, e.cls with
  | none, .staff => none
  | none, .rider => some .timeUnknown
  | some now, _ =>
    if t.issueTime - s.identity.skew ≤ now ∧ now ≤ min 4294967295 (t.issueTime + t.lifetime + s.identity.skew)
    then none else some .expired

/-- Step 9: the pass dates, while time is known (R66). -/
def State.datesTest (s : State) (e : PassEntry) : Option Verdict :=
  match s.now with
  | none => none
  | some now =>
    if e.validFrom ≤ now ∧ (∀ u ∈ e.validUntil, now ≤ u) then none else some .passNotValid

/-- Step 10: the serial is above the last serial (R67). -/
def PassEntry.serialTest (e : PassEntry) (t : Token) : Option Verdict :=
  if e.lastSerial < t.serial then none else some .tokenUsed

/-- Rides left is consumed by no admission: unlimited, or class STAFF (R39, R70). -/
def PassEntry.unmetered (e : PassEntry) : Bool := e.ridesLeft == 65535 || e.cls == .staff

/-- Step 11: rides left (R68). -/
def PassEntry.ridesTest (e : PassEntry) : Option Verdict :=
  if 0 < e.ridesLeft ∨ e.unmetered then none else some .noRides

/-- Step 12: the bike limit (R69). -/
def PassEntry.limitTest (e : PassEntry) : Option Verdict :=
  if e.inFlight < e.bikesMax then none else some .limit

/-- The first refusal of a list of steps (section 3.5). -/
def firstRefusal : List (Option Verdict) → Option Verdict
  | [] => none
  | some v :: _ => some v
  | none :: rest => firstRefusal rest

/-- Steps 8 to 12 against a pass entry. -/
def State.entryTests (s : State) (t : Token) (e : PassEntry) : Option Verdict :=
  firstRefusal [s.windowTest t e, s.datesTest e, e.serialTest t, e.ridesTest, e.limitTest]

/-! ### Admission (section 3.6) -/

/-- What an admission changes in the pass entry (R70). -/
def PassEntry.consume (e : PassEntry) (serial : Nat) : PassEntry :=
  { e with
    ridesLeft := if e.unmetered then e.ridesLeft else e.ridesLeft - 1
    lastSerial := serial
    source := .localUse
    inFlight := e.inFlight + 1 }

/-- A token is admitted at dock `d` against the entry `e`: the stored entry changes, if `e` is stored (R70; a
transient entry has no entry with its id in the table, R84); the dock is bound and its order joins the queue (R71);
VERDICT ADMIT goes to `reader` (R72) and a pass-use notice to the siblings (R74). -/
def State.admitted (s : State) (d : DockId) (t : Token) (origin : Origin) (e : PassEntry) (reader : Address) : State :=
  ((((s.modPass t.passId fun x => x.consume t.serial).queueOrder d origin (some t.passId) (some t.serial)).verdict
    reader t.dock t.passId t.serial .admitted 0).sendNotice t.passId t.serial (if e.unmetered then 0 else -1))

/-! ### Referral creation (R79) -/

/-- A referral is created for a TAP payload `p` at dock `d`: it joins the list, the dock is bound, the REFERRAL
frame is queued to the station controller, tied to this referral, and VERDICT PENDING goes to the reader (R79). -/
def State.createReferral (s : State) (d : DockId) (p : List Byte) (reader : Address) : State :=
  let t := tokenOf p
  let joined : State :=
    { s with
      referrals := s.referrals ++ [⟨s.referralCount, d, p, s.uptime, .awaitingSend⟩]
      referralCount := s.referralCount + 1 }
  let listed := joined.modDock d fun k => { k with boundPass := some t.passId, boundSerial := some t.serial }
  (listed.offer .station ⟨s.frameFrom .station 1 1 .referral p, .referral s.referralCount⟩).verdict
    reader t.dock t.passId t.serial .pending 0

/-- Step 7 for a pass not held (R64). -/
def State.referOrRefuse (s : State) (d : DockId) (p : List Byte) (reader : Address) : State :=
  let t := tokenOf p
  if !s.identity.referralEnable then s.verdict reader t.dock t.passId t.serial .unknownPass 0
  else if 4 ≤ s.referrals.length ∨ s.station.free = 0 then s.verdict reader t.dock t.passId t.serial .busy 0
  else s.createReferral d p reader

/-- Steps 3 to 12 at a dock that can take an order (R60 to R69). -/
def State.chainFromRoom (s : State) (d : DockId) (p : List Byte) (reader : Address) : State :=
  let t := tokenOf p
  match firstRefusal [s.roomTest, s.keyTest p, s.scopeTest t, s.denyTest t] with
  | some v => s.verdict reader t.dock t.passId t.serial v 0
  | none =>
    match s.findPass t.passId with
    | none => s.referOrRefuse d p reader
    | some e =>
      match s.entryTests t e with
      | some v => s.verdict reader t.dock t.passId t.serial v 0
      | none => s.admitted d t .rider e reader

/-- A TAP of 20 bytes is decided (section 3.5). -/
def State.decideTap (s : State) (p : List Byte) (reader : Address) : State :=
  let t := tokenOf p
  match s.stopTest with
  | some v => s.verdict reader t.dock t.passId t.serial v 0
  | none =>
    match s.dockTest t with
    | .refuse v | .again v => s.verdict reader t.dock t.passId t.serial v 0
    | .pass d => s.chainFromRoom d p reader

/-- TAP (R54): the TAP at the head of the dock receive buffer is decided, not while the pass store is busy (R35);
one that is not 20 bytes long is discarded. -/
def execTap (s : State) : Result :=
  s.perform fun t =>
    if t.busy then t
    else t.takeDock (fun f => f.isAddressed .tap) fun f u =>
      State.release (if f.payload.length = 20 then u.decideTap f.payload f.source else u) .dock

end Sys2Proof.Machine
end

