-- ==== Sys2Proof/Machine/Clock.lean ====
section
/-! DEFINITION. The station clock and the reservation check (section 3.1, R18): STATION_TIME_ADVANCE, TIME_SET. -/

namespace Sys2Proof.Machine

/-- The last value of station time, which it keeps (R49). -/
def lastStationTime : Nat := 4294967295

/-- The reservation of a RESERVED dock has expired at station time `now` (R18). -/
def Dock.reservationExpired (now : Nat) (k : Dock) : Bool :=
  k.state == .reserved &&
    match k.reservation with
    | some r => r.untilTime < now
    | none => false

/-- An expired reservation becomes absent and its dock PARKED (R18). -/
def Dock.expireReservation (now : Nat) (k : Dock) : Dock :=
  if k.reservationExpired now then { k with state := .parked, reservation := none } else k

/-- The reservation check: every expired reservation ends, and RESERVATION_EXPIRED latches once if any did (R18). -/
def State.checkReservations (s : State) : State :=
  match s.now with
  | none => s
  | some now =>
    let checked := { s with docks := s.docks.map (Dock.expireReservation now) }
    if s.docks.any (Dock.reservationExpired now) then checked.latch .reservationExpired else checked

/-- STATION_TIME_ADVANCE (R49): a whole second of uptime has passed while time is known. -/
def execStationTimeAdvance (s : State) : Result :=
  s.perform fun t =>
    if t.timeKnown then
      let u := t.advanceToCount (t.secondFrom + 10000)
      State.checkReservations
        { u with secondFrom := t.secondFrom + 10000, stationTime := min lastStationTime (t.stationTime + 1) }
    else t

/-- TIME_SET (R50): station time becomes the carried value, time is known, the count toward the next advance begins
again and reservations are checked. -/
def execTimeSet (s : State) : Result :=
  s.perform fun t =>
    t.takeRequest .timeSet 4 fun p u =>
      (State.checkReservations
        { u with stationTime := fieldAt p 0 4, timeKnown := true, secondFrom := u.uptime }).reply .ok

end Sys2Proof.Machine
end

