-- ==== Sys2Proof/Machine/DockCommands.lean ====
section
/-! DEFINITION. Dock commands and profiles (sections 1.6, 1.7, 10.3): RESERVE, CANCEL_RESERVE, SET_SERVICE,
CLEAR_SERVICE, STAFF_UNLOCK, UNKNOWN_DOCK_COMMAND, PROFILE_WRITE. -/

namespace Sys2Proof.Machine

/-- The until time is refused: time is known and the until time is not greater than now (R17). -/
def State.untilPassed (s : State) (untilTime : Nat) : Bool :=
  match s.now with
  | some now => untilTime ≤ now
  | none => false

/-- RESERVE at a dock, by the table of R17. -/
def State.reserveDock (s : State) (d : DockId) (r : Reservation) : State :=
  if r.passId = 0 ∨ s.untilPassed r.untilTime then s.reply .badValue
  else match (s.dock d).state with
    | .parked | .reserved =>
      if (s.referralAt d).isSome then s.reply .badState
      else (s.modDock d fun k => { k with state := .reserved, reservation := some r }).reply .ok
    | _ => s.reply .badState

/-- RESERVE (R17). -/
def execReserve (s : State) : Result :=
  s.perform fun t =>
    t.takeCommand .reserve fun d p u => u.reserveDock d ⟨fieldAt p 2 4, fieldAt p 6 4⟩

/-- CANCEL_RESERVE (R19). -/
def execCancelReserve (s : State) : Result :=
  s.perform fun t =>
    t.takeCommand .cancelReserve fun d _ u =>
      match (u.dock d).state with
      | .reserved => (u.modDock d fun k => { k with state := .parked, reservation := none }).reply .ok
      | _ => u.reply .badState

/-- SET_SERVICE at a dock, before its REPLY (R21, R88, R97, R127). -/
def State.serviceDock (s : State) (d : DockId) : State :=
  match (s.dock d).state with
  | .queued => s.endOrder d (.failed .abortedService (.service .staffSet))
  | .pulling | .opened | .closing => s.driveEnd d none false (.failed .abortedService (.service .staffSet))
  | .service => s.endReferralAt d
  | .vacant | .loose | .parked | .reserved => (s.endReferralAt d).modDock d (Dock.takeService .staffSet)

/-- SET_SERVICE (R21): replied OK in every state. -/
def execSetService (s : State) : Result :=
  s.perform fun t => t.takeCommand .setService fun d _ u => (u.serviceDock d).reply .ok

/-- CLEAR_SERVICE (R22). -/
def execClearService (s : State) : Result :=
  s.perform fun t =>
    t.takeCommand .clearService fun d _ u =>
      if (u.dock d).state = .service ∧ (u.dock d).fault ≠ some .unconfigured then
        (u.modDock d Dock.takeFromSensors).reply .ok
      else u.reply .badState

/-- The first failure of STAFF_UNLOCK's checks (R23). -/
def State.unlockRefusal (s : State) (d : DockId) : Option Status :=
  if s.stopAsserted then some .badState
  else if (s.dock d).inFlight then some .badState
  else if (s.dock d).state = .service ∧
      (s.dock d).fault ∈ [some FaultKind.unconfigured, some .overcurrent, some .undercurrent] then some .dockFault
  else if s.roomForOrder then none
  else some .logFull

/-- STAFF_UNLOCK (R23, R88): a referral outstanding is ended first, then an order of origin STAFF is queued. -/
def execStaffUnlock (s : State) : Result :=
  s.perform fun t =>
    t.takeCommand .staffUnlock fun d _ u =>
      match u.unlockRefusal d with
      | some status => u.reply status
      | none => ((u.endReferralAt d).queueOrder d .staff none none).reply .ok

/-- A DOCK_COMMAND that UNKNOWN_DOCK_COMMAND takes: its code names no command, or its length suits the command and
its dock is above 15 (R20, R185). -/
def unknownCommand (p : List Byte) : Bool :=
  match dockCommandOf (fieldAt p 0 1) with
  | none => true
  | some c => p.length == c.length && (dockOf (fieldAt p 1 1)).isNone

/-- UNKNOWN_DOCK_COMMAND (R20, R185): no payload is BAD_LENGTH, anything else BAD_VALUE. -/
def execUnknownDockCommand (s : State) : Result :=
  s.perform fun t =>
    t.takeStation (fun f => f.isAddressed .dockCommand && unknownCommand f.payload) fun f u =>
      if f.payload.length = 0 then u.reply .badLength else u.reply .badValue

/-- A dock takes a written profile and is configured; an UNCONFIGURED one takes its state from the sensors (R188). -/
def Dock.writeProfile (p : Profile) (k : Dock) : Dock :=
  let written := { k with profile := p, configured := true }
  if k.state = .service ∧ k.fault = some .unconfigured then written.takeFromSensors else written

/-- PROFILE_WRITE (R187, R188). -/
def execProfileWrite (s : State) : Result :=
  s.perform fun t =>
    t.takeRequest .profileWrite 7 fun p u =>
      match dockOf (fieldAt p 0 1) with
      | some d => (u.modDock d (Dock.writeProfile (profileOf p 1))).reply .ok
      | none => u.reply .badValue

end Sys2Proof.Machine
end

