-- ==== Sys2Proof/Machine/Drive.lean ====
section
/-! DEFINITION. The drive unit's arrivals (chapter 6): PULL_IN_START, PWM_PERIOD_START, PULL_LIMIT_EXPIRY,
EXTENSION_EXPIRY, HOLD_EXPIRY, CLOSING_LIMIT_EXPIRY, COIL_FAULT_REPORT. -/

namespace Sys2Proof.Machine

/-- The pull-in start at uptime `t` for the order `o`: the pending duty becomes the applied duty, the start is
recorded and the PULL_LIMIT timer set; an EXTENSION already running stays (R118, R120). -/
def Dock.startPullIn (t : Nat) (o : Order) (k : Dock) : Dock :=
  { k with chan := { k.chan with
      applied := k.chan.pending
      pullInStart := some t
      timer := match k.chan.timer with
        | .stopped => .pullLimit (t + 40 * o.profile.maxPullIn)
        | x => x } }

/-- PULL_IN_START (R118): the channel's first period start after a grant; taken late, the next one (DESIGN CHOICE, entry 36). -/
def execPullInStart (d : DockId) (s : State) : Result :=
  s.perform fun t =>
    match (t.dock d).state, (t.dock d).chan.pullInStart, (t.dock d).order with
    | .pulling, none, some o =>
      let u := t.advanceTo (t.nextPeriodStart d)
      (u.modDock d (Dock.startPullIn u.uptime o)).setActivity d .pullIn
    | _, _, _ => t

/-- The applied duty takes the pending duty (R112). -/
def Dock.applyPending (k : Dock) : Dock := { k with chan := { k.chan with applied := k.chan.pending } }

/-- PWM_PERIOD_START (R112): a period start of a channel. The first one after a grant is PULL_IN_START's (R118).
It is the channel's next one at or after the present step (DESIGN CHOICE, entry 36). -/
def execPwmPeriodStart (d : DockId) (s : State) : Result :=
  s.perform fun t =>
    if (t.dock d).state = .pulling ∧ (t.dock d).chan.pullInStart = none then t
    else (t.advanceTo (t.nextPeriodStart d)).modDock d Dock.applyPending

/-- PULL_LIMIT_EXPIRY (R123): no latch-open edge in the maximum pull-in time. -/
def execPullLimitExpiry (d : DockId) (s : State) : Result :=
  s.perform fun t =>
    match (t.dock d).state, (t.dock d).chan.timer, (t.dock d).order with
    | .pulling, .pullLimit due, some o =>
      if o.underdriven then
        (t.advanceToCount due).driveEnd d none false (.failed .noOpenLowSupply .parked)
      else (t.advanceToCount due).driveEnd d (some .latchFault) false (.failed .latchJam (.service .latchJam))
    | _, _, _ => t

/-- Entry to OPEN at uptime `t` with the supply at `vs` mV: the hold duty becomes pending and the HOLD timer is set
(R122). -/
def Dock.enterOpen (t vs : Nat) (o : Order) (k : Dock) : Dock :=
  let held := { k with state := .opened }.computeHold vs o
  { held with chan := { held.chan with timer := .hold (t + 10000 * o.profile.holdTime) } }

/-- EXTENSION_EXPIRY (R122). -/
def execExtensionExpiry (d : DockId) (s : State) : Result :=
  s.perform fun t =>
    match (t.dock d).state, (t.dock d).chan.timer, (t.dock d).order with
    | .pulling, .extension due, some o =>
      let u := t.advanceToCount due
      State.evaluateGrants
        (((u.modDock d (Dock.enterOpen u.uptime u.latestSupply o)).setActivity d .hold).result d .opened 0)
    | _, _, _ => t

/-- HOLD_EXPIRY (R129). -/
def execHoldExpiry (d : DockId) (s : State) : Result :=
  s.perform fun t =>
    match (t.dock d).state, (t.dock d).chan.timer with
    | .opened, .hold due => (t.advanceToCount due).beginClosing d false
    | _, _ => t

/-- CLOSING_LIMIT_EXPIRY (R130): RESULT CLOSED first if the stored latch-open level is LOW. -/
def execClosingLimitExpiry (d : DockId) (s : State) : Result :=
  s.perform fun t =>
    match (t.dock d).state, (t.dock d).chan.timer with
    | .closing, .closingLimit due =>
      (t.advanceToCount due).driveEnd d none (!(t.dock d).latch.level) ⟨.notTaken, none, .loose⟩
    | _, _ => t

/-- The reason of a coil fault (R124). -/
def CoilFault.reason : CoilFault → Reason
  | .overcurrent => .overcurrent
  | .undercurrent => .undercurrent

/-- The fault kind of a coil fault (R124). -/
def CoilFault.faultKind : CoilFault → FaultKind
  | .overcurrent => .overcurrent
  | .undercurrent => .undercurrent

/-- A coil fault report taken at dock `d` (R124): a PULLING or OPEN dock's order ends, any other dock discards it. -/
def State.takeCoilFault (s : State) (d : DockId) (f : CoilFault) : State :=
  match (s.dock d).state with
  | .pulling | .opened =>
    s.driveEnd d (some .latchFault) false (.failed f.reason (.service f.faultKind))
  | _ => s

/-- COIL_FAULT_REPORT (R124, R145): the oldest report not yet taken. -/
def execCoilFaultReport (s : State) : Result :=
  s.perform fun t =>
    match t.sense.reports with
    | (d, f) :: rest => (t.modSense fun x => { x with reports := rest }).takeCoilFault d f
    | [] => t

end Sys2Proof.Machine
end

