-- ==== Sys2Proof/WellFormed.lean ====
section
/-! DEFINITION. Which commands have operands of their row's shape. -/

namespace Sys2Proof

/-- A settings record is 8 bytes (R196); a port reads as many payload bytes as the header's length field says
(R169). Every other operand is of its row's shape by its type. -/
def Instr.wellFormed : Instr → Bool
  | .settingsRecordRead record => record.length == 8
  | .frameReceived _ header payload _ => payload.length == headerLength header
  | _ => true

end Sys2Proof
end

