-- ==== Sys2Proof/Machine/Startup.lean ====
section
/-! DEFINITION. Full reset, the settings load and the entry into RUNNING (chapter 11): RESET_RELEASE,
RESET_INPUT_ASSERTED, SETTINGS_RECORD_READ, I2C_TRANSACTION_TIMEOUT. -/

namespace Sys2Proof.Machine

/-- A full reset whose release samples the straps, the level of the STOP input and the raw sensor levels (R7, R105,
R167, R194). -/
def State.fullReset (s : State) (straps : BitVec 3) : State :=
  .afterReset straps s.stopLevel (s.docks.map fun k => .atReset k.bike.raw k.latch.raw)
    s.pwmPhase s.freeCount s.pending

/-- RESET_RELEASE (R194): the state after a full reset, with the pin levels sampled at release. It is taken in any
phase, since a power-on is a release with no assertion before it (entry 13). -/
def execResetRelease (straps : BitVec 3) (stop : Bool) (bike latch : BitVec 16) (s : State) : Result :=
  .next (.afterReset straps stop
    (Vector.ofFn fun d : Fin 16 => .atReset (bike.getLsbD d.val) (latch.getLsbD d.val))
    s.pwmPhase s.freeCount s.pending)

/-- RESET_INPUT_ASSERTED (R194): the part is held in reset; every coil output is low, nothing is sent and all state
is discarded (entry 14). The release that follows samples the pins (RESET_RELEASE). -/
def execResetInputAsserted (s : State) : Result := .next { s.fullReset s.straps with phase := .inReset }

/-! ### Entry into RUNNING (R199) -/

/-- A port takes its segment's rate; one whose rate changes waits for a fresh idle (R168). -/
def Port.takeRate (q : Port) (rate : Rate) (clock : Nat) : Port :=
  if q.rate = rate then q else { q with rate := rate, line := .waiting clock }

/-- A dock at the entry: an unconfigured one stays as it is, a configured one takes its state from the sensors
(R25). -/
def Dock.classify (k : Dock) : Dock := if k.configured then k.takeFromSensors else k

/-- The level evaluated once from the latest supply sample, if there is one (R98). -/
def State.evaluateFromLatest (s : State) : State :=
  match s.sense.latest with
  | some c => s.evaluateLevel (supplyMillivolts c)
  | none => s

/-- The level would move at the evaluation of the entry (R98). -/
def State.levelWillMove (s : State) : Bool :=
  match s.sense.latest with
  | some c => s.supply.nextLevel (supplyMillivolts c) != s.supply.level
  | none => false

/-- The level evaluation and the ATTENTION rule at the entry (R98, R166). Either may come first; it matters only
if kinds are pending unmasked and the level moves, and the order is then a free choice (entry 6). -/
def State.evaluateAndAttend (s : State) : State :=
  if s.events.unmasked ≠ 0 ∧ s.levelWillMove then
    if s.free 0 % 2 = 0 then (s.spendFree 1).attend.evaluateFromLatest
    else (s.spendFree 1).evaluateFromLatest.attend
  else s.attend.evaluateFromLatest

/-- The entry into RUNNING (R199). -/
def State.enterRunning (s : State) : State :=
  State.evaluateAndAttend
    { s with
      phase := .running
      station := s.station.takeRate s.loader.stationRate s.clock
      dockPort := s.dockPort.takeRate s.loader.dockRate s.clock
      docks := s.docks.map Dock.classify }

/-! ### The load (R196 to R198) -/

/-- A byte that the loader sends: the memory's 7-bit address with a direction, or a byte address (R196). -/
inductive I2cByte
  | device (address : BitVec 7) (read : Bool)
  | byteAddress (b : Byte)
  deriving DecidableEq, Repr

/-- The 7-bit address of the settings memory (R196). -/
def settingsMemory : BitVec 7 := 0x53

/-- The three bytes with which the loader addresses the record it is reading, record i standing at byte address 8 × i
(R196). Nothing is addressed outside STARTING. -/
def State.addressBytes (s : State) : List I2cByte :=
  match s.phase with
  | .starting =>
    [.device settingsMemory false, .byteAddress (BitVec.ofNat 8 (8 * s.loader.index)), .device settingsMemory true]
  | _ => []

/-- 10 ms have passed since the transaction's start, so that it counts as not acknowledged (R196). At that very instant
it may still end first. -/
def State.transactionLate (s : State) : Bool := (s.loader.startedAt + 100) * stepsPerCount < s.clock

/-- The load ends with a status; LOAD_ERROR latches for ERROR and ABSENT (R198), and the part enters RUNNING. -/
def State.endLoad (s : State) (status : LoadStatus) : State :=
  let ended := { s with loader := { s.loader with status := status } }
  match status with
  | .complete => ended.enterRunning
  | _ => (ended.latch .loadError).enterRunning

/-- The rate a code gives; a code above 2 is clamped to 2 (R197). -/
def rateOf : Nat → Rate
  | 0 => .kbit62
  | 1 => .kbit125
  | _ => .kbit250

/-- The identity record sets the six identity values (R197, section 12.5). -/
def State.applyIdentity (s : State) (r : List Byte) : State :=
  { s with
    identity :=
      { group := fieldAt r 1 2
        skew := fieldAt r 6 1
        referralEnable := (fieldAt r 5 1).testBit 0
        noticeEnable := (fieldAt r 5 1).testBit 1 }
    events := { s.events with
      clearMode := if (fieldAt r 5 1).testBit 2 then .clearByRequest else .readClears }
    loader := { s.loader with dockRate := rateOf (fieldAt r 3 1), stationRate := rateOf (fieldAt r 4 1) } }

/-- The supply record sets S, L and F, and the effective slot count follows (R197, R98). -/
def State.applySupply (s : State) (r : List Byte) : State :=
  { s with supply := (supplySettingsOf r 1 s.supply).recount }

/-- A profile record sets the dock's profile, and its configured flag from the configured byte (R197). -/
def State.applyProfile (s : State) (d : DockId) (r : List Byte) : State :=
  s.modDock d fun k => { k with profile := profileOf r 1, configured := fieldAt r 7 1 != 0 }

/-- What a record's tag makes of it (R197). -/
inductive RecordKind
  | identity | supply | profile (d : DockId) | endOfList | unknown
  deriving DecidableEq, Repr

/-- The tags that may stand in the list (R197). -/
def recordKindOf (tag : Nat) : RecordKind :=
  if tag = 0x01 then .identity
  else if tag = 0x02 then .supply
  else if tag = 0xFF then .endOfList
  else if 0x10 ≤ tag then
    match dockOf (tag - 0x10) with
    | some d => .profile d
    | none => .unknown
  else .unknown

/-- A record is applied (R197). -/
def State.applyRecord (s : State) (k : RecordKind) (r : List Byte) : State :=
  match k with
  | .identity => s.applyIdentity r
  | .supply => s.applySupply r
  | .profile d => s.applyProfile d r
  | .endOfList | .unknown => s

/-- After a record has been applied: the loader reads the next one, or after record 31 the load ends ERROR with
index 32 (R196, R198). -/
def State.nextRecord (s : State) (tag : Nat) : State :=
  if s.loader.index = 31 then s.endLoad (.error 32)
  else { s with loader := { s.loader with
    index := s.loader.index + 1, lastTag := some tag, startedAt := s.uptime } }

/-- The tag is above the tag of the record before, if there was one (R197). -/
def Loader.tagRises (l : Loader) (tag : Nat) : Bool :=
  match l.lastTag with
  | some t => t < tag
  | none => true

/-- A record of 8 bytes is judged by its tag and applied, or ends the load (R197, R198). -/
def State.judgeRecord (s : State) (r : List Byte) : State :=
  let tag := fieldAt r 0 1
  if s.loader.tagRises tag then
    match recordKindOf tag with
    | .endOfList => s.endLoad .complete
    | .unknown => s.endLoad (.error s.loader.index)
    | k => (s.applyRecord k r).nextRecord tag
  else s.endLoad (.error s.loader.index)

/-- The status of a load that a failed transaction ends (R198). -/
def Loader.failedStatus (l : Loader) : LoadStatus := if l.index = 0 then .absent else .error l.index

/-- SETTINGS_RECORD_READ (R197): in STARTING, the record whose transaction completed is judged. A transaction that has
not ended within 10 ms of its start has failed, and its record is not applied (R196). The loader reads nothing in RUNNING
(R196). -/
def execSettingsRecordRead (record : List Byte) (s : State) : Result :=
  if record.length = 8 then
    .next (match s.phase with
      | .starting => if s.transactionLate then s.endLoad s.loader.failedStatus else s.judgeRecord record
      | _ => s)
  else .refused (.illFormed "SETTINGS_RECORD_READ")

/-- I2C_TRANSACTION_TIMEOUT (R196): the transaction is abandoned and the load ends, ABSENT at record 0 and ERROR at
a later one (R198). One that timed out did so 10 ms after its start. -/
def execI2cTransactionTimeout (cause : I2cFailure) (s : State) : Result :=
  .next (match s.phase, cause with
    | .starting, .timedOut =>
      (s.advanceToCount (s.loader.startedAt + 100)).endLoad s.loader.failedStatus
    | .starting, _ => s.endLoad s.loader.failedStatus
    | _, _ => s)

end Sys2Proof.Machine
end

