-- ==== Sys2Proof/Machine/Link.lean ====
section
/-! DEFINITION. The link unit (chapter 9): MESSAGE_FROM_READER, MESSAGE_TO_READER, FRAME_DISCARDED, FRAME_RECEIVED,
FRAME_SEND_START, ARBITRATION_LOST, FRAME_DEPARTURE, LINE_IDLE, DOMINANT_BIT_IN_WAITING, OTHER_NODE_START_BIT,
HEADER_NO_END, LAST_END_BIT. -/

namespace Sys2Proof.Machine

/-! ### Forwarding (section 9.7) -/

/-- The upstream MESSAGE of a reader's one: the dock number before its payload (R181). -/
def State.upstream (s : State) (f : Frame) : Frame :=
  s.frameFrom .station 2 1 .message ((f.source.setWidth 8 - 16#8) :: f.payload)

/-- The downstream MESSAGE of a station one: to the reader of the dock in its first byte, which it leaves out
(R182). -/
def State.downstream (s : State) (f : Frame) : Frame :=
  s.frameFrom .dock 2 (BitVec.ofNat 6 (16 + fieldAt f.payload 0 1)) .message f.payload.tail

/-- MESSAGE_FROM_READER (R181): forwarded upstream into the slot reserved at acknowledgment. -/
def execMessageFromReader (s : State) : Result :=
  s.perform fun t =>
    t.takeDock (fun f => f.isAddressed .message) fun f u =>
      (u.modPort .station (·.pushReserved ⟨u.upstream f, .none⟩)).release .dock

/-- MESSAGE_TO_READER (R182): forwarded downstream into the slot reserved at acknowledgment. -/
def execMessageToReader (s : State) : Result :=
  s.perform fun t =>
    t.takeStation (fun f => f.isAddressed .message) fun f u =>
      (u.modPort .dock (·.pushReserved ⟨u.downstream f, .none⟩)).release .station

/-- A frame of the dock receive buffer with no taker: a broadcast, or an addressed kind other than TAP, BIKE_ID and
MESSAGE (R180). -/
def Frame.noDockTaker (f : Frame) : Bool :=
  f.isBroadcast || !(f.kind ∈ [Kind.tap, .bikeId, .message].map Kind.code)

/-- A frame of the station receive buffer with no taker: a broadcast kind other than NOTICE and STOP_ALL (R180). -/
def Frame.noStationTaker (f : Frame) : Bool :=
  f.isBroadcast && !(f.kind ∈ [Kind.notice, .stopAll].map Kind.code)

/-- FRAME_DISCARDED (R180): the head frame of a receive buffer that no block takes leaves it with no effect. -/
def execFrameDiscarded (p : PortId) (s : State) : Result :=
  s.perform fun t =>
    match p with
    | .dock => t.takeDock Frame.noDockTaker fun _ u => u.release .dock
    | .station => t.takeStation Frame.noStationTaker fun _ u => u.release .station

/-! ### Judging a received frame (R171, R178, R179) -/

/-- The line state of port `p` becomes `l`. -/
def State.setLine (s : State) (p : PortId) (l : LineState) : State := s.modPort p fun q => { q with line := l }

/-- A port can take a frame into its receive buffer: the part is in RUNNING, the restart-pending mark is clear and a
slot is free (R178, R179, R193). -/
def State.canReceive (s : State) (p : PortId) : Bool :=
  s.phase == .running && !s.marks.restart && decide ((s.port p).rx.length < 2)

/-- The other segment's port. -/
def otherPort : PortId → PortId
  | .station => .dock
  | .dock => .station

/-- A MESSAGE whose source and payload the port can forward (R178, conditions 4 and 5). -/
def Frame.forwardable (f : Frame) (p : PortId) : Bool :=
  match p with
  | .station => decide (1 ≤ f.payload.length) && decide (fieldAt f.payload 0 1 < 16)
  | .dock => decide (16 ≤ f.source.toNat) && decide (f.source.toNat < 32) && decide (f.payload.length ≤ 31)

/-- The port on which an acknowledged frame reserves a slot: for a MESSAGE the one that forwards it, for another
station frame the station port, for another dock frame none (R177, R178). -/
def Frame.reservesOn (f : Frame) (p : PortId) : Option PortId :=
  if f.kind = Kind.message.code then some (otherPort p)
  else match p with
    | .station => some .station
    | .dock => none

/-- A port has a slot to reserve (R177). -/
def State.hasSlot (s : State) : Option PortId → Bool
  | some q => (s.port q).free != 0
  | none => true

/-- A slot is reserved (R177). -/
def State.reserveOn (s : State) : Option PortId → State
  | some q => s.modPort q Port.reserve
  | none => s

/-- The port acknowledges an addressed frame (R178). -/
def State.acknowledges (s : State) (p : PortId) (f : Frame) : Bool :=
  s.canReceive p && (f.kind != Kind.message.code || f.forwardable p) && s.hasSlot (f.reservesOn p)

/-- A well-formed frame is judged by its destination (R171): a broadcast is placed or dropped, a frame to the port's
own address acknowledged, with its slot reserved, or not, and any other ignored. -/
def State.judgeFrame (s : State) (p : PortId) (f : Frame) : State :=
  if f.isBroadcast then (if s.canReceive p then s.modPort p (·.place f) else s)
  else if f.dest = (s.port p).address then
    (if s.acknowledges p f then (s.reserveOn (f.reservesOn p)).modPort p (·.place f) else s)
  else s

/-- The last check bit of a frame has arrived at a port: the frame is judged if it is well formed and discarded
otherwise (R171), and the port reads on to its end (R169). -/
def State.receive (s : State) (p : PortId) (since : Nat) (header : BitVec 32) (payload : List Byte)
    (check : BitVec 16) : State :=
  let read := (s.advanceTo ((s.port p).bitsAfter since (checkBits payload.length))).setLine p
    (.receiving since (some payload.length))
  match receivedFrame header payload check with
  | some f => read.judgeFrame p f
  | none => read

/-- FRAME_RECEIVED (R171, R178, R179): at a RECEIVING port that has not judged its frame yet. A header with no end
to wait for does not come so far (R169). -/
def execFrameReceived (p : PortId) (header : BitVec 32) (payload : List Byte) (check : BitVec 16) (s : State) :
    Result :=
  if payload.length = headerLength header then
    s.perform fun t =>
      match (t.port p).line with
      | .receiving since none => if headerHasNoEnd header then t else t.receive p since header payload check
      | _ => t
  else .refused (.illFormed "FRAME_RECEIVED")

/-! ### The line (R169, R173, R174) -/

/-- LINE_IDLE (R169): the 11th consecutive recessive bit time in WAITING. -/
def execLineIdle (p : PortId) (s : State) : Result :=
  s.perform fun t =>
    match (t.port p).line with
    | .waiting countFrom => (t.advanceTo ((t.port p).bitsAfter countFrom 11)).setLine p .idle
    | _ => t

/-- DOMINANT_BIT_IN_WAITING (R169): the recessive count goes back to 0. The command stands at the end of the bit (DESIGN
CHOICE, entry 38). -/
def execDominantBitInWaiting (p : PortId) (s : State) : Result :=
  s.perform fun t =>
    match (t.port p).line with
    | .waiting _ => t.setLine p (.waiting t.clock)
    | _ => t

/-- The present step lies in the bit time of a start bit that began at step `since`: a second start bit is then one start
with it (R173; DESIGN CHOICE, entry 40). -/
def State.sameStart (s : State) (p : PortId) (since : Nat) : Bool := s.clock < (s.port p).bitsAfter since 1

/-- OTHER_NODE_START_BIT (R169, R173): another node's start bit on an IDLE line, at its beginning (DESIGN CHOICE,
entry 38). At a port that has sent its own in that bit time the two are one start, and it stays SENDING (entry 40). -/
def execOtherNodeStartBit (p : PortId) (s : State) : Result :=
  s.perform fun t =>
    match (t.port p).line with
    | .idle => t.setLine p (.receiving t.clock none)
    | _ => t

/-- FRAME_SEND_START (R173): on an IDLE line the port sends the start bit of its head frame, at whose beginning the
command stands (DESIGN CHOICE, entry 38). In the bit time of another node's start bit the two are one start, which
arbitration settles (entry 40); after it the port defers. -/
def execFrameSendStart (p : PortId) (s : State) : Result :=
  s.perform fun t =>
    match (t.port p).line, (t.port p).tx with
    | .idle, _ :: _ => t.setLine p (.sending t.clock)
    | .receiving since none, _ :: _ => if t.sameStart p since then t.setLine p (.sending since) else t
    | _, _ => t

/-- The number of the first header bit, counted from 0, in which two arbitration fields differ (R174). -/
def firstDifference (a b : BitVec 16) : Nat := 15 - Nat.log2 (a ^^^ b).toNat

/-- ARBITRATION_LOST (R174): header bytes 0 and 1 of a frame with a lower header stand on the line; the port
withdraws at the first bit that differs, keeps its frame at the head and receives the winner. -/
def execArbitrationLost (p : PortId) (lineHeader : BitVec 16) (s : State) : Result :=
  s.perform fun t =>
    match (t.port p).line, (t.port p).tx with
    | .sending since, head :: _ =>
      if lineHeader < head.frame.arbitration then
        (t.advanceTo ((t.port p).bitsAfter since (1 + firstDifference lineHeader head.frame.arbitration))).setLine p
          (.receiving since none)
      else t
    | _, _ => t

/-- HEADER_NO_END (R169): the header received gives no end to wait for, and the port is WAITING at once, 33 bit
times after the start bit began. -/
def execHeaderNoEnd (p : PortId) (header : BitVec 32) (s : State) : Result :=
  s.perform fun t =>
    match (t.port p).line with
    | .receiving since none =>
      if headerHasNoEnd header then
        let u := t.advanceTo ((t.port p).bitsAfter since 33)
        u.setLine p (.waiting u.clock)
      else t
    | _ => t

/-- LAST_END_BIT (R169): the end of a frame received, or of one that the part sent and that ended in a mismatch
(R175; entry 27). -/
def execLastEndBit (p : PortId) (s : State) : Result :=
  s.perform fun t =>
    match (t.port p).line with
    | .receiving since (some n) =>
      let u := t.advanceTo ((t.port p).bitsAfter since (frameBits n))
      u.setLine p (.waiting u.clock)
    | _ => t

/-! ### Departures (R175, R176) -/

/-- How a frame leaves a transmit queue (R175). -/
inductive Departure
  | acknowledged | unacknowledged | sent
  deriving DecidableEq, Repr

/-- The way a frame leaves, by what its sender read back (R175). The ack slot of a broadcast is not examined. -/
def Frame.departure (f : Frame) (r : ReadBack) : Departure :=
  match r with
  | .mismatch => .unacknowledged
  | .ackDominant => if f.isBroadcast then .sent else .acknowledged
  | .ackRecessive => if f.isBroadcast then .sent else .unacknowledged

/-- The attempt at a frame of `n` payload bytes ends (R175): a mismatch ends it at its bit and the port finishes the
frame's length as a receiver would (DEDUCED, entry 27), the clock being where the sender places the command, at any bit
(DESIGN CHOICE, entry 39); otherwise it ends after the last end bit, in WAITING. -/
def State.endAttempt (s : State) (p : PortId) (since n : Nat) (r : ReadBack) : State :=
  match r with
  | .mismatch => s.setLine p (.receiving since (some n))
  | .ackDominant | .ackRecessive =>
    let u := s.advanceTo ((s.port p).bitsAfter since (frameBits n))
    u.setLine p (.waiting u.clock)

/-- The departure of a REFERRAL, at the referral that queued it if it is still in the list (R81). -/
def State.referralDeparted (s : State) (number : Nat) (w : Departure) : State :=
  match s.referrals.find? fun r => r.number == number, w with
  | none, _ => s
  | some _, .acknowledged =>
    { s with referrals := s.referrals.map fun r => if r.number = number then { r with state := .awaitingAnswer } else r }
  | some r, _ => s.endReferral r .noAnswer 0

/-- The departure of a COLLECT's OK REPLY (R155). -/
def State.collectDeparted (s : State) (w : Departure) : State :=
  let cleared := { s with marks := { s.marks with collect := false } }
  match w with
  | .acknowledged => cleared.removeLogHead
  | _ => cleared

/-- The departure of the REPLY that carries a read in READ_CLEARS mode (R159). -/
def State.eventReadDeparted (s : State) (w : Departure) : State :=
  let dropped (t : State) : State :=
    { t with marks := { t.marks with eventRead := false }, events := { t.events with carried := 0 } }
  match w with
  | .acknowledged => (dropped (s.removePending s.events.carried)).attend
  | _ => dropped s

/-- The owner of a frame is told how it left (R176). A frame that left as sent was not acknowledged (DESIGN CHOICE,
entry 11). The full reset of a RESTART samples `straps` (R167, R192). -/
def State.tellOwner (s : State) (o : Owner) (w : Departure) (straps : BitVec 3) : State :=
  match o with
  | .none => s
  | .referral n => s.referralDeparted n w
  | .collect => s.collectDeparted w
  | .eventRead => s.eventReadDeparted w
  | .restart => s.fullReset straps

/-- A departure from the station transmit queue reaches the frame's owner and, in the OWED state, the event unit
(R164, R176). Which comes first is open, and a free choice where both act (entry 8). -/
def State.stationDeparture (s : State) (o : Owner) (w : Departure) (straps : BitVec 3) : State :=
  match o, s.events.attention with
  | .none, _ => s.attendOwed
  | _, .owed =>
    if s.free 0 % 2 = 0 then ((s.spendFree 1).tellOwner o w straps).attendOwed
    else (s.spendFree 1).attendOwed.tellOwner o w straps
  | _, _ => s.tellOwner o w straps

/-- The head frame leaves the transmit queue (R175). -/
def State.popTx (s : State) (p : PortId) : State := s.modPort p fun q => { q with tx := q.tx.tail }

/-- FRAME_DEPARTURE (R175, R176): the attempt of a SENDING port ends, its head frame leaves the queue and the owner
is told. -/
def execFrameDeparture (p : PortId) (levels : DepartureLevels) (s : State) : Result :=
  s.perform fun t =>
    match (t.port p).line, (t.port p).tx with
    | .sending since, head :: _ =>
      let left := (t.endAttempt p since head.frame.payload.length levels.readBack).popTx p
      match p with
      | .station => left.stationDeparture head.owner (head.frame.departure levels.readBack) levels.straps
      | .dock => left
    | _, _ => t

end Sys2Proof.Machine
end

