-- ==== Sys2Proof/Machine/Referrals.lean ====
section
/-! DEFINITION. Referral answers and timeouts, sibling notices (chapter 4), and the rearrangement of the pass
store's tables (section 2.3): REFERRAL_ANSWER_ADMIT, REFERRAL_ANSWER_REFUSE, REFERRAL_ANSWER_BAD_CODE,
REFERRAL_TIMEOUT, NOTICE, REARRANGEMENT_END. -/

namespace Sys2Proof.Machine

/-! ### Tables in ascending order (R30, R44) -/

/-- The docks in flight bound to a pass id (R30, R37). -/
def State.boundInFlight (s : State) (id : Nat) : Nat :=
  s.docks.countP fun k => k.inFlight && k.boundPass == some id

/-- An entry at its place in ascending pass id order (R30). -/
def insertPassEntry (e : PassEntry) : List PassEntry → List PassEntry
  | [] => [e]
  | x :: xs => if e.id < x.id then e :: x :: xs else x :: insertPassEntry e xs

/-- A deny entry at its place in ascending pass id order (R44). -/
def insertDenyEntry (e : DenyEntry) : List DenyEntry → List DenyEntry
  | [] => [e]
  | x :: xs => if e.id < x.id then e :: x :: xs else x :: insertDenyEntry e xs

/-- The entry an insert adds: its in-flight count is computed when the insert completes (R30). -/
def State.countedEntry (s : State) (e : PassEntry) : PassEntry := { e with inFlight := s.boundInFlight e.id }

/-- An inserted entry becomes present (R30, R34). -/
def State.insertPass (s : State) (e : PassEntry) : State :=
  { s with passes := insertPassEntry (s.countedEntry e) s.passes }

/-- The entries with a higher id, which an insert or a delete moves (R34). -/
def State.passesAbove (s : State) (id : Nat) : Nat := s.passes.countP fun e => id < e.id

/-- The deny entries with a higher id, which an insert or a delete moves (R34). -/
def State.deniesAbove (s : State) (id : Nat) : Nat := s.denies.countP fun e => id < e.id

/-- A replace: the written fields, the in-flight count kept, the larger last serial with its source (R31). -/
def PassEntry.replaceWith (held written : PassEntry) : PassEntry :=
  if held.lastSerial < written.lastSerial then { written with inFlight := held.inFlight }
  else { written with inFlight := held.inFlight, lastSerial := held.lastSerial, source := held.source }

/-! ### The decision on an ADMIT answer (R85) -/

/-- Step 2 of the decision: rows 4 and 5 of R58 cannot apply (R85). -/
def DockTest.refusal : DockTest → Option Verdict
  | .refuse v => some v
  | .again _ => some .dockBusy
  | .pass _ => none

/-- Steps 1 to 3 and 8 to 12 for the decision (R85). -/
def State.answerTests (s : State) (t : Token) (e : PassEntry) : Option Verdict :=
  firstRefusal [s.stopTest, (s.dockTest t).refusal, s.roomTest, s.entryTests t e]

/-- The decision on an ADMIT answer for the token bytes the referral held, at its dock, against the written or
transient entry; the REPLY carries `status` and the verdict code (R85). -/
def State.decideAnswer (s : State) (d : DockId) (token : List Byte) (e : PassEntry) (status : Status) : State :=
  let t := tokenOf token
  match s.answerTests t e with
  | some v =>
    ((s.modDock d Dock.unbind).verdict (readerOf d) t.dock t.passId t.serial v 0).replyWith status
      (bytesOf 1 v.code) .none
  | none => (s.admitted d t .referred e (readerOf d)).replyWith status (bytesOf 1 Verdict.admitted.code) .none

/-! ### Rearrangement (R34) -/

/-- What the end of a rearrangement does: an inserted entry becomes present, then the REPLY is queued (R34); an
ADMIT answer is decided (R84). -/
def State.finishWork (s : State) (w : RearrangementWork) : State :=
  match w with
  | .passInsert e => (s.insertPass e).reply .ok
  | .passDelete => s.reply .ok
  | .denyInsert e => { s with denies := insertDenyEntry e s.denies }.reply .ok
  | .denyDelete => s.reply .ok
  | .answerInsert e d token => (s.insertPass e).decideAnswer d token (s.countedEntry e) .ok

/-- A rearrangement that moves `moved` entries: it ends when taken if it moves none, and makes the pass store busy
otherwise (R34). -/
def State.rearrange (s : State) (moved : Nat) (w : RearrangementWork) : State :=
  if moved = 0 then s.finishWork w else { s with rearrangement := some ⟨s.clock, moved, w⟩ }

/-- REARRANGEMENT_END (R34): the last entry has moved, 1 µs for each entry after the beginning. -/
def execRearrangementEnd (s : State) : Result :=
  s.perform fun t =>
    match t.rearrangement with
    | some r => State.finishWork { t.advanceTo (r.startedAt + microSteps r.moved) with rearrangement := none } r.work
    | none => t

/-! ### Referral answers (section 4.3) -/

/-- The answer code names ADMIT (1) or REFUSE (2) (section 12.3). -/
inductive AnswerCode
  | admitted | refuse
  deriving DecidableEq, Repr

/-- The answer code of a REFERRAL_ANSWER of at least 8 bytes (R83, R185). -/
def answerCodeOf (p : List Byte) : Option AnswerCode :=
  if p.length < 8 then none
  else match fieldAt p 7 1 with
    | 1 => some .admitted
    | 2 => some .refuse
    | _ => none

/-- The referral an answer matches: the carried dock, pass id and serial together (R83). -/
def State.matchedReferral (s : State) (p : List Byte) : Option Referral :=
  s.referrals.find? fun r =>
    r.dock.val == fieldAt p 0 1 && (tokenOf r.token).passId == fieldAt p 1 4
      && (tokenOf r.token).serial == fieldAt p 5 2

/-- A REFERRAL_ANSWER that names an answer code, its length and its match checked in the order of R83. -/
def State.takeAnswer (s : State) (a : AnswerCode) (length : Nat) (act : Referral → List Byte → State → State) :
    State :=
  s.takeStation (fun f => f.isAddressed .referralAnswer && answerCodeOf f.payload == some a) fun f t =>
    if f.payload.length ≠ length then t.reply .badLength
    else match t.matchedReferral f.payload with
      | none => t.reply .noReferral
      | some r => act r f.payload t

/-- The entry an ADMIT answer carries is written, or held for this one decision if it cannot be stored (R84). -/
def State.writeAnswered (s : State) (r : Referral) (w : PassEntry) : State :=
  match s.findPass w.id with
  | some held =>
    if w.id = 0 then s.decideAnswer r.dock r.token (s.countedEntry w) .tableFull
    else (s.modPass w.id fun x => x.replaceWith w).decideAnswer r.dock r.token (held.replaceWith w) .ok
  | none =>
    if w.id = 0 ∨ 1024 ≤ s.passes.length then s.decideAnswer r.dock r.token (s.countedEntry w) .tableFull
    else s.rearrange (s.passesAbove w.id) (.answerInsert w r.dock r.token)

/-- An ADMIT answer that matches a referral: its class and dates are checked (R83); then the referral leaves the
list, its dock still bound, and the entry is written (R84). -/
def State.admitAnswer (s : State) (r : Referral) (p : List Byte) : State :=
  match classOf (fieldAt p 8 1) with
  | none => s.reply .badValue
  | some cls =>
    let w := writtenEntry (fieldAt p 1 4) cls p 8
    if w.datesCrossed then s.reply .badValue
    else { s with referrals := s.referrals.filter fun x => x.number != r.number }.writeAnswered r w

/-- REFERRAL_ANSWER_ADMIT (R83 to R85). -/
def execReferralAnswerAdmit (s : State) : Result :=
  s.perform fun t => t.takeAnswer .admitted 22 fun r p u => u.admitAnswer r p

/-- REFERRAL_ANSWER_REFUSE (R86): the referral ends with REFUSED_BY_STATION and the answer's reason byte. -/
def execReferralAnswerRefuse (s : State) : Result :=
  s.perform fun t =>
    t.takeAnswer .refuse 9 fun r p u =>
      (u.endReferral r .refusedByStation (fieldAt p 8 1)).replyWith .ok
        (bytesOf 1 Verdict.refusedByStation.code) .none

/-- REFERRAL_ANSWER_BAD_CODE (R83, R185): shorter than 8 bytes is BAD_LENGTH, another answer code BAD_VALUE. -/
def execReferralAnswerBadCode (s : State) : Result :=
  s.perform fun t =>
    t.takeStation (fun f => f.isAddressed .referralAnswer && (answerCodeOf f.payload).isNone) fun f u =>
      if f.payload.length < 8 then u.reply .badLength else u.reply .badValue

/-- REFERRAL_TIMEOUT (R82): 2,000 ms after its creation the dock's referral ends with NO_ANSWER;
REFERRAL_TIMEOUT latches if it was AWAITING_ANSWER. -/
def execReferralTimeout (d : DockId) (s : State) : Result :=
  s.perform fun t =>
    match t.referralAt d with
    | none => t
    | some r =>
      let ended := (t.advanceToCount (r.created + 20000)).endReferral r .noAnswer 0
      match r.state with
      | .awaitingAnswer => ended.latch .referralTimeout
      | .awaitingSend => ended

/-! ### Sibling notices (section 4.5) -/

/-- A delta added to rides left, saturating at 0 and at 65,534; 65,535 is kept (R39, R90). -/
def PassEntry.addDelta (e : PassEntry) (delta : Int) : PassEntry :=
  if e.ridesLeft = 65535 then e
  else { e with ridesLeft := min 65534 ((e.ridesLeft : Int) + delta).toNat }

/-- A notice at a held entry: a greater serial is taken with source NOTICE, then the delta is added (R90). -/
def PassEntry.noticed (e : PassEntry) (serial : Nat) (delta : Int) : PassEntry :=
  PassEntry.addDelta (if e.lastSerial < serial then { e with lastSerial := serial, source := .notice } else e) delta

/-- A notice shows a duplicate use (R91). -/
def PassEntry.showsDuplicate (e : PassEntry) (serial : Nat) (delta : Int) : Bool :=
  e.lastSerial == serial && delta == -1 && e.source == .localUse

/-- A duplicate use latches DUPLICATE_USE and writes the last-duplicate record (R91). -/
def State.noteDuplicate (s : State) (passId serial : Nat) (sibling : Address) : State :=
  { s with events := { s.events with lastDuplicate := some ⟨passId, serial, sibling⟩ } }.latch .duplicateUse

/-- A notice is applied to the held entry, or dropped if there is none (R90, R91). -/
def State.applyNotice (s : State) (passId serial : Nat) (delta : Int) (sibling : Address) : State :=
  match s.findPass passId with
  | none => s
  | some e =>
    let noted := if e.showsDuplicate serial delta then s.noteDuplicate passId serial sibling else s
    noted.modPass passId fun x => x.noticed serial delta

/-- NOTICE (R89): a sibling's broadcast; one from the part's own address, of another length or with another delta
is discarded. -/
def execNotice (s : State) : Result :=
  s.perform fun t =>
    t.takeStation (fun f => f.isBroadcastOf .notice) fun f u =>
      State.release (if f.source = u.station.address ∨ f.payload.length ≠ 7 then u
        else match deltaOf f.payload with
          | none => u
          | some delta => u.applyNotice (fieldAt f.payload 0 4) (fieldAt f.payload 4 2) delta f.source) .station

end Sys2Proof.Machine
end

