-- ==== Sys2Proof/Machine/PassStore.lean ====
section
/-! DEFINITION. Pass, deny and key requests (chapter 2): PASS_WRITE, PASS_DELETE, PASS_READ, DENY_WRITE, DENY_DELETE,
KEY_WRITE, KEY_CLEAR. -/

namespace Sys2Proof.Machine

/-- A PASS_WRITE of a valid class: pass id 0 and crossed dates are refused, an entry held is replaced, a full table
refuses an insert (R29 to R31). -/
def State.writePass (s : State) (w : PassEntry) : State :=
  if w.id = 0 ∨ w.datesCrossed then s.reply .badValue
  else match s.findPass w.id with
    | some _ => (s.modPass w.id fun x => x.replaceWith w).reply .ok
    | none =>
      if 1024 ≤ s.passes.length then s.reply .tableFull
      else s.rearrange (s.passesAbove w.id) (.passInsert w)

/-- PASS_WRITE (R29 to R31). -/
def execPassWrite (s : State) : Result :=
  s.perform fun t =>
    t.takeRequest .passWrite 18 fun p u =>
      match classOf (fieldAt p 4 1) with
      | none => u.reply .badValue
      | some cls => u.writePass (writtenEntry (fieldAt p 0 4) cls p 4)

/-- PASS_DELETE (R32): the entry is absent from the taking on; the higher entries then move. -/
def execPassDelete (s : State) : Result :=
  s.perform fun t =>
    t.takeRequest .passDelete 4 fun p u =>
      let id := fieldAt p 0 4
      if id = 0 then u.reply .badValue
      else match u.findPass id with
        | none => u.reply .notFound
        | some _ =>
          State.rearrange { u with passes := u.passes.filter fun e => e.id != id } (u.passesAbove id) .passDelete

/-- The entry with the lowest pass id greater than `id` (R33). -/
def State.nextPass (s : State) (id : Nat) : Option PassEntry := s.passes.find? fun e => decide (id < e.id)

/-- The reply to a PASS_READ that found `e` or nothing (R33). -/
def State.replyEntry (s : State) (e : Option PassEntry) : State :=
  match e with
  | some x => s.replyWith .ok x.bytes .none
  | none => s.reply .notFound

/-- PASS_READ (R33): EXACT (0) or NEXT (1). -/
def execPassRead (s : State) : Result :=
  s.perform fun t =>
    t.takeRequest .passRead 5 fun p u =>
      match fieldAt p 4 1 with
      | 0 => u.replyEntry (u.findPass (fieldAt p 0 4))
      | 1 => u.replyEntry (u.nextPass (fieldAt p 0 4))
      | _ => u.reply .badValue

/-- DENY_WRITE (R44). -/
def execDenyWrite (s : State) : Result :=
  s.perform fun t =>
    t.takeRequest .denyWrite 6 fun p u =>
      let w : DenyEntry := ⟨fieldAt p 0 4, optionalField (fieldAt p 4 2)⟩
      if w.id = 0 then u.reply .badValue
      else match u.findDeny w.id with
        | some _ => State.reply { u with denies := u.denies.map fun e => if e.id = w.id then w else e } .ok
        | none =>
          if 256 ≤ u.denies.length then u.reply .tableFull
          else u.rearrange (u.deniesAbove w.id) (.denyInsert w)

/-- DENY_DELETE (R45). -/
def execDenyDelete (s : State) : Result :=
  s.perform fun t =>
    t.takeRequest .denyDelete 4 fun p u =>
      let id := fieldAt p 0 4
      if id = 0 then u.reply .badValue
      else match u.findDeny id with
        | none => u.reply .notFound
        | some _ =>
          State.rearrange { u with denies := u.denies.filter fun e => e.id != id } (u.deniesAbove id) .denyDelete

/-- The key of a slot becomes `key`; a slot above 3 is refused with BAD_VALUE (R47). -/
def State.setKey (s : State) (slot : Nat) (key : Option (List Byte)) : State :=
  if h : slot < 4 then State.reply { s with keys := s.keys.set slot key } .ok else s.reply .badValue

/-- KEY_WRITE (R47). -/
def execKeyWrite (s : State) : Result :=
  s.perform fun t => t.takeRequest .keyWrite 9 fun p u => u.setKey (fieldAt p 0 1) (some (p.drop 1))

/-- KEY_CLEAR (R47). -/
def execKeyClear (s : State) : Result :=
  s.perform fun t => t.takeRequest .keyClear 1 fun p u => u.setKey (fieldAt p 0 1) none

end Sys2Proof.Machine
end

