-- ==== Sys2Proof/Machine/Reports.lean ====
section
/-! DEFINITION. Collection, events, status and restart (sections 8.4, 8.6, 8.7, 10.4): COLLECT, EVENT_READ,
EVENT_CLEAR, EVENT_MASK, EVENT_FORCE, STATUS_READ, RESTART, BAD_KIND. -/

namespace Sys2Proof.Machine

/-- COLLECT (R154, R201). -/
def execCollect (s : State) : Result :=
  s.perform fun t =>
    t.takeRequest .collect 0 fun _ u =>
      if u.marks.collect then u.reply .busyCollect
      else match u.log with
        | [] => u.reply .empty
        | r :: rest =>
          State.replyWith { u with marks := { u.marks with collect := true } } .ok
            (r.bytes ++ bytesOf 1 rest.length) .collect

/-- EVENT_READ (R158 to R160): BUSY_COLLECT while a read is outstanding; in READ_CLEARS mode an OK reply starts a
read. -/
def execEventRead (s : State) : Result :=
  s.perform fun t =>
    t.takeRequest .eventRead 0 fun _ u =>
      match u.events.clearMode with
      | .clearByRequest => u.replyWith .ok u.eventReport .none
      | .readClears =>
        if u.marks.eventRead then u.reply .busyCollect
        else
          State.replyWith
            { u with
              marks := { u.marks with eventRead := true }
              events := { u.events with carried := u.events.pending } } .ok u.eventReport .eventRead

/-- EVENT_CLEAR (R161). -/
def execEventClear (s : State) : Result :=
  s.perform fun t =>
    t.takeRequest .eventClear 2 fun p u =>
      match eventSetOf p with
      | some kinds => (u.removePending kinds).attend.reply .ok
      | none => u.reply .badValue

/-- EVENT_MASK (R162). -/
def execEventMask (s : State) : Result :=
  s.perform fun t =>
    t.takeRequest .eventMask 2 fun p u =>
      match eventSetOf p with
      | some kinds => (State.attend { u with events := { u.events with mask := kinds } }).reply .ok
      | none => u.reply .badValue

/-- EVENT_FORCE (R162): the named kinds latch, the ATTENTION rule applied once after all have. -/
def execEventForce (s : State) : Result :=
  s.perform fun t =>
    t.takeRequest .eventForce 2 fun p u =>
      match eventSetOf p with
      | some kinds => (u.latchSet kinds).reply .ok
      | none => u.reply .badValue

/-- STATUS_READ (R190). -/
def execStatusRead (s : State) : Result :=
  s.perform fun t => t.takeRequest .statusRead 0 fun _ u => u.replyWith .ok u.statusReport .none

/-- RESTART (R192): REPLY OK, whose departure is the reset, and the restart-pending mark. -/
def execRestart (s : State) : Result :=
  s.perform fun t =>
    t.takeRequest .restart 0 fun _ u =>
      State.replyWith { u with marks := { u.marks with restart := true } } .ok [] .restart

/-- A kind that names no station request; MESSAGE has a taker of its own (R180, R185). -/
def badKind (kind : KindCode) : Bool := !(kind ∈ (Kind.message :: requestKinds).map Kind.code)

/-- BAD_KIND (R185). -/
def execBadKind (s : State) : Result :=
  s.perform fun t => t.takeStation (fun f => !f.isBroadcast && badKind f.kind) fun _ u => u.reply .badKind

end Sys2Proof.Machine
end

