-- ==== Sys2Proof/Machine/Scheduler.lean ====
section
/-! DEFINITION. The latch scheduler's arrivals (chapter 5): ORDER_DEADLINE, STOP_ASSERTION, STOP_RELEASE, STOP_ALL,
SUPPLY_WRITE. -/

namespace Sys2Proof.Machine

/-- ORDER_DEADLINE (R95): 5 s after its admit uptime an order still in the queue ends SUPPLY_TIMEOUT. -/
def execOrderDeadline (d : DockId) (s : State) : Result :=
  s.perform fun t =>
    match t.queue.find? fun o => o.dock == d with
    | some o => (t.advanceToCount (o.admitUptime + 50000)).endOrder d (.failed .supplyTimeout .parked)
    | none => t

/-- One thing that an assertion of STOP ends (R106): a queued order, a pull-in, or a referral. -/
inductive StopAct
  | queued (d : DockId) | pulling (d : DockId) | referral (r : Referral)
  deriving DecidableEq, Repr

/-- A STOP at one order or referral (R87, R106, R126). -/
def State.applyStop (s : State) (a : StopAct) : State :=
  match a with
  | .queued d => s.endOrder d (.failed .abortedStop .parked)
  | .pulling d => s.driveEnd d none false (.failed .abortedStop .fromSensors)
  | .referral r => s.endReferral r .stopped 0

/-- The docks in a state, in ascending order. -/
def State.docksIn (s : State) (st : DockState) : List DockId := allDocks.filter fun d => (s.dock d).state == st

/-- What an assertion ends, in the order in which it does so. The queued orders are ended oldest first (R106) and
the referrals oldest first (R87); the order among the three blocks, and among the docks in PULLING, is open and so
a free choice (R106; entry 5). -/
def State.stopActs (s : State) : List StopAct :=
  mergeFree s.free 32 (s.queue.map fun o => .queued o.dock)
    (mergeFree s.free 16 (s.referrals.map .referral) (arrangeFree s.free 0 ((s.docksIn .pulling).map .pulling)))

/-- The effects of an assertion of STOP (R106, R126): every queued order, pull-in and referral ends, and every OPEN
dock goes to CLOSING with its stop mark set. -/
def State.stopEffects (s : State) : State :=
  (s.docksIn .opened).foldl (fun t d => t.beginClosing d true) (s.stopActs.foldl State.applyStop (s.spendFree 64))

/-- The STOP input has held a changed level for 1 ms: the STOP state follows it, and in RUNNING the arrival has its
effects (R105). A change that reverted within 1 ms is no arrival. -/
def State.stopHeld (s : State) (asserted : Bool) (effects : State → State) : State :=
  match Filter.edgeTo ⟨s.stopLevel, s.stopAsserted, s.stopChange⟩ asserted with
  | none => s
  | some changed =>
    let held := { s.advanceToCount (changed + 10) with stopAsserted := asserted }
    match held.phase with
    | .running => effects held
    | _ => held

/-- A command for one level of the STOP input, which is asserted while high (section 12.6). Where the input is at
another level it changes, and the 1 ms for which it must hold begins; where it is at that level, the 1 ms ends
(R105; entry 9). -/
def State.stopInput (s : State) (asserted : Bool) (effects : State → State) : State :=
  if s.stopLevel = asserted then s.stopHeld asserted effects
  else { s with stopLevel := asserted, stopChange := some s.uptime }

/-- STOP_ASSERTION (R105, R106): the input's level goes to asserted, and 1 ms later, at a second command, the STOP state
becomes ASSERTED; in STARTING that is all. -/
def execStopAssertion (s : State) : Result := s.perform fun t => t.stopInput true State.stopEffects

/-- STOP_RELEASE (R105, R107): the input's level goes back, and 1 ms later, at a second command, the STOP state becomes
RELEASED and grants are evaluated; in STARTING the state alone changes. -/
def execStopRelease (s : State) : Result := s.perform fun t => t.stopInput false State.evaluateGrants

/-- The effects of STOP_ALL: those of an assertion, then those of a release, which do not apply while the STOP
input is asserted (R107, R191). -/
def State.stopAllEffects (s : State) : State :=
  let stopped : State := { State.stopEffects { s with stopAsserted := true } with stopAsserted := s.stopAsserted }
  if s.stopAsserted then stopped else stopped.evaluateGrants

/-- STOP_ALL (R191): addressed, it must have no payload and is replied OK after its effects; broadcast, it acts
whatever its payload and queues no REPLY. -/
def execStopAll (s : State) : Result :=
  s.perform fun t =>
    t.takeStation (fun f => f.isAddressed .stopAll || f.isBroadcastOf .stopAll) fun f u =>
      if f.isBroadcast then u.stopAllEffects.release .station
      else if f.payload.length = 0 then u.stopAllEffects.reply .ok
      else u.reply .badLength

/-- SUPPLY_WRITE (R189): S, L and F clamped and replaced, the effective slot count recomputed with no grant
evaluation (R101). -/
def execSupplyWrite (s : State) : Result :=
  s.perform fun t =>
    t.takeRequest .supplyWrite 5 fun p u =>
      State.reply { u with supply := (supplySettingsOf p 0 u.supply).recount } .ok

end Sys2Proof.Machine
end

