-- ==== Sys2Proof/Machine/SenseUnit.lean ====
section
/-! DEFINITION. The sense unit's arrivals (chapter 7): SUPPLY_CONVERSION_COMPLETE, COIL_CONVERSION_COMPLETE,
IDLE_SUPPLY_TURN, FIXING_PERIOD_START, COIL_SAMPLING_INSTANT. -/

namespace Sys2Proof.Machine

/-- A completed supply conversion is delivered in RUNNING to the scheduler and to the drive unit (R98, R116, R139). -/
def State.deliverSupply (s : State) (c : Code) : State :=
  match s.phase with
  | .running => (s.evaluateLevel (supplyMillivolts c)).recomputeDuties (supplyMillivolts c)
  | _ => s

/-- SUPPLY_CONVERSION_COMPLETE (R138, R139): 512 steps after its sampling instant the code becomes the latest supply
sample; then the next turn begins (R133). -/
def execSupplyConversionComplete (code : Code) (s : State) : Result :=
  s.perform fun t =>
    match t.sense.converter with
    | .convertingSupply sampledAt =>
      State.endTurn
        (((t.advanceTo (sampledAt + conversionSteps)).modSense fun x => { x with latest := some code }).deliverSupply
          code)
    | _ => t

/-- COIL_CONVERSION_COMPLETE (R140): discarded if the channel's activity has changed since the fixing period start,
stored and judged otherwise; the turn then ends. -/
def execCoilConversionComplete (code : Code) (s : State) : Result :=
  s.perform fun t =>
    match t.sense.converter with
    | .convertingCoil d sampledAt changed =>
      let u := t.advanceTo (sampledAt + conversionSteps)
      State.endTurn (if changed then u else u.judgeSample d sampledAt code)
    | _ => t

/-- IDLE_SUPPLY_TURN (R134): an IDLE converter begins a supply turn 10 ms after the last supply start. -/
def execIdleSupplyTurn (s : State) : Result :=
  s.perform fun t =>
    match t.sense.converter with
    | .idle => (t.advanceToCount (t.sense.lastSupplyStart + 100)).beginSupplyTurn
    | _ => t

/-- FIXING_PERIOD_START (R136, R137): at the chosen channel's first period start the pending duty is applied (R112)
and the applied duty D is read there; below 64 the sample is skipped, otherwise the sampling instant is D / 2 steps
later. The turn's begin is not held: taken late, it is the channel's next period start (DESIGN CHOICE, entry 36). -/
def execFixingPeriodStart (s : State) : Result :=
  s.perform fun t =>
    match t.sense.converter with
    | .waiting d none _ =>
      let u := (t.advanceTo (t.nextPeriodStart d)).modDock d fun k =>
        { k with chan := { k.chan with applied := k.chan.pending } }
      if (u.dock d).chan.applied < 64 then u.endTurn
      else u.setConverter (.waiting d (some (u.clock + (u.dock d).chan.applied / 2)) false)
    | _ => t

/-- COIL_SAMPLING_INSTANT (R136): the channel's current is sampled and its conversion begins. -/
def execCoilSamplingInstant (s : State) : Result :=
  s.perform fun t =>
    match t.sense.converter with
    | .waiting d (some instant) changed =>
      let u := t.advanceTo instant
      u.setConverter (.convertingCoil d u.clock changed)
    | _ => t

end Sys2Proof.Machine
end

