-- ==== Sys2Proof/Machine/Sensors.lean ====
section
/-! DEFINITION. Sensor inputs, returns and bike identities (chapter 1, sections 1.3 to 1.5): SENSOR_RAW_CHANGE, the
four debounced edges, RETURN_PENDING_TIMER_EXPIRY and BIKE_ID. -/

namespace Sys2Proof.Machine

/-- The return pending timer's interval, 2 s (R1). -/
def returnInterval : Nat := 20000

/-- The raw level changes at uptime `t`, which begins a stable interval (R4). -/
def Filter.rawChange (f : Filter) (t : Nat) : Filter := { f with raw := !f.raw, lastChange := some t }

/-- SENSOR_RAW_CHANGE (R4, R5): the raw level of one input of a dock changes; the filter records the uptime and the
interval begins again. The filters run in STARTING too (R7). -/
def execSensorRawChange (d : DockId) (sensor : SensorId) (s : State) : Result :=
  s.perform fun t =>
    t.modDock d fun k =>
      match sensor with
      | .bikePresent => { k with bike := k.bike.rawChange t.uptime }
      | .latchOpen => { k with latch := k.latch.rawChange t.uptime }

/-- A debounced edge of bike-present: 50 ms after the raw change the level is stored (R4, R6); in RUNNING the edge
is then delivered (R7). -/
def State.bikeEdge (s : State) (d : DockId) (level : Bool) (deliver : State → State) : State :=
  match (s.dock d).bike.edgeTo level with
  | none => s
  | some captured =>
    let stored := (s.advanceToCount (captured + 500)).modDock d fun k =>
      { k with bike := { k.bike with level := level } }
    match stored.phase with
    | .running => deliver stored
    | _ => stored

/-- A debounced edge of latch-open: 5 ms after the raw change the level is stored (R5, R6); in RUNNING the edge is
delivered with its capture timestamp (R7). -/
def State.latchEdge (s : State) (d : DockId) (level : Bool) (deliver : Nat → State → State) : State :=
  match (s.dock d).latch.edgeTo level with
  | none => s
  | some captured =>
    let stored := (s.advanceToCount (captured + 50)).modDock d fun k =>
      { k with latch := { k.latch with level := level } }
    match stored.phase with
    | .running => deliver captured stored
    | _ => stored

/-- The return pending timer of dock `d` becomes `t`. -/
def State.setReturnTimer (s : State) (d : DockId) (t : ReturnTimer) : State :=
  s.modDock d fun k => { k with returnTimer := t }

/-- The bike id of dock `d` becomes `b`. -/
def State.setBikeId (s : State) (d : DockId) (b : Option Nat) : State := s.modDock d fun k => { k with bikeId := b }

/-- Return handling on a rise (R11). The combinations that cannot occur there change nothing (entry 23). -/
def State.returnOnRise (s : State) (d : DockId) : State :=
  match (s.dock d).returnTimer, (s.dock d).bikeId with
  | .stopped, none => s.setReturnTimer d (.runningForBike (s.uptime + returnInterval))
  | .runningForId _, id => (s.handOverReturn d (s.returnRecord d id)).setReturnTimer d .stopped
  | _, _ => s

/-- Return handling on a fall: a bike whose identity has not come has its record written at once (R15). -/
def State.returnOnFall (s : State) (d : DockId) : State :=
  match (s.dock d).returnTimer with
  | .runningForBike _ => (s.handOverReturn d (s.returnRecord d none)).setReturnTimer d .stopped
  | _ => s

/-- A bike-present rise at the owner of the state: a VACANT dock becomes LOOSE or PARKED (R8); elsewhere the level
alone has changed (R24, R96, R128). -/
def State.ownBikeRise (s : State) (d : DockId) : State :=
  match (s.dock d).state with
  | .vacant => s.modDock d (Dock.takeRest (if (s.dock d).latch.level then .loose else .parked))
  | _ => s

/-- A bike-present fall at the owner of the state (R9, R10, R19, R24, R96, R125). At a QUEUED
dock TAMPER, with its ATTENTION, latches before the order's end queues a refund NOTICE (DEDUCED, entry 34). -/
def State.ownBikeFall (s : State) (d : DockId) : State :=
  match (s.dock d).state with
  | .vacant => s
  | .loose => (s.modDock d (Dock.takeRest .vacant)).latch .bikeRemoved
  | .parked | .reserved => (s.modDock d (Dock.takeRest .vacant)).latch .tamper
  | .service => (s.latch .bikeRemoved).setBikeId d none
  | .queued => (s.latch .tamper).endOrder d (.failed .tampered .vacant)
  | .pulling | .opened | .closing => s.driveEnd d (some .bikeRemoved) false ⟨.rideStart, none, .vacant⟩

/-- The throw time of an edge captured at uptime `captured` (R121). -/
def Channel.throwTime (c : Channel) (captured : Nat) : Nat :=
  match c.pullInStart with
  | some start => min 65535 (captured - start)
  | none => 0

/-- A latch-open rise at a PULLING dock: the first one is captured, writes the throw time and starts the 20 ms
EXTENSION timer; a second one changes nothing more (R120). -/
def State.captureEdge (s : State) (d : DockId) (captured : Nat) : State :=
  match (s.dock d).order with
  | some o =>
    if o.throwTime.isSome then s
    else s.modDock d fun k =>
      { k with
        order := some { o with throwTime := some (k.chan.throwTime captured) }
        chan := { k.chan with timer := .extension (s.uptime + 200) } }
  | none => s

/-- A latch-open rise at the owner of the state (R8, R10, R19, R24, R96, R120, R128). At a QUEUED dock TAMPER,
with its ATTENTION, latches before the order's end queues a refund NOTICE (DEDUCED, entry 34). -/
def State.ownLatchRise (s : State) (d : DockId) (captured : Nat) : State :=
  match (s.dock d).state with
  | .vacant | .loose | .service | .opened | .closing => s
  | .parked | .reserved => (s.modDock d (Dock.takeRest .loose)).latch .tamper
  | .queued => (s.latch .tamper).endOrder d (.failed .tampered .loose)
  | .pulling => s.captureEdge d captured

/-- A latch-open fall at the owner of the state: LOOSE becomes PARKED (R9), a CLOSING dock's order ends NOT_TAKEN
with RESULT CLOSED (R129), elsewhere the level alone has changed. -/
def State.ownLatchFall (s : State) (d : DockId) : State :=
  match (s.dock d).state with
  | .loose => s.modDock d (Dock.takeRest .parked)
  | .closing => s.driveEnd d none true ⟨.notTaken, none, .parked⟩
  | _ => s

/-- BIKE_PRESENT_RISE (R4, R6, R8, R11). -/
def execBikePresentRise (d : DockId) (s : State) : Result :=
  s.perform fun t => t.bikeEdge d true fun u => (u.returnOnRise d).ownBikeRise d

/-- BIKE_PRESENT_FALL (R4, R6, R15). -/
def execBikePresentFall (d : DockId) (s : State) : Result :=
  s.perform fun t => t.bikeEdge d false fun u => (u.returnOnFall d).ownBikeFall d

/-- LATCH_OPEN_RISE (R5, R6). -/
def execLatchOpenRise (d : DockId) (s : State) : Result :=
  s.perform fun t => t.latchEdge d true fun captured u => u.ownLatchRise d captured

/-- LATCH_OPEN_FALL (R5, R6). -/
def execLatchOpenFall (d : DockId) (s : State) : Result :=
  s.perform fun t => t.latchEdge d false fun _ u => u.ownLatchFall d

/-- RETURN_PENDING_TIMER_EXPIRY (R13): without an identity a RETURN record is handed over; without a bike the id is
dropped. A timer that is STOPPED has no expiry. -/
def execReturnPendingTimerExpiry (d : DockId) (s : State) : Result :=
  s.perform fun t =>
    match (t.dock d).returnTimer with
    | .stopped => t
    | .runningForBike due =>
      let u := t.advanceToCount due
      (u.handOverReturn d (u.returnRecord d none)).setReturnTimer d .stopped
    | .runningForId due => ((t.advanceToCount due).setBikeId d none).setReturnTimer d .stopped

/-- A valid BIKE_ID at the dock's timer and level, by the table of R12. The combinations that cannot occur there
change nothing (entry 23). -/
def State.takeBikeId (s : State) (d : DockId) (id : Nat) : State :=
  match (s.dock d).returnTimer, (s.dock d).bike.level with
  | .runningForBike _, true =>
    ((s.setBikeId d (some id)).handOverReturn d (s.returnRecord d (some id))).setReturnTimer d .stopped
  | .stopped, true => s.setBikeId d (some id)
  | .stopped, false | .runningForId _, false =>
    (s.setBikeId d (some id)).setReturnTimer d (.runningForId (s.uptime + returnInterval))
  | .runningForBike _, false | .runningForId _, true => s

/-- BIKE_ID (R12): a frame of another length, for a dock above 15 or with bike id 0 is discarded. -/
def execBikeId (s : State) : Result :=
  s.perform fun t =>
    t.takeDock (fun f => f.isAddressed .bikeId) fun f u =>
      State.release (if f.payload.length = 5 ∧ fieldAt f.payload 1 4 ≠ 0 then
        match dockOf (fieldAt f.payload 0 1) with
        | some d => u.takeBikeId d (fieldAt f.payload 1 4)
        | none => u
      else u) .dock

end Sys2Proof.Machine
end

