-- ==== Sys2Proof/Machine/Dispatch.lean ====
section
/-! DEFINITION. Which meaning each command has: one arm for each constructor of Instr. -/

namespace Sys2Proof.Machine

/-- The effect of a command on everything but the queue of waiting commands. -/
def exec (i : Instr) (s : State) : Host.Outcome State Fault Refusal :=
  match i with
  | .resetRelease straps stop bike latch => Sys2Proof.Machine.execResetRelease straps stop bike latch s
  | .settingsRecordRead record => Sys2Proof.Machine.execSettingsRecordRead record s
  | .i2cTransactionTimeout cause => Sys2Proof.Machine.execI2cTransactionTimeout cause s
  | .sensorRawChange d sensor => Sys2Proof.Machine.execSensorRawChange d sensor s
  | .bikePresentRise d => Sys2Proof.Machine.execBikePresentRise d s
  | .bikePresentFall d => Sys2Proof.Machine.execBikePresentFall d s
  | .latchOpenRise d => Sys2Proof.Machine.execLatchOpenRise d s
  | .latchOpenFall d => Sys2Proof.Machine.execLatchOpenFall d s
  | .returnPendingTimerExpiry d => Sys2Proof.Machine.execReturnPendingTimerExpiry d s
  | .bikeId => Sys2Proof.Machine.execBikeId s
  | .tap => Sys2Proof.Machine.execTap s
  | .stationTimeAdvance => Sys2Proof.Machine.execStationTimeAdvance s
  | .timeSet => Sys2Proof.Machine.execTimeSet s
  | .reserve => Sys2Proof.Machine.execReserve s
  | .cancelReserve => Sys2Proof.Machine.execCancelReserve s
  | .setService => Sys2Proof.Machine.execSetService s
  | .clearService => Sys2Proof.Machine.execClearService s
  | .staffUnlock => Sys2Proof.Machine.execStaffUnlock s
  | .unknownDockCommand => Sys2Proof.Machine.execUnknownDockCommand s
  | .passWrite => Sys2Proof.Machine.execPassWrite s
  | .passDelete => Sys2Proof.Machine.execPassDelete s
  | .passRead => Sys2Proof.Machine.execPassRead s
  | .denyWrite => Sys2Proof.Machine.execDenyWrite s
  | .denyDelete => Sys2Proof.Machine.execDenyDelete s
  | .keyWrite => Sys2Proof.Machine.execKeyWrite s
  | .keyClear => Sys2Proof.Machine.execKeyClear s
  | .rearrangementEnd => Sys2Proof.Machine.execRearrangementEnd s
  | .referralAnswerAdmit => Sys2Proof.Machine.execReferralAnswerAdmit s
  | .referralAnswerRefuse => Sys2Proof.Machine.execReferralAnswerRefuse s
  | .referralTimeout d => Sys2Proof.Machine.execReferralTimeout d s
  | .notice => Sys2Proof.Machine.execNotice s
  | .orderDeadline d => Sys2Proof.Machine.execOrderDeadline d s
  | .stopAssertion => Sys2Proof.Machine.execStopAssertion s
  | .stopRelease => Sys2Proof.Machine.execStopRelease s
  | .stopAll => Sys2Proof.Machine.execStopAll s
  | .pullInStart d => Sys2Proof.Machine.execPullInStart d s
  | .pullLimitExpiry d => Sys2Proof.Machine.execPullLimitExpiry d s
  | .extensionExpiry d => Sys2Proof.Machine.execExtensionExpiry d s
  | .holdExpiry d => Sys2Proof.Machine.execHoldExpiry d s
  | .closingLimitExpiry d => Sys2Proof.Machine.execClosingLimitExpiry d s
  | .coilFaultReport => Sys2Proof.Machine.execCoilFaultReport s
  | .supplyConversionComplete code => Sys2Proof.Machine.execSupplyConversionComplete code s
  | .coilConversionComplete code => Sys2Proof.Machine.execCoilConversionComplete code s
  | .idleSupplyTurn => Sys2Proof.Machine.execIdleSupplyTurn s
  | .fixingPeriodStart => Sys2Proof.Machine.execFixingPeriodStart s
  | .coilSamplingInstant => Sys2Proof.Machine.execCoilSamplingInstant s
  | .profileWrite => Sys2Proof.Machine.execProfileWrite s
  | .supplyWrite => Sys2Proof.Machine.execSupplyWrite s
  | .collect => Sys2Proof.Machine.execCollect s
  | .eventRead => Sys2Proof.Machine.execEventRead s
  | .eventClear => Sys2Proof.Machine.execEventClear s
  | .eventMask => Sys2Proof.Machine.execEventMask s
  | .eventForce => Sys2Proof.Machine.execEventForce s
  | .statusRead => Sys2Proof.Machine.execStatusRead s
  | .restart => Sys2Proof.Machine.execRestart s
  | .badKind => Sys2Proof.Machine.execBadKind s
  | .messageFromReader => Sys2Proof.Machine.execMessageFromReader s
  | .messageToReader => Sys2Proof.Machine.execMessageToReader s
  | .frameDiscarded p => Sys2Proof.Machine.execFrameDiscarded p s
  | .frameReceived p header payload check => Sys2Proof.Machine.execFrameReceived p header payload check s
  | .frameSendStart p => Sys2Proof.Machine.execFrameSendStart p s
  | .arbitrationLost p lineHeader => Sys2Proof.Machine.execArbitrationLost p lineHeader s
  | .frameDeparture p levels => Sys2Proof.Machine.execFrameDeparture p levels s
  | .pwmPeriodStart d => Sys2Proof.Machine.execPwmPeriodStart d s
  | .resetInputAsserted => Sys2Proof.Machine.execResetInputAsserted s
  | .lineIdle p => Sys2Proof.Machine.execLineIdle p s
  | .dominantBitInWaiting p => Sys2Proof.Machine.execDominantBitInWaiting p s
  | .otherNodeStartBit p => Sys2Proof.Machine.execOtherNodeStartBit p s
  | .headerNoEnd p header => Sys2Proof.Machine.execHeaderNoEnd p header s
  | .lastEndBit p => Sys2Proof.Machine.execLastEndBit p s
  | .referralAnswerBadCode => Sys2Proof.Machine.execReferralAnswerBadCode s

end Sys2Proof.Machine
end

