-- ==== Sys2Proof/Machine/Step.lean ====
section
/-! DEFINITION. One step: the command at the front of the queue is taken; on an empty queue time passes. -/

namespace Sys2Proof.Machine

/-- One step: the first waiting command is executed on the state with the rest waiting; with none waiting the part
idles and uptime reaches its next 0.1 ms (DESIGN CHOICE, entries 1 and 21). -/
def step (s : State) : Host.Outcome State Fault Refusal :=
  match s.pending with
  | [] => .next s.tick
  | c :: rest => exec c { s with pending := rest }

/-- The command a word spells, put at the front of the queue; no word of this part spells one (decodeTableWord). -/
def State.withFetchWord (s : State) (nbits w : Nat) : State :=
  match Sys2Proof.decodeTableWord nbits w with
  | some c => { s with pending := c :: s.pending }
  | none => s

end Sys2Proof.Machine
end

