-- ==== Sys2Proof/Safety.lean ====
section
/-! DEFINITION. What a safe state is (three invariants that every step keeps), and the terms in which the statements
of Certificates/ speak: a request at the head of the station buffer, its answer, offered frames, the end of an
order. -/

namespace Sys2Proof.Machine

/-! ### The tables of the pass store (R27, R34, R39, R42) -/

/-- A pass entry's fields lie in the ranges of R27. Its in-flight count follows the docks (State.OrdersOk). -/
structure PassEntry.Ranged (e : PassEntry) : Prop where
  id : 1 ≤ e.id ∧ e.id < 4294967296
  rides : e.ridesLeft ≤ 65535
  bikes : 1 ≤ e.bikesMax ∧ e.bikesMax ≤ 4
  serial : e.lastSerial ≤ 65535
  validFrom : e.validFrom < 4294967296
  validUntil : ∀ u ∈ e.validUntil, 1 ≤ u ∧ u < 4294967296

/-- A deny entry's fields lie in the ranges of R42. -/
structure DenyEntry.Ranged (e : DenyEntry) : Prop where
  id : 1 ≤ e.id ∧ e.id < 4294967296
  floor : ∀ n ∈ e.floor, 1 ≤ n ∧ n ≤ 65535

/-- An entry that an insert is adding has a place in its table: a valid key not in it, and room (R30, R44). -/
def State.WorkFits (s : State) : RearrangementWork → Prop
  | .passInsert e | .answerInsert e _ _ => e.Ranged ∧ s.passes.length < 1024 ∧ ∀ x ∈ s.passes, x.id ≠ e.id
  | .denyInsert e => e.Ranged ∧ s.denies.length < 256 ∧ ∀ x ∈ s.denies, x.id ≠ e.id
  | .passDelete | .denyDelete => True

/-- The pass table and the deny list: strictly ascending pass ids, at most 1,024 and 256 entries, fields in range,
and what an insert in progress adds still fits (R27, R34, R42). -/
structure State.TablesOk (s : State) : Prop where
  passOrder : s.passes.Pairwise fun a b => a.id < b.id
  passCount : s.passes.length ≤ 1024
  passRange : ∀ e ∈ s.passes, e.Ranged
  denyOrder : s.denies.Pairwise fun a b => a.id < b.id
  denyCount : s.denies.length ≤ 256
  denyRange : ∀ e ∈ s.denies, e.Ranged
  work : ∀ r ∈ s.rearrangement, s.WorkFits r.work

/-! ### The slots of the link unit (R167, R177, R178, R179) -/

/-- A frame of the station receive buffer that has a station slot reserved for its REPLY (R178, condition 3). -/
def Frame.awaitsReply (f : Frame) : Bool := !f.isBroadcast && f.kind != Kind.message.code

/-- A MESSAGE that has a slot of the other port reserved for it (R178, conditions 4 and 5). -/
def Frame.awaitsForward (f : Frame) : Bool := !f.isBroadcast && f.kind == Kind.message.code

/-- Buffers and queues within their sizes, every reserved slot promised to a frame that waits, and while the pass
store is busy the request that made it so at the head (R34, R167, R177 to R179, R184). -/
structure State.LinkOk (s : State) : Prop where
  stationRx : s.station.rx.length ≤ 2
  dockRx : s.dockPort.rx.length ≤ 2
  stationSlots : s.station.tx.length + s.station.reserved ≤ 8
  dockSlots : s.dockPort.tx.length + s.dockPort.reserved ≤ 8
  stationReserved :
    s.station.reserved = s.station.rx.countP Frame.awaitsReply + s.dockPort.rx.countP Frame.awaitsForward
  dockReserved : s.dockPort.reserved = s.station.rx.countP Frame.awaitsForward
  busyHead : s.rearrangement.isSome → ∃ f ∈ s.station.rx.head?, f.awaitsReply
  stationAddress : s.station.address = Sys2Proof.stationAddress s.straps
  dockAddress : s.dockPort.address = 1

/-! ### Docks, orders, referrals and the log (R1, R37, R78, R92, R94, R101, R102, R112, R132, R149, R151) -/

/-- The order of the dock is with its record: PULLING, OPEN or CLOSING (R92). -/
def DockState.withDrive : DockState → Bool
  | .pulling | .opened | .closing => true
  | _ => false

/-- The coil may be driven: PULLING or OPEN (R112). -/
def DockState.driven : DockState → Bool
  | .pulling | .opened => true
  | _ => false

/-- A dock's fields agree with its state (R1, R92, R111, R112, R132). -/
structure Dock.Ok (k : Dock) : Prop where
  fault : k.fault.isSome ↔ k.state = .service
  reservation : k.reservation.isSome ↔ k.state = .reserved
  origin : k.origin.isSome ↔ k.inFlight
  order : k.order.isSome ↔ k.state.withDrive
  driven : k.state.driven = false → k.chan.applied = 0 ∧ k.chan.pending = 0
  duties : k.chan.applied ≤ 1024 ∧ k.chan.pending ≤ 1024
  active : k.active → k.state.driven
  pullInStart : k.chan.pullInStart.isSome → k.state.withDrive

/-- An order agrees with the record of the dock it is for (R1, R92). -/
structure Order.Bound (o : Order) (d : DockId) (k : Dock) : Prop where
  dock : o.dock = d
  origin : k.origin = some o.origin
  passId : k.boundPass = o.passId
  serial : k.boundSerial = o.serial
  staff : o.origin = .staff ↔ o.passId = none

/-- A referral agrees with the record of its dock, which has no order in flight (R1, R78). -/
structure Referral.Bound (r : Referral) (k : Dock) : Prop where
  token : dockOf (tokenOf r.token).dock = some r.dock
  resting : k.inFlight = false
  passId : k.boundPass = some (tokenOf r.token).passId
  serial : k.boundSerial = some (tokenOf r.token).serial

/-- While an ADMIT answer waits on its insert, the part is not in STARTING and the answer's dock has no order and no
referral (R84, R195). -/
def State.AnswerFits (s : State) : RearrangementWork → Prop
  | .answerInsert _ d token =>
    s.phase ≠ .starting ∧ dockOf (tokenOf token).dock = some d ∧ (s.dock d).inFlight = false ∧
      ∀ r ∈ s.referrals, r.dock ≠ d
  | _ => True

/-- Docks, orders and referrals agree with one another, each pass entry counts its docks in flight, the log has room
for every order, and no more docks pull in than four. -/
structure State.OrdersOk (s : State) : Prop where
  docks : ∀ d, (s.dock d).Ok
  held : ∀ d, ∀ o ∈ (s.dock d).order, o.Bound d (s.dock d)
  queued : ∀ o ∈ s.queue, o.Bound o.dock (s.dock o.dock) ∧ (s.dock o.dock).state = .queued
  inQueue : ∀ d, (s.dock d).state = .queued → ∃ o ∈ s.queue, o.dock = d
  queueDocks : (s.queue.map (·.dock)).Nodup
  referralDocks : (s.referrals.map (·.dock)).Nodup
  referralCount : s.referrals.length ≤ 4
  referrals : ∀ r ∈ s.referrals, r.Bound (s.dock r.dock)
  answer : ∀ r ∈ s.rearrangement, s.AnswerFits r.work
  passCounts : ∀ e ∈ s.passes, e.inFlight = s.boundInFlight e.id
  room : s.logSum ≤ 64
  slotsHeld : ∀ d, (s.dock d).pendingReturn.isSome → s.logSum = 64
  slots : 1 ≤ s.supply.slots ∧ s.supply.slots ≤ 4 ∧ s.supply.effective ≤ s.supply.slots
  pulling : s.pullingCount ≤ 4
  starting : s.phase = .starting → ∀ d, (s.dock d).inFlight = false

/-! ### Reset and start-up -/

/-- Every block but the docks is at its value after a full reset (section 11.1), whatever the pins. -/
structure State.AfterReset (t : State) : Prop where
  clock : t.clock = 0
  time : t.stationTime = 0 ∧ t.timeKnown = false
  identity : t.identity = ⟨0, 30, true, true⟩
  keys : ∀ i (h : i < 4), t.keys[i] = none
  referrals : t.referrals = []
  tables : t.passes = [] ∧ t.denies = [] ∧ t.rearrangement = none
  queue : t.queue = []
  supply : t.supply = ⟨2, 200, 150, .normal, 2⟩
  sense : t.sense = ⟨.convertingSupply 0, .coil, none, 0, none, []⟩
  log : t.log = []
  events : t.events = ⟨0, 0, 0, .readClears, .armed, none⟩
  marks : t.marks = ⟨false, false, false⟩
  station : t.station.rx = [] ∧ t.station.tx = [] ∧ t.station.reserved = 0 ∧ t.station.rate = .kbit125 ∧
    t.station.line = .waiting 0 ∧ t.station.address = 2 + t.straps.setWidth 6
  dockPort : t.dockPort = ⟨.kbit125, .waiting 0, 1, [], [], 0⟩
  stop : t.stopLevel = t.stopAsserted ∧ t.stopChange = none
  loader : t.loader = ⟨.loading, 0, none, 0, .kbit125, .kbit125⟩

/-- A dock after a full reset, with the raw sensor levels at reset release: its record (R1, R7, R26), its PWM channel
(R111) and its sense channel (R132). -/
def Dock.AfterReset (k : Dock) (bike latch : Bool) : Prop :=
  k = {
    state := .service, fault := some .unconfigured, bikeId := none, reservation := none
    boundPass := none, boundSerial := none, origin := none, returnTimer := .stopped, pendingReturn := none
    profile := ⟨120, 45, 50, 20, 100, 25⟩, configured := false
    bike := ⟨bike, bike, none⟩, latch := ⟨latch, latch, none⟩
    order := none, chan := ⟨0, 0, none, .stopped⟩, sense := ⟨.inactive, none, 0⟩ }

/-- The six profile values, each clamped to its range, the hold setting then to the pull-in setting (R187). -/
def Profile.clamped (pullIn hold maxPullIn holdTime iMax iMin : Nat) : Profile :=
  ⟨max 60 (min 240 pullIn), min (max 60 (min 240 pullIn)) (max 20 (min 240 hold)), max 10 (min 125 maxPullIn),
    max 5 (min 120 holdTime), max 1 (min 255 iMax), min 255 iMin⟩

/-- The dock stands where its debounced levels put it (R2): VACANT without a bike, LOOSE with the latch open, PARKED
with it closed. -/
def Dock.AtSensors (k : Dock) : Prop :=
  k.fault = none ∧ k.reservation = none ∧
    k.state = (if k.bike.level = false then .vacant else if k.latch.level = true then .loose else .parked) ∧
    (k.bike.level = false → k.bikeId = none)

/-! ### Terms of the statements -/

/-- An addressed request of kind `k` stands at the head of the station receive buffer of a RUNNING part that can
take it (R35, R184, R193). -/
structure State.Request (s : State) (k : Kind) (f : Frame) : Prop where
  running : s.phase = .running
  restart : s.marks.restart = false
  notBusy : s.rearrangement = none
  head : s.station.rx.head? = some f
  addressed : f.dest ≠ 0
  kind : f.kind = k.code

/-- A frame stands at the head of the dock receive buffer of a RUNNING part that can take it, addressed to the part
with kind `k` (R180, R193). -/
structure State.DockFrame (s : State) (k : Kind) (f : Frame) : Prop where
  running : s.phase = .running
  restart : s.marks.restart = false
  head : s.dockPort.rx.head? = some f
  addressed : f.dest ≠ 0
  kind : f.kind = k.code

/-- The station port once the request `f` at its head has left the buffer and a REPLY of this status, data and
priority stands at the tail of the queue in its reservation (R186). -/
def Port.answered (q : Port) (f : Frame) (priority : BitVec 2) (status : Nat) (data : List Byte)
    (owner : Owner := .none) : Port :=
  { q with
    rx := q.rx.tail
    tx := q.tx ++ [⟨⟨priority, f.source, q.address, 0x28, BitVec.ofNat 8 status :: data⟩, owner⟩]
    reserved := q.reserved - 1 }

/-- A port after a frame that needs a free slot has been offered to it (R177). -/
def Port.offered (q : Port) (t : TxFrame) : Port :=
  if q.tx.length + q.reserved < 8 then { q with tx := q.tx ++ [t] } else q

/-- A frame offered where a condition holds. -/
def Port.offeredIf (q : Port) (c : Prop) [Decidable c] (t : TxFrame) : Port := if c then q.offered t else q

/-- The VERDICT frame of section 12.2 to address `dest`. -/
def Port.verdictFrame (q : Port) (dest : Address) (dock passId serial code reason : Nat) : TxFrame :=
  ⟨⟨1, dest, q.address, 0x03,
    bytesOf 1 dock ++ bytesOf 4 passId ++ bytesOf 2 serial ++ bytesOf 1 code ++ bytesOf 1 reason⟩, .none⟩

/-- The RESULT frame of section 12.2 to the reader of dock `d`. -/
def Port.resultFrame (q : Port) (d : DockId) (code reason : Nat) : TxFrame :=
  ⟨⟨1, BitVec.ofNat 6 (16 + d.val), q.address, 0x04,
    [BitVec.ofNat 8 d.val, BitVec.ofNat 8 code, BitVec.ofNat 8 reason]⟩, .none⟩

/-- An event kind numbered `n` is in the pending set (section 8.5). -/
def State.Pending (s : State) (n : Nat) : Prop := s.events.pending.getLsbD n = true

/-- The set that holds the kind numbered `n` (section 8.5). -/
def kindSet (n : Nat) : EventSet := BitVec.twoPow 12 n

/-- Kinds have joined the pending set and left the carried set; the mask, the clear mode, the attention state and the
last-duplicate record stay (R157). -/
def State.withKinds (s : State) (kinds : EventSet) : State :=
  { s with events := { s.events with
      pending := s.events.pending ||| kinds, carried := s.events.carried &&& ~~~kinds } }

/-- `t` is `s` after the ATTENTION rule, by the table of R163. -/
def State.Attended (s t : State) : Prop :=
  let unmasked := s.events.pending &&& ~~~s.events.mask
  let after (a : Attention) : Events := { s.events with attention := a }
  (unmasked = 0 → t = { s with events := after .armed }) ∧
  (unmasked ≠ 0 → s.events.attention ≠ .armed → t = s) ∧
  (unmasked ≠ 0 → s.events.attention = .armed →
    (s.station.tx.length + s.station.reserved < 8 → t = { s with
      events := after .sent
      station := { s.station with tx := s.station.tx ++
        [⟨⟨2, 1, s.station.address, 0x2A, bytesOf 2 unmasked.toNat⟩, .none⟩] } }) ∧
    (8 ≤ s.station.tx.length + s.station.reserved → t = { s with events := after .owed }))

/-- `t` is `s` after a set of kinds has latched at once (R157): they are pending, and in RUNNING the ATTENTION rule is
applied (R163, R166). No other kind latches, and an ATTENTION is the one frame that may be queued. -/
def State.Latched (s t : State) (kinds : EventSet) : Prop :=
  (s.phase = .running → (s.withKinds kinds).Attended t) ∧ (s.phase ≠ .running → t = s.withKinds kinds)

/-! ### Sensors and returns -/

/-- A debounced edge of bike-present to `level`, captured at uptime `c`, is stored 50 ms after its raw change (R4, R6). -/
def State.bikeStored (s : State) (d : DockId) (level : Bool) (c : Nat) : State :=
  { s with
    clock := max s.clock ((c + 500) * 2048)
    docks := s.docks.set d.val { s.dock d with bike := ⟨level, level, some c⟩ } }

/-- A debounced edge of latch-open to `level`, captured at uptime `c`, is stored 5 ms after its raw change (R5, R6). -/
def State.latchStored (s : State) (d : DockId) (level : Bool) (c : Nat) : State :=
  { s with
    clock := max s.clock ((c + 50) * 2048)
    docks := s.docks.set d.val { s.dock d with latch := ⟨level, level, some c⟩ } }

/-- The state with dock `d` changed by `f` and nothing else. -/
def State.withDock (s : State) (d : DockId) (f : Dock → Dock) : State :=
  { s with docks := s.docks.set d.val (f (s.dock d)) }

/-- The RETURN record of R16. -/
def State.returnOf (s : State) (d : DockId) (bikeId : Option Nat) : OutcomeRecord :=
  ⟨.returned, .rider, d, none, none, none, if s.timeKnown then some s.stationTime else none, none, bikeId, none,
    false, false, !s.timeKnown⟩

/-- `t` is `s` after the RETURN record `r` has entered the log (R151 to R153): it stands at the tail, BIKE_RETURNED has
latched, and then LOG_HIGH if the log count has become 48. -/
def State.ReturnLogged (s t : State) (r : OutcomeRecord) : Prop :=
  ∃ u, State.Latched { s with log := s.log ++ [r] } u (kindSet 1) ∧
    (s.log.length = 47 → u.Latched t (kindSet 6)) ∧ (s.log.length ≠ 47 → t = u)

/-- `t` is `s` after a RETURN record `r` of dock `d` has been handed to the log unit (R151): with room it enters the
log, otherwise it stands in the dock's pending return slot, with LOG_OVERRUN latched if it replaces a record there. -/
structure State.HandedOver (s t : State) (d : DockId) (r : OutcomeRecord) : Prop where
  room : s.logSum < 64 → s.ReturnLogged t r
  slotEmpty : 64 ≤ s.logSum → (s.dock d).pendingReturn = none → t = s.withDock d fun k => { k with pendingReturn := some r }
  slotHeld : 64 ≤ s.logSum → (s.dock d).pendingReturn.isSome →
    (s.withDock d fun k => { k with pendingReturn := some r }).Latched t (kindSet 7)

/-- A dock that takes a resting state (VACANT, LOOSE or PARKED) has no fault kind and no reservation (R1). -/
def Dock.restAt (st : DockState) (k : Dock) : Dock := { k with state := st, fault := none, reservation := none }

/-- A dock that becomes VACANT: the bike id is absent, and a timer in RUNNING_FOR_ID stops (R3). -/
def Dock.vacated (k : Dock) : Dock :=
  { k.restAt .vacant with
    bikeId := none
    returnTimer := match k.returnTimer with
      | .runningForId _ => .stopped
      | x => x }

/-- A bike has arrived at a dock: a VACANT one becomes LOOSE or PARKED (R8). -/
def Dock.arrived (k : Dock) : Dock :=
  if k.state = .vacant then k.restAt (if k.latch.level then .loose else .parked) else k

/-- `t` is `s` after the return handling of a bike-present fall at dock `d` (R15): a return whose identity has not come
is handed over without one and its timer stops. -/
structure State.FallHandled (s t : State) (d : DockId) : Prop where
  waiting : ∀ due, (s.dock d).returnTimer = .runningForBike due →
    ∃ u, s.HandedOver u d (s.returnOf d none) ∧ t = u.withDock d fun k => { k with returnTimer := .stopped }
  otherwise : (∀ due, (s.dock d).returnTimer ≠ .runningForBike due) → t = s

/-- The port once the frame at the head of its receive buffer has been taken (R179, R180). -/
def Port.taken (q : Port) : Port := { q with rx := q.rx.tail }

/-- `t` is `s`, whose station time is known, after the reservation check (R18): a RESERVED dock whose until time is less
than station time is PARKED without a reservation, and RESERVATION_EXPIRED latches if there was one. -/
def State.ReservationsChecked (s t : State) : Prop :=
  let passed (k : Dock) : Prop := k.state = .reserved ∧ ∃ r ∈ k.reservation, r.untilTime < s.stationTime
  ((∃ d, passed (s.dock d)) → ∃ u : State, u.Latched t (kindSet 11) ∧ u = { s with docks := u.docks } ∧
    ∀ d, (passed (s.dock d) → u.dock d = { s.dock d with state := .parked, reservation := none }) ∧
      (¬passed (s.dock d) → u.dock d = s.dock d)) ∧
  ((∀ d, ¬passed (s.dock d)) → t = s)

/-! ### Requests and grants -/

/-- The state once the request `f` at the head of the station buffer has been answered (R184, R186). -/
def State.replied (s : State) (f : Frame) (priority : BitVec 2) (status : Nat) (data : List Byte := [])
    (owner : Owner := .none) : State :=
  { s with station := s.station.answered f priority status data owner }

/-- How many orders a grant evaluation grants: none while STOP is asserted, else as many of the queue as the free slots
take (R102). -/
def State.grantable (s : State) : Nat :=
  if s.stopAsserted then 0 else min s.queue.length (s.supply.effective - s.pullingCount)

/-- `t` is `s` after a grant evaluation (R102, R103, R117): the oldest orders leave the queue, each is held at its dock,
which is PULLING with its pull-in duty pending at the latest supply, and a supply strictly below the pull-in setting
marks the order underdriven. -/
structure State.GrantsMade (s t : State) : Prop where
  granted : ∀ o ∈ s.queue.take s.grantable, t.dock o.dock =
    { s.dock o.dock with
      state := .pulling
      order := some { o with underdriven := o.underdriven || decide (s.latestSupply < 100 * o.profile.pullIn) }
      chan := { (s.dock o.dock).chan with pending := targetDuty (100 * o.profile.pullIn) s.latestSupply } }
  others : ∀ d, (∀ o ∈ s.queue.take s.grantable, o.dock ≠ d) → t.dock d = s.dock d
  elsewhere : t = { s with queue := s.queue.drop s.grantable, docks := t.docks }

/-- An order is created at dock `d` from the dock's profile and joins the queue at its tail; the dock is QUEUED, bound
to the pass and serial, with no reservation and no fault kind (R23, R71, R92 to R94). -/
def State.orderQueued (s : State) (d : DockId) (origin : Origin) (passId serial : Option Nat) : State :=
  { s.withDock d (fun k =>
      { k with
        state := .queued, fault := none, reservation := none
        boundPass := passId, boundSerial := serial, origin := some origin }) with
    queue := s.queue ++ [
      { dock := d, origin := origin, passId := passId, serial := serial
        admitTime := if s.timeKnown then some s.stationTime else none
        admitUptime := s.clock / 2048, profile := (s.dock d).profile
        underdriven := false, stopMark := false, throwTime := none }] }

/-- The dock takes its state from the sensors (R2, R3). -/
def Dock.fromSensors (k : Dock) : Dock :=
  if k.bike.level = false then k.vacated else k.restAt (if k.latch.level = true then .loose else .parked)

/-! ### Referrals -/

/-- The referral outstanding at a dock, the oldest in the list if there is one (R78). -/
def State.referralOf (s : State) (d : DockId) : Option Referral := s.referrals.find? fun r => r.dock == d

/-- A referral ends: it leaves the list, its dock is bound to no pass, and a VERDICT goes to the dock's reader (R80). -/
def State.referralEnded (s : State) (r : Referral) (code reason : Nat) : State :=
  { s.withDock r.dock (fun k => { k with boundPass := none, boundSerial := none }) with
    referrals := s.referrals.filter fun x => x.number ≠ r.number
    dockPort := s.dockPort.offered (s.dockPort.verdictFrame (BitVec.ofNat 6 (16 + r.dock.val)) r.dock.val
      (tokenOf r.token).passId (tokenOf r.token).serial code reason) }

/-- The referral outstanding at a dock, if there is one, has ended with NO_ANSWER (R88). -/
def State.referralCleared (s : State) (d : DockId) : State :=
  match s.referralOf d with
  | some r => s.referralEnded r 23 0
  | none => s

/-! ### The check chain (section 3.5) -/

/-- The first case of a list whose condition holds gives `v`. -/
def FirstCase : List (Prop × Nat) → Nat → Prop
  | [], _ => False
  | (c, n) :: rest, v => (c ∧ n = v) ∨ (¬c ∧ FirstCase rest v)

/-- No condition of a list of cases holds. -/
def NoCase (cases : List (Prop × Nat)) : Prop := ∀ x ∈ cases, ¬x.1

/-- Steps 1 and 2 at dock `d`, with the codes of rows 4 and 5 for a token the dock is bound to (R56 to R58, R85). -/
def State.dockCases (s : State) (d : DockId) (t : Token) (admitted pending : Nat) : List (Prop × Nat) :=
  let k := s.dock d
  let matched := k.boundPass = some t.passId ∧ k.boundSerial = some t.serial
  let referred := ∃ r ∈ s.referrals, r.dock = d
  [(s.stopAsserted = true, 3), (k.configured = false, 4), (k.state = .vacant, 5), (k.state = .loose, 6),
    (k.state = .service, 4), (k.inFlight = true ∧ matched, admitted), (k.inFlight = true, 7),
    (referred ∧ matched, pending), (referred, 7),
    (k.state = .reserved ∧ ∃ r ∈ k.reservation, r.passId ≠ t.passId, 8)]

/-- Steps 3 to 6 for a TAP payload (R60 to R63, R43, R53). The deny check compares serial 0
too (entry 37). -/
def State.tokenCases (s : State) (p : List Byte) : List (Prop × Nat) :=
  let t := tokenOf p
  [(64 ≤ s.logSum, 9),
    (¬∃ h : t.keySlot < 4, ∃ key ∈ s.keys[t.keySlot], checkCode key (tokenBytes p) = t.check, 10),
    (t.scope ≠ 0 ∧ t.scope ≠ s.identity.group, 12),
    (∃ e ∈ s.denies.find? (fun e => e.id == t.passId), ∀ n ∈ e.floor, t.serial < n, 13)]

/-- Steps 8 to 12 against a pass entry (R65 to R69). -/
def State.entryCases (s : State) (t : Token) (e : PassEntry) : List (Prop × Nat) :=
  [(s.timeKnown = false ∧ e.cls = .rider, 16),
    (s.timeKnown = true ∧ ¬(t.issueTime ≤ s.stationTime + s.identity.skew ∧
      s.stationTime ≤ min 4294967295 (t.issueTime + t.lifetime + s.identity.skew)), 17),
    (s.timeKnown = true ∧ ¬(e.validFrom ≤ s.stationTime ∧ ∀ u ∈ e.validUntil, s.stationTime ≤ u), 18),
    (t.serial ≤ e.lastSerial, 19), (e.ridesLeft = 0 ∧ e.cls = .rider, 20), (e.bikesMax ≤ e.inFlight, 21)]

/-- `t` is `s` after a token has been admitted at dock `d` against the entry `e` (R70 to R74): the stored entry counts
the use, the order is queued and grants are evaluated, VERDICT ADMIT goes to the reader, and a NOTICE to the siblings
if notices are enabled. -/
def State.Admitted (s t : State) (d : DockId) (k : Token) (origin : Origin) (e : PassEntry) (reader : Address) : Prop :=
  let unmetered : Bool := e.ridesLeft = 65535 ∨ e.cls = .staff
  let used : State := { s with passes := s.passes.map fun x =>
    if x.id = k.passId then
      { x with
        ridesLeft := if x.ridesLeft = 65535 ∨ x.cls = .staff then x.ridesLeft else x.ridesLeft - 1
        lastSerial := k.serial, source := .localUse, inFlight := x.inFlight + 1 }
    else x }
  ∃ u, (used.orderQueued d origin (some k.passId) (some k.serial)).GrantsMade u ∧
    t = { u with
      dockPort := s.dockPort.offered (s.dockPort.verdictFrame reader k.dock k.passId k.serial 1 0)
      station := s.station.offeredIf (s.identity.noticeEnable = true)
        ⟨⟨2, 0, s.station.address, 0x24, bytesOf 4 k.passId ++ bytesOf 2 k.serial ++ [if unmetered then 0 else 0xFF]⟩,
          .none⟩ }

/-- `t` is `s` after the decision on an ADMIT answer at dock `d` for the payload `p` that its referral held (R85), and
the REPLY to the answer `f`: the first failing step of 1 to 3 and 8 to 12 unbinds the dock and gives the verdict, and
with none the token is admitted with origin REFERRED. -/
def State.Decided (s t : State) (f : Frame) (d : DockId) (p : List Byte) (e : PassEntry) (status : Nat) : Prop :=
  let k := tokenOf p
  let reader := BitVec.ofNat 6 (16 + d.val)
  let cases := s.dockCases d k 7 7 ++ [(64 ≤ s.logSum, 9)] ++ s.entryCases k e
  (∀ v, FirstCase cases v → t = State.replied
    { s.withDock d (fun x => { x with boundPass := none, boundSerial := none }) with
      dockPort := s.dockPort.offered (s.dockPort.verdictFrame reader k.dock k.passId k.serial v 0) }
    f 2 status [BitVec.ofNat 8 v]) ∧
  (NoCase cases → ∃ u, s.Admitted u d k .referred e reader ∧ t = u.replied f 2 status [1])

/-! ### The pass store -/

/-- The entry as PASS_WRITE or an ADMIT answer carries it in 14 bytes from offset `off` (R29, R84). -/
def carriedEntry (id : Nat) (cls : PassClass) (p : List Byte) (off : Nat) : PassEntry where
  id := id
  cls := cls
  validFrom := fieldAt p (off + 1) 4
  validUntil := if fieldAt p (off + 5) 4 = 0 then none else some (fieldAt p (off + 5) 4)
  ridesLeft := fieldAt p (off + 9) 2
  bikesMax := max 1 (min 4 (fieldAt p (off + 11) 1))
  lastSerial := fieldAt p (off + 12) 2
  source := .written
  inFlight := 0

/-- A held entry replaced by a written one: the in-flight count stays, and of the two last serials the larger, the held
one with its source when they are equal (R31). -/
def PassEntry.replacedBy (held written : PassEntry) : PassEntry :=
  { written with
    inFlight := held.inFlight
    lastSerial := max held.lastSerial written.lastSerial
    source := if held.lastSerial < written.lastSerial then .written else held.source }

/-- The table with an entry replaced (R31). -/
def State.passReplaced (s : State) (w : PassEntry) : State :=
  { s with passes := s.passes.map fun e => if e.id = w.id then e.replacedBy w else e }

/-- The docks in flight that are bound to a pass (R37). -/
def State.docksOf (s : State) (id : Nat) : Nat :=
  (List.finRange 16).countP fun d => (s.dock d).inFlight && decide ((s.dock d).boundPass = some id)

/-- The table with an entry inserted in ascending order, its in-flight count taken from the docks (R30). -/
def State.passInserted (s : State) (w : PassEntry) : State :=
  { s with passes := s.passes.filter (fun e => e.id < w.id) ++ { w with inFlight := s.docksOf w.id } ::
    s.passes.filter (fun e => w.id < e.id) }

/-- The deny list with an entry inserted in ascending order (R44). -/
def State.denyInserted (s : State) (w : DenyEntry) : State :=
  { s with denies := s.denies.filter (fun e => e.id < w.id) ++ w :: s.denies.filter (fun e => w.id < e.id) }

/-- A rearrangement that moves `n` entries has begun (R34). -/
def State.rearranging (s : State) (n : Nat) (w : RearrangementWork) : State :=
  { s with rearrangement := some ⟨s.clock, n, w⟩ }

/-! ### Supply and sense unit -/

/-- A PULLING dock's pull-in duty and an OPEN dock's hold duty are computed anew at `vs` mV and become pending; a supply
strictly below the pull-in setting marks a PULLING dock's order underdriven (R115, R116). -/
def Dock.atSupply (vs : Nat) (k : Dock) : Dock :=
  match k.state, k.order with
  | .pulling, some o =>
    { k with
      order := some { o with underdriven := o.underdriven || decide (vs < 100 * o.profile.pullIn) }
      chan := { k.chan with pending := targetDuty (100 * o.profile.pullIn) vs } }
  | .opened, some o => { k with chan := { k.chan with pending := targetDuty (100 * o.profile.hold) vs } }
  | _, _ => k

/-- `t` is `s` after an evaluation of the supply level at `vs` mV (R99 to R102): the level and the effective slot count
follow, a move down latches its events, and a changed count evaluates grants. At a direct fall from NORMAL to
BELOW_FLOOR the two events latch one after the other, in either order, or at once (entry 7: R100 leaves it open). -/
def State.LevelEvaluated (s t : State) (vs : Nat) : Prop :=
  let level := s.supply.nextLevel vs
  let effective := match level with
    | .normal => s.supply.slots
    | .low => max 1 (s.supply.slots / 2)
    | .belowFloor => 0
  let moved (count : Nat) : State :=
    { s with supply := { s.supply with level := level, effective := effective }, freeCount := count }
  ∃ u,
    (s.supply.level = .normal → level = .low → (moved s.freeCount).Latched u (kindSet 4)) ∧
    (s.supply.level = .low → level = .belowFloor → (moved s.freeCount).Latched u (kindSet 5)) ∧
    (s.supply.level = .normal → level = .belowFloor → ∃ count,
      (∃ v, (moved count).Latched v (kindSet 4) ∧ v.Latched u (kindSet 5)) ∨
      (∃ v, (moved count).Latched v (kindSet 5) ∧ v.Latched u (kindSet 4)) ∨
      (moved count).Latched u (kindSet 4 ||| kindSet 5)) ∧
    (level = s.supply.level ∨ s.supply.level = .belowFloor ∨ level = .normal → u = moved s.freeCount) ∧
    (effective = s.supply.effective → t = u) ∧ (effective ≠ s.supply.effective → u.GrantsMade t)

/-! ### The settings load -/

/-- The rate of a rate code: 0, 1 and 2, and a code above 2 clamped to 2 (R197). -/
def codedRate (code : Byte) : Rate :=
  match code.toNat with
  | 0 => .kbit62
  | 1 => .kbit125
  | _ => .kbit250

/-- An identity record's data bytes set the six identity values (R197, section 12.5). -/
def State.identitySet (s : State) (b1 b2 b3 b4 b5 b6 : Byte) : State :=
  { s with
    identity := ⟨b1.toNat * 256 + b2.toNat, b6.toNat, b5.getLsbD 0, b5.getLsbD 1⟩
    events := { s.events with clearMode := if b5.getLsbD 2 then .clearByRequest else .readClears }
    loader := { s.loader with dockRate := codedRate b3, stationRate := codedRate b4 } }

/-- A supply record's data bytes set S, L and F, clamped, and the effective slot count follows (R189, R197, R98). -/
def State.supplySet (s : State) (b1 b2 b3 b4 b5 : Byte) : State :=
  let slots := max 1 (min 4 b1.toNat)
  let lowMark := max 60 (min 400 (b2.toNat * 256 + b3.toNat))
  { s with supply := { s.supply with
      slots := slots
      lowMark := lowMark
      floor := max 50 (min (lowMark - 5) (b4.toNat * 256 + b5.toNat))
      effective := match s.supply.level with
        | .normal => slots
        | .low => max 1 (slots / 2)
        | .belowFloor => 0 } }

/-- A profile record's data bytes set the dock's profile, clamped, and its configured flag (R187, R197). -/
def State.profileSet (s : State) (d : DockId) (b1 b2 b3 b4 b5 b6 b7 : Byte) : State :=
  s.withDock d fun k => { k with
    profile := Profile.clamped b1.toNat b2.toNat b3.toNat b4.toNat b5.toNat b6.toNat
    configured := b7 != 0 }

/-- A port takes a rate; one whose rate changes waits for a fresh idle from now on (R168). -/
def Port.atRate (q : Port) (rate : Rate) (clock : Nat) : Port :=
  if q.rate = rate then q else { q with rate := rate, line := .waiting clock }

/-- `t` is the entry into RUNNING of `s`, whose load has ended with `status` (sections 11.4 and 11.5): LOAD_ERROR
latches unless the load is COMPLETE, the ports take their segments' rates, each configured dock takes its state from the
sensors, and the level is evaluated once from the latest supply sample and the ATTENTION rule applied once, in either
order (entry 6: R199 leaves it open). -/
def State.EnteredRunning (s : State) (status : LoadStatus) (t : State) : Prop :=
  let entered (count : Nat) : State := { s with
    phase := .running
    loader := { s.loader with status := status }
    events := if status = .complete then s.events else (s.withKinds (kindSet 9)).events
    station := s.station.atRate s.loader.stationRate s.clock
    dockPort := s.dockPort.atRate s.loader.dockRate s.clock
    docks := s.docks.map fun k => if k.configured = true then k.fromSensors else k
    freeCount := count }
  let evaluated (u v : State) : Prop := match s.sense.latest with
    | some c => u.LevelEvaluated v (10 * c.toNat)
    | none => v = u
  ∃ count v, ((entered count).Attended v ∧ evaluated v t) ∨ (evaluated (entered count) v ∧ v.Attended t)

/-! ### Events and departures -/

/-- `t` is `s` after a departure from the station queue has reached the event unit (R164): an ATTENTION that is OWED is
queued if kinds are pending unmasked and a slot is free, and nothing else happens. -/
def State.OwedPaid (s t : State) : Prop :=
  let unmasked := s.events.pending &&& ~~~s.events.mask
  let due := s.events.attention = .owed ∧ unmasked ≠ 0 ∧ s.station.tx.length + s.station.reserved < 8
  (due → t = { s with
    events := { s.events with attention := .sent }
    station := { s.station with tx := s.station.tx ++
      [⟨⟨2, 1, s.station.address, 0x2A, bytesOf 2 unmasked.toNat⟩, .none⟩] } }) ∧ (¬due → t = s)

/-- `t` is `s` after a record has left the log (R152): the pending return slot of the lowest-numbered dock that has one
is emptied into the log, with BIKE_RETURNED. -/
def State.Drained (s t : State) : Prop :=
  ((∀ d, (s.dock d).pendingReturn = none) → t = s) ∧
  (∀ d r, (s.dock d).pendingReturn = some r → (∀ x, x < d → (s.dock x).pendingReturn = none) →
    (s.withDock d fun k => { k with pendingReturn := none }).ReturnLogged t r)

/-- `t` is `s` once the owner of a frame has been told that it left, acknowledged or not (R81, R155, R159, R176, R192).
The full reset of a RESTART samples the straps, the level of the STOP input and the raw sensor levels. -/
def State.Told (s t : State) (owner : Owner) (acknowledged : Prop) (straps : BitVec 3) : Prop :=
  match owner with
  | .none => t = s
  | .referral n =>
    ((∀ r ∈ s.referrals, r.number ≠ n) → t = s) ∧
    (∀ r, s.referrals.find? (fun r => r.number == n) = some r →
      (acknowledged → t = { s with referrals := s.referrals.map fun r =>
        if r.number = n then { r with state := .awaitingAnswer } else r }) ∧
      (¬acknowledged → t = s.referralEnded r 23 0))
  | .collect =>
    let cleared : State := { s with marks := { s.marks with collect := false } }
    (acknowledged → State.Drained { cleared with log := s.log.tail } t) ∧ (¬acknowledged → t = cleared)
  | .eventRead =>
    let dropped : State := { s with
      marks := { s.marks with eventRead := false }, events := { s.events with carried := 0 } }
    (acknowledged → State.Attended { dropped with
      events := { dropped.events with pending := s.events.pending &&& ~~~s.events.carried } } t) ∧
    (¬acknowledged → t = dropped)
  | .restart => t.AfterReset ∧ t.phase = .starting ∧ t.straps = straps ∧ t.stopAsserted = s.stopLevel ∧
    (∀ d, (t.dock d).AfterReset (s.dock d).bike.raw (s.dock d).latch.raw) ∧ t.pending = s.pending

/-- The 26 bytes of an outcome record (R201). -/
def OutcomeRecord.layout (r : OutcomeRecord) : List Byte :=
  [match r.kind with | .rideStart => (1 : Byte) | .notTaken => 2 | .unlockFailed => 3 | .returned => 4,
    match r.origin with | .rider => (1 : Byte) | .referred => 2 | .staff => 3, BitVec.ofNat 8 r.dock.val] ++
  bytesOf 4 (r.passId.getD 0) ++ bytesOf 2 (r.serial.getD 0) ++ bytesOf 4 (r.admitTime.getD 0) ++
  bytesOf 4 (r.endTime.getD 0) ++ bytesOf 2 (r.throwTime.getD 0) ++ bytesOf 4 (r.bikeId.getD 0) ++
  [match r.reason with
    | none => (0 : Byte) | some .supplyTimeout => 1 | some .latchJam => 2 | some .noOpenLowSupply => 3
    | some .overcurrent => 4 | some .undercurrent => 5 | some .abortedStop => 6 | some .abortedService => 7
    | some .tampered => 8,
    BitVec.ofNat 8 (r.underdriven.toNat + 2 * r.refundApplied.toNat + 4 * r.timeUnknown.toNat),
    BitVec.ofNat 8 (r.admitTime.isSome.toNat + 2 * r.endTime.isSome.toNat + 4 * r.throwTime.isSome.toNat)]

/-! ### The end of an order -/

/-- The refund of an ending is applied: the order is of a pass, the bike was not taken, and the pass entry is held,
limited and not of class STAFF (R40, R109). -/
def State.RefundDue (s : State) (o : Order) (kind : OutcomeKind) : Prop :=
  kind ≠ .rideStart ∧ o.origin ≠ .staff ∧
    ∃ e, s.passes.find? (fun e => some e.id == o.passId) = some e ∧ e.ridesLeft ≠ 65535 ∧ e.cls = .rider

/-- A pass entry after the end of the order `o`, refunded or not (R38, R40). -/
def Order.settledEntry (o : Order) (refunded : Bool) (e : PassEntry) : PassEntry :=
  if o.origin ≠ .staff ∧ some e.id = o.passId then
    { e with
      inFlight := e.inFlight - 1
      ridesLeft := if refunded then min 65534 (e.ridesLeft + 1) else e.ridesLeft }
  else e

/-- A dock that an ending names SERVICE with a fault kind, or otherwise stands at its sensors: a named resting state that
the debounced levels do not bear out gives way to them (R2, R3, R110). -/
def Dock.settledAs (named : Option FaultKind) (k : Dock) : Dock :=
  match named with
  | none => k.fromSensors
  | some f => { k with state := .service, fault := some f, reservation := none }

/-- `t` is `s` after the order `o` of dock `d` has ended with a settled kind and reason (R108 to R110, R119), but for the
grants that follow. First the coil of a dock that is PULLING, OPEN or CLOSING goes off, its phase timer is STOPPED, its
pull-in start absent and its channel inactive. Then the ending's event latches, if it has one; the pass entry is settled
and a refund told to the siblings; the record stands at the tail of the log, LOG_HIGH latching if the log count has
become 48. RESULT CLOSED is queued if `closed`, and RESULT FAILED for UNLOCK_FAILED. The order is gone, every other order
keeps its place, and the dock, no longer bound, is as `named` gives. (The event ahead of the refund's NOTICE at a QUEUED
dock is entry 34, and the NOTICE ahead of LOG_HIGH entry 17.) -/
def State.EndedAt (s t : State) (d : DockId) (o : Order) (closed : Bool) (kind : OutcomeKind) (reason : Option Reason)
    (event : Option Nat) (named : Option FaultKind) : Prop :=
  let off := if (s.dock d).state = .queued then s
    else State.setActivity (s.withDock d fun k => { k with chan := ⟨0, 0, none, .stopped⟩ }) d .inactive
  let offered := if closed then s.dockPort.offered (s.dockPort.resultFrame d 2 0) else s.dockPort
  ∃ (refunded : Bool) (u v : State), (refunded ↔ s.RefundDue o kind) ∧
    (event = none → u = off) ∧ (∀ n, event = some n → off.Latched u (kindSet n)) ∧
    let written : State := { u with
      passes := s.passes.map (o.settledEntry refunded)
      station := u.station.offeredIf (refunded = true ∧ s.identity.noticeEnable = true)
        ⟨⟨2, 0, s.station.address, 0x24, bytesOf 4 (o.passId.getD 0) ++ bytesOf 2 (o.serial.getD 0) ++ [1]⟩, .none⟩
      log := s.log ++ [
        { kind := kind, origin := o.origin, dock := d, passId := o.passId, serial := o.serial
          admitTime := o.admitTime
          endTime := if s.timeKnown then some s.stationTime else none
          throwTime := o.throwTime, bikeId := (s.dock d).bikeId, reason := reason
          underdriven := o.underdriven, refundApplied := refunded
          timeUnknown := o.admitTime.isNone || !s.timeKnown }] }
    (s.log.length = 47 → written.Latched v (kindSet 6)) ∧ (s.log.length ≠ 47 → v = written) ∧
    t = { v.withDock d (fun k =>
        { k with boundPass := none, boundSerial := none, origin := none, order := none }.settledAs named) with
      dockPort := offered.offeredIf (kind = .unlockFailed)
        (s.dockPort.resultFrame d 3 ((reason.map Reason.code).getD 0))
      queue := s.queue.filter fun x => x.dock ≠ d }

/-- `t` is `s` after the order `o` of dock `d` has ended, and grants have been evaluated if the dock was PULLING, since it
gives up its slot (R102, R110, R119). -/
def State.Ended (s t : State) (d : DockId) (o : Order) (closed : Bool) (kind : OutcomeKind) (reason : Option Reason)
    (event : Option Nat) (named : Option FaultKind) : Prop :=
  ∃ u, s.EndedAt u d o closed kind reason event named ∧
    ((s.dock d).state = .pulling → u.GrantsMade t) ∧ ((s.dock d).state ≠ .pulling → t = u)

/-! ### STOP -/

/-- `t` is `s` once a list of orders and referrals has ended, one after the other: each order UNLOCK_FAILED with
ABORTED_STOP, its dock at its sensors, and each referral with VERDICT STOPPED (R87, R106, R126). -/
def State.StopSequence (s : State) : List (Order ⊕ Referral) → State → Prop
  | [], t => t = s
  | .inl o :: rest, t =>
    ∃ u, s.EndedAt u o.dock o false .unlockFailed (some .abortedStop) none none ∧ u.StopSequence rest t
  | .inr r :: rest, t => (s.referralEnded r 3 0).StopSequence rest t

/-- An OPEN dock becomes CLOSING at a STOP: its order's stop mark is set, its coil goes off with 1 s to run, and the sense
unit is told that its channel is inactive (R126, R133, R136). -/
def State.stopClosed (s : State) (d : DockId) : State :=
  State.setActivity (s.withDock d fun k =>
    { k with
      state := .closing
      order := k.order.map fun o => { o with stopMark := true }
      chan := { k.chan with
        applied := 0, pending := 0, timer := .closingLimit (s.clock / 2048 + 10000) } }) d .inactive

/-- `t` is `s` after the effects of an assertion of STOP (R87, R106, R126): every queued order, oldest first, every
pull-in and every referral, oldest first, has ended, and then every OPEN dock is CLOSING with its coil off and its
order's stop mark set. How the endings of the three blocks, and those of the docks in PULLING, fall among one another is
open (R106; entry 5); no order among the OPEN docks is claimed. -/
structure State.StopTaken (s t : State) : Prop where
  sequence : ∃ (count : Nat) (ends : List (Order ⊕ Referral)) (closing : List DockId) (u : State),
    State.StopSequence { s with stopAsserted := true, freeCount := count } ends u ∧
    ends.filterMap Sum.getRight? = s.referrals ∧
    ((ends.filterMap Sum.getLeft?).filter fun o => (s.dock o.dock).state = .queued) = s.queue ∧
    (∀ o, .inl o ∈ ends → (s.dock o.dock).state = .queued ∨
      (s.dock o.dock).state = .pulling ∧ (s.dock o.dock).order = some o) ∧
    (((ends.filterMap Sum.getLeft?).filter fun o => (s.dock o.dock).state = .pulling).map (·.dock)).Perm
      ((List.finRange 16).filter fun d => (s.dock d).state = .pulling) ∧
    closing.Perm ((List.finRange 16).filter fun d => (s.dock d).state = .opened) ∧
    t = { closing.foldl State.stopClosed u with stopAsserted := t.stopAsserted } ∧
    ∀ d, (s.dock d).state ≠ .opened → t.dock d = u.dock d
  queue : t.queue = []
  referrals : t.referrals = []
  ended : ∀ d, (s.dock d).state = .queued ∨ (s.dock d).state = .pulling → (t.dock d).AtSensors ∧
    (t.dock d).order = none ∧ (t.dock d).boundPass = none ∧ (t.dock d).boundSerial = none ∧
    (t.dock d).origin = none ∧ (t.dock d).chan.applied = 0 ∧ (t.dock d).chan.pending = 0
  opened : ∀ d, (s.dock d).state = .opened → t.dock d =
    { s.dock d with
      state := .closing
      order := (s.dock d).order.map fun o => { o with stopMark := true }
      chan := { (s.dock d).chan with applied := 0, pending := 0, timer := .closingLimit (s.clock / 2048 + 10000) }
      sense := if (s.dock d).sense.activity = .inactive then (s.dock d).sense else ⟨.inactive, none, 0⟩ }
  referred : ∀ r ∈ s.referrals, t.dock r.dock = { s.dock r.dock with boundPass := none, boundSerial := none }
  others : ∀ d, (s.dock d).state ∉ [DockState.queued, .pulling, .opened] → (∀ r ∈ s.referrals, r.dock ≠ d) →
    t.dock d = s.dock d
  log : ∃ records, t.log = s.log ++ records ∧
    (∀ x ∈ records, x.kind = .unlockFailed ∧ x.reason = some .abortedStop) ∧ (records.map (·.dock)).Nodup ∧
    ((records.map (·.dock)).filter fun d => (s.dock d).state = .queued) = s.queue.map (·.dock) ∧
    ∀ d, d ∈ records.map (·.dock) ↔ (s.dock d).state = .queued ∨ (s.dock d).state = .pulling
  passes : t.passes.map (·.id) = s.passes.map (·.id) ∧ t.passes.map (·.lastSerial) = s.passes.map (·.lastSerial)
  elsewhere : t.phase = s.phase ∧ t.clock = s.clock ∧ t.stationTime = s.stationTime ∧ t.timeKnown = s.timeKnown ∧
    t.identity = s.identity ∧ t.keys = s.keys ∧ t.denies = s.denies ∧ t.rearrangement = s.rearrangement ∧
    t.supply = s.supply ∧ t.marks = s.marks ∧ t.loader = s.loader ∧ t.station.rx = s.station.rx ∧
    t.dockPort.rx = s.dockPort.rx ∧ t.stopLevel = s.stopLevel ∧ t.stopChange = s.stopChange ∧ t.pending = s.pending

end Sys2Proof.Machine
end

