-- ==== Sys2Proof/Certificates/Slice0/Obligations.lean ====
section
/-! DEFINITION. The statements for the provers, written from the numbered rules of spec/. OBLIGATIONS.json lists them. -/

open Sys2Proof Sys2Proof.Machine

/-! ### The queue of commands, reset and start-up -/

/-- A step executes the command at the front of the queue on the state with the rest waiting. -/
def Obligations.StepRunsFrontCommand : Prop :=
  ∀ (c : Instr) (rest : List Instr) (s : State),
    step { s with pending := c :: rest } = exec c { s with pending := rest }

/-- Every command whose operands have their row's shape answers a next state and leaves the queue of waiting commands
alone; the two rows whose operands may have another shape, a record that is not 8 bytes long and a payload of another
length than its header's, refuse such operands by their own names (entry 28). That a command whose arrival cannot occur
answers a next state too is the model's choice (entry 2). -/
def Obligations.CommandsComplete : Prop :=
  (∀ (c : Instr) (s : State), c.wellFormed = true → ∃ t, exec c s = .next t ∧ t.pending = s.pending) ∧
  (∀ (c : Instr), c.wellFormed = false →
    (∃ record, c = .settingsRecordRead record) ∨ (∃ p header payload check, c = .frameReceived p header payload check)) ∧
  (∀ (record : List Byte) (s : State), record.length ≠ 8 →
    exec (.settingsRecordRead record) s = .refused (.illFormed "SETTINGS_RECORD_READ")) ∧
  (∀ (p : PortId) (header : BitVec 32) (payload : List Byte) (check : BitVec 16) (s : State),
    payload.length ≠ headerLength header →
      exec (.frameReceived p header payload check) s = .refused (.illFormed "FRAME_RECEIVED"))

/-- Held in reset, the part does nothing until the reset is released (section 11.1; entry 14). The model's choice (entries
1 and 21): with no command waiting, uptime moves on to its next 0.1 ms and nothing else does, and not even that in reset. -/
def Obligations.HeldInReset : Prop :=
  (∀ (c : Instr) (s : State), s.phase = .inReset → c.wellFormed = true →
    (∀ straps stop bike latch, c ≠ .resetRelease straps stop bike latch) → c ≠ .resetInputAsserted →
    exec c s = .next s) ∧
  (∀ s : State, s.pending = [] →
    (s.phase = .inReset → step s = .next s) ∧
    (s.phase ≠ .inReset → step s = .next { s with clock := (s.clock / 2048 + 1) * 2048 }))

/-- RESET_RELEASE and RESET_INPUT_ASSERTED leave the full reset of section 11.1: STARTING, or held in reset, with
every block and every dock at its reset values. The straps, the level of the STOP input and the raw sensor levels are
those of the pins at the release. The model's choices: a release is taken in every phase (entry 13), and an assertion
shows the reset values at once, with the pin levels last known, until the release samples them (entries 9, 10 and 14). -/
def Obligations.FullReset : Prop :=
  ∀ (straps : BitVec 3) (stop : Bool) (bike latch : BitVec 16) (s : State),
    (∃ t, exec (.resetRelease straps stop bike latch) s = .next t ∧ t.AfterReset ∧ t.phase = .starting ∧
      t.straps = straps ∧ t.stopAsserted = stop ∧
      (∀ d, (t.dock d).AfterReset (bike.getLsbD d.val) (latch.getLsbD d.val)) ∧ t.pending = s.pending) ∧
    (∃ t, exec .resetInputAsserted s = .next t ∧ t.AfterReset ∧ t.phase = .inReset ∧
      t.straps = s.straps ∧ t.stopAsserted = s.stopLevel ∧
      (∀ d, (t.dock d).AfterReset (s.dock d).bike.raw (s.dock d).latch.raw) ∧ (∀ d, t.coilHigh d = false) ∧
      t.pending = s.pending)

/-- The settings load (sections 11.3 and 12.5). In STARTING the loader addresses record i at byte address 8 × i of the
memory at 0x53, and outside STARTING nothing. SETTINGS_RECORD_READ within 10 ms of the transaction's start, with a rising
tag and before record 31: an identity, supply or profile record sets its values, clamped, and the loader goes on to the
next record. That the next transaction starts at the same instant is the model's choice (entry 24). -/
def Obligations.SettingsRecordApplied : Prop :=
  (∀ s : State,
    (s.phase = .starting → s.addressBytes =
      [.device 0x53 false, .byteAddress (BitVec.ofNat 8 (8 * s.loader.index)), .device 0x53 true]) ∧
    (s.phase ≠ .starting → s.addressBytes = [])) ∧
  ∀ (s : State) (tag b1 b2 b3 b4 b5 b6 b7 : Byte), s.phase = .starting → s.loader.index ≠ 31 →
    s.clock ≤ (s.loader.startedAt + 100) * 2048 → (∀ t ∈ s.loader.lastTag, t < tag.toNat) →
    let result := exec (.settingsRecordRead [tag, b1, b2, b3, b4, b5, b6, b7]) s
    let goesOn (t : State) : State := { t with loader := { t.loader with
      index := s.loader.index + 1, lastTag := some tag.toNat, startedAt := s.clock / 2048 } }
    (tag = 0x01 → result = .next (goesOn (s.identitySet b1 b2 b3 b4 b5 b6))) ∧
    (tag = 0x02 → result = .next (goesOn (s.supplySet b1 b2 b3 b4 b5))) ∧
    (∀ d : DockId, tag.toNat = 16 + d.val → result = .next (goesOn (s.profileSet d b1 b2 b3 b4 b5 b6 b7)))

/-- The ways a load ends (section 11.4), and the entry into RUNNING that follows at once (section 11.5). A failed
transaction ends it ABSENT at record 0 and ERROR at a later one, and so does one that has not completed 10 ms after its
start, its record not applied; the end tag ends it COMPLETE; a tag that does not rise or that names nothing ends it ERROR
at its record; and a record applied at index 31 ends it ERROR at 32. A time-out reported late is taken where the clock
stands (entries 1 and 29), and the order of the level evaluation and the ATTENTION rule at the entry is entry 6. -/
def Obligations.LoadEnds : Prop :=
  ∀ s : State, s.phase = .starting → s.queue = [] →
    let failed : LoadStatus := if s.loader.index = 0 then .absent else .error s.loader.index
    let due := (s.loader.startedAt + 100) * 2048
    (∀ cause : I2cFailure, ∃ t, exec (.i2cTransactionTimeout cause) s = .next t ∧
      State.EnteredRunning (if cause = .timedOut then { s with clock := max s.clock due } else s) failed t) ∧
    (∀ record : List Byte, record.length = 8 → due < s.clock →
      ∃ t, exec (.settingsRecordRead record) s = .next t ∧ s.EnteredRunning failed t) ∧
    (∀ tag b1 b2 b3 b4 b5 b6 b7 : Byte, s.clock ≤ due →
      let result := exec (.settingsRecordRead [tag, b1, b2, b3, b4, b5, b6, b7]) s
      ((∃ x ∈ s.loader.lastTag, tag.toNat ≤ x) →
        ∃ t, result = .next t ∧ s.EnteredRunning (.error s.loader.index) t) ∧
      ((∀ x ∈ s.loader.lastTag, x < tag.toNat) →
        (tag = 0xFF → ∃ t, result = .next t ∧ s.EnteredRunning .complete t) ∧
        (tag = 0x00 ∨ (0x03 ≤ tag.toNat ∧ tag.toNat < 0x10) ∨ (0x20 ≤ tag.toNat ∧ tag.toNat < 0xFF) →
          ∃ t, result = .next t ∧ s.EnteredRunning (.error s.loader.index) t) ∧
        (s.loader.index = 31 →
          (tag = 0x01 → ∃ t, result = .next t ∧ (s.identitySet b1 b2 b3 b4 b5 b6).EnteredRunning (.error 32) t) ∧
          (tag = 0x02 → ∃ t, result = .next t ∧ (s.supplySet b1 b2 b3 b4 b5).EnteredRunning (.error 32) t) ∧
          (∀ d : DockId, tag.toNat = 16 + d.val →
            ∃ t, result = .next t ∧ (s.profileSet d b1 b2 b3 b4 b5 b6 b7).EnteredRunning (.error 32) t))))

/-! ### Invariants that every step keeps -/

/-- Every step keeps the pass table and the deny list in strictly ascending order of pass ids, within their
capacities, with every field in its range (sections 2.1 and 2.6). An in-flight count stays within 0 to 16 from a
state in which it counts the docks in flight of its pass, as OrdersKept keeps it (section 2.4). -/
def Obligations.TablesKept : Prop :=
  (∀ s t : State, s.TablesOk → step s = .next t → t.TablesOk) ∧
  (∀ s t : State, s.OrdersOk → step s = .next t → ∀ e ∈ t.passes, e.inFlight ≤ 16)

/-- Every step keeps the buffers and queues of the two ports within their sizes and every reserved slot promised to
one frame that waits (sections 9.1, 9.5 and 9.6). -/
def Obligations.LinkSlotsKept : Prop :=
  ∀ s t : State, s.LinkOk → step s = .next t → t.LinkOk

/-- Every step keeps docks, orders, referrals, pass entries and the log in agreement: each in-flight count equals the
docks in flight bound to its pass (R37), the log count plus the docks in flight is at most 64 (R149), at most four docks
are PULLING (R102), a duty is above 0 only in PULLING or OPEN (R112), each QUEUED dock has one order in the queue and no
other (R94). -/
def Obligations.OrdersKept : Prop :=
  ∀ s t : State, s.OrdersOk → step s = .next t → t.OrdersOk

/-- The state after reset meets the three invariants. -/
def Obligations.ResetMeetsInvariants : Prop :=
  State.reset.TablesOk ∧ State.reset.LinkOk ∧ State.reset.OrdersOk

/-! ### Bytes and frames -/

/-- A frame that the part sends, with its header, payload and check, is read by a port as that frame (section 9.2), its
header carrying its payload length; and a number in k bytes and the bytes of a number, most significant byte first
(00 section 5), are each other's inverse. -/
def Obligations.FrameRoundTrip : Prop :=
  (∀ f : Frame, f.payload.length ≤ 32 →
    receivedFrame f.header f.payload f.check = some f ∧ headerLength f.header = f.payload.length ∧
      headerHasNoEnd f.header = false) ∧
  (∀ k n : Nat, n < 256 ^ k → numberOf (bytesOf k n) = n) ∧
  (∀ bs : List Byte, bytesOf bs.length (numberOf bs) = bs)

/-! ### Sensors and returns -/

/-- SENSOR_RAW_CHANGE turns the raw level and begins a stable interval; in STARTING the four debounced edges store their
levels and are not delivered (section 1.3). An edge is due 50 ms or 5 ms after its raw change, by the clock of R48; one
that comes later is taken where the clock stands (entries 1 and 29). -/
def Obligations.LevelsStored : Prop :=
  ∀ (d : DockId) (s : State), s.phase ≠ .inReset →
    exec (.sensorRawChange d .bikePresent) s = .next (s.withDock d fun k =>
      { k with bike := { k.bike with raw := !k.bike.raw, lastChange := some (s.clock / 2048) } }) ∧
    exec (.sensorRawChange d .latchOpen) s = .next (s.withDock d fun k =>
      { k with latch := { k.latch with raw := !k.latch.raw, lastChange := some (s.clock / 2048) } }) ∧
    (s.phase = .starting → ∀ c : Nat,
      ((s.dock d).bike = ⟨true, false, some c⟩ → exec (.bikePresentRise d) s = .next (s.bikeStored d true c)) ∧
      ((s.dock d).bike = ⟨false, true, some c⟩ → exec (.bikePresentFall d) s = .next (s.bikeStored d false c)) ∧
      ((s.dock d).latch = ⟨true, false, some c⟩ → exec (.latchOpenRise d) s = .next (s.latchStored d true c)) ∧
      ((s.dock d).latch = ⟨false, true, some c⟩ → exec (.latchOpenFall d) s = .next (s.latchStored d false c)))

/-- BIKE_PRESENT_RISE in RUNNING (sections 1.4 and 1.5): a VACANT dock becomes LOOSE or PARKED and no other dock state
changes; with the return pending timer STOPPED and no bike id the timer runs 2 s for the identity, and in
RUNNING_FOR_ID the RETURN record carries the bike id. The edge is due 50 ms after its raw change, by the clock of R48; one
that comes later is taken where the clock stands (entries 1 and 29). -/
def Obligations.BikeArrives : Prop :=
  ∀ (d : DockId) (c : Nat) (s : State), s.phase = .running → (s.dock d).bike = ⟨true, false, some c⟩ →
    let u := s.bikeStored d true c
    ((s.dock d).returnTimer = .stopped → (s.dock d).bikeId = none →
      exec (.bikePresentRise d) s = .next (u.withDock d fun k =>
        { k with returnTimer := .runningForBike (u.clock / 2048 + 20000) }.arrived)) ∧
    (∀ due, (s.dock d).returnTimer = .runningForId due →
      ∃ v, u.HandedOver v d (u.returnOf d (s.dock d).bikeId) ∧
        exec (.bikePresentRise d) s = .next (v.withDock d fun k => { k with returnTimer := .stopped }.arrived))

/-- BIKE_PRESENT_FALL in RUNNING at a dock with no order (sections 1.4 to 1.7): after the return handling, a LOOSE dock
becomes VACANT and BIKE_REMOVED alone latches, a PARKED or RESERVED one becomes VACANT and TAMPER alone latches, and a
SERVICE dock stays, loses its bike id and BIKE_REMOVED alone latches. The edge is due 50 ms after its raw change, by the
clock of R48; one that comes later is taken where the clock stands (entries 1 and 29). -/
def Obligations.BikeLeavesRest : Prop :=
  ∀ (d : DockId) (c : Nat) (s : State), s.phase = .running → (s.dock d).bike = ⟨false, true, some c⟩ →
    ((s.dock d).state = .loose → ∃ v t, (s.bikeStored d false c).FallHandled v d ∧
      exec (.bikePresentFall d) s = .next t ∧ (v.withDock d Dock.vacated).Latched t (kindSet 0)) ∧
    ((s.dock d).state = .parked ∨ (s.dock d).state = .reserved → ∃ v t, (s.bikeStored d false c).FallHandled v d ∧
      exec (.bikePresentFall d) s = .next t ∧ (v.withDock d Dock.vacated).Latched t (kindSet 3)) ∧
    ((s.dock d).state = .service → ∃ v t, (s.bikeStored d false c).FallHandled v d ∧
      exec (.bikePresentFall d) s = .next t ∧
      (v.withDock d fun k => { k with bikeId := none }).Latched t (kindSet 0)) ∧
    ((s.dock d).state = .vacant → ∃ v, (s.bikeStored d false c).FallHandled v d ∧
      exec (.bikePresentFall d) s = .next v)

/-- BIKE_PRESENT_FALL in RUNNING at a dock with its latch being drawn, held or let go (section 6.5): the order ends
RIDE_START with BIKE_REMOVED alone, the dock is VACANT, and a slot that it gives up is granted on. The edge is due 50 ms
after its raw change, by the clock of R48; one that comes later is taken where the clock stands (entries 1 and 29). -/
def Obligations.RideStarts : Prop :=
  ∀ (d : DockId) (c : Nat) (o : Order) (s : State), s.OrdersOk → s.phase = .running →
    (s.dock d).bike = ⟨false, true, some c⟩ → (s.dock d).order = some o →
    ∃ v t, (s.bikeStored d false c).FallHandled v d ∧ exec (.bikePresentFall d) s = .next t ∧
      v.Ended t d o false .rideStart none (some 0) none ∧ (t.dock d).AtSensors ∧ (t.dock d).state = .vacant

/-- LATCH_OPEN_RISE and LATCH_OPEN_FALL in RUNNING, but for the endings of orders (sections 1.4, 1.6, 1.7, 6.4 and 6.6):
an opening at a PARKED or RESERVED dock is TAMPER and makes it LOOSE, a closing at a LOOSE one makes it PARKED, the
first opening at a PULLING dock writes the throw time and starts the 20 ms extension, and elsewhere the stored level
alone changes. The edge is due 5 ms after its raw change, by the clock of R48; one that comes later is taken where the
clock stands (entries 1 and 29). -/
def Obligations.LatchMoves : Prop :=
  ∀ (d : DockId) (c : Nat) (s : State), s.phase = .running →
    ((s.dock d).latch = ⟨true, false, some c⟩ →
      let u := s.latchStored d true c
      ((s.dock d).state ∈ [DockState.vacant, .loose, .service, .opened, .closing] →
        exec (.latchOpenRise d) s = .next u) ∧
      ((s.dock d).state ∈ [DockState.parked, .reserved] →
        ∃ t, exec (.latchOpenRise d) s = .next t ∧ (u.withDock d (Dock.restAt .loose)).Latched t (kindSet 3)) ∧
      (∀ o, (s.dock d).state = .pulling → (s.dock d).order = some o →
        (o.throwTime.isSome → exec (.latchOpenRise d) s = .next u) ∧
        (o.throwTime = none → exec (.latchOpenRise d) s = .next (u.withDock d fun k =>
          { k with
            order := some { o with throwTime := some (match k.chan.pullInStart with
              | some start => min 65535 (c - start)
              | none => 0) }
            chan := { k.chan with timer := .extension (u.clock / 2048 + 200) } })))) ∧
    ((s.dock d).latch = ⟨false, true, some c⟩ →
      let u := s.latchStored d false c
      ((s.dock d).state ∈ [DockState.vacant, .parked, .reserved, .queued, .pulling, .opened, .service] →
        exec (.latchOpenFall d) s = .next u) ∧
      ((s.dock d).state = .loose → exec (.latchOpenFall d) s = .next (u.withDock d (Dock.restAt .parked))))

/-- RETURN_PENDING_TIMER_EXPIRY: in RUNNING_FOR_BIKE a RETURN record without a bike id is handed over, in RUNNING_FOR_ID
the bike id becomes absent, and the timer is STOPPED. That a timer which is STOPPED has no expiry to take is the model's
choice (entry 2), and so is an expiry taken after its due instant, where the clock stands (entries 1 and 29). -/
def Obligations.ReturnTimerExpires : Prop :=
  ∀ (d : DockId) (s : State), s.phase ≠ .inReset →
    (∀ due, (s.dock d).returnTimer = .runningForBike due →
      let u := s.advanceToCount due
      ∃ v, u.HandedOver v d (u.returnOf d none) ∧
        exec (.returnPendingTimerExpiry d) s = .next (v.withDock d fun k => { k with returnTimer := .stopped })) ∧
    (∀ due, (s.dock d).returnTimer = .runningForId due →
      exec (.returnPendingTimerExpiry d) s = .next ((s.advanceToCount due).withDock d fun k =>
        { k with bikeId := none, returnTimer := .stopped })) ∧
    ((s.dock d).returnTimer = .stopped → exec (.returnPendingTimerExpiry d) s = .next s)

/-- BIKE_ID (section 1.5): a valid one in RUNNING_FOR_BIKE with a bike present hands over the RETURN record with the id;
with the timer STOPPED and a bike present it sets the id alone; with no bike present it sets the id and the timer runs
2 s for the bike. One of another length, for a dock above 15 or with bike id 0 is discarded. The 2 s run from the count of
uptime (R48). -/
def Obligations.BikeIdTaken : Prop :=
  ∀ (f : Frame) (s : State), s.DockFrame .bikeId f →
    (f.payload.length ≠ 5 ∨ 16 ≤ fieldAt f.payload 0 1 ∨ fieldAt f.payload 1 4 = 0 →
      exec .bikeId s = .next { s with dockPort := s.dockPort.taken }) ∧
    (∀ d : DockId, f.payload.length = 5 → fieldAt f.payload 0 1 = d.val → fieldAt f.payload 1 4 ≠ 0 →
      let id := fieldAt f.payload 1 4
      (∀ due, (s.dock d).returnTimer = .runningForBike due → (s.dock d).bike.level = true →
        ∃ v, (s.withDock d fun k => { k with bikeId := some id }).HandedOver v d (s.returnOf d (some id)) ∧
          exec .bikeId s = .next { v.withDock d fun k => { k with returnTimer := .stopped } with
            dockPort := v.dockPort.taken }) ∧
      ((s.dock d).returnTimer = .stopped → (s.dock d).bike.level = true →
        exec .bikeId s = .next { s.withDock d fun k => { k with bikeId := some id } with
          dockPort := s.dockPort.taken }) ∧
      ((∀ due, (s.dock d).returnTimer ≠ .runningForBike due) → (s.dock d).bike.level = false →
        exec .bikeId s = .next { s.withDock d fun k =>
            { k with bikeId := some id, returnTimer := .runningForId (s.clock / 2048 + 20000) } with
          dockPort := s.dockPort.taken }))

/-! ### The station clock -/

/-- STATION_TIME_ADVANCE and TIME_SET (sections 1.6 and 3.1): station time rises by one, up to its last value, one second
of uptime after the count began; TIME_SET makes it the carried value and known and begins the count anew. Each then ends
every reservation whose until time has passed, RESERVATION_EXPIRED alone latching if any did. The model's choices: an
advance that comes late is taken where the clock stands, the count running on from its due instant (entry 29); at the
last value the check is made as at any other (entry 31); at a TIME_SET the ATTENTION of the check stands ahead of the
REPLY (entry 16); and while time is not known there is no advance to take (entry 2). -/
def Obligations.StationTime : Prop :=
  ∀ s : State,
    (s.phase ≠ .inReset → s.timeKnown = true → ∃ t, exec .stationTimeAdvance s = .next t ∧
      State.ReservationsChecked { s with
        clock := max s.clock ((s.secondFrom + 10000) * 2048)
        secondFrom := s.secondFrom + 10000
        stationTime := min 4294967295 (s.stationTime + 1) } t) ∧
    (s.timeKnown = false → exec .stationTimeAdvance s = .next s) ∧
    (∀ f : Frame, s.Request .timeSet f → f.payload.length = 4 → ∃ t,
      exec .timeSet s = .next { t with station := t.station.answered f 2 0 [] } ∧
      State.ReservationsChecked { s with
        stationTime := fieldAt f.payload 0 4, timeKnown := true, secondFrom := s.clock / 2048 } t)

/-! ### Grants and dock commands -/

/-- A grant evaluation (sections 5.4 and 5.5) takes the oldest orders of the queue, one for each free slot, and makes
their docks PULLING; nothing else changes. -/
def Obligations.GrantEvaluation : Prop := ∀ s : State, s.OrdersOk → s.GrantsMade s.evaluateGrants

/-- The requests that are answered with a status and do nothing else (sections 1.7, 4.3 and 10.1). Another length than
the kind's, the dock command's or the answer's is BAD_LENGTH, as are an empty DOCK_COMMAND and an answer too short for a
code; an unknown kind is BAD_KIND; an unknown dock command, a dock command for a dock above 15, by whichever of its
rows it comes (entry 18), and an answer code other than ADMIT and REFUSE are BAD_VALUE. -/
def Obligations.RequestsRefused : Prop :=
  ∀ (f : Frame) (s : State),
    (∀ x ∈ [(Instr.passWrite, Kind.passWrite, 18, 3#2), (.passDelete, .passDelete, 4, 3), (.passRead, .passRead, 5, 2),
        (.denyWrite, .denyWrite, 6, 3), (.denyDelete, .denyDelete, 4, 3), (.keyWrite, .keyWrite, 9, 3),
        (.keyClear, .keyClear, 1, 3), (.timeSet, .timeSet, 4, 2), (.profileWrite, .profileWrite, 7, 3),
        (.supplyWrite, .supplyWrite, 5, 3), (.collect, .collect, 0, 3), (.eventRead, .eventRead, 0, 2),
        (.eventClear, .eventClear, 2, 2), (.eventMask, .eventMask, 2, 2), (.eventForce, .eventForce, 2, 2),
        (.statusRead, .statusRead, 0, 2), (.stopAll, .stopAll, 0, 2), (.restart, .restart, 0, 2)],
      s.Request x.2.1 f → f.payload.length ≠ x.2.2.1 → exec x.1 s = .next (s.replied f x.2.2.2 11)) ∧
    (∀ x ∈ [(Instr.staffUnlock, 1, 2), (.setService, 2, 2), (.clearService, 3, 2), (.reserve, 4, 10),
        (.cancelReserve, 5, 2)],
      s.Request .dockCommand f → fieldAt f.payload 0 1 = x.2.1 → f.payload.length ≠ x.2.2 →
        exec x.1 s = .next (s.replied f 2 11)) ∧
    (∀ x ∈ [(Instr.staffUnlock, 1, 2), (.setService, 2, 2), (.clearService, 3, 2), (.reserve, 4, 10),
        (.cancelReserve, 5, 2)],
      s.Request .dockCommand f → fieldAt f.payload 0 1 = x.2.1 → f.payload.length = x.2.2 →
        16 ≤ fieldAt f.payload 1 1 → exec x.1 s = .next (s.replied f 2 3)) ∧
    (s.Request .referralAnswer f → 8 ≤ f.payload.length →
      (fieldAt f.payload 7 1 = 1 → f.payload.length ≠ 22 →
        exec .referralAnswerAdmit s = .next (s.replied f 2 11)) ∧
      (fieldAt f.payload 7 1 = 2 → f.payload.length ≠ 9 →
        exec .referralAnswerRefuse s = .next (s.replied f 2 11))) ∧
    (s.phase = .running → s.marks.restart = false → s.rearrangement = none → s.station.rx.head? = some f →
      f.dest ≠ 0 → f.kind ≠ 0x05 → ¬(0x10 ≤ f.kind.toNat ∧ f.kind.toNat ≤ 0x23) →
        exec .badKind s = .next (s.replied f 2 10)) ∧
    (s.Request .dockCommand f →
      (f.payload = [] → exec .unknownDockCommand s = .next (s.replied f 2 11)) ∧
      (f.payload ≠ [] → fieldAt f.payload 0 1 ∉ [1, 2, 3, 4, 5] →
        exec .unknownDockCommand s = .next (s.replied f 2 3)) ∧
      (∀ x ∈ [(1, 2), (2, 2), (3, 2), (4, 10), (5, 2)], fieldAt f.payload 0 1 = x.1 → f.payload.length = x.2 →
        16 ≤ fieldAt f.payload 1 1 → exec .unknownDockCommand s = .next (s.replied f 2 3))) ∧
    (s.Request .referralAnswer f →
      (f.payload.length < 8 → exec .referralAnswerBadCode s = .next (s.replied f 2 11)) ∧
      (8 ≤ f.payload.length → fieldAt f.payload 7 1 ≠ 1 → fieldAt f.payload 7 1 ≠ 2 →
        exec .referralAnswerBadCode s = .next (s.replied f 2 3)))

/-- While the pass store is busy no frame of the station buffer and no TAP is taken (section 2.3, which leaves the other
frames at the head of the dock buffer takeable, so that the clause does not name them). Outside RUNNING, or once RESTART has
been answered, no frame of either buffer is taken (sections 10.4 and 11.2). That a command whose frame is not taken answers
a next state unchanged is the model's choice (entry 2). -/
def Obligations.FramesLeftWaiting : Prop :=
  ∀ s : State,
    (∀ c ∈ [Instr.timeSet, .reserve, .cancelReserve, .setService, .clearService, .staffUnlock, .unknownDockCommand,
        .passWrite, .passDelete, .passRead, .denyWrite, .denyDelete, .keyWrite, .keyClear, .referralAnswerAdmit,
        .referralAnswerRefuse, .referralAnswerBadCode, .notice, .stopAll, .profileWrite, .supplyWrite, .collect,
        .eventRead, .eventClear, .eventMask, .eventForce, .statusRead, .restart, .badKind, .messageToReader,
        .frameDiscarded .station, .tap],
      s.rearrangement.isSome ∨ s.phase ≠ .running ∨ s.marks.restart = true → exec c s = .next s) ∧
    (∀ c ∈ [Instr.bikeId, .messageFromReader, .frameDiscarded .dock],
      s.phase ≠ .running ∨ s.marks.restart = true → exec c s = .next s)

/-- RESERVE and CANCEL_RESERVE (section 1.6). -/
def Obligations.ReserveAndCancel : Prop :=
  ∀ (f : Frame) (d : DockId) (s : State), s.Request .dockCommand f → fieldAt f.payload 1 1 = d.val →
    (fieldAt f.payload 0 1 = 4 → f.payload.length = 10 →
      let id := fieldAt f.payload 2 4
      let untilTime := fieldAt f.payload 6 4
      (id = 0 ∨ (s.timeKnown = true ∧ untilTime ≤ s.stationTime) →
        exec .reserve s = .next (s.replied f 2 3)) ∧
      (id ≠ 0 → (s.timeKnown = true → s.stationTime < untilTime) →
        ((s.dock d).state ∈ [DockState.parked, .reserved] → (∀ r ∈ s.referrals, r.dock ≠ d) →
          exec .reserve s = .next (State.replied
            (s.withDock d fun k => { k with state := .reserved, reservation := some ⟨id, untilTime⟩ }) f 2 0)) ∧
        ((s.dock d).state ∉ [DockState.parked, .reserved] ∨ (∃ r ∈ s.referrals, r.dock = d) →
          exec .reserve s = .next (s.replied f 2 4)))) ∧
    (fieldAt f.payload 0 1 = 5 → f.payload.length = 2 →
      ((s.dock d).state = .reserved → exec .cancelReserve s = .next (State.replied
        (s.withDock d fun k => { k with state := .parked, reservation := none }) f 2 0)) ∧
      ((s.dock d).state ≠ .reserved → exec .cancelReserve s = .next (s.replied f 2 4)))

/-- CLEAR_SERVICE: a SERVICE dock with another fault kind than UNCONFIGURED takes its state from the sensors and loses
its fault kind, a dock that becomes VACANT losing its bike id and a timer in RUNNING_FOR_ID; any other dock is answered
BAD_STATE and stays. -/
def Obligations.ClearService : Prop :=
  ∀ (f : Frame) (d : DockId) (s : State), s.Request .dockCommand f → fieldAt f.payload 1 1 = d.val →
    fieldAt f.payload 0 1 = 3 → f.payload.length = 2 →
    (∀ x ∈ [FaultKind.staffSet, .latchJam, .overcurrent, .undercurrent],
      (s.dock d).state = .service → (s.dock d).fault = some x →
        exec .clearService s = .next (State.replied (s.withDock d Dock.fromSensors) f 2 0)) ∧
    ((s.dock d).state ≠ .service ∨ (s.dock d).fault = some .unconfigured →
      exec .clearService s = .next (s.replied f 2 4))

/-- SET_SERVICE (sections 1.7, 4.4, 5.6 and 6.5), replied OK in every state: a referral at the dock ends with NO_ANSWER,
an order there ends UNLOCK_FAILED with ABORTED_SERVICE, and the dock is SERVICE with STAFF_SET, one already in SERVICE
keeping its fault kind; a slot that a PULLING dock gives up is granted on. The model's choices: the REPLY stands
behind the frames of the ending (entry 16), and a refund's NOTICE ahead of the ATTENTION of LOG_HIGH (entry 17). -/
def Obligations.SetService : Prop :=
  ∀ (f : Frame) (d : DockId) (s : State), s.OrdersOk → s.Request .dockCommand f → fieldAt f.payload 1 1 = d.val →
    fieldAt f.payload 0 1 = 2 → f.payload.length = 2 →
    ((s.dock d).state ∈ [DockState.vacant, .loose, .parked, .reserved] →
      exec .setService s = .next (State.replied ((s.referralCleared d).withDock d fun k =>
        { k with state := .service, fault := some .staffSet, reservation := none }) f 2 0)) ∧
    ((s.dock d).state = .service → exec .setService s = .next ((s.referralCleared d).replied f 2 0)) ∧
    (∀ o, s.queue.find? (fun x => x.dock == d) = some o ∨ (s.dock d).order = some o →
      ∃ t, exec .setService s = .next (t.replied f 2 0) ∧
        s.Ended t d o false .unlockFailed (some .abortedService) none (some .staffSet) ∧
        (t.dock d).state = .service ∧ (t.dock d).fault = some .staffSet ∧ (t.dock d).reservation = none)

/-- STAFF_UNLOCK: the first failing check answers and nothing changes; a command that passes ends a referral at the dock,
queues an order of origin STAFF and evaluates grants (sections 1.7, 4.4 and 5.1). -/
def Obligations.StaffUnlock : Prop :=
  ∀ (f : Frame) (d : DockId) (s : State), s.OrdersOk → s.Request .dockCommand f → fieldAt f.payload 1 1 = d.val →
    fieldAt f.payload 0 1 = 1 → f.payload.length = 2 →
    let checks : List (Prop × Nat) := [(s.stopAsserted = true, 4),
      ((s.dock d).state ∈ [DockState.queued, .pulling, .opened, .closing], 4),
      ((s.dock d).state = .service ∧
        (s.dock d).fault ∈ [some FaultKind.unconfigured, some .overcurrent, some .undercurrent], 5),
      (¬s.log.length + s.inFlight ≤ 63, 6)]
    (∀ v, FirstCase checks v → exec .staffUnlock s = .next (s.replied f 2 v)) ∧
    (NoCase checks → ∃ t, ((s.referralCleared d).orderQueued d .staff none none).GrantsMade t ∧
      exec .staffUnlock s = .next (t.replied f 2 0))

/-- PROFILE_WRITE (section 10.3): the six values clamped and the configured flag set; a dock in SERVICE with UNCONFIGURED
takes its state from the sensors, and no other dock's state or order changes. -/
def Obligations.ProfileWritten : Prop :=
  ∀ (f : Frame) (s : State), s.Request .profileWrite f → f.payload.length = 7 →
    (16 ≤ fieldAt f.payload 0 1 → exec .profileWrite s = .next (s.replied f 3 3)) ∧
    (∀ d : DockId, fieldAt f.payload 0 1 = d.val → exec .profileWrite s = .next (State.replied
      (s.withDock d fun k =>
        let w := { k with
          configured := true
          profile := Profile.clamped (fieldAt f.payload 1 1) (fieldAt f.payload 2 1) (fieldAt f.payload 3 1)
            (fieldAt f.payload 4 1) (fieldAt f.payload 5 1) (fieldAt f.payload 6 1) }
        if k.state = .service ∧ k.fault = some .unconfigured then w.fromSensors else w) f 3 0))

/-! ### Orders that end outside the pull-in -/

/-- Orders that end without the coil (sections 5.2, 5.6 and 6.6). A QUEUED order ends UNLOCK_FAILED: TAMPERED with TAMPER
alone at a bike-present fall or a latch-open rise, SUPPLY_TIMEOUT when its 5 s run out. A CLOSING order ends when its
latch closes or 1 s has passed: NOT_TAKEN, or UNLOCK_FAILED with ABORTED_STOP if a STOP marked it, after RESULT CLOSED if
the latch is closed. The dock then stands at its sensors. The model's choices: the refund's NOTICE stands behind
the ATTENTION of TAMPER (entry 34) and ahead of that of LOG_HIGH (entry 17), and an arrival after its due instant (R48) is
taken where the clock stands (entries 1 and 29). -/
def Obligations.QueuedOrClosingOrderEnds : Prop :=
  ∀ (d : DockId) (o : Order) (s : State), s.OrdersOk →
    (s.queue.find? (fun x => x.dock == d) = some o →
      (∀ c, s.phase = .running → (s.dock d).bike = ⟨false, true, some c⟩ →
        ∃ v t, (s.bikeStored d false c).FallHandled v d ∧ exec (.bikePresentFall d) s = .next t ∧
          v.Ended t d o false .unlockFailed (some .tampered) (some 3) none ∧ (t.dock d).AtSensors) ∧
      (∀ c, s.phase = .running → (s.dock d).latch = ⟨true, false, some c⟩ →
        ∃ t, exec (.latchOpenRise d) s = .next t ∧
          (s.latchStored d true c).Ended t d o false .unlockFailed (some .tampered) (some 3) none ∧
          (t.dock d).AtSensors) ∧
      (s.phase ≠ .inReset →
        ∃ t, exec (.orderDeadline d) s = .next t ∧
          State.Ended { s with clock := max s.clock ((o.admitUptime + 50000) * 2048) } t d o false .unlockFailed
            (some .supplyTimeout) none none ∧ (t.dock d).AtSensors)) ∧
    ((s.dock d).state = .closing → (s.dock d).order = some o →
      let kind := if o.stopMark then OutcomeKind.unlockFailed else .notTaken
      let reason := if o.stopMark then some Reason.abortedStop else none
      (∀ c, s.phase = .running → (s.dock d).latch = ⟨false, true, some c⟩ →
        ∃ t, exec (.latchOpenFall d) s = .next t ∧
          (s.latchStored d false c).Ended t d o true kind reason none none ∧ (t.dock d).AtSensors) ∧
      (∀ due, s.phase ≠ .inReset → (s.dock d).chan.timer = .closingLimit due →
        ∃ t, exec (.closingLimitExpiry d) s = .next t ∧
          State.Ended { s with clock := max s.clock (due * 2048) } t d o (!(s.dock d).latch.level) kind reason
            none none ∧ (t.dock d).AtSensors))

/-! ### Token admission -/

/-- The TAPs that a check refuses or answers again (sections 3.4 and 3.5). A TAP of another length is discarded. Otherwise
the first failing check gives the verdict that the reader is sent: STOP, a dock above 15, the rows for the dock (a repeat
of a token in flight or referred is answered ADMIT or PENDING again), room in the log, the key and check code, the scope,
the deny list, and for a pass held the token time window, the pass dates, the serial, rides left and the bike limit.
Nothing else changes but the frame's place in the buffer. That a token of serial 0 is below a floor of 1 is the model's
choice (entry 37). -/
def Obligations.TapRefused : Prop :=
  ∀ (f : Frame) (s : State), s.DockFrame .tap f → s.rearrangement = none →
    let t := tokenOf f.payload
    let answered (v : Nat) : State := { s with
      dockPort := (s.dockPort.offered (s.dockPort.verdictFrame f.source t.dock t.passId t.serial v 0)).taken }
    (f.payload.length ≠ 20 → exec .tap s = .next { s with dockPort := s.dockPort.taken }) ∧
    (f.payload.length = 20 →
      (s.stopAsserted = true → exec .tap s = .next (answered 3)) ∧
      (s.stopAsserted = false → 16 ≤ t.dock → exec .tap s = .next (answered 4)) ∧
      (∀ (d : DockId) (v : Nat), t.dock = d.val →
        (FirstCase (s.dockCases d t 1 2 ++ s.tokenCases f.payload) v → exec .tap s = .next (answered v)) ∧
        (∀ e, NoCase (s.dockCases d t 1 2 ++ s.tokenCases f.payload) →
          s.passes.find? (fun x => x.id == t.passId) = some e → FirstCase (s.entryCases t e) v →
          exec .tap s = .next (answered v))))

/-- A TAP that every check passes is admitted (section 3.6): the pass entry counts the use, an order of origin RIDER joins
the queue with the dock bound to it, grants are evaluated, VERDICT ADMIT goes to the reader and a NOTICE to the
siblings. -/
def Obligations.TapAdmitted : Prop :=
  ∀ (f : Frame) (d : DockId) (e : PassEntry) (s : State), s.OrdersOk → s.DockFrame .tap f → s.rearrangement = none →
    f.payload.length = 20 →
    let t := tokenOf f.payload
    t.dock = d.val → NoCase (s.dockCases d t 1 2 ++ s.tokenCases f.payload) →
    s.passes.find? (fun x => x.id == t.passId) = some e → NoCase (s.entryCases t e) →
      ∃ u, s.Admitted u d t .rider e f.source ∧ exec .tap s = .next { u with dockPort := u.dockPort.taken }

/-- A TAP for a pass that is not held (sections 3.5 and 4.2): UNKNOWN_PASS with referrals disabled, BUSY with four
referrals outstanding or no free slot to the station, and otherwise a referral joins the list, binds the dock, queues
its REFERRAL frame with the 20 token bytes and answers PENDING. -/
def Obligations.TapReferred : Prop :=
  ∀ (f : Frame) (d : DockId) (s : State), s.DockFrame .tap f → s.rearrangement = none → f.payload.length = 20 →
    let t := tokenOf f.payload
    let answered (v : Nat) : Port :=
      (s.dockPort.offered (s.dockPort.verdictFrame f.source t.dock t.passId t.serial v 0)).taken
    t.dock = d.val → NoCase (s.dockCases d t 1 2 ++ s.tokenCases f.payload) → (∀ e ∈ s.passes, e.id ≠ t.passId) →
      (s.identity.referralEnable = false → exec .tap s = .next { s with dockPort := answered 14 }) ∧
      (s.identity.referralEnable = true →
        4 ≤ s.referrals.length ∨ 8 ≤ s.station.tx.length + s.station.reserved →
          exec .tap s = .next { s with dockPort := answered 15 }) ∧
      (s.identity.referralEnable = true → s.referrals.length < 4 → s.station.tx.length + s.station.reserved < 8 →
        exec .tap s = .next { s.withDock d (fun k =>
            { k with boundPass := some t.passId, boundSerial := some t.serial }) with
          referrals := s.referrals ++ [⟨s.referralCount, d, f.payload, s.clock / 2048, .awaitingSend⟩]
          referralCount := s.referralCount + 1
          station := { s.station with tx := s.station.tx ++
            [⟨⟨1, 1, s.station.address, 0x29, f.payload⟩, .referral s.referralCount⟩] }
          dockPort := answered 2 })

/-! ### Referral answers and notices -/

/-- REFERRAL_ANSWER_ADMIT (section 4.3): without a matching referral NO_REFERRAL, with a class or dates it may not have
BAD_VALUE. Otherwise the referral leaves the list, its dock still bound, and the entry is written: replaced if it is
held, inserted if there is room, at the end of a rearrangement if it moves entries, and held for this decision alone,
answered TABLE_FULL, if it cannot be stored; then the answer is decided. The model's choices: an entry with pass id 0 is one
that cannot be stored, and an order may hold that pass id (entry 15); and an admission's NOTICE stands ahead of the REPLY
(entry 16). -/
def Obligations.AnswerAdmit : Prop :=
  ∀ (f : Frame) (s : State), s.OrdersOk → s.TablesOk → s.Request .referralAnswer f → f.payload.length = 22 →
    fieldAt f.payload 7 1 = 1 →
    let id := fieldAt f.payload 1 4
    let matching (r : Referral) : Bool := decide (r.dock.val = fieldAt f.payload 0 1 ∧
      (tokenOf r.token).passId = id ∧ (tokenOf r.token).serial = fieldAt f.payload 5 2)
    let validUntil := fieldAt f.payload 13 4
    ((∀ r ∈ s.referrals, matching r = false) → exec .referralAnswerAdmit s = .next (s.replied f 2 7)) ∧
    (∀ r, s.referrals.find? matching = some r →
      (fieldAt f.payload 8 1 ∉ [1, 2] ∨ (validUntil ≠ 0 ∧ validUntil < fieldAt f.payload 9 4) →
        exec .referralAnswerAdmit s = .next (s.replied f 2 3)) ∧
      (∀ cls : PassClass, fieldAt f.payload 8 1 = cls.code →
        validUntil = 0 ∨ fieldAt f.payload 9 4 ≤ validUntil →
        let w := carriedEntry id cls f.payload 8
        let u : State := { s with referrals := s.referrals.filter fun x => x.number ≠ r.number }
        let above := s.passes.countP fun e => id < e.id
        (∀ held, id ≠ 0 → s.passes.find? (fun e => e.id == id) = some held →
          ∃ t, exec .referralAnswerAdmit s = .next t ∧
            (u.passReplaced w).Decided t f r.dock r.token (held.replacedBy w) 0) ∧
        (id ≠ 0 → (∀ e ∈ s.passes, e.id ≠ id) → s.passes.length < 1024 →
          (above = 0 → ∃ t, exec .referralAnswerAdmit s = .next t ∧
            (u.passInserted w).Decided t f r.dock r.token { w with inFlight := s.docksOf id } 0) ∧
          (above ≠ 0 → exec .referralAnswerAdmit s = .next (u.rearranging above (.answerInsert w r.dock r.token)))) ∧
        (id = 0 ∨ ((∀ e ∈ s.passes, e.id ≠ id) ∧ 1024 ≤ s.passes.length) →
          ∃ t, exec .referralAnswerAdmit s = .next t ∧
            u.Decided t f r.dock r.token { w with inFlight := s.docksOf id } 1)))

/-- The other ways a referral ends by itself (sections 4.2 and 4.3): REFERRAL_ANSWER_REFUSE with REFUSED_BY_STATION and the
answer's reason byte, or NO_REFERRAL when none matches; REFERRAL_TIMEOUT 2 s after its creation with NO_ANSWER, latching
REFERRAL_TIMEOUT alone if it was AWAITING_ANSWER. A time-out after its due instant (R48) is taken where the clock stands
(entries 1 and 29). -/
def Obligations.ReferralEnds : Prop :=
  (∀ (f : Frame) (s : State), s.Request .referralAnswer f → f.payload.length = 9 → fieldAt f.payload 7 1 = 2 →
    let matching (r : Referral) : Bool := decide (r.dock.val = fieldAt f.payload 0 1 ∧
      (tokenOf r.token).passId = fieldAt f.payload 1 4 ∧ (tokenOf r.token).serial = fieldAt f.payload 5 2)
    ((∀ r ∈ s.referrals, matching r = false) → exec .referralAnswerRefuse s = .next (s.replied f 2 7)) ∧
    (∀ r, s.referrals.find? matching = some r → exec .referralAnswerRefuse s =
      .next ((s.referralEnded r 22 (fieldAt f.payload 8 1)).replied f 2 0 [22]))) ∧
  (∀ (d : DockId) (r : Referral) (s : State), s.phase ≠ .inReset → s.referralOf d = some r →
    let u : State := { s with clock := max s.clock ((r.created + 20000) * 2048) }
    (r.state = .awaitingSend → exec (.referralTimeout d) s = .next (u.referralEnded r 23 0)) ∧
    (r.state = .awaitingAnswer →
      ∃ t, exec (.referralTimeout d) s = .next t ∧ (u.referralEnded r 23 0).Latched t (kindSet 10)))

/-- NOTICE (section 4.5): a broadcast of the part's own, of another length or with another delta, or for a pass not held,
changes nothing; otherwise a greater serial is taken with source NOTICE and the delta added to limited rides, and a
serial that this gateway admitted last, noticed with −1, is written to the last-duplicate record and latches
DUPLICATE_USE alone. -/
def Obligations.NoticeTaken : Prop :=
  ∀ (f : Frame) (s : State), s.phase = .running → s.marks.restart = false → s.rearrangement = none →
    s.station.rx.head? = some f → f.dest = 0 → f.kind = 0x24 →
    let id := fieldAt f.payload 0 4
    let serial := fieldAt f.payload 4 2
    let ignored : Prop := exec .notice s = .next { s with station := s.station.taken }
    (f.source = s.station.address ∨ f.payload.length ≠ 7 ∨ fieldAt f.payload 6 1 ∉ [0, 1, 255] → ignored) ∧
    (f.source ≠ s.station.address → f.payload.length = 7 →
      ∀ x ∈ [(0, (0 : Int)), (1, 1), (255, -1)], fieldAt f.payload 6 1 = x.1 →
        ((∀ e ∈ s.passes, e.id ≠ id) → ignored) ∧
        (∀ e, s.passes.find? (fun e => e.id == id) = some e →
          let noticed : State := { s with passes := s.passes.map fun e =>
            if e.id = id then
              { e with
                lastSerial := max e.lastSerial serial
                source := if e.lastSerial < serial then .notice else e.source
                ridesLeft := if e.ridesLeft = 65535 then 65535 else (min 65534 ((e.ridesLeft : Int) + x.2)).toNat }
            else e }
          (e.lastSerial = serial ∧ x.2 = -1 ∧ e.source = .localUse →
            ∃ t, exec .notice s = .next { t with station := t.station.taken } ∧
              State.Latched { noticed with events :=
                { s.events with lastDuplicate := some ⟨id, serial, f.source⟩ } } t (kindSet 8)) ∧
          (¬(e.lastSerial = serial ∧ x.2 = -1 ∧ e.source = .localUse) →
            exec .notice s = .next { noticed with station := s.station.taken })))

/-! ### The pass store -/

/-- PASS_WRITE and PASS_DELETE (section 2.2). PASS_WRITE with pass id 0, an unknown class or crossed dates is BAD_VALUE; an
entry held is replaced at once; a full table is TABLE_FULL; otherwise the entry is inserted in ascending order, at once
if it moves no entry and at the end of a rearrangement if it does. PASS_DELETE makes the entry absent at once, its REPLY
waiting for a rearrangement if entries with higher ids must move. -/
def Obligations.PassTableWritten : Prop :=
  ∀ (f : Frame) (s : State), s.TablesOk →
    let id := fieldAt f.payload 0 4
    let above := s.passes.countP fun e => id < e.id
    (s.Request .passWrite f → f.payload.length = 18 →
      let validUntil := fieldAt f.payload 9 4
      let crossed := validUntil ≠ 0 ∧ validUntil < fieldAt f.payload 5 4
      (id = 0 ∨ fieldAt f.payload 4 1 ∉ [1, 2] ∨ crossed → exec .passWrite s = .next (s.replied f 3 3)) ∧
      (∀ cls : PassClass, id ≠ 0 → fieldAt f.payload 4 1 = cls.code → ¬crossed →
        let w := carriedEntry id cls f.payload 4
        ((∃ e ∈ s.passes, e.id = id) → exec .passWrite s = .next ((s.passReplaced w).replied f 3 0)) ∧
        ((∀ e ∈ s.passes, e.id ≠ id) →
          (1024 ≤ s.passes.length → exec .passWrite s = .next (s.replied f 3 1)) ∧
          (s.passes.length < 1024 → above = 0 → exec .passWrite s = .next ((s.passInserted w).replied f 3 0)) ∧
          (s.passes.length < 1024 → above ≠ 0 →
            exec .passWrite s = .next (s.rearranging above (.passInsert w)))))) ∧
    (s.Request .passDelete f → f.payload.length = 4 →
      let removed : State := { s with passes := s.passes.filter fun e => e.id ≠ id }
      (id = 0 → exec .passDelete s = .next (s.replied f 3 3)) ∧
      (id ≠ 0 → (∀ e ∈ s.passes, e.id ≠ id) → exec .passDelete s = .next (s.replied f 3 2)) ∧
      (id ≠ 0 → (∃ e ∈ s.passes, e.id = id) →
        (above = 0 → exec .passDelete s = .next (removed.replied f 3 0)) ∧
        (above ≠ 0 → exec .passDelete s = .next (removed.rearranging above .passDelete))))

/-- PASS_READ: EXACT answers with the entry of the id, NEXT with the entry of the lowest id above it, each with every
field; with none NOT_FOUND; another read mode is BAD_VALUE. Nothing but the REPLY changes, and while the table is busy
the request is not taken. -/
def Obligations.PassRead : Prop :=
  ∀ (f : Frame) (s : State), s.TablesOk →
    (s.rearrangement.isSome → exec .passRead s = .next s) ∧
    (s.Request .passRead f → f.payload.length = 5 →
      let id := fieldAt f.payload 0 4
      let carried (e : PassEntry) : List Byte :=
        bytesOf 4 e.id ++ [match e.cls with | .rider => (1 : Byte) | .staff => 2] ++ bytesOf 4 e.validFrom ++
          bytesOf 4 (e.validUntil.getD 0) ++ bytesOf 2 e.ridesLeft ++ bytesOf 1 e.bikesMax ++ bytesOf 2 e.lastSerial ++
          [match e.source with | .localUse => (1 : Byte) | .notice => 2 | .written => 3] ++ bytesOf 1 e.inFlight
      (fieldAt f.payload 4 1 = 0 →
        (∀ e ∈ s.passes, e.id = id → exec .passRead s = .next (s.replied f 2 0 (carried e))) ∧
        ((∀ e ∈ s.passes, e.id ≠ id) → exec .passRead s = .next (s.replied f 2 2))) ∧
      (fieldAt f.payload 4 1 = 1 →
        (∀ e ∈ s.passes, id < e.id → (∀ x ∈ s.passes, id < x.id → e.id ≤ x.id) →
          exec .passRead s = .next (s.replied f 2 0 (carried e))) ∧
        ((∀ e ∈ s.passes, e.id ≤ id) → exec .passRead s = .next (s.replied f 2 2))) ∧
      (2 ≤ fieldAt f.payload 4 1 → exec .passRead s = .next (s.replied f 2 3)))

/-- DENY_WRITE (section 2.6): pass id 0 is BAD_VALUE; an entry held takes the written floor, 0 meaning none; a full list is
TABLE_FULL; otherwise the entry is inserted in ascending order, after a rearrangement if it moves entries. -/
def Obligations.DenyWritten : Prop :=
  ∀ (f : Frame) (s : State), s.TablesOk → s.Request .denyWrite f → f.payload.length = 6 →
    let id := fieldAt f.payload 0 4
    let w : DenyEntry := ⟨id, if fieldAt f.payload 4 2 = 0 then none else some (fieldAt f.payload 4 2)⟩
    let above := s.denies.countP fun e => id < e.id
    (id = 0 → exec .denyWrite s = .next (s.replied f 3 3)) ∧
    (id ≠ 0 → (∃ e ∈ s.denies, e.id = id) → exec .denyWrite s = .next (State.replied
      { s with denies := s.denies.map fun e => if e.id = id then w else e } f 3 0)) ∧
    (id ≠ 0 → (∀ e ∈ s.denies, e.id ≠ id) →
      (256 ≤ s.denies.length → exec .denyWrite s = .next (s.replied f 3 1)) ∧
      (s.denies.length < 256 → above = 0 → exec .denyWrite s = .next ((s.denyInserted w).replied f 3 0)) ∧
      (s.denies.length < 256 → above ≠ 0 → exec .denyWrite s = .next (s.rearranging above (.denyInsert w))))

/-- DENY_DELETE: pass id 0 is BAD_VALUE and an id with no entry NOT_FOUND, with no change. Otherwise the entry is absent
at once and the list one shorter, and the REPLY OK comes at once or, where entries with higher ids move one place back,
at the end of the rearrangement, 1 µs for each entry moved after its beginning by the clock of R48 (RearrangementEnds
states a late end too, which entries 1 and 29 settle). -/
def Obligations.DenyDeleted : Prop :=
  (∀ (f : Frame) (s : State), s.TablesOk → s.Request .denyDelete f → f.payload.length = 4 →
    let id := fieldAt f.payload 0 4
    let above := s.denies.countP fun e => id < e.id
    let removed : State := { s with denies := s.denies.filter fun e => e.id ≠ id }
    (id = 0 → exec .denyDelete s = .next (s.replied f 3 3)) ∧
    (id ≠ 0 → (∀ e ∈ s.denies, e.id ≠ id) → exec .denyDelete s = .next (s.replied f 3 2)) ∧
    (id ≠ 0 → (∃ e ∈ s.denies, e.id = id) → removed.denies.length + 1 = s.denies.length ∧
      (above = 0 → exec .denyDelete s = .next (removed.replied f 3 0)) ∧
      (above ≠ 0 → exec .denyDelete s = .next (removed.rearranging above .denyDelete)))) ∧
  (∀ (f : Frame) (r : Rearrangement) (s : State), s.phase ≠ .inReset → s.station.rx.head? = some f → f.kind = 0x14 →
    s.rearrangement = some r → r.work = .denyDelete → s.clock ≤ r.startedAt + (r.moved * 512 + 24) / 25 →
      exec .rearrangementEnd s = .next (State.replied
        { s with clock := r.startedAt + (r.moved * 512 + 24) / 25, rearrangement := none } f 3 0))

/-- KEY_WRITE and KEY_CLEAR: a slot above 3 is BAD_VALUE and changes nothing; otherwise the slot holds the 8 written key
bytes, or none, and the reply is OK. Nothing else changes, so orders and referrals go on. -/
def Obligations.Keys : Prop :=
  ∀ (f : Frame) (s : State),
    (s.Request .keyWrite f → f.payload.length = 9 →
      (3 < fieldAt f.payload 0 1 → exec .keyWrite s = .next (s.replied f 3 3)) ∧
      (∀ h : fieldAt f.payload 0 1 < 4, exec .keyWrite s = .next (State.replied
        { s with keys := s.keys.set (fieldAt f.payload 0 1) (some (f.payload.drop 1)) } f 3 0))) ∧
    (s.Request .keyClear f → f.payload.length = 1 →
      (3 < fieldAt f.payload 0 1 → exec .keyClear s = .next (s.replied f 3 3)) ∧
      (∀ h : fieldAt f.payload 0 1 < 4, exec .keyClear s = .next (State.replied
        { s with keys := s.keys.set (fieldAt f.payload 0 1) none } f 3 0)))

/-- REARRANGEMENT_END, 1 µs for each entry moved after its beginning (section 2.3): an inserted entry becomes present in
ascending order with its in-flight count taken then, the REPLY OK is queued, and an ADMIT answer is decided. The model's
choices: a decision's NOTICE stands ahead of the REPLY (entry 16), and an end that comes after its due instant (R48) is
taken where the clock stands (entries 1 and 29). -/
def Obligations.RearrangementEnds : Prop :=
  ∀ (f : Frame) (r : Rearrangement) (s : State), s.TablesOk → s.OrdersOk → s.phase ≠ .inReset →
    s.station.rx.head? = some f → s.rearrangement = some r →
    let u : State := { s with
      clock := max s.clock (r.startedAt + (r.moved * 512 + 24) / 25), rearrangement := none }
    (∀ e, r.work = .passInsert e → f.kind = 0x10 → exec .rearrangementEnd s = .next ((u.passInserted e).replied f 3 0)) ∧
    (r.work = .passDelete → f.kind = 0x11 → exec .rearrangementEnd s = .next (u.replied f 3 0)) ∧
    (∀ e, r.work = .denyInsert e → f.kind = 0x13 → exec .rearrangementEnd s = .next ((u.denyInserted e).replied f 3 0)) ∧
    (r.work = .denyDelete → f.kind = 0x14 → exec .rearrangementEnd s = .next (u.replied f 3 0)) ∧
    (∀ e d token, r.work = .answerInsert e d token → f.kind = 0x1B → ∃ t, exec .rearrangementEnd s = .next t ∧
      (u.passInserted e).Decided t f d token { e with inFlight := s.docksOf e.id } 0)

/-! ### STOP and the row's supply -/

/-- STOP_ASSERTION and STOP_ALL (sections 4.4, 5.5, 6.5 and 10.4). A change of the STOP input to asserted begins the 1 ms
for which it must hold; a level that has held it makes the STOP state ASSERTED, in STARTING that alone. In RUNNING it also
ends every queued order, oldest first, every pull-in and every referral, oldest first, and sends every OPEN dock to
CLOSING, its channel inactive; STOP_ALL does the same, addressed or broadcast, and leaves the STOP state as it was. The model's choices: the
row stands for the change of the level and for the end of the 1 ms (entry 9), with no change that has held there is no
arrival to take (entry 2), one that comes late is taken where the clock stands (entries 1 and 29), the order among the three
blocks of endings, and among the pull-ins, is free (entry 5), and in each ending a refund's NOTICE stands ahead of the
ATTENTION of LOG_HIGH (entry 17). -/
def Obligations.StopTaken : Prop :=
  ∀ s : State, s.phase ≠ .inReset →
    (s.stopLevel = false → exec .stopAssertion s =
      .next { s with stopLevel := true, stopChange := some (s.clock / 2048) }) ∧
    (∀ changed, s.stopLevel = true → s.stopAsserted = false → s.stopChange = some changed →
      let u : State := { s with clock := max s.clock ((changed + 10) * 2048) }
      (s.phase = .starting → exec .stopAssertion s = .next { u with stopAsserted := true }) ∧
      (s.phase = .running → s.OrdersOk → ∃ t, exec .stopAssertion s = .next t ∧ u.StopTaken t ∧
        t.stopAsserted = true)) ∧
    (s.stopLevel = true → s.stopAsserted = true ∨ s.stopChange = none → exec .stopAssertion s = .next s) ∧
    (∀ f : Frame, s.OrdersOk → s.Request .stopAll f → f.payload = [] →
      ∃ t, exec .stopAll s = .next (t.replied f 2 0) ∧ s.StopTaken t ∧ t.stopAsserted = s.stopAsserted) ∧
    (∀ f : Frame, s.OrdersOk → s.phase = .running → s.marks.restart = false → s.rearrangement = none →
      s.station.rx.head? = some f → f.dest = 0 → f.kind = 0x22 →
        ∃ t, exec .stopAll s = .next { t with station := t.station.taken } ∧ s.StopTaken t ∧
          t.stopAsserted = s.stopAsserted)

/-- STOP_RELEASE: a change of the STOP input back begins the 1 ms for which it must hold, and a level that has held it
makes the STOP state RELEASED and evaluates grants (section 5.5). SUPPLY_WRITE takes the three values clamped and
recomputes the effective slot count with no grant evaluation and no level evaluation (sections 5.3 and 10.3). The model's
choices: the row stands for the change of the level and for the end of the 1 ms (entry 9), with no change that has held
there is no release to take (entry 2), and one that comes late is taken where the clock stands (entries 1 and 29). -/
def Obligations.StopReleasedAndSupplyWritten : Prop :=
  ∀ s : State,
    (s.phase ≠ .inReset →
      (s.stopLevel = true → exec .stopRelease s =
        .next { s with stopLevel := false, stopChange := some (s.clock / 2048) }) ∧
      (∀ changed, s.stopLevel = false → s.stopAsserted = true → s.stopChange = some changed →
        let u : State := { s with clock := max s.clock ((changed + 10) * 2048), stopAsserted := false }
        (s.phase = .starting → exec .stopRelease s = .next u) ∧
        (s.phase = .running → s.OrdersOk → ∃ t, exec .stopRelease s = .next t ∧ u.GrantsMade t)) ∧
      (s.stopLevel = false → s.stopAsserted = false ∨ s.stopChange = none → exec .stopRelease s = .next s)) ∧
    (∀ f : Frame, s.Request .supplyWrite f → f.payload.length = 5 →
      let slots := max 1 (min 4 (fieldAt f.payload 0 1))
      let lowMark := max 60 (min 400 (fieldAt f.payload 1 2))
      exec .supplyWrite s = .next (State.replied { s with
        supply := { s.supply with
          slots := slots
          lowMark := lowMark
          floor := max 50 (min (lowMark - 5) (fieldAt f.payload 3 2))
          effective := match s.supply.level with
            | .normal => slots
            | .low => max 1 (slots / 2)
            | .belowFloor => 0 } } f 3 0))

/-- SUPPLY_CONVERSION_COMPLETE (sections 5.3, 6.2 and 7.4): 512 steps after its sample the code is the latest supply
sample; in RUNNING it moves the level and every PULLING and OPEN dock's duty; then the next turn begins. The model's
choices: with no supply conversion in progress there is none to complete (entry 2), at a direct fall to BELOW_FLOOR the
order of the two events is free (entry 7), and a completion that comes late is taken where the clock stands (entries 1 and
29). -/
def Obligations.SupplyDelivered : Prop :=
  ∀ (code : Code) (s : State), s.phase ≠ .inReset →
    (∀ sampledAt, s.sense.converter = .convertingSupply sampledAt →
      let u : State := { s with
        clock := max s.clock (sampledAt + 512), sense := { s.sense with latest := some code } }
      (s.phase = .starting → exec (.supplyConversionComplete code) s = .next u.endTurn) ∧
      (s.phase = .running → s.OrdersOk → ∃ v, u.LevelEvaluated v (10 * code.toNat) ∧
        exec (.supplyConversionComplete code) s =
          .next (State.endTurn { v with docks := v.docks.map (Dock.atSupply (10 * code.toNat)) }))) ∧
    ((∀ sampledAt, s.sense.converter ≠ .convertingSupply sampledAt) →
      exec (.supplyConversionComplete code) s = .next s)

/-- The figures of the row. The target duty is the least that gives the coil its setting, 1,024 at a supply at or below
it (section 6.2). The level falls below its marks and rises 500 mV above them (section 5.3). A channel's periods start
every 1,024 steps, 64 steps after those of the channel before (section 6.1), where channel 0's begin being open (the
model's field pwmPhase, entry 4). Its coil output is high for the first applied-duty steps of the period, and low in
reset. -/
def Obligations.RowFigures : Prop :=
  (∀ v vs : Nat, (vs ≤ v → targetDuty v vs = 1024) ∧
    (v < vs → v * 1024 ≤ targetDuty v vs * vs ∧ (∀ n, v * 1024 ≤ n * vs → targetDuty v vs ≤ n)) ∧
    (2000 ≤ v → vs ≤ 40950 → 51 ≤ targetDuty v vs ∧ targetDuty v vs ≤ 1024)) ∧
  (∀ (u : Supply) (vs : Nat), u.floor + 5 ≤ u.lowMark →
    (u.nextLevel vs = .normal ↔ 100 * u.lowMark + 500 ≤ vs ∨ (u.level = .normal ∧ 100 * u.lowMark ≤ vs)) ∧
    (u.nextLevel vs = .belowFloor ↔ vs < 100 * u.floor ∨ (u.level = .belowFloor ∧ vs < 100 * u.floor + 500))) ∧
  (∀ (s : State) (d : DockId), s.clock ≤ s.nextPeriodStart d ∧
    s.nextPeriodStart d % 1024 = (s.pwmPhase + 64 * d.val) % 1024 ∧
    ∀ n, s.clock ≤ n → n % 1024 = (s.pwmPhase + 64 * d.val) % 1024 → s.nextPeriodStart d ≤ n) ∧
  (∀ (s : State) (d : DockId),
    (s.phase = .inReset → s.coilHigh d = false) ∧
    (s.phase ≠ .inReset → ∀ periodEnd, periodEnd % 1024 = (s.pwmPhase + 64 * d.val) % 1024 →
      s.clock < periodEnd → periodEnd ≤ s.clock + 1024 →
        (s.coilHigh d = true ↔ s.clock + 1024 < periodEnd + (s.dock d).chan.applied)))

/-! ### The drive unit -/

/-- PULL_IN_START and PWM_PERIOD_START (sections 6.1, 6.3 and 6.4): at the channel's first period start after a grant the
pending duty is applied, the pull-in start recorded, PULL_LIMIT set unless an edge was captured already, and the sense
unit told; at any other period start the pending duty is applied. A command taken between two period starts is the one at
the next of them, and the clock goes there (entries 1, 29 and 36). -/
def Obligations.PeriodStarts : Prop :=
  ∀ (d : DockId) (s : State), s.phase ≠ .inReset →
    let u : State := { s with clock := max s.clock (s.nextPeriodStart d) }
    (∀ o, (s.dock d).state = .pulling → (s.dock d).order = some o → (s.dock d).chan.pullInStart = none →
      exec (.pullInStart d) s = .next (State.setActivity (u.withDock d fun k =>
        { k with chan := { k.chan with
          applied := k.chan.pending
          pullInStart := some (u.clock / 2048)
          timer := if k.chan.timer = .stopped then .pullLimit (u.clock / 2048 + 40 * o.profile.maxPullIn)
            else k.chan.timer } }) d .pullIn)) ∧
    (¬((s.dock d).state = .pulling ∧ (s.dock d).chan.pullInStart = none) →
      exec (.pwmPeriodStart d) s = .next (u.withDock d fun k =>
        { k with chan := { k.chan with applied := k.chan.pending } }))

/-- EXTENSION_EXPIRY and HOLD_EXPIRY (sections 6.4 and 6.6): the PULLING dock becomes OPEN with its hold duty pending, HOLD
set and RESULT OPEN queued, and its slot is granted on; the OPEN dock becomes CLOSING with its coil off and 1 s to run,
no frame queued and no event. An expiry that comes after its due instant (R48) is taken where the
clock stands (entries 1 and 29). -/
def Obligations.OpenThenClosing : Prop :=
  ∀ (d : DockId) (o : Order) (due : Nat) (s : State), s.phase ≠ .inReset → (s.dock d).order = some o →
    let u : State := { s with clock := max s.clock (due * 2048) }
    (s.OrdersOk → (s.dock d).state = .pulling → (s.dock d).chan.timer = .extension due →
      let v := State.setActivity (u.withDock d fun k =>
        { k with
          state := .opened
          chan := { k.chan with
            pending := targetDuty (100 * o.profile.hold) s.latestSupply
            timer := .hold (u.clock / 2048 + 10000 * o.profile.holdTime) } }) d .hold
      ∃ t, State.GrantsMade { v with dockPort := s.dockPort.offered (s.dockPort.resultFrame d 1 0) } t ∧
        exec (.extensionExpiry d) s = .next t) ∧
    ((s.dock d).state = .opened → (s.dock d).chan.timer = .hold due →
      exec (.holdExpiry d) s = .next (State.setActivity (u.withDock d fun k =>
        { k with
          state := .closing
          chan := { k.chan with applied := 0, pending := 0, timer := .closingLimit (u.clock / 2048 + 10000) } })
        d .inactive))

/-- PULL_LIMIT_EXPIRY and COIL_FAULT_REPORT (sections 6.4 and 6.5): no edge in the maximum pull-in time ends the order
UNLOCK_FAILED, with NO_OPEN_LOW_SUPPLY and the dock at its sensors if it is underdriven, else with LATCH_JAM, LATCH_FAULT
alone and the dock in SERVICE. The oldest fault report ends the order of a PULLING or OPEN dock with its kind, LATCH_FAULT
alone and the dock in SERVICE, and is discarded at any other dock. A slot that a PULLING dock gives up is granted on. The
model's choices: a refund's NOTICE stands ahead of the ATTENTION of LOG_HIGH (entry 17), and an expiry that comes after its
due instant (R48) is taken where the clock stands (entries 1 and 29). -/
def Obligations.DriveFailures : Prop :=
  ∀ (d : DockId) (s : State), s.OrdersOk → s.phase ≠ .inReset →
    (∀ o due, (s.dock d).state = .pulling → (s.dock d).order = some o → (s.dock d).chan.timer = .pullLimit due →
      let u : State := { s with clock := max s.clock (due * 2048) }
      (o.underdriven = true → ∃ t, exec (.pullLimitExpiry d) s = .next t ∧
        u.Ended t d o false .unlockFailed (some .noOpenLowSupply) none none ∧ (t.dock d).AtSensors) ∧
      (o.underdriven = false → ∃ t, exec (.pullLimitExpiry d) s = .next t ∧
        u.Ended t d o false .unlockFailed (some .latchJam) (some 2) (some .latchJam) ∧
        (t.dock d).state = .service ∧ (t.dock d).fault = some .latchJam)) ∧
    (∀ fault rest, s.sense.reports = (d, fault) :: rest →
      let u : State := { s with sense := { s.sense with reports := rest } }
      let reason := match fault with | .overcurrent => Reason.overcurrent | .undercurrent => .undercurrent
      let kind := match fault with | .overcurrent => FaultKind.overcurrent | .undercurrent => .undercurrent
      (∀ o, (s.dock d).state = .pulling ∨ (s.dock d).state = .opened → (s.dock d).order = some o →
        ∃ t, exec .coilFaultReport s = .next t ∧
          u.Ended t d o false .unlockFailed (some reason) (some 2) (some kind) ∧
          (t.dock d).state = .service ∧ (t.dock d).fault = some kind) ∧
      ((s.dock d).state ∉ [DockState.pulling, .opened] → exec .coilFaultReport s = .next u))

/-! ### The sense unit -/

/-- The turns of the converter and a change of a channel's activity (sections 7.2 and 7.5). A turn that ends is followed
by the one the next-turn item names: a supply turn samples at once, a coil turn waits for the lowest active channel
above the pointer or else the lowest of all, and with none active the converter is IDLE. A change makes the counter 0
and the latest coil sample absent, ends a turn that waits for a channel gone inactive, marks a conversion of the
channel, and wakes an IDLE converter. That a turn past its fixing period start ends too, when its channel becomes inactive
before the sampling instant, is the model's choice (entry 12). -/
def Obligations.TurnsAndActivity : Prop :=
  (∀ s : State,
    (s.sense.nextTurn = .supply → s.endTurn = { s with sense := { s.sense with
      converter := .convertingSupply s.clock, nextTurn := .coil, lastSupplyStart := s.clock / 2048 } }) ∧
    (s.sense.nextTurn = .coil →
      ((∀ d, (s.dock d).sense.activity = .inactive) →
        s.endTurn = { s with sense := { s.sense with converter := .idle } }) ∧
      (∀ d : DockId, (s.dock d).sense.activity ≠ .inactive →
        let above (x : DockId) := (s.dock x).sense.activity ≠ .inactive ∧ ∀ p ∈ s.sense.pointer, p < x
        (above d ∧ (∀ x, above x → d ≤ x)) ∨
          ((∀ x, ¬above x) ∧ ∀ x, (s.dock x).sense.activity ≠ .inactive → d ≤ x) →
        s.endTurn = { s with sense := { s.sense with
          converter := .waiting d none false, nextTurn := .supply, pointer := some d } }))) ∧
  (∀ (s : State) (d : DockId) (a : Activity),
    ((s.dock d).sense.activity = a → s.setActivity d a = s) ∧
    ((s.dock d).sense.activity ≠ a →
      let u := s.withDock d fun k => { k with sense := ⟨a, none, 0⟩ }
      let turn (c : Converter) : State := { u with sense := { s.sense with converter := c } }
      s.setActivity d a = match s.sense.converter with
        | .idle => if a = .inactive then u
          else State.endTurn { u with sense := { s.sense with nextTurn := .coil } }
        | .convertingSupply _ => u
        | .waiting e instant changed => if e ≠ d then u else if a = .inactive then u.endTurn
          else turn (.waiting e instant (changed || instant.isSome))
        | .convertingCoil e sampledAt changed => turn (.convertingCoil e sampledAt (changed || decide (e = d)))))

/-- FIXING_PERIOD_START, COIL_SAMPLING_INSTANT and IDLE_SUPPLY_TURN (sections 7.2 and 7.3): at the chosen channel's period
start the pending duty is applied and read; below 64 the sample is skipped and the turn ends, otherwise the sampling
instant is half the duty later, where the conversion begins; an IDLE converter begins a supply turn 10 ms after the last
one. The model's choices: a period start is the channel's next one at or after the present step (entry 36), and an
instant already past is taken where the clock stands (R48; entries 1 and 29). -/
def Obligations.SamplingPoints : Prop :=
  ∀ s : State, s.phase ≠ .inReset →
    (∀ d changed, s.sense.converter = .waiting d none changed →
      let u : State := { s with clock := max s.clock (s.nextPeriodStart d) }
      let v := u.withDock d fun k => { k with chan := { k.chan with applied := k.chan.pending } }
      ((s.dock d).chan.pending < 64 → exec .fixingPeriodStart s = .next v.endTurn) ∧
      (64 ≤ (s.dock d).chan.pending → exec .fixingPeriodStart s = .next { v with sense := { s.sense with
        converter := .waiting d (some (u.clock + (s.dock d).chan.pending / 2)) false } })) ∧
    (∀ d instant changed, s.sense.converter = .waiting d (some instant) changed →
      exec .coilSamplingInstant s = .next { s with
        clock := max s.clock instant
        sense := { s.sense with converter := .convertingCoil d (max s.clock instant) changed } }) ∧
    (s.sense.converter = .idle →
      let clock := max s.clock ((s.sense.lastSupplyStart + 100) * 2048)
      exec .idleSupplyTurn s = .next { s with
        clock := clock
        sense := { s.sense with
          converter := .convertingSupply clock, nextTurn := .coil, lastSupplyStart := clock / 2048 } })

/-- A compared sample is an over violation when 2 × C mA is above 32 × I_max mA, an under violation when the channel is in
HOLD, I_min is above 0 and 2 × C mA is below 8 × I_min mA, and passes otherwise, equality included. A sample in HOLD that
is both is of one of the two kinds, which the free value `n` chooses (the model's choice, entry 35). -/
def Obligations.Violations : Prop :=
  ∀ (p : Profile) (c : Code),
    let high := 2 * c.toNat > 32 * p.iMax
    let low := 0 < p.iMin ∧ 2 * c.toNat < 8 * p.iMin
    (∀ n,
      (¬high → violationOf p .pullIn c n = none) ∧ (high → violationOf p .pullIn c n = some .overcurrent) ∧
      (¬high → ¬low → violationOf p .hold c n = none) ∧
      (high → ¬low → violationOf p .hold c n = some .overcurrent) ∧
      (¬high → low → violationOf p .hold c n = some .undercurrent) ∧
      (high → low → violationOf p .hold c n = some .overcurrent ∨ violationOf p .hold c n = some .undercurrent)) ∧
    (high → low → (∃ n, violationOf p .hold c n = some .overcurrent) ∧ ∃ n, violationOf p .hold c n = some .undercurrent)

/-- COIL_CONVERSION_COMPLETE (sections 7.4 and 7.5): a conversion whose channel changed is discarded; otherwise the code is
the latest coil sample, and unless it lies in the first 20 ms of a pull-in it is compared with the order's window: a
passing sample makes the counter 0, a violation raises it, and the third makes a fault report and the counter 0. The
turn then ends. The model's choices: each compared sample reads one free value, which decides only the kind of a sample
that is over and under at once (entry 35), and a completion that comes late is taken where the clock stands (R48; entries
1 and 29). -/
def Obligations.CoilJudged : Prop :=
  ∀ (d : DockId) (sampledAt : Nat) (changed : Bool) (code : Code) (s : State), s.phase ≠ .inReset →
    s.sense.converter = .convertingCoil d sampledAt changed →
    let u : State := { s with clock := max s.clock (sampledAt + 512) }
    let k := s.dock d
    let stored (n : Nat) : State := u.withDock d fun k =>
      { k with sense := { k.sense with latest := some code, violations := n } }
    let compared (n : Nat) : State := { stored n with freeCount := s.freeCount + 1 }
    (changed = true → exec (.coilConversionComplete code) s = .next u.endTurn) ∧
    (changed = false → ∀ o, k.order = some o →
      let blanked := k.sense.activity = .pullIn ∧ ∃ start ∈ k.chan.pullInStart, sampledAt / 2048 < start + 200
      (blanked → exec (.coilConversionComplete code) s = .next (stored k.sense.violations).endTurn) ∧
      (¬blanked → ∃ choice,
        (violationOf o.profile k.sense.activity code choice = none →
          exec (.coilConversionComplete code) s = .next (compared 0).endTurn) ∧
        (∀ fault, violationOf o.profile k.sense.activity code choice = some fault →
          (k.sense.violations < 2 →
            exec (.coilConversionComplete code) s = .next (compared (k.sense.violations + 1)).endTurn) ∧
          (2 ≤ k.sense.violations → exec (.coilConversionComplete code) s = .next (State.endTurn
            { compared 0 with sense := { s.sense with reports := s.sense.reports ++ [(d, fault)] } })))))

/-! ### Reports and events -/

/-- COLLECT (section 8.4): BUSY_COLLECT while a record is out, EMPTY with none, and otherwise a copy of the head record in
its 26 bytes with the number behind it, the record staying in the log and the mark set. -/
def Obligations.CollectAnswered : Prop :=
  ∀ (f : Frame) (s : State), s.Request .collect f → f.payload = [] →
    (s.marks.collect = true → exec .collect s = .next (s.replied f 3 8)) ∧
    (s.marks.collect = false → s.log = [] → exec .collect s = .next (s.replied f 3 9)) ∧
    (∀ r rest, s.marks.collect = false → s.log = r :: rest → exec .collect s = .next (State.replied
      { s with marks := { s.marks with collect := true } } f 3 0
      (r.layout ++ [BitVec.ofNat 8 rest.length]) .collect))

/-- EVENT_READ, STATUS_READ and RESTART (sections 8.6, 10.4 and 12.4): the reports as they stand at the taking; in
READ_CLEARS mode EVENT_READ begins a read that carries the pending set, one at a time; RESTART is answered OK and marks
the reset that its REPLY's departure will bring. -/
def Obligations.ReadsAnswered : Prop :=
  ∀ (f : Frame) (s : State), f.payload = [] →
    (s.Request .eventRead f →
      let e := s.events
      let report : List Byte := bytesOf 2 e.pending.toNat ++ bytesOf 2 e.mask.toNat ++
        [match s.supply.level with | .normal => (0 : Byte) | .low => 1 | .belowFloor => 3,
          match e.clearMode with | .readClears => (0 : Byte) | .clearByRequest => 1] ++
        (match e.lastDuplicate with
          | none => [0, 0, 0, 0, 0, 0, 0, 0]
          | some l => [1] ++ bytesOf 4 l.passId ++ bytesOf 2 l.serial ++ [l.sibling.setWidth 8])
      (e.clearMode = .clearByRequest → exec .eventRead s = .next (s.replied f 2 0 report)) ∧
      (e.clearMode = .readClears →
        (s.marks.eventRead = true → exec .eventRead s = .next (s.replied f 2 8)) ∧
        (s.marks.eventRead = false → exec .eventRead s = .next (State.replied
          { s with marks := { s.marks with eventRead := true }, events := { e with carried := e.pending } }
          f 2 0 report .eventRead)))) ∧
    (s.Request .statusRead f → ∃ data : List Byte, exec .statusRead s = .next (s.replied f 2 0 data) ∧
      data.length = 24 ∧ fieldAt data 0 1 = s.station.address.toNat ∧
      fieldAt data 1 2 = s.identity.group % 65536 ∧
      (∀ i : Fin 16, fieldAt data (3 + i.val / 2) 1 / (if i.val % 2 = 0 then 16 else 1) % 16 = (s.dock i).state.code) ∧
      fieldAt data 11 1 = s.queue.length % 256 ∧ fieldAt data 12 1 = s.log.length % 256 ∧
      fieldAt data 13 1 = (match s.supply.level with | .normal => 0 | .low => 1 | .belowFloor => 2) ∧
      fieldAt data 14 2 = (match s.sense.latest with | some c => c.toNat | none => 0) ∧
      fieldAt data 16 1 = s.supply.effective % 256 ∧ fieldAt data 17 1 = s.timeKnown.toNat ∧
      (s.loader.status ≠ .loading →
        fieldAt data 18 1 = (match s.loader.status with | .complete => 1 | .error _ => 2 | _ => 3)) ∧
      fieldAt data 19 1 = (match s.loader.status with | .error i => i % 256 | _ => 0) ∧
      fieldAt data 20 2 = s.passes.length % 65536 ∧ fieldAt data 22 2 = s.denies.length % 65536) ∧
    (s.Request .restart f → exec .restart s = .next (State.replied
      { s with marks := { s.marks with restart := true } } f 2 0 [] .restart))

/-- EVENT_CLEAR (sections 8.6 and 8.7): a set with a position outside the twelve kinds is BAD_VALUE; otherwise the named kinds
leave the pending set, the ATTENTION rule is applied and the reply is OK; the carried set, the mask and the
last-duplicate record stay. That the ATTENTION stands ahead of the REPLY is the model's choice (entry 16). -/
def Obligations.EventCleared : Prop :=
  ∀ (f : Frame) (s : State), s.Request .eventClear f → f.payload.length = 2 →
    let kinds : EventSet := BitVec.ofNat 12 (fieldAt f.payload 0 2)
    (4096 ≤ fieldAt f.payload 0 2 → exec .eventClear s = .next (s.replied f 2 3)) ∧
    (fieldAt f.payload 0 2 < 4096 → ∃ t, State.Attended { s with
        events := { s.events with pending := s.events.pending &&& ~~~kinds } } t ∧
      exec .eventClear s = .next (t.replied f 2 0))

/-- EVENT_MASK makes the mask the carried set and EVENT_FORCE latches each named kind in the pending set alone; the
ATTENTION rule is applied once and the reply is OK. A set with a position outside the twelve kinds is BAD_VALUE and
changes nothing. That the ATTENTION stands ahead of the REPLY is the model's choice (entry 16). -/
def Obligations.EventsMaskedAndForced : Prop :=
  ∀ (f : Frame) (s : State), f.payload.length = 2 →
    let kinds : EventSet := BitVec.ofNat 12 (fieldAt f.payload 0 2)
    (s.Request .eventMask f →
      (4096 ≤ fieldAt f.payload 0 2 → exec .eventMask s = .next (s.replied f 2 3)) ∧
      (fieldAt f.payload 0 2 < 4096 → ∃ t, State.Attended { s with events := { s.events with mask := kinds } } t ∧
        exec .eventMask s = .next (t.replied f 2 0))) ∧
    (s.Request .eventForce f →
      (4096 ≤ fieldAt f.payload 0 2 → exec .eventForce s = .next (s.replied f 2 3)) ∧
      (fieldAt f.payload 0 2 < 4096 → ∃ t, State.Attended { s with events :=
          { s.events with pending := s.events.pending ||| kinds, carried := s.events.carried &&& ~~~kinds } } t ∧
        exec .eventForce s = .next (t.replied f 2 0)))

/-! ### The row link -/

/-- MESSAGE_FROM_READER, MESSAGE_TO_READER and FRAME_DISCARDED (sections 9.6 and 9.7): a MESSAGE goes on into the slot
reserved for it, upstream with the dock number before its payload, downstream to the reader of the dock that its first
byte names, without that byte; a frame with no taker leaves its buffer with no effect. -/
def Obligations.FramesForwardedOrDiscarded : Prop :=
  ∀ (f : Frame) (s : State),
    (s.DockFrame .message f → exec .messageFromReader s = .next { s with
      dockPort := s.dockPort.taken
      station := { s.station with
        tx := s.station.tx ++ [⟨⟨2, 1, s.station.address, 0x05, (f.source.setWidth 8 - 16) :: f.payload⟩, .none⟩]
        reserved := s.station.reserved - 1 } }) ∧
    (s.Request .message f → exec .messageToReader s = .next { s with
      station := s.station.taken
      dockPort := { s.dockPort with
        tx := s.dockPort.tx ++ [⟨⟨2, BitVec.ofNat 6 (16 + fieldAt f.payload 0 1), s.dockPort.address, 0x05,
          f.payload.drop 1⟩, .none⟩]
        reserved := s.dockPort.reserved - 1 } }) ∧
    (s.phase = .running → s.marks.restart = false → s.dockPort.rx.head? = some f →
      f.dest = 0 ∨ f.kind ∉ [0x01, 0x02, 0x05] →
        exec (.frameDiscarded .dock) s = .next { s with dockPort := s.dockPort.taken }) ∧
    (s.phase = .running → s.marks.restart = false → s.rearrangement = none → s.station.rx.head? = some f →
      f.dest = 0 → f.kind ∉ [0x22, 0x24] →
        exec (.frameDiscarded .station) s = .next { s with station := s.station.taken })

/-- FRAME_RECEIVED at a RECEIVING port (sections 9.2 and 9.6): the port reads on to the frame's end; a frame with a wrong
check, to another address, or that cannot be taken changes nothing else; a broadcast is placed if a slot is free; a
frame to the port is placed, with the slot its REPLY or its forwarding needs reserved. A
frame whose end is already past is taken where the clock stands (R48; entries 1 and 29). -/
def Obligations.FrameReceived : Prop :=
  ∀ (p : PortId) (header : BitVec 32) (payload : List Byte) (check : BitVec 16) (since : Nat) (s : State),
    s.phase ≠ .inReset → payload.length = headerLength header → headerHasNoEnd header = false →
    (s.port p).line = .receiving since none →
    let bits := 49 + 8 * payload.length
    let bitTime := match (s.port p).rate with | .kbit62 => 16 | .kbit125 => 8 | .kbit250 => 4
    let u : State := State.setLine { s with clock := max s.clock (since + (bits * bitTime * 512 + 24) / 25) } p
      (.receiving since (some payload.length))
    let placed (f : Frame) (t : State) : State := t.modPort p fun q => { q with rx := q.rx ++ [f] }
    let reserving (p : PortId) (t : State) : State := t.modPort p fun q => { q with reserved := q.reserved + 1 }
    let result := exec (.frameReceived p header payload check) s
    let open_ := s.phase = .running ∧ s.marks.restart = false ∧ (s.port p).rx.length < 2
    let slot (p : PortId) := (s.port p).tx.length + (s.port p).reserved < 8
    (receivedFrame header payload check = none → result = .next u) ∧
    (∀ f, receivedFrame header payload check = some f →
      (f.dest = 0 → (open_ → result = .next (placed f u)) ∧ (¬open_ → result = .next u)) ∧
      (f.dest ≠ 0 → f.dest ≠ (s.port p).address → result = .next u) ∧
      (f.dest ≠ 0 → f.dest = (s.port p).address →
        (¬open_ → result = .next u) ∧
        (open_ → f.kind ≠ 0x05 → p = .dock → result = .next (placed f u)) ∧
        (open_ → f.kind ≠ 0x05 → p = .station →
          (slot .station → result = .next (placed f (reserving .station u))) ∧
          (¬slot .station → result = .next u)) ∧
        (open_ → f.kind = 0x05 → p = .dock →
          let forwards := 16 ≤ f.source.toNat ∧ f.source.toNat < 32 ∧ f.payload.length ≤ 31 ∧ slot .station
          (forwards → result = .next (placed f (reserving .station u))) ∧ (¬forwards → result = .next u)) ∧
        (open_ → f.kind = 0x05 → p = .station →
          let forwards := 1 ≤ f.payload.length ∧ fieldAt f.payload 0 1 < 16 ∧ slot .dock
          (forwards → result = .next (placed f (reserving .dock u))) ∧ (¬forwards → result = .next u))))

/-- The line of a port (sections 9.1, 9.2 and 9.4): 11 recessive bit times make WAITING IDLE and a dominant bit begins
them anew; on an IDLE line the port sends its head frame's start bit or receives another node's, two start bits in one bit
time are one start, and after another node's the port defers; a port that reads a lower header than it sends withdraws at
the first bit that differs, keeping its frame; a header with no end, and the last end bit of a frame received, lead to
WAITING. The model's choices: a start bit is taken at its beginning and a dominant bit in WAITING at its end (entry 38), the
bit time of a start runs from the first of the two start bits (entry 40), a command without an effect answers a next state
(entry 2), and an instant already past is taken where the clock stands (R48; entries 1 and 29). -/
def Obligations.LineFollowed : Prop :=
  ∀ (p : PortId) (s : State), s.phase ≠ .inReset →
    let bitTime := match (s.port p).rate with | .kbit62 => 16 | .kbit125 => 8 | .kbit250 => 4
    let after (since bits : Nat) := max s.clock (since + (bits * bitTime * 512 + 24) / 25)
    let at_ (clock : Nat) (l : LineState) : State := State.setLine { s with clock := clock } p l
    (∀ countFrom, (s.port p).line = .waiting countFrom →
      exec (.lineIdle p) s = .next (at_ (after countFrom 11) .idle) ∧
      exec (.dominantBitInWaiting p) s = .next (at_ s.clock (.waiting s.clock))) ∧
    ((s.port p).line = .idle →
      exec (.otherNodeStartBit p) s = .next (at_ s.clock (.receiving s.clock none)) ∧
      ((s.port p).tx ≠ [] → exec (.frameSendStart p) s = .next (at_ s.clock (.sending s.clock)))) ∧
    (∀ since, (s.port p).line = .sending since → exec (.otherNodeStartBit p) s = .next s) ∧
    (∀ since, (s.port p).line = .receiving since none →
      let bitEnd := since + (bitTime * 512 + 24) / 25
      ((s.port p).tx ≠ [] → s.clock < bitEnd → exec (.frameSendStart p) s = .next (at_ s.clock (.sending since))) ∧
      (bitEnd ≤ s.clock → exec (.frameSendStart p) s = .next s)) ∧
    (∀ since (head : TxFrame) (lineHeader : BitVec 16) (i : Nat), (s.port p).line = .sending since →
      (s.port p).tx.head? = some head → i < 16 →
      lineHeader.getMsbD i = false → head.frame.arbitration.getMsbD i = true →
      (∀ j, j < i → lineHeader.getMsbD j = head.frame.arbitration.getMsbD j) →
        exec (.arbitrationLost p lineHeader) s = .next (at_ (after since (1 + i)) (.receiving since none))) ∧
    (∀ since header, (s.port p).line = .receiving since none → headerHasNoEnd header = true →
      exec (.headerNoEnd p header) s = .next (at_ (after since 33) (.waiting (after since 33)))) ∧
    (∀ since n, (s.port p).line = .receiving since (some n) →
      exec (.lastEndBit p) s = .next (at_ (after since (57 + 8 * n)) (.waiting (after since (57 + 8 * n)))))

/-- FRAME_DEPARTURE (sections 8.4, 8.6, 9.4 and 10.4): the head frame leaves its queue, after its last end bit or at a
mismatch at once, acknowledged only if it was addressed and its ack slot was dominant. A dock frame has no owner to tell.
A station frame's owner acts on it, the full reset of a RESTART sampling the straps, the STOP level and the raw sensor
levels as they then stand, and an ATTENTION that is OWED is queued. The model's choices: which of the two comes first is
free (entry 8); a frame that left as sent counts as not acknowledged (entry 11); at a mismatch, taken where the clock
stands (entry 39), the port reads on as a receiver (entry 27); the pins are sampled at the departure, where the reset takes
no time (entries 9 and 10); and a departure that comes late is taken where the clock stands (R48; entries 1 and 29). -/
def Obligations.FrameDeparts : Prop :=
  ∀ (p : PortId) (levels : DepartureLevels) (since : Nat) (head : TxFrame) (rest : List TxFrame) (s : State),
    s.phase ≠ .inReset → (s.port p).line = .sending since → (s.port p).tx = head :: rest →
    let n := head.frame.payload.length
    let bitTime := match (s.port p).rate with | .kbit62 => 16 | .kbit125 => 8 | .kbit250 => 4
    let ended := max s.clock (since + ((57 + 8 * n) * bitTime * 512 + 24) / 25)
    let left : State := match levels.readBack with
      | .mismatch => s.modPort p fun q => { q with line := .receiving since (some n), tx := rest }
      | _ => State.modPort { s with clock := ended } p fun q => { q with line := .waiting ended, tx := rest }
    let acknowledged := levels.readBack = .ackDominant ∧ head.frame.dest ≠ 0
    (p = .dock → exec (.frameDeparture p levels) s = .next left) ∧
    (p = .station → s.events.attention ≠ .owed →
      ∃ t, exec (.frameDeparture p levels) s = .next t ∧ left.Told t head.owner acknowledged levels.straps) ∧
    (p = .station → s.events.attention = .owed →
      ∃ t u : State, ∃ count, exec (.frameDeparture p levels) s = .next t ∧
        (State.Told { left with freeCount := count } u head.owner acknowledged levels.straps ∧ u.OwedPaid t ∨
          State.OwedPaid { left with freeCount := count } u ∧ u.Told t head.owner acknowledged levels.straps))
end

