-- ==== Sys2Proof/Laws/State.lean ====
section
/-! SUPPORT. One lemma for each field that a state update leaves alone, and the docks and ports after an update. -/

namespace Sys2Proof.Machine

variable (s : State)

@[simp] theorem State.modDock_phase (d : DockId) (f : Dock → Dock) : (s.modDock d f).phase = s.phase := rfl
@[simp] theorem State.modDock_clock (d : DockId) (f : Dock → Dock) : (s.modDock d f).clock = s.clock := rfl
@[simp] theorem State.modDock_stationTime (d : DockId) (f : Dock → Dock) : (s.modDock d f).stationTime = s.stationTime := rfl
@[simp] theorem State.modDock_timeKnown (d : DockId) (f : Dock → Dock) : (s.modDock d f).timeKnown = s.timeKnown := rfl
@[simp] theorem State.modDock_secondFrom (d : DockId) (f : Dock → Dock) : (s.modDock d f).secondFrom = s.secondFrom := rfl
@[simp] theorem State.modDock_identity (d : DockId) (f : Dock → Dock) : (s.modDock d f).identity = s.identity := rfl
@[simp] theorem State.modDock_keys (d : DockId) (f : Dock → Dock) : (s.modDock d f).keys = s.keys := rfl
@[simp] theorem State.modDock_referrals (d : DockId) (f : Dock → Dock) : (s.modDock d f).referrals = s.referrals := rfl
@[simp] theorem State.modDock_referralCount (d : DockId) (f : Dock → Dock) : (s.modDock d f).referralCount = s.referralCount := rfl
@[simp] theorem State.modDock_passes (d : DockId) (f : Dock → Dock) : (s.modDock d f).passes = s.passes := rfl
@[simp] theorem State.modDock_denies (d : DockId) (f : Dock → Dock) : (s.modDock d f).denies = s.denies := rfl
@[simp] theorem State.modDock_rearrangement (d : DockId) (f : Dock → Dock) : (s.modDock d f).rearrangement = s.rearrangement := rfl
@[simp] theorem State.modDock_queue (d : DockId) (f : Dock → Dock) : (s.modDock d f).queue = s.queue := rfl
@[simp] theorem State.modDock_supply (d : DockId) (f : Dock → Dock) : (s.modDock d f).supply = s.supply := rfl
@[simp] theorem State.modDock_stopAsserted (d : DockId) (f : Dock → Dock) : (s.modDock d f).stopAsserted = s.stopAsserted := rfl
@[simp] theorem State.modDock_stopLevel (d : DockId) (f : Dock → Dock) : (s.modDock d f).stopLevel = s.stopLevel := rfl
@[simp] theorem State.modDock_stopChange (d : DockId) (f : Dock → Dock) : (s.modDock d f).stopChange = s.stopChange := rfl
@[simp] theorem State.modDock_sense (d : DockId) (f : Dock → Dock) : (s.modDock d f).sense = s.sense := rfl
@[simp] theorem State.modDock_log (d : DockId) (f : Dock → Dock) : (s.modDock d f).log = s.log := rfl
@[simp] theorem State.modDock_events (d : DockId) (f : Dock → Dock) : (s.modDock d f).events = s.events := rfl
@[simp] theorem State.modDock_marks (d : DockId) (f : Dock → Dock) : (s.modDock d f).marks = s.marks := rfl
@[simp] theorem State.modDock_station (d : DockId) (f : Dock → Dock) : (s.modDock d f).station = s.station := rfl
@[simp] theorem State.modDock_dockPort (d : DockId) (f : Dock → Dock) : (s.modDock d f).dockPort = s.dockPort := rfl
@[simp] theorem State.modDock_straps (d : DockId) (f : Dock → Dock) : (s.modDock d f).straps = s.straps := rfl
@[simp] theorem State.modDock_loader (d : DockId) (f : Dock → Dock) : (s.modDock d f).loader = s.loader := rfl
@[simp] theorem State.modDock_pwmPhase (d : DockId) (f : Dock → Dock) : (s.modDock d f).pwmPhase = s.pwmPhase := rfl
@[simp] theorem State.modDock_freeCount (d : DockId) (f : Dock → Dock) : (s.modDock d f).freeCount = s.freeCount := rfl
@[simp] theorem State.modDock_pending (d : DockId) (f : Dock → Dock) : (s.modDock d f).pending = s.pending := rfl

@[simp] theorem State.modSense_phase (f : Sense → Sense) : (s.modSense f).phase = s.phase := rfl
@[simp] theorem State.modSense_clock (f : Sense → Sense) : (s.modSense f).clock = s.clock := rfl
@[simp] theorem State.modSense_stationTime (f : Sense → Sense) : (s.modSense f).stationTime = s.stationTime := rfl
@[simp] theorem State.modSense_timeKnown (f : Sense → Sense) : (s.modSense f).timeKnown = s.timeKnown := rfl
@[simp] theorem State.modSense_secondFrom (f : Sense → Sense) : (s.modSense f).secondFrom = s.secondFrom := rfl
@[simp] theorem State.modSense_identity (f : Sense → Sense) : (s.modSense f).identity = s.identity := rfl
@[simp] theorem State.modSense_keys (f : Sense → Sense) : (s.modSense f).keys = s.keys := rfl
@[simp] theorem State.modSense_referrals (f : Sense → Sense) : (s.modSense f).referrals = s.referrals := rfl
@[simp] theorem State.modSense_referralCount (f : Sense → Sense) : (s.modSense f).referralCount = s.referralCount := rfl
@[simp] theorem State.modSense_passes (f : Sense → Sense) : (s.modSense f).passes = s.passes := rfl
@[simp] theorem State.modSense_denies (f : Sense → Sense) : (s.modSense f).denies = s.denies := rfl
@[simp] theorem State.modSense_rearrangement (f : Sense → Sense) : (s.modSense f).rearrangement = s.rearrangement := rfl
@[simp] theorem State.modSense_docks (f : Sense → Sense) : (s.modSense f).docks = s.docks := rfl
@[simp] theorem State.modSense_queue (f : Sense → Sense) : (s.modSense f).queue = s.queue := rfl
@[simp] theorem State.modSense_supply (f : Sense → Sense) : (s.modSense f).supply = s.supply := rfl
@[simp] theorem State.modSense_stopAsserted (f : Sense → Sense) : (s.modSense f).stopAsserted = s.stopAsserted := rfl
@[simp] theorem State.modSense_stopLevel (f : Sense → Sense) : (s.modSense f).stopLevel = s.stopLevel := rfl
@[simp] theorem State.modSense_stopChange (f : Sense → Sense) : (s.modSense f).stopChange = s.stopChange := rfl
@[simp] theorem State.modSense_log (f : Sense → Sense) : (s.modSense f).log = s.log := rfl
@[simp] theorem State.modSense_events (f : Sense → Sense) : (s.modSense f).events = s.events := rfl
@[simp] theorem State.modSense_marks (f : Sense → Sense) : (s.modSense f).marks = s.marks := rfl
@[simp] theorem State.modSense_station (f : Sense → Sense) : (s.modSense f).station = s.station := rfl
@[simp] theorem State.modSense_dockPort (f : Sense → Sense) : (s.modSense f).dockPort = s.dockPort := rfl
@[simp] theorem State.modSense_straps (f : Sense → Sense) : (s.modSense f).straps = s.straps := rfl
@[simp] theorem State.modSense_loader (f : Sense → Sense) : (s.modSense f).loader = s.loader := rfl
@[simp] theorem State.modSense_pwmPhase (f : Sense → Sense) : (s.modSense f).pwmPhase = s.pwmPhase := rfl
@[simp] theorem State.modSense_freeCount (f : Sense → Sense) : (s.modSense f).freeCount = s.freeCount := rfl
@[simp] theorem State.modSense_pending (f : Sense → Sense) : (s.modSense f).pending = s.pending := rfl

@[simp] theorem State.setConverter_phase (c : Converter) : (s.setConverter c).phase = s.phase := rfl
@[simp] theorem State.setConverter_clock (c : Converter) : (s.setConverter c).clock = s.clock := rfl
@[simp] theorem State.setConverter_stationTime (c : Converter) : (s.setConverter c).stationTime = s.stationTime := rfl
@[simp] theorem State.setConverter_timeKnown (c : Converter) : (s.setConverter c).timeKnown = s.timeKnown := rfl
@[simp] theorem State.setConverter_secondFrom (c : Converter) : (s.setConverter c).secondFrom = s.secondFrom := rfl
@[simp] theorem State.setConverter_identity (c : Converter) : (s.setConverter c).identity = s.identity := rfl
@[simp] theorem State.setConverter_keys (c : Converter) : (s.setConverter c).keys = s.keys := rfl
@[simp] theorem State.setConverter_referrals (c : Converter) : (s.setConverter c).referrals = s.referrals := rfl
@[simp] theorem State.setConverter_referralCount (c : Converter) : (s.setConverter c).referralCount = s.referralCount := rfl
@[simp] theorem State.setConverter_passes (c : Converter) : (s.setConverter c).passes = s.passes := rfl
@[simp] theorem State.setConverter_denies (c : Converter) : (s.setConverter c).denies = s.denies := rfl
@[simp] theorem State.setConverter_rearrangement (c : Converter) : (s.setConverter c).rearrangement = s.rearrangement := rfl
@[simp] theorem State.setConverter_docks (c : Converter) : (s.setConverter c).docks = s.docks := rfl
@[simp] theorem State.setConverter_queue (c : Converter) : (s.setConverter c).queue = s.queue := rfl
@[simp] theorem State.setConverter_supply (c : Converter) : (s.setConverter c).supply = s.supply := rfl
@[simp] theorem State.setConverter_stopAsserted (c : Converter) : (s.setConverter c).stopAsserted = s.stopAsserted := rfl
@[simp] theorem State.setConverter_stopLevel (c : Converter) : (s.setConverter c).stopLevel = s.stopLevel := rfl
@[simp] theorem State.setConverter_stopChange (c : Converter) : (s.setConverter c).stopChange = s.stopChange := rfl
@[simp] theorem State.setConverter_log (c : Converter) : (s.setConverter c).log = s.log := rfl
@[simp] theorem State.setConverter_events (c : Converter) : (s.setConverter c).events = s.events := rfl
@[simp] theorem State.setConverter_marks (c : Converter) : (s.setConverter c).marks = s.marks := rfl
@[simp] theorem State.setConverter_station (c : Converter) : (s.setConverter c).station = s.station := rfl
@[simp] theorem State.setConverter_dockPort (c : Converter) : (s.setConverter c).dockPort = s.dockPort := rfl
@[simp] theorem State.setConverter_straps (c : Converter) : (s.setConverter c).straps = s.straps := rfl
@[simp] theorem State.setConverter_loader (c : Converter) : (s.setConverter c).loader = s.loader := rfl
@[simp] theorem State.setConverter_pwmPhase (c : Converter) : (s.setConverter c).pwmPhase = s.pwmPhase := rfl
@[simp] theorem State.setConverter_freeCount (c : Converter) : (s.setConverter c).freeCount = s.freeCount := rfl
@[simp] theorem State.setConverter_pending (c : Converter) : (s.setConverter c).pending = s.pending := rfl

@[simp] theorem State.advanceTo_phase (n : Nat) : (s.advanceTo n).phase = s.phase := rfl
@[simp] theorem State.advanceTo_stationTime (n : Nat) : (s.advanceTo n).stationTime = s.stationTime := rfl
@[simp] theorem State.advanceTo_timeKnown (n : Nat) : (s.advanceTo n).timeKnown = s.timeKnown := rfl
@[simp] theorem State.advanceTo_secondFrom (n : Nat) : (s.advanceTo n).secondFrom = s.secondFrom := rfl
@[simp] theorem State.advanceTo_identity (n : Nat) : (s.advanceTo n).identity = s.identity := rfl
@[simp] theorem State.advanceTo_keys (n : Nat) : (s.advanceTo n).keys = s.keys := rfl
@[simp] theorem State.advanceTo_referrals (n : Nat) : (s.advanceTo n).referrals = s.referrals := rfl
@[simp] theorem State.advanceTo_referralCount (n : Nat) : (s.advanceTo n).referralCount = s.referralCount := rfl
@[simp] theorem State.advanceTo_passes (n : Nat) : (s.advanceTo n).passes = s.passes := rfl
@[simp] theorem State.advanceTo_denies (n : Nat) : (s.advanceTo n).denies = s.denies := rfl
@[simp] theorem State.advanceTo_rearrangement (n : Nat) : (s.advanceTo n).rearrangement = s.rearrangement := rfl
@[simp] theorem State.advanceTo_docks (n : Nat) : (s.advanceTo n).docks = s.docks := rfl
@[simp] theorem State.advanceTo_queue (n : Nat) : (s.advanceTo n).queue = s.queue := rfl
@[simp] theorem State.advanceTo_supply (n : Nat) : (s.advanceTo n).supply = s.supply := rfl
@[simp] theorem State.advanceTo_stopAsserted (n : Nat) : (s.advanceTo n).stopAsserted = s.stopAsserted := rfl
@[simp] theorem State.advanceTo_stopLevel (n : Nat) : (s.advanceTo n).stopLevel = s.stopLevel := rfl
@[simp] theorem State.advanceTo_stopChange (n : Nat) : (s.advanceTo n).stopChange = s.stopChange := rfl
@[simp] theorem State.advanceTo_sense (n : Nat) : (s.advanceTo n).sense = s.sense := rfl
@[simp] theorem State.advanceTo_log (n : Nat) : (s.advanceTo n).log = s.log := rfl
@[simp] theorem State.advanceTo_events (n : Nat) : (s.advanceTo n).events = s.events := rfl
@[simp] theorem State.advanceTo_marks (n : Nat) : (s.advanceTo n).marks = s.marks := rfl
@[simp] theorem State.advanceTo_station (n : Nat) : (s.advanceTo n).station = s.station := rfl
@[simp] theorem State.advanceTo_dockPort (n : Nat) : (s.advanceTo n).dockPort = s.dockPort := rfl
@[simp] theorem State.advanceTo_straps (n : Nat) : (s.advanceTo n).straps = s.straps := rfl
@[simp] theorem State.advanceTo_loader (n : Nat) : (s.advanceTo n).loader = s.loader := rfl
@[simp] theorem State.advanceTo_pwmPhase (n : Nat) : (s.advanceTo n).pwmPhase = s.pwmPhase := rfl
@[simp] theorem State.advanceTo_freeCount (n : Nat) : (s.advanceTo n).freeCount = s.freeCount := rfl
@[simp] theorem State.advanceTo_pending (n : Nat) : (s.advanceTo n).pending = s.pending := rfl

@[simp] theorem State.advanceToCount_phase (n : Nat) : (s.advanceToCount n).phase = s.phase := rfl
@[simp] theorem State.advanceToCount_stationTime (n : Nat) : (s.advanceToCount n).stationTime = s.stationTime := rfl
@[simp] theorem State.advanceToCount_timeKnown (n : Nat) : (s.advanceToCount n).timeKnown = s.timeKnown := rfl
@[simp] theorem State.advanceToCount_secondFrom (n : Nat) : (s.advanceToCount n).secondFrom = s.secondFrom := rfl
@[simp] theorem State.advanceToCount_identity (n : Nat) : (s.advanceToCount n).identity = s.identity := rfl
@[simp] theorem State.advanceToCount_keys (n : Nat) : (s.advanceToCount n).keys = s.keys := rfl
@[simp] theorem State.advanceToCount_referrals (n : Nat) : (s.advanceToCount n).referrals = s.referrals := rfl
@[simp] theorem State.advanceToCount_referralCount (n : Nat) : (s.advanceToCount n).referralCount = s.referralCount := rfl
@[simp] theorem State.advanceToCount_passes (n : Nat) : (s.advanceToCount n).passes = s.passes := rfl
@[simp] theorem State.advanceToCount_denies (n : Nat) : (s.advanceToCount n).denies = s.denies := rfl
@[simp] theorem State.advanceToCount_rearrangement (n : Nat) : (s.advanceToCount n).rearrangement = s.rearrangement := rfl
@[simp] theorem State.advanceToCount_docks (n : Nat) : (s.advanceToCount n).docks = s.docks := rfl
@[simp] theorem State.advanceToCount_queue (n : Nat) : (s.advanceToCount n).queue = s.queue := rfl
@[simp] theorem State.advanceToCount_supply (n : Nat) : (s.advanceToCount n).supply = s.supply := rfl
@[simp] theorem State.advanceToCount_stopAsserted (n : Nat) : (s.advanceToCount n).stopAsserted = s.stopAsserted := rfl
@[simp] theorem State.advanceToCount_stopLevel (n : Nat) : (s.advanceToCount n).stopLevel = s.stopLevel := rfl
@[simp] theorem State.advanceToCount_stopChange (n : Nat) : (s.advanceToCount n).stopChange = s.stopChange := rfl
@[simp] theorem State.advanceToCount_sense (n : Nat) : (s.advanceToCount n).sense = s.sense := rfl
@[simp] theorem State.advanceToCount_log (n : Nat) : (s.advanceToCount n).log = s.log := rfl
@[simp] theorem State.advanceToCount_events (n : Nat) : (s.advanceToCount n).events = s.events := rfl
@[simp] theorem State.advanceToCount_marks (n : Nat) : (s.advanceToCount n).marks = s.marks := rfl
@[simp] theorem State.advanceToCount_station (n : Nat) : (s.advanceToCount n).station = s.station := rfl
@[simp] theorem State.advanceToCount_dockPort (n : Nat) : (s.advanceToCount n).dockPort = s.dockPort := rfl
@[simp] theorem State.advanceToCount_straps (n : Nat) : (s.advanceToCount n).straps = s.straps := rfl
@[simp] theorem State.advanceToCount_loader (n : Nat) : (s.advanceToCount n).loader = s.loader := rfl
@[simp] theorem State.advanceToCount_pwmPhase (n : Nat) : (s.advanceToCount n).pwmPhase = s.pwmPhase := rfl
@[simp] theorem State.advanceToCount_freeCount (n : Nat) : (s.advanceToCount n).freeCount = s.freeCount := rfl
@[simp] theorem State.advanceToCount_pending (n : Nat) : (s.advanceToCount n).pending = s.pending := rfl

@[simp] theorem State.modPass_phase (i : Nat) (f : PassEntry → PassEntry) : (s.modPass i f).phase = s.phase := rfl
@[simp] theorem State.modPass_clock (i : Nat) (f : PassEntry → PassEntry) : (s.modPass i f).clock = s.clock := rfl
@[simp] theorem State.modPass_stationTime (i : Nat) (f : PassEntry → PassEntry) : (s.modPass i f).stationTime = s.stationTime := rfl
@[simp] theorem State.modPass_timeKnown (i : Nat) (f : PassEntry → PassEntry) : (s.modPass i f).timeKnown = s.timeKnown := rfl
@[simp] theorem State.modPass_secondFrom (i : Nat) (f : PassEntry → PassEntry) : (s.modPass i f).secondFrom = s.secondFrom := rfl
@[simp] theorem State.modPass_identity (i : Nat) (f : PassEntry → PassEntry) : (s.modPass i f).identity = s.identity := rfl
@[simp] theorem State.modPass_keys (i : Nat) (f : PassEntry → PassEntry) : (s.modPass i f).keys = s.keys := rfl
@[simp] theorem State.modPass_referrals (i : Nat) (f : PassEntry → PassEntry) : (s.modPass i f).referrals = s.referrals := rfl
@[simp] theorem State.modPass_referralCount (i : Nat) (f : PassEntry → PassEntry) : (s.modPass i f).referralCount = s.referralCount := rfl
@[simp] theorem State.modPass_denies (i : Nat) (f : PassEntry → PassEntry) : (s.modPass i f).denies = s.denies := rfl
@[simp] theorem State.modPass_rearrangement (i : Nat) (f : PassEntry → PassEntry) : (s.modPass i f).rearrangement = s.rearrangement := rfl
@[simp] theorem State.modPass_docks (i : Nat) (f : PassEntry → PassEntry) : (s.modPass i f).docks = s.docks := rfl
@[simp] theorem State.modPass_queue (i : Nat) (f : PassEntry → PassEntry) : (s.modPass i f).queue = s.queue := rfl
@[simp] theorem State.modPass_supply (i : Nat) (f : PassEntry → PassEntry) : (s.modPass i f).supply = s.supply := rfl
@[simp] theorem State.modPass_stopAsserted (i : Nat) (f : PassEntry → PassEntry) : (s.modPass i f).stopAsserted = s.stopAsserted := rfl
@[simp] theorem State.modPass_stopLevel (i : Nat) (f : PassEntry → PassEntry) : (s.modPass i f).stopLevel = s.stopLevel := rfl
@[simp] theorem State.modPass_stopChange (i : Nat) (f : PassEntry → PassEntry) : (s.modPass i f).stopChange = s.stopChange := rfl
@[simp] theorem State.modPass_sense (i : Nat) (f : PassEntry → PassEntry) : (s.modPass i f).sense = s.sense := rfl
@[simp] theorem State.modPass_log (i : Nat) (f : PassEntry → PassEntry) : (s.modPass i f).log = s.log := rfl
@[simp] theorem State.modPass_events (i : Nat) (f : PassEntry → PassEntry) : (s.modPass i f).events = s.events := rfl
@[simp] theorem State.modPass_marks (i : Nat) (f : PassEntry → PassEntry) : (s.modPass i f).marks = s.marks := rfl
@[simp] theorem State.modPass_station (i : Nat) (f : PassEntry → PassEntry) : (s.modPass i f).station = s.station := rfl
@[simp] theorem State.modPass_dockPort (i : Nat) (f : PassEntry → PassEntry) : (s.modPass i f).dockPort = s.dockPort := rfl
@[simp] theorem State.modPass_straps (i : Nat) (f : PassEntry → PassEntry) : (s.modPass i f).straps = s.straps := rfl
@[simp] theorem State.modPass_loader (i : Nat) (f : PassEntry → PassEntry) : (s.modPass i f).loader = s.loader := rfl
@[simp] theorem State.modPass_pwmPhase (i : Nat) (f : PassEntry → PassEntry) : (s.modPass i f).pwmPhase = s.pwmPhase := rfl
@[simp] theorem State.modPass_freeCount (i : Nat) (f : PassEntry → PassEntry) : (s.modPass i f).freeCount = s.freeCount := rfl
@[simp] theorem State.modPass_pending (i : Nat) (f : PassEntry → PassEntry) : (s.modPass i f).pending = s.pending := rfl

@[simp] theorem State.spendFree_phase (k : Nat) : (s.spendFree k).phase = s.phase := rfl
@[simp] theorem State.spendFree_clock (k : Nat) : (s.spendFree k).clock = s.clock := rfl
@[simp] theorem State.spendFree_stationTime (k : Nat) : (s.spendFree k).stationTime = s.stationTime := rfl
@[simp] theorem State.spendFree_timeKnown (k : Nat) : (s.spendFree k).timeKnown = s.timeKnown := rfl
@[simp] theorem State.spendFree_secondFrom (k : Nat) : (s.spendFree k).secondFrom = s.secondFrom := rfl
@[simp] theorem State.spendFree_identity (k : Nat) : (s.spendFree k).identity = s.identity := rfl
@[simp] theorem State.spendFree_keys (k : Nat) : (s.spendFree k).keys = s.keys := rfl
@[simp] theorem State.spendFree_referrals (k : Nat) : (s.spendFree k).referrals = s.referrals := rfl
@[simp] theorem State.spendFree_referralCount (k : Nat) : (s.spendFree k).referralCount = s.referralCount := rfl
@[simp] theorem State.spendFree_passes (k : Nat) : (s.spendFree k).passes = s.passes := rfl
@[simp] theorem State.spendFree_denies (k : Nat) : (s.spendFree k).denies = s.denies := rfl
@[simp] theorem State.spendFree_rearrangement (k : Nat) : (s.spendFree k).rearrangement = s.rearrangement := rfl
@[simp] theorem State.spendFree_docks (k : Nat) : (s.spendFree k).docks = s.docks := rfl
@[simp] theorem State.spendFree_queue (k : Nat) : (s.spendFree k).queue = s.queue := rfl
@[simp] theorem State.spendFree_supply (k : Nat) : (s.spendFree k).supply = s.supply := rfl
@[simp] theorem State.spendFree_stopAsserted (k : Nat) : (s.spendFree k).stopAsserted = s.stopAsserted := rfl
@[simp] theorem State.spendFree_stopLevel (k : Nat) : (s.spendFree k).stopLevel = s.stopLevel := rfl
@[simp] theorem State.spendFree_stopChange (k : Nat) : (s.spendFree k).stopChange = s.stopChange := rfl
@[simp] theorem State.spendFree_sense (k : Nat) : (s.spendFree k).sense = s.sense := rfl
@[simp] theorem State.spendFree_log (k : Nat) : (s.spendFree k).log = s.log := rfl
@[simp] theorem State.spendFree_events (k : Nat) : (s.spendFree k).events = s.events := rfl
@[simp] theorem State.spendFree_marks (k : Nat) : (s.spendFree k).marks = s.marks := rfl
@[simp] theorem State.spendFree_station (k : Nat) : (s.spendFree k).station = s.station := rfl
@[simp] theorem State.spendFree_dockPort (k : Nat) : (s.spendFree k).dockPort = s.dockPort := rfl
@[simp] theorem State.spendFree_straps (k : Nat) : (s.spendFree k).straps = s.straps := rfl
@[simp] theorem State.spendFree_loader (k : Nat) : (s.spendFree k).loader = s.loader := rfl
@[simp] theorem State.spendFree_pwmPhase (k : Nat) : (s.spendFree k).pwmPhase = s.pwmPhase := rfl
@[simp] theorem State.spendFree_pending (k : Nat) : (s.spendFree k).pending = s.pending := rfl

@[simp] theorem State.appendLog_phase (r : OutcomeRecord) : (s.appendLog r).phase = s.phase := rfl
@[simp] theorem State.appendLog_clock (r : OutcomeRecord) : (s.appendLog r).clock = s.clock := rfl
@[simp] theorem State.appendLog_stationTime (r : OutcomeRecord) : (s.appendLog r).stationTime = s.stationTime := rfl
@[simp] theorem State.appendLog_timeKnown (r : OutcomeRecord) : (s.appendLog r).timeKnown = s.timeKnown := rfl
@[simp] theorem State.appendLog_secondFrom (r : OutcomeRecord) : (s.appendLog r).secondFrom = s.secondFrom := rfl
@[simp] theorem State.appendLog_identity (r : OutcomeRecord) : (s.appendLog r).identity = s.identity := rfl
@[simp] theorem State.appendLog_keys (r : OutcomeRecord) : (s.appendLog r).keys = s.keys := rfl
@[simp] theorem State.appendLog_referrals (r : OutcomeRecord) : (s.appendLog r).referrals = s.referrals := rfl
@[simp] theorem State.appendLog_referralCount (r : OutcomeRecord) : (s.appendLog r).referralCount = s.referralCount := rfl
@[simp] theorem State.appendLog_passes (r : OutcomeRecord) : (s.appendLog r).passes = s.passes := rfl
@[simp] theorem State.appendLog_denies (r : OutcomeRecord) : (s.appendLog r).denies = s.denies := rfl
@[simp] theorem State.appendLog_rearrangement (r : OutcomeRecord) : (s.appendLog r).rearrangement = s.rearrangement := rfl
@[simp] theorem State.appendLog_docks (r : OutcomeRecord) : (s.appendLog r).docks = s.docks := rfl
@[simp] theorem State.appendLog_queue (r : OutcomeRecord) : (s.appendLog r).queue = s.queue := rfl
@[simp] theorem State.appendLog_supply (r : OutcomeRecord) : (s.appendLog r).supply = s.supply := rfl
@[simp] theorem State.appendLog_stopAsserted (r : OutcomeRecord) : (s.appendLog r).stopAsserted = s.stopAsserted := rfl
@[simp] theorem State.appendLog_stopLevel (r : OutcomeRecord) : (s.appendLog r).stopLevel = s.stopLevel := rfl
@[simp] theorem State.appendLog_stopChange (r : OutcomeRecord) : (s.appendLog r).stopChange = s.stopChange := rfl
@[simp] theorem State.appendLog_sense (r : OutcomeRecord) : (s.appendLog r).sense = s.sense := rfl
@[simp] theorem State.appendLog_events (r : OutcomeRecord) : (s.appendLog r).events = s.events := rfl
@[simp] theorem State.appendLog_marks (r : OutcomeRecord) : (s.appendLog r).marks = s.marks := rfl
@[simp] theorem State.appendLog_station (r : OutcomeRecord) : (s.appendLog r).station = s.station := rfl
@[simp] theorem State.appendLog_dockPort (r : OutcomeRecord) : (s.appendLog r).dockPort = s.dockPort := rfl
@[simp] theorem State.appendLog_straps (r : OutcomeRecord) : (s.appendLog r).straps = s.straps := rfl
@[simp] theorem State.appendLog_loader (r : OutcomeRecord) : (s.appendLog r).loader = s.loader := rfl
@[simp] theorem State.appendLog_pwmPhase (r : OutcomeRecord) : (s.appendLog r).pwmPhase = s.pwmPhase := rfl
@[simp] theorem State.appendLog_freeCount (r : OutcomeRecord) : (s.appendLog r).freeCount = s.freeCount := rfl
@[simp] theorem State.appendLog_pending (r : OutcomeRecord) : (s.appendLog r).pending = s.pending := rfl

@[simp] theorem State.addPending_phase (k : EventSet) : (s.addPending k).phase = s.phase := rfl
@[simp] theorem State.addPending_clock (k : EventSet) : (s.addPending k).clock = s.clock := rfl
@[simp] theorem State.addPending_stationTime (k : EventSet) : (s.addPending k).stationTime = s.stationTime := rfl
@[simp] theorem State.addPending_timeKnown (k : EventSet) : (s.addPending k).timeKnown = s.timeKnown := rfl
@[simp] theorem State.addPending_secondFrom (k : EventSet) : (s.addPending k).secondFrom = s.secondFrom := rfl
@[simp] theorem State.addPending_identity (k : EventSet) : (s.addPending k).identity = s.identity := rfl
@[simp] theorem State.addPending_keys (k : EventSet) : (s.addPending k).keys = s.keys := rfl
@[simp] theorem State.addPending_referrals (k : EventSet) : (s.addPending k).referrals = s.referrals := rfl
@[simp] theorem State.addPending_referralCount (k : EventSet) : (s.addPending k).referralCount = s.referralCount := rfl
@[simp] theorem State.addPending_passes (k : EventSet) : (s.addPending k).passes = s.passes := rfl
@[simp] theorem State.addPending_denies (k : EventSet) : (s.addPending k).denies = s.denies := rfl
@[simp] theorem State.addPending_rearrangement (k : EventSet) : (s.addPending k).rearrangement = s.rearrangement := rfl
@[simp] theorem State.addPending_docks (k : EventSet) : (s.addPending k).docks = s.docks := rfl
@[simp] theorem State.addPending_queue (k : EventSet) : (s.addPending k).queue = s.queue := rfl
@[simp] theorem State.addPending_supply (k : EventSet) : (s.addPending k).supply = s.supply := rfl
@[simp] theorem State.addPending_stopAsserted (k : EventSet) : (s.addPending k).stopAsserted = s.stopAsserted := rfl
@[simp] theorem State.addPending_stopLevel (k : EventSet) : (s.addPending k).stopLevel = s.stopLevel := rfl
@[simp] theorem State.addPending_stopChange (k : EventSet) : (s.addPending k).stopChange = s.stopChange := rfl
@[simp] theorem State.addPending_sense (k : EventSet) : (s.addPending k).sense = s.sense := rfl
@[simp] theorem State.addPending_log (k : EventSet) : (s.addPending k).log = s.log := rfl
@[simp] theorem State.addPending_marks (k : EventSet) : (s.addPending k).marks = s.marks := rfl
@[simp] theorem State.addPending_station (k : EventSet) : (s.addPending k).station = s.station := rfl
@[simp] theorem State.addPending_dockPort (k : EventSet) : (s.addPending k).dockPort = s.dockPort := rfl
@[simp] theorem State.addPending_straps (k : EventSet) : (s.addPending k).straps = s.straps := rfl
@[simp] theorem State.addPending_loader (k : EventSet) : (s.addPending k).loader = s.loader := rfl
@[simp] theorem State.addPending_pwmPhase (k : EventSet) : (s.addPending k).pwmPhase = s.pwmPhase := rfl
@[simp] theorem State.addPending_freeCount (k : EventSet) : (s.addPending k).freeCount = s.freeCount := rfl
@[simp] theorem State.addPending_pending (k : EventSet) : (s.addPending k).pending = s.pending := rfl

@[simp] theorem State.removePending_phase (k : EventSet) : (s.removePending k).phase = s.phase := rfl
@[simp] theorem State.removePending_clock (k : EventSet) : (s.removePending k).clock = s.clock := rfl
@[simp] theorem State.removePending_stationTime (k : EventSet) : (s.removePending k).stationTime = s.stationTime := rfl
@[simp] theorem State.removePending_timeKnown (k : EventSet) : (s.removePending k).timeKnown = s.timeKnown := rfl
@[simp] theorem State.removePending_secondFrom (k : EventSet) : (s.removePending k).secondFrom = s.secondFrom := rfl
@[simp] theorem State.removePending_identity (k : EventSet) : (s.removePending k).identity = s.identity := rfl
@[simp] theorem State.removePending_keys (k : EventSet) : (s.removePending k).keys = s.keys := rfl
@[simp] theorem State.removePending_referrals (k : EventSet) : (s.removePending k).referrals = s.referrals := rfl
@[simp] theorem State.removePending_referralCount (k : EventSet) : (s.removePending k).referralCount = s.referralCount := rfl
@[simp] theorem State.removePending_passes (k : EventSet) : (s.removePending k).passes = s.passes := rfl
@[simp] theorem State.removePending_denies (k : EventSet) : (s.removePending k).denies = s.denies := rfl
@[simp] theorem State.removePending_rearrangement (k : EventSet) : (s.removePending k).rearrangement = s.rearrangement := rfl
@[simp] theorem State.removePending_docks (k : EventSet) : (s.removePending k).docks = s.docks := rfl
@[simp] theorem State.removePending_queue (k : EventSet) : (s.removePending k).queue = s.queue := rfl
@[simp] theorem State.removePending_supply (k : EventSet) : (s.removePending k).supply = s.supply := rfl
@[simp] theorem State.removePending_stopAsserted (k : EventSet) : (s.removePending k).stopAsserted = s.stopAsserted := rfl
@[simp] theorem State.removePending_stopLevel (k : EventSet) : (s.removePending k).stopLevel = s.stopLevel := rfl
@[simp] theorem State.removePending_stopChange (k : EventSet) : (s.removePending k).stopChange = s.stopChange := rfl
@[simp] theorem State.removePending_sense (k : EventSet) : (s.removePending k).sense = s.sense := rfl
@[simp] theorem State.removePending_log (k : EventSet) : (s.removePending k).log = s.log := rfl
@[simp] theorem State.removePending_marks (k : EventSet) : (s.removePending k).marks = s.marks := rfl
@[simp] theorem State.removePending_station (k : EventSet) : (s.removePending k).station = s.station := rfl
@[simp] theorem State.removePending_dockPort (k : EventSet) : (s.removePending k).dockPort = s.dockPort := rfl
@[simp] theorem State.removePending_straps (k : EventSet) : (s.removePending k).straps = s.straps := rfl
@[simp] theorem State.removePending_loader (k : EventSet) : (s.removePending k).loader = s.loader := rfl
@[simp] theorem State.removePending_pwmPhase (k : EventSet) : (s.removePending k).pwmPhase = s.pwmPhase := rfl
@[simp] theorem State.removePending_freeCount (k : EventSet) : (s.removePending k).freeCount = s.freeCount := rfl
@[simp] theorem State.removePending_pending (k : EventSet) : (s.removePending k).pending = s.pending := rfl

@[simp] theorem State.setAttention_phase (a : Attention) : (s.setAttention a).phase = s.phase := rfl
@[simp] theorem State.setAttention_clock (a : Attention) : (s.setAttention a).clock = s.clock := rfl
@[simp] theorem State.setAttention_stationTime (a : Attention) : (s.setAttention a).stationTime = s.stationTime := rfl
@[simp] theorem State.setAttention_timeKnown (a : Attention) : (s.setAttention a).timeKnown = s.timeKnown := rfl
@[simp] theorem State.setAttention_secondFrom (a : Attention) : (s.setAttention a).secondFrom = s.secondFrom := rfl
@[simp] theorem State.setAttention_identity (a : Attention) : (s.setAttention a).identity = s.identity := rfl
@[simp] theorem State.setAttention_keys (a : Attention) : (s.setAttention a).keys = s.keys := rfl
@[simp] theorem State.setAttention_referrals (a : Attention) : (s.setAttention a).referrals = s.referrals := rfl
@[simp] theorem State.setAttention_referralCount (a : Attention) : (s.setAttention a).referralCount = s.referralCount := rfl
@[simp] theorem State.setAttention_passes (a : Attention) : (s.setAttention a).passes = s.passes := rfl
@[simp] theorem State.setAttention_denies (a : Attention) : (s.setAttention a).denies = s.denies := rfl
@[simp] theorem State.setAttention_rearrangement (a : Attention) : (s.setAttention a).rearrangement = s.rearrangement := rfl
@[simp] theorem State.setAttention_docks (a : Attention) : (s.setAttention a).docks = s.docks := rfl
@[simp] theorem State.setAttention_queue (a : Attention) : (s.setAttention a).queue = s.queue := rfl
@[simp] theorem State.setAttention_supply (a : Attention) : (s.setAttention a).supply = s.supply := rfl
@[simp] theorem State.setAttention_stopAsserted (a : Attention) : (s.setAttention a).stopAsserted = s.stopAsserted := rfl
@[simp] theorem State.setAttention_stopLevel (a : Attention) : (s.setAttention a).stopLevel = s.stopLevel := rfl
@[simp] theorem State.setAttention_stopChange (a : Attention) : (s.setAttention a).stopChange = s.stopChange := rfl
@[simp] theorem State.setAttention_sense (a : Attention) : (s.setAttention a).sense = s.sense := rfl
@[simp] theorem State.setAttention_log (a : Attention) : (s.setAttention a).log = s.log := rfl
@[simp] theorem State.setAttention_marks (a : Attention) : (s.setAttention a).marks = s.marks := rfl
@[simp] theorem State.setAttention_station (a : Attention) : (s.setAttention a).station = s.station := rfl
@[simp] theorem State.setAttention_dockPort (a : Attention) : (s.setAttention a).dockPort = s.dockPort := rfl
@[simp] theorem State.setAttention_straps (a : Attention) : (s.setAttention a).straps = s.straps := rfl
@[simp] theorem State.setAttention_loader (a : Attention) : (s.setAttention a).loader = s.loader := rfl
@[simp] theorem State.setAttention_pwmPhase (a : Attention) : (s.setAttention a).pwmPhase = s.pwmPhase := rfl
@[simp] theorem State.setAttention_freeCount (a : Attention) : (s.setAttention a).freeCount = s.freeCount := rfl
@[simp] theorem State.setAttention_pending (a : Attention) : (s.setAttention a).pending = s.pending := rfl

@[simp] theorem State.insertPass_phase (e : PassEntry) : (s.insertPass e).phase = s.phase := rfl
@[simp] theorem State.insertPass_clock (e : PassEntry) : (s.insertPass e).clock = s.clock := rfl
@[simp] theorem State.insertPass_stationTime (e : PassEntry) : (s.insertPass e).stationTime = s.stationTime := rfl
@[simp] theorem State.insertPass_timeKnown (e : PassEntry) : (s.insertPass e).timeKnown = s.timeKnown := rfl
@[simp] theorem State.insertPass_secondFrom (e : PassEntry) : (s.insertPass e).secondFrom = s.secondFrom := rfl
@[simp] theorem State.insertPass_identity (e : PassEntry) : (s.insertPass e).identity = s.identity := rfl
@[simp] theorem State.insertPass_keys (e : PassEntry) : (s.insertPass e).keys = s.keys := rfl
@[simp] theorem State.insertPass_referrals (e : PassEntry) : (s.insertPass e).referrals = s.referrals := rfl
@[simp] theorem State.insertPass_referralCount (e : PassEntry) : (s.insertPass e).referralCount = s.referralCount := rfl
@[simp] theorem State.insertPass_denies (e : PassEntry) : (s.insertPass e).denies = s.denies := rfl
@[simp] theorem State.insertPass_rearrangement (e : PassEntry) : (s.insertPass e).rearrangement = s.rearrangement := rfl
@[simp] theorem State.insertPass_docks (e : PassEntry) : (s.insertPass e).docks = s.docks := rfl
@[simp] theorem State.insertPass_queue (e : PassEntry) : (s.insertPass e).queue = s.queue := rfl
@[simp] theorem State.insertPass_supply (e : PassEntry) : (s.insertPass e).supply = s.supply := rfl
@[simp] theorem State.insertPass_stopAsserted (e : PassEntry) : (s.insertPass e).stopAsserted = s.stopAsserted := rfl
@[simp] theorem State.insertPass_stopLevel (e : PassEntry) : (s.insertPass e).stopLevel = s.stopLevel := rfl
@[simp] theorem State.insertPass_stopChange (e : PassEntry) : (s.insertPass e).stopChange = s.stopChange := rfl
@[simp] theorem State.insertPass_sense (e : PassEntry) : (s.insertPass e).sense = s.sense := rfl
@[simp] theorem State.insertPass_log (e : PassEntry) : (s.insertPass e).log = s.log := rfl
@[simp] theorem State.insertPass_events (e : PassEntry) : (s.insertPass e).events = s.events := rfl
@[simp] theorem State.insertPass_marks (e : PassEntry) : (s.insertPass e).marks = s.marks := rfl
@[simp] theorem State.insertPass_station (e : PassEntry) : (s.insertPass e).station = s.station := rfl
@[simp] theorem State.insertPass_dockPort (e : PassEntry) : (s.insertPass e).dockPort = s.dockPort := rfl
@[simp] theorem State.insertPass_straps (e : PassEntry) : (s.insertPass e).straps = s.straps := rfl
@[simp] theorem State.insertPass_loader (e : PassEntry) : (s.insertPass e).loader = s.loader := rfl
@[simp] theorem State.insertPass_pwmPhase (e : PassEntry) : (s.insertPass e).pwmPhase = s.pwmPhase := rfl
@[simp] theorem State.insertPass_freeCount (e : PassEntry) : (s.insertPass e).freeCount = s.freeCount := rfl
@[simp] theorem State.insertPass_pending (e : PassEntry) : (s.insertPass e).pending = s.pending := rfl

@[simp] theorem State.setReturnTimer_phase (d : DockId) (r : ReturnTimer) : (s.setReturnTimer d r).phase = s.phase := rfl
@[simp] theorem State.setReturnTimer_clock (d : DockId) (r : ReturnTimer) : (s.setReturnTimer d r).clock = s.clock := rfl
@[simp] theorem State.setReturnTimer_stationTime (d : DockId) (r : ReturnTimer) : (s.setReturnTimer d r).stationTime = s.stationTime := rfl
@[simp] theorem State.setReturnTimer_timeKnown (d : DockId) (r : ReturnTimer) : (s.setReturnTimer d r).timeKnown = s.timeKnown := rfl
@[simp] theorem State.setReturnTimer_secondFrom (d : DockId) (r : ReturnTimer) : (s.setReturnTimer d r).secondFrom = s.secondFrom := rfl
@[simp] theorem State.setReturnTimer_identity (d : DockId) (r : ReturnTimer) : (s.setReturnTimer d r).identity = s.identity := rfl
@[simp] theorem State.setReturnTimer_keys (d : DockId) (r : ReturnTimer) : (s.setReturnTimer d r).keys = s.keys := rfl
@[simp] theorem State.setReturnTimer_referrals (d : DockId) (r : ReturnTimer) : (s.setReturnTimer d r).referrals = s.referrals := rfl
@[simp] theorem State.setReturnTimer_referralCount (d : DockId) (r : ReturnTimer) : (s.setReturnTimer d r).referralCount = s.referralCount := rfl
@[simp] theorem State.setReturnTimer_passes (d : DockId) (r : ReturnTimer) : (s.setReturnTimer d r).passes = s.passes := rfl
@[simp] theorem State.setReturnTimer_denies (d : DockId) (r : ReturnTimer) : (s.setReturnTimer d r).denies = s.denies := rfl
@[simp] theorem State.setReturnTimer_rearrangement (d : DockId) (r : ReturnTimer) : (s.setReturnTimer d r).rearrangement = s.rearrangement := rfl
@[simp] theorem State.setReturnTimer_queue (d : DockId) (r : ReturnTimer) : (s.setReturnTimer d r).queue = s.queue := rfl
@[simp] theorem State.setReturnTimer_supply (d : DockId) (r : ReturnTimer) : (s.setReturnTimer d r).supply = s.supply := rfl
@[simp] theorem State.setReturnTimer_stopAsserted (d : DockId) (r : ReturnTimer) : (s.setReturnTimer d r).stopAsserted = s.stopAsserted := rfl
@[simp] theorem State.setReturnTimer_stopLevel (d : DockId) (r : ReturnTimer) : (s.setReturnTimer d r).stopLevel = s.stopLevel := rfl
@[simp] theorem State.setReturnTimer_stopChange (d : DockId) (r : ReturnTimer) : (s.setReturnTimer d r).stopChange = s.stopChange := rfl
@[simp] theorem State.setReturnTimer_sense (d : DockId) (r : ReturnTimer) : (s.setReturnTimer d r).sense = s.sense := rfl
@[simp] theorem State.setReturnTimer_log (d : DockId) (r : ReturnTimer) : (s.setReturnTimer d r).log = s.log := rfl
@[simp] theorem State.setReturnTimer_events (d : DockId) (r : ReturnTimer) : (s.setReturnTimer d r).events = s.events := rfl
@[simp] theorem State.setReturnTimer_marks (d : DockId) (r : ReturnTimer) : (s.setReturnTimer d r).marks = s.marks := rfl
@[simp] theorem State.setReturnTimer_station (d : DockId) (r : ReturnTimer) : (s.setReturnTimer d r).station = s.station := rfl
@[simp] theorem State.setReturnTimer_dockPort (d : DockId) (r : ReturnTimer) : (s.setReturnTimer d r).dockPort = s.dockPort := rfl
@[simp] theorem State.setReturnTimer_straps (d : DockId) (r : ReturnTimer) : (s.setReturnTimer d r).straps = s.straps := rfl
@[simp] theorem State.setReturnTimer_loader (d : DockId) (r : ReturnTimer) : (s.setReturnTimer d r).loader = s.loader := rfl
@[simp] theorem State.setReturnTimer_pwmPhase (d : DockId) (r : ReturnTimer) : (s.setReturnTimer d r).pwmPhase = s.pwmPhase := rfl
@[simp] theorem State.setReturnTimer_freeCount (d : DockId) (r : ReturnTimer) : (s.setReturnTimer d r).freeCount = s.freeCount := rfl
@[simp] theorem State.setReturnTimer_pending (d : DockId) (r : ReturnTimer) : (s.setReturnTimer d r).pending = s.pending := rfl

@[simp] theorem State.setBikeId_phase (d : DockId) (b : Option Nat) : (s.setBikeId d b).phase = s.phase := rfl
@[simp] theorem State.setBikeId_clock (d : DockId) (b : Option Nat) : (s.setBikeId d b).clock = s.clock := rfl
@[simp] theorem State.setBikeId_stationTime (d : DockId) (b : Option Nat) : (s.setBikeId d b).stationTime = s.stationTime := rfl
@[simp] theorem State.setBikeId_timeKnown (d : DockId) (b : Option Nat) : (s.setBikeId d b).timeKnown = s.timeKnown := rfl
@[simp] theorem State.setBikeId_secondFrom (d : DockId) (b : Option Nat) : (s.setBikeId d b).secondFrom = s.secondFrom := rfl
@[simp] theorem State.setBikeId_identity (d : DockId) (b : Option Nat) : (s.setBikeId d b).identity = s.identity := rfl
@[simp] theorem State.setBikeId_keys (d : DockId) (b : Option Nat) : (s.setBikeId d b).keys = s.keys := rfl
@[simp] theorem State.setBikeId_referrals (d : DockId) (b : Option Nat) : (s.setBikeId d b).referrals = s.referrals := rfl
@[simp] theorem State.setBikeId_referralCount (d : DockId) (b : Option Nat) : (s.setBikeId d b).referralCount = s.referralCount := rfl
@[simp] theorem State.setBikeId_passes (d : DockId) (b : Option Nat) : (s.setBikeId d b).passes = s.passes := rfl
@[simp] theorem State.setBikeId_denies (d : DockId) (b : Option Nat) : (s.setBikeId d b).denies = s.denies := rfl
@[simp] theorem State.setBikeId_rearrangement (d : DockId) (b : Option Nat) : (s.setBikeId d b).rearrangement = s.rearrangement := rfl
@[simp] theorem State.setBikeId_queue (d : DockId) (b : Option Nat) : (s.setBikeId d b).queue = s.queue := rfl
@[simp] theorem State.setBikeId_supply (d : DockId) (b : Option Nat) : (s.setBikeId d b).supply = s.supply := rfl
@[simp] theorem State.setBikeId_stopAsserted (d : DockId) (b : Option Nat) : (s.setBikeId d b).stopAsserted = s.stopAsserted := rfl
@[simp] theorem State.setBikeId_stopLevel (d : DockId) (b : Option Nat) : (s.setBikeId d b).stopLevel = s.stopLevel := rfl
@[simp] theorem State.setBikeId_stopChange (d : DockId) (b : Option Nat) : (s.setBikeId d b).stopChange = s.stopChange := rfl
@[simp] theorem State.setBikeId_sense (d : DockId) (b : Option Nat) : (s.setBikeId d b).sense = s.sense := rfl
@[simp] theorem State.setBikeId_log (d : DockId) (b : Option Nat) : (s.setBikeId d b).log = s.log := rfl
@[simp] theorem State.setBikeId_events (d : DockId) (b : Option Nat) : (s.setBikeId d b).events = s.events := rfl
@[simp] theorem State.setBikeId_marks (d : DockId) (b : Option Nat) : (s.setBikeId d b).marks = s.marks := rfl
@[simp] theorem State.setBikeId_station (d : DockId) (b : Option Nat) : (s.setBikeId d b).station = s.station := rfl
@[simp] theorem State.setBikeId_dockPort (d : DockId) (b : Option Nat) : (s.setBikeId d b).dockPort = s.dockPort := rfl
@[simp] theorem State.setBikeId_straps (d : DockId) (b : Option Nat) : (s.setBikeId d b).straps = s.straps := rfl
@[simp] theorem State.setBikeId_loader (d : DockId) (b : Option Nat) : (s.setBikeId d b).loader = s.loader := rfl
@[simp] theorem State.setBikeId_pwmPhase (d : DockId) (b : Option Nat) : (s.setBikeId d b).pwmPhase = s.pwmPhase := rfl
@[simp] theorem State.setBikeId_freeCount (d : DockId) (b : Option Nat) : (s.setBikeId d b).freeCount = s.freeCount := rfl
@[simp] theorem State.setBikeId_pending (d : DockId) (b : Option Nat) : (s.setBikeId d b).pending = s.pending := rfl

@[simp] theorem State.setViolations_phase (d : DockId) (n : Nat) : (s.setViolations d n).phase = s.phase := rfl
@[simp] theorem State.setViolations_clock (d : DockId) (n : Nat) : (s.setViolations d n).clock = s.clock := rfl
@[simp] theorem State.setViolations_stationTime (d : DockId) (n : Nat) : (s.setViolations d n).stationTime = s.stationTime := rfl
@[simp] theorem State.setViolations_timeKnown (d : DockId) (n : Nat) : (s.setViolations d n).timeKnown = s.timeKnown := rfl
@[simp] theorem State.setViolations_secondFrom (d : DockId) (n : Nat) : (s.setViolations d n).secondFrom = s.secondFrom := rfl
@[simp] theorem State.setViolations_identity (d : DockId) (n : Nat) : (s.setViolations d n).identity = s.identity := rfl
@[simp] theorem State.setViolations_keys (d : DockId) (n : Nat) : (s.setViolations d n).keys = s.keys := rfl
@[simp] theorem State.setViolations_referrals (d : DockId) (n : Nat) : (s.setViolations d n).referrals = s.referrals := rfl
@[simp] theorem State.setViolations_referralCount (d : DockId) (n : Nat) : (s.setViolations d n).referralCount = s.referralCount := rfl
@[simp] theorem State.setViolations_passes (d : DockId) (n : Nat) : (s.setViolations d n).passes = s.passes := rfl
@[simp] theorem State.setViolations_denies (d : DockId) (n : Nat) : (s.setViolations d n).denies = s.denies := rfl
@[simp] theorem State.setViolations_rearrangement (d : DockId) (n : Nat) : (s.setViolations d n).rearrangement = s.rearrangement := rfl
@[simp] theorem State.setViolations_queue (d : DockId) (n : Nat) : (s.setViolations d n).queue = s.queue := rfl
@[simp] theorem State.setViolations_supply (d : DockId) (n : Nat) : (s.setViolations d n).supply = s.supply := rfl
@[simp] theorem State.setViolations_stopAsserted (d : DockId) (n : Nat) : (s.setViolations d n).stopAsserted = s.stopAsserted := rfl
@[simp] theorem State.setViolations_stopLevel (d : DockId) (n : Nat) : (s.setViolations d n).stopLevel = s.stopLevel := rfl
@[simp] theorem State.setViolations_stopChange (d : DockId) (n : Nat) : (s.setViolations d n).stopChange = s.stopChange := rfl
@[simp] theorem State.setViolations_sense (d : DockId) (n : Nat) : (s.setViolations d n).sense = s.sense := rfl
@[simp] theorem State.setViolations_log (d : DockId) (n : Nat) : (s.setViolations d n).log = s.log := rfl
@[simp] theorem State.setViolations_events (d : DockId) (n : Nat) : (s.setViolations d n).events = s.events := rfl
@[simp] theorem State.setViolations_marks (d : DockId) (n : Nat) : (s.setViolations d n).marks = s.marks := rfl
@[simp] theorem State.setViolations_station (d : DockId) (n : Nat) : (s.setViolations d n).station = s.station := rfl
@[simp] theorem State.setViolations_dockPort (d : DockId) (n : Nat) : (s.setViolations d n).dockPort = s.dockPort := rfl
@[simp] theorem State.setViolations_straps (d : DockId) (n : Nat) : (s.setViolations d n).straps = s.straps := rfl
@[simp] theorem State.setViolations_loader (d : DockId) (n : Nat) : (s.setViolations d n).loader = s.loader := rfl
@[simp] theorem State.setViolations_pwmPhase (d : DockId) (n : Nat) : (s.setViolations d n).pwmPhase = s.pwmPhase := rfl
@[simp] theorem State.setViolations_freeCount (d : DockId) (n : Nat) : (s.setViolations d n).freeCount = s.freeCount := rfl
@[simp] theorem State.setViolations_pending (d : DockId) (n : Nat) : (s.setViolations d n).pending = s.pending := rfl

@[simp] theorem State.recomputeDuties_phase (vs : Nat) : (s.recomputeDuties vs).phase = s.phase := rfl
@[simp] theorem State.recomputeDuties_clock (vs : Nat) : (s.recomputeDuties vs).clock = s.clock := rfl
@[simp] theorem State.recomputeDuties_stationTime (vs : Nat) : (s.recomputeDuties vs).stationTime = s.stationTime := rfl
@[simp] theorem State.recomputeDuties_timeKnown (vs : Nat) : (s.recomputeDuties vs).timeKnown = s.timeKnown := rfl
@[simp] theorem State.recomputeDuties_secondFrom (vs : Nat) : (s.recomputeDuties vs).secondFrom = s.secondFrom := rfl
@[simp] theorem State.recomputeDuties_identity (vs : Nat) : (s.recomputeDuties vs).identity = s.identity := rfl
@[simp] theorem State.recomputeDuties_keys (vs : Nat) : (s.recomputeDuties vs).keys = s.keys := rfl
@[simp] theorem State.recomputeDuties_referrals (vs : Nat) : (s.recomputeDuties vs).referrals = s.referrals := rfl
@[simp] theorem State.recomputeDuties_referralCount (vs : Nat) : (s.recomputeDuties vs).referralCount = s.referralCount := rfl
@[simp] theorem State.recomputeDuties_passes (vs : Nat) : (s.recomputeDuties vs).passes = s.passes := rfl
@[simp] theorem State.recomputeDuties_denies (vs : Nat) : (s.recomputeDuties vs).denies = s.denies := rfl
@[simp] theorem State.recomputeDuties_rearrangement (vs : Nat) : (s.recomputeDuties vs).rearrangement = s.rearrangement := rfl
@[simp] theorem State.recomputeDuties_queue (vs : Nat) : (s.recomputeDuties vs).queue = s.queue := rfl
@[simp] theorem State.recomputeDuties_supply (vs : Nat) : (s.recomputeDuties vs).supply = s.supply := rfl
@[simp] theorem State.recomputeDuties_stopAsserted (vs : Nat) : (s.recomputeDuties vs).stopAsserted = s.stopAsserted := rfl
@[simp] theorem State.recomputeDuties_stopLevel (vs : Nat) : (s.recomputeDuties vs).stopLevel = s.stopLevel := rfl
@[simp] theorem State.recomputeDuties_stopChange (vs : Nat) : (s.recomputeDuties vs).stopChange = s.stopChange := rfl
@[simp] theorem State.recomputeDuties_sense (vs : Nat) : (s.recomputeDuties vs).sense = s.sense := rfl
@[simp] theorem State.recomputeDuties_log (vs : Nat) : (s.recomputeDuties vs).log = s.log := rfl
@[simp] theorem State.recomputeDuties_events (vs : Nat) : (s.recomputeDuties vs).events = s.events := rfl
@[simp] theorem State.recomputeDuties_marks (vs : Nat) : (s.recomputeDuties vs).marks = s.marks := rfl
@[simp] theorem State.recomputeDuties_station (vs : Nat) : (s.recomputeDuties vs).station = s.station := rfl
@[simp] theorem State.recomputeDuties_dockPort (vs : Nat) : (s.recomputeDuties vs).dockPort = s.dockPort := rfl
@[simp] theorem State.recomputeDuties_straps (vs : Nat) : (s.recomputeDuties vs).straps = s.straps := rfl
@[simp] theorem State.recomputeDuties_loader (vs : Nat) : (s.recomputeDuties vs).loader = s.loader := rfl
@[simp] theorem State.recomputeDuties_pwmPhase (vs : Nat) : (s.recomputeDuties vs).pwmPhase = s.pwmPhase := rfl
@[simp] theorem State.recomputeDuties_freeCount (vs : Nat) : (s.recomputeDuties vs).freeCount = s.freeCount := rfl
@[simp] theorem State.recomputeDuties_pending (vs : Nat) : (s.recomputeDuties vs).pending = s.pending := rfl

/-! ### Docks -/

@[simp] theorem State.dock_modDock_self (d : DockId) (f : Dock → Dock) : (s.modDock d f).dock d = f (s.dock d) := by
  simp [State.modDock, State.dock]

@[simp] theorem State.dock_modDock_ne (d e : DockId) (f : Dock → Dock) (h : e ≠ d) :
    (s.modDock d f).dock e = s.dock e := by
  have : d.val ≠ e.val := fun h' => h (Fin.ext h'.symm)
  simp [State.modDock, State.dock, this]

theorem State.dock_modDock (d e : DockId) (f : Dock → Dock) :
    (s.modDock d f).dock e = if e = d then f (s.dock d) else s.dock e := by
  by_cases h : e = d
  · subst h; simp
  · simp [h]

theorem State.dock_map (g : Dock → Dock) (d : DockId) :
    State.dock { s with docks := s.docks.map g } d = g (s.dock d) := by simp [State.dock]

theorem State.dock_congr (t : State) (h : t.docks = s.docks) (d : DockId) : t.dock d = s.dock d := by
  simp [State.dock, h]

/-! ### Ports -/

@[simp] theorem State.modPort_station (f : Port → Port) :
    s.modPort .station f = { s with station := f s.station } := rfl

@[simp] theorem State.modPort_dock (f : Port → Port) : s.modPort .dock f = { s with dockPort := f s.dockPort } := rfl

@[simp] theorem State.port_station : s.port .station = s.station := rfl

@[simp] theorem State.port_dock : s.port .dock = s.dockPort := rfl

/-! ### Equal states -/

theorem State.ext_docks (t : State) (h : ∀ d, s.dock d = t.dock d) : s.docks = t.docks := by
  apply Vector.ext
  intro i hi
  exact h ⟨i, hi⟩

end Sys2Proof.Machine
end

