-- ==== Sys2Proof/Laws/Quiet.lean ====
section
/-! SUPPORT. What latching an event and offering a frame can do: everything is left alone but the event unit, the
tails of the two transmit queues and the count of free choices read (State.Quiet). -/

namespace Sys2Proof.Machine

/-- `t` is `s` but for the event unit, frames added behind those of the two transmit queues, and free choices read:
what latching events and offering frames can do (R157, R163, R177). -/
def State.Quiet (s t : State) : Prop :=
  ∃ events stationFrames dockFrames freeCount,
    t = { s with
      events := events
      station := { s.station with tx := s.station.tx ++ stationFrames }
      dockPort := { s.dockPort with tx := s.dockPort.tx ++ dockFrames }
      freeCount := freeCount }
    ∧ stationFrames.length ≤ s.station.free ∧ dockFrames.length ≤ s.dockPort.free

theorem State.Quiet.refl (s : State) : s.Quiet s :=
  ⟨s.events, [], [], s.freeCount, by simp, by simp, by simp⟩

theorem State.Quiet.trans {s t u : State} (h : s.Quiet t) (h' : t.Quiet u) : s.Quiet u := by
  obtain ⟨e, a, b, n, rfl, ha, hb⟩ := h
  obtain ⟨e', a', b', n', rfl, ha', hb'⟩ := h'
  simp only [Port.free, List.length_append] at *
  exact ⟨e', a ++ a', b ++ b', n', by simp, by simp only [Port.free, List.length_append]; omega,
    by simp only [Port.free, List.length_append]; omega⟩

theorem State.Quiet.of_events (s : State) (e : Events) : s.Quiet { s with events := e } :=
  ⟨e, [], [], s.freeCount, by simp, by simp, by simp⟩

theorem State.Quiet.spendFree (s : State) (n : Nat) : s.Quiet (s.spendFree n) :=
  ⟨s.events, [], [], s.freeCount + n, by simp [State.spendFree], by simp, by simp⟩

theorem State.Quiet.offer (s : State) (p : PortId) (t : TxFrame) : s.Quiet (s.offer p t) := by
  unfold State.offer
  split
  · exact .refl s
  · rename_i h
    cases p
    · exact ⟨s.events, [t], [], s.freeCount, by simp [Port.push], by simp at *; omega, by simp⟩
    · exact ⟨s.events, [], [t], s.freeCount, by simp [Port.push], by simp, by simp at *; omega⟩

theorem State.Quiet.verdict (s : State) (dest : Address) (dock passId serial : Nat) (v : Verdict) (reason : Nat) :
    s.Quiet (s.verdict dest dock passId serial v reason) := .offer ..

theorem State.Quiet.result (s : State) (d : DockId) (r : LatchResult) (reason : Nat) :
    s.Quiet (s.result d r reason) := .offer ..

theorem State.Quiet.sendNotice (s : State) (passId serial : Nat) (delta : Int) :
    s.Quiet (s.sendNotice passId serial delta) := by
  unfold State.sendNotice
  split
  · exact .offer ..
  · exact .refl s

theorem State.Quiet.setAttention (s : State) (a : Attention) : s.Quiet (s.setAttention a) := .of_events ..

theorem State.Quiet.attend (s : State) : s.Quiet s.attend := by
  unfold State.attend
  split
  · split
    · exact .refl s
    · split
      · exact .setAttention ..
      · exact (State.Quiet.offer ..).trans (.setAttention ..)
  all_goals
    split
    · exact .setAttention ..
    · exact .refl s

theorem State.Quiet.attendOwed (s : State) : s.Quiet s.attendOwed := by
  unfold State.attendOwed
  split
  · split
    · exact .refl s
    · exact (State.Quiet.offer ..).trans (.setAttention ..)
  · exact .refl s

theorem State.Quiet.attendIfRunning (s : State) : s.Quiet s.attendIfRunning := by
  unfold State.attendIfRunning
  split
  · exact .attend s
  · exact .refl s

theorem State.Quiet.latchSet (s : State) (k : EventSet) : s.Quiet (s.latchSet k) :=
  (State.Quiet.of_events ..).trans (.attendIfRunning _)

theorem State.Quiet.latch (s : State) (k : EventKind) : s.Quiet (s.latch k) := .latchSet ..

theorem State.Quiet.latchOption (s : State) (k : Option EventKind) : s.Quiet (s.latchOption k) := by
  cases k
  · exact .refl s
  · exact .latch ..

theorem State.Quiet.testLogHigh (s : State) : s.Quiet s.testLogHigh := by
  unfold State.testLogHigh
  split
  · exact .latch ..
  · exact .refl s

theorem State.Quiet.resultFailed (s : State) (d : DockId) (e : Ending) : s.Quiet (s.resultFailed d e) := by
  unfold State.resultFailed
  split
  · exact .result ..
  · exact .refl s

theorem State.Quiet.latchBothSupply (s : State) : s.Quiet s.latchBothSupply := by
  unfold State.latchBothSupply
  split
  · split
    · exact ((State.Quiet.spendFree ..).trans (.latch ..)).trans (.latch ..)
    · exact ((State.Quiet.spendFree ..).trans (.latch ..)).trans (.latch ..)
    · exact (State.Quiet.spendFree ..).trans (.latchSet ..)
  · exact (State.Quiet.latch ..).trans (.latch ..)

theorem State.Quiet.latchLevelMove (s : State) (a b : SupplyLevel) : s.Quiet (s.latchLevelMove a b) := by
  unfold State.latchLevelMove
  split
  · exact .latch ..
  · exact .latchBothSupply s
  · exact .latch ..
  · exact .refl s

theorem State.Quiet.noteDuplicate (s : State) (passId serial : Nat) (sibling : Address) :
    s.Quiet (s.noteDuplicate passId serial sibling) :=
  (State.Quiet.of_events ..).trans (.latch ..)

/-! ### What a quiet change leaves alone -/

namespace State.Quiet

variable {s t : State} (h : s.Quiet t)
include h

theorem phase : t.phase = s.phase := by obtain ⟨_, _, _, _, rfl, _, _⟩ := h; rfl
theorem clock : t.clock = s.clock := by obtain ⟨_, _, _, _, rfl, _, _⟩ := h; rfl
theorem stationTime : t.stationTime = s.stationTime := by obtain ⟨_, _, _, _, rfl, _, _⟩ := h; rfl
theorem timeKnown : t.timeKnown = s.timeKnown := by obtain ⟨_, _, _, _, rfl, _, _⟩ := h; rfl
theorem secondFrom : t.secondFrom = s.secondFrom := by obtain ⟨_, _, _, _, rfl, _, _⟩ := h; rfl
theorem identity : t.identity = s.identity := by obtain ⟨_, _, _, _, rfl, _, _⟩ := h; rfl
theorem keys : t.keys = s.keys := by obtain ⟨_, _, _, _, rfl, _, _⟩ := h; rfl
theorem referrals : t.referrals = s.referrals := by obtain ⟨_, _, _, _, rfl, _, _⟩ := h; rfl
theorem referralCount : t.referralCount = s.referralCount := by obtain ⟨_, _, _, _, rfl, _, _⟩ := h; rfl
theorem passes : t.passes = s.passes := by obtain ⟨_, _, _, _, rfl, _, _⟩ := h; rfl
theorem denies : t.denies = s.denies := by obtain ⟨_, _, _, _, rfl, _, _⟩ := h; rfl
theorem rearrangement : t.rearrangement = s.rearrangement := by obtain ⟨_, _, _, _, rfl, _, _⟩ := h; rfl
theorem docks : t.docks = s.docks := by obtain ⟨_, _, _, _, rfl, _, _⟩ := h; rfl
theorem queue : t.queue = s.queue := by obtain ⟨_, _, _, _, rfl, _, _⟩ := h; rfl
theorem supply : t.supply = s.supply := by obtain ⟨_, _, _, _, rfl, _, _⟩ := h; rfl
theorem stopAsserted : t.stopAsserted = s.stopAsserted := by obtain ⟨_, _, _, _, rfl, _, _⟩ := h; rfl
theorem stopLevel : t.stopLevel = s.stopLevel := by obtain ⟨_, _, _, _, rfl, _, _⟩ := h; rfl
theorem stopChange : t.stopChange = s.stopChange := by obtain ⟨_, _, _, _, rfl, _, _⟩ := h; rfl
theorem sense : t.sense = s.sense := by obtain ⟨_, _, _, _, rfl, _, _⟩ := h; rfl
theorem log : t.log = s.log := by obtain ⟨_, _, _, _, rfl, _, _⟩ := h; rfl
theorem marks : t.marks = s.marks := by obtain ⟨_, _, _, _, rfl, _, _⟩ := h; rfl
theorem straps : t.straps = s.straps := by obtain ⟨_, _, _, _, rfl, _, _⟩ := h; rfl
theorem loader : t.loader = s.loader := by obtain ⟨_, _, _, _, rfl, _, _⟩ := h; rfl
theorem pwmPhase : t.pwmPhase = s.pwmPhase := by obtain ⟨_, _, _, _, rfl, _, _⟩ := h; rfl
theorem pending : t.pending = s.pending := by obtain ⟨_, _, _, _, rfl, _, _⟩ := h; rfl
theorem dock (d : DockId) : t.dock d = s.dock d := by obtain ⟨_, _, _, _, rfl, _, _⟩ := h; rfl
theorem logSum : t.logSum = s.logSum := by obtain ⟨_, _, _, _, rfl, _, _⟩ := h; rfl
theorem uptime : t.uptime = s.uptime := by obtain ⟨_, _, _, _, rfl, _, _⟩ := h; rfl
theorem now : t.now = s.now := by obtain ⟨_, _, _, _, rfl, _, _⟩ := h; rfl

theorem stationRx : t.station.rx = s.station.rx := by obtain ⟨_, _, _, _, rfl, _, _⟩ := h; rfl
theorem dockRx : t.dockPort.rx = s.dockPort.rx := by obtain ⟨_, _, _, _, rfl, _, _⟩ := h; rfl

end State.Quiet

end Sys2Proof.Machine
end

