-- ==== Sys2Proof/Laws/Calm.lean ====
section
/-! SUPPORT. What the shared operations on docks, orders, referrals and the log can do to the rest of the part: frames
join the transmit queues in free slots, pass entries change in place, and everything else outside their matter is left
alone (State.Calm). -/

namespace Sys2Proof.Machine

/-- Frames have joined a transmit queue in free slots (R177). -/
def Port.Grows (q r : Port) : Prop := ∃ l, r = { q with tx := q.tx ++ l } ∧ l.length ≤ q.free

theorem Port.Grows.refl (q : Port) : q.Grows q := ⟨[], by simp, by simp⟩

theorem Port.Grows.of_eq {q r : Port} (h : r = q) : q.Grows r := h ▸ .refl q

theorem Port.Grows.trans {q r u : Port} (h : q.Grows r) (h' : r.Grows u) : q.Grows u := by
  obtain ⟨a, rfl, ha⟩ := h
  obtain ⟨b, rfl, hb⟩ := h'
  exact ⟨a ++ b, by simp, by simp only [Port.free, List.length_append] at *; omega⟩

/-- A list changed in place, each entry within what `R` allows. -/
def ChangedBy {α : Type} (R : α → α → Prop) (ps qs : List α) : Prop := ∃ g : α → α, qs = ps.map g ∧ ∀ e, R e (g e)

theorem ChangedBy.refl {α : Type} {R : α → α → Prop} (hR : ∀ e, R e e) (ps : List α) : ChangedBy R ps ps :=
  ⟨id, ps.map_id.symm, hR⟩

theorem ChangedBy.trans {α : Type} {R : α → α → Prop} (hR : ∀ e x y, R e x → R x y → R e y) {ps qs rs : List α}
    (first : ChangedBy R ps qs) (second : ChangedBy R qs rs) : ChangedBy R ps rs :=
  match first, second with
  | ⟨f, hf, kf⟩, ⟨g, hg, kg⟩ =>
    ⟨fun e => g (f e), by rw [hg, hf, List.map_map]; rfl, fun e => hR e (f e) _ (kf e) (kg (f e))⟩

/-- Pass entries have changed in place: their ids stay, and their fields stay in range (R27, R39). -/
abbrev PassesKept : List PassEntry → List PassEntry → Prop :=
  ChangedBy fun e x => x.id = e.id ∧ (e.Ranged → x.Ranged)

theorem PassesKept.refl (ps : List PassEntry) : PassesKept ps ps := ChangedBy.refl (fun _ => ⟨rfl, id⟩) ps

theorem PassesKept.trans {a b c : List PassEntry} (h : PassesKept a b) (h' : PassesKept b c) : PassesKept a c :=
  ChangedBy.trans (fun _ _ _ h h' => ⟨h'.1.trans h.1, h'.2 ∘ h.2⟩) h h'

/-- See the head of this file. -/
structure State.Calm (s t : State) : Prop where
  station : s.station.Grows t.station
  dockPort : s.dockPort.Grows t.dockPort
  passes : PassesKept s.passes t.passes
  denies : t.denies = s.denies
  rearrangement : t.rearrangement = s.rearrangement
  straps : t.straps = s.straps
  marks : t.marks = s.marks
  phase : t.phase = s.phase
  keys : t.keys = s.keys
  identity : t.identity = s.identity
  loader : t.loader = s.loader
  pwmPhase : t.pwmPhase = s.pwmPhase
  pending : t.pending = s.pending

theorem State.Calm.refl (s : State) : s.Calm s where
  station := .refl _
  dockPort := .refl _
  passes := .refl _
  denies := rfl
  rearrangement := rfl
  straps := rfl
  marks := rfl
  phase := rfl
  keys := rfl
  identity := rfl
  loader := rfl
  pwmPhase := rfl
  pending := rfl

theorem State.Calm.trans {s t u : State} (h : s.Calm t) (h' : t.Calm u) : s.Calm u where
  station := h.station.trans h'.station
  dockPort := h.dockPort.trans h'.dockPort
  passes := h.passes.trans h'.passes
  denies := h'.denies.trans h.denies
  rearrangement := h'.rearrangement.trans h.rearrangement
  straps := h'.straps.trans h.straps
  marks := h'.marks.trans h.marks
  phase := h'.phase.trans h.phase
  keys := h'.keys.trans h.keys
  identity := h'.identity.trans h.identity
  loader := h'.loader.trans h.loader
  pwmPhase := h'.pwmPhase.trans h.pwmPhase
  pending := h'.pending.trans h.pending

theorem State.Calm.after {s t u : State} (h' : t.Calm u) (h : s.Calm t) : s.Calm u := h.trans h'

theorem State.Quiet.calm {s t : State} (h : s.Quiet t) : s.Calm t where
  station := by obtain ⟨_, a, _, _, rfl, ha, _⟩ := h; exact ⟨a, rfl, ha⟩
  dockPort := by obtain ⟨_, _, b, _, rfl, _, hb⟩ := h; exact ⟨b, rfl, hb⟩
  passes := by rw [h.passes]; exact .refl _
  denies := h.denies
  rearrangement := h.rearrangement
  straps := h.straps
  marks := h.marks
  phase := h.phase
  keys := h.keys
  identity := h.identity
  loader := h.loader
  pwmPhase := h.pwmPhase
  pending := h.pending

/-- A change outside the fields that Calm speaks of, but for pass entries changed in place. -/
theorem State.Calm.inside {s t : State} (passes : PassesKept s.passes t.passes)
    (station : t.station = s.station := by rfl) (dockPort : t.dockPort = s.dockPort := by rfl)
    (denies : t.denies = s.denies := by rfl) (rearrangement : t.rearrangement = s.rearrangement := by rfl)
    (straps : t.straps = s.straps := by rfl) (marks : t.marks = s.marks := by rfl)
    (phase : t.phase = s.phase := by rfl) (keys : t.keys = s.keys := by rfl)
    (identity : t.identity = s.identity := by rfl) (loader : t.loader = s.loader := by rfl)
    (pwmPhase : t.pwmPhase = s.pwmPhase := by rfl) (pending : t.pending = s.pending := by rfl) : s.Calm t :=
  ⟨.of_eq station, .of_eq dockPort, passes, denies, rearrangement, straps, marks, phase, keys, identity, loader,
    pwmPhase, pending⟩

theorem State.Calm.modDock (s : State) (d : DockId) (f : Dock → Dock) : s.Calm (s.modDock d f) := .inside (.refl _)
theorem State.Calm.modSense (s : State) (f : Sense → Sense) : s.Calm (s.modSense f) := .inside (.refl _)
theorem State.Calm.setConverter (s : State) (c : Converter) : s.Calm (s.setConverter c) := .inside (.refl _)
theorem State.Calm.advanceTo (s : State) (n : Nat) : s.Calm (s.advanceTo n) := .inside (.refl _)
theorem State.Calm.advanceToCount (s : State) (n : Nat) : s.Calm (s.advanceToCount n) := .inside (.refl _)

theorem State.Calm.modPass (s : State) (i : Nat) (f : PassEntry → PassEntry) (hid : ∀ e, (f e).id = e.id)
    (hr : ∀ e : PassEntry, e.id = i → e.Ranged → (f e).Ranged) : s.Calm (s.modPass i f) :=
  .inside ⟨_, rfl, fun e => by
    by_cases h : e.id = i
    · simp only [h, if_true]; exact ⟨by rw [hid, h], hr e h⟩
    · simp [h]⟩

/-! ### The sense unit -/

theorem State.Calm.beginSupplyTurn (s : State) : s.Calm s.beginSupplyTurn := .inside (.refl _)

theorem State.Calm.beginCoilTurn (s : State) : s.Calm s.beginCoilTurn := by
  unfold State.beginCoilTurn
  split <;> exact .inside (.refl _)

theorem State.Calm.endTurn (s : State) : s.Calm s.endTurn := by
  unfold State.endTurn
  split
  · exact .beginSupplyTurn s
  · exact .beginCoilTurn s

theorem State.Calm.converterAtChange (s : State) (d : DockId) (a : Activity) : s.Calm (s.converterAtChange d a) := by
  unfold State.converterAtChange
  split
  · split
    · exact .refl s
    · exact .beginCoilTurn s
  · split
    · exact .refl s
    · split
      · exact .endTurn s
      · exact .setConverter ..
  · exact .refl s
  · exact .setConverter ..

theorem State.Calm.setActivity (s : State) (d : DockId) (a : Activity) : s.Calm (s.setActivity d a) := by
  unfold State.setActivity
  split
  · exact .refl s
  · exact (State.Calm.modDock ..).trans (.converterAtChange ..)

theorem State.Calm.compareSample (s : State) (d : DockId) (v : Option CoilFault) : s.Calm (s.compareSample d v) := by
  unfold State.compareSample
  split
  · exact .modDock ..
  · split
    · exact (State.Calm.modDock ..).trans (.modSense ..)
    · exact .modDock ..

theorem State.Calm.judgeSample (s : State) (d : DockId) (n : Nat) (c : Code) : s.Calm (s.judgeSample d n c) := by
  unfold State.judgeSample
  dsimp only
  split
  · exact .modDock ..
  · split
    · exact .modDock ..
    · exact ((State.Calm.modDock ..).trans (State.Quiet.spendFree ..).calm).trans (.compareSample ..)

/-! ### The log -/

theorem State.Calm.appendLog (s : State) (r : OutcomeRecord) : s.Calm (s.appendLog r) := .inside (.refl _)

theorem State.Calm.logOrder (s : State) (r : OutcomeRecord) : s.Calm (s.logOrder r) :=
  (State.Calm.appendLog ..).trans (State.Quiet.testLogHigh _).calm

theorem State.Calm.logReturn (s : State) (r : OutcomeRecord) : s.Calm (s.logReturn r) :=
  ((State.Calm.appendLog ..).trans (State.Quiet.latch ..).calm).trans (State.Quiet.testLogHigh _).calm

theorem State.Calm.handOverReturn (s : State) (d : DockId) (r : OutcomeRecord) : s.Calm (s.handOverReturn d r) := by
  unfold State.handOverReturn
  split
  · exact .logReturn ..
  · split
    · exact (State.Calm.modDock ..).trans (State.Quiet.latch ..).calm
    · exact .modDock ..

theorem State.Calm.drainReturn (s : State) : s.Calm s.drainReturn := by
  unfold State.drainReturn
  split
  · exact (State.Calm.modDock ..).trans (.logReturn ..)
  · exact .refl s

theorem State.Calm.removeLogHead (s : State) : s.Calm s.removeLogHead := by
  unfold State.removeLogHead
  exact (State.Calm.drainReturn _).after (.inside (.refl _))

/-! ### Orders -/

theorem State.Calm.grant (s : State) (o : Order) (rest : List Order) : s.Calm (s.grant o rest) := .inside (.refl _)

theorem State.Calm.grantLoop (q : List Order) (s : State) : s.Calm (State.grantLoop q s) := by
  induction q generalizing s with
  | nil => exact .refl s
  | cons o rest ih =>
    unfold State.grantLoop
    split
    · exact (State.Calm.grant ..).trans (ih _)
    · exact .refl s

theorem State.Calm.evaluateGrants (s : State) : s.Calm s.evaluateGrants := .grantLoop ..

theorem State.Calm.queueOrder (s : State) (d : DockId) (origin : Origin) (p n : Option Nat) :
    s.Calm (s.queueOrder d origin p n) := by
  unfold State.queueOrder
  exact (State.Calm.evaluateGrants _).after (.inside (.refl _))

theorem PassEntry.Ranged.refund {e : PassEntry} (h : e.Ranged) : e.refund.Ranged :=
  { h with rides := by simp [PassEntry.refund] }

theorem State.Calm.lowerInFlight (s : State) (o : Order) : s.Calm (s.lowerInFlight o) := by
  unfold State.lowerInFlight
  split
  · exact .modPass _ _ _ (fun _ => rfl) fun _ _ h => { h with }
  · exact .refl s

theorem State.Calm.refund (s : State) (o : Order) : s.Calm (s.refund o) := by
  unfold State.refund
  split
  · exact (State.Quiet.sendNotice ..).calm.after
      (.modPass _ _ PassEntry.refund (fun _ => rfl) fun _ _ h => h.refund)
  · exact .refl s

theorem State.Calm.releaseDock (s : State) (d : DockId) (n : NamedState) : s.Calm (s.releaseDock d n) :=
  .inside (.refl _)

theorem State.Calm.endSettled (s : State) (o : Order) (e : Ending) : s.Calm (s.endSettled o e) := by
  unfold State.endSettled
  dsimp only
  refine State.Calm.trans ?_ (.releaseDock ..)
  refine State.Calm.trans ?_ (State.Quiet.resultFailed ..).calm
  refine State.Calm.trans ?_ (.logOrder ..)
  split
  · exact (State.Calm.lowerInFlight ..).trans (.refund ..)
  · exact .lowerInFlight ..

theorem State.Calm.endOrder (s : State) (d : DockId) (e : Ending) : s.Calm (s.endOrder d e) := by
  unfold State.endOrder
  split
  · exact .endSettled ..
  · exact .refl s

theorem State.Calm.driveEnd (s : State) (d : DockId) (ev : Option EventKind) (c : Bool) (e : Ending) :
    s.Calm (s.driveEnd d ev c e) := by
  have h : s.Calm ((((s.modDock d Dock.leaveDrive).setActivity d .inactive).latchOption ev)) :=
    ((State.Calm.modDock ..).trans (.setActivity ..)).trans (State.Quiet.latchOption ..).calm
  unfold State.driveEnd
  dsimp only
  cases c <;> simp only [if_true, Bool.false_eq_true, if_false] <;> split
  · exact (h.trans (.endOrder ..)).trans (.evaluateGrants _)
  · exact h.trans (.endOrder ..)
  · exact ((h.trans (State.Quiet.result ..).calm).trans (.endOrder ..)).trans (.evaluateGrants _)
  · exact (h.trans (State.Quiet.result ..).calm).trans (.endOrder ..)

theorem State.Calm.beginClosing (s : State) (d : DockId) (m : Bool) : s.Calm (s.beginClosing d m) :=
  (State.Calm.modDock ..).trans (.setActivity ..)

theorem State.Calm.evaluateLevel (s : State) (vs : Nat) : s.Calm (s.evaluateLevel vs) := by
  unfold State.evaluateLevel
  dsimp only
  split
  · exact (State.Quiet.latchLevelMove ..).calm.after (.inside (.refl _))
  · exact (State.Calm.evaluateGrants _).after ((State.Quiet.latchLevelMove ..).calm.after (.inside (.refl _)))

theorem State.Calm.recomputeDuties (s : State) (vs : Nat) : s.Calm (s.recomputeDuties vs) := .inside (.refl _)

/-! ### Referrals and admissions -/

theorem State.Calm.endReferral (s : State) (r : Referral) (v : Verdict) (n : Nat) : s.Calm (s.endReferral r v n) := by
  unfold State.endReferral
  exact (State.Quiet.verdict ..).calm.after (.inside (.refl _))

theorem State.Calm.endReferralAt (s : State) (d : DockId) : s.Calm (s.endReferralAt d) := by
  unfold State.endReferralAt
  split
  · exact .endReferral ..
  · exact .refl s

theorem PassEntry.Ranged.consume {e : PassEntry} (h : e.Ranged) {serial : Nat} (hs : serial ≤ 65535) :
    (e.consume serial).Ranged :=
  { h with
    rides := by have := h.rides; simp only [PassEntry.consume]; split <;> omega
    serial := hs }

theorem State.Calm.admitted (s : State) (d : DockId) (t : Token) (o : Origin) (e : PassEntry) (r : Address)
    (ht : t.serial ≤ 65535) : s.Calm (s.admitted d t o e r) := by
  unfold State.admitted
  refine (State.Quiet.sendNotice ..).calm.after ((State.Quiet.verdict ..).calm.after ?_)
  exact (State.Calm.queueOrder ..).after
    (.modPass _ _ (fun x => x.consume t.serial) (fun _ => rfl) fun _ _ h => h.consume ht)

theorem State.Calm.createReferral (s : State) (d : DockId) (p : List Byte) (r : Address) :
    s.Calm (s.createReferral d p r) := by
  unfold State.createReferral
  exact (State.Quiet.verdict ..).calm.after ((State.Quiet.offer ..).calm.after (.inside (.refl _)))

theorem State.Calm.referOrRefuse (s : State) (d : DockId) (p : List Byte) (r : Address) :
    s.Calm (s.referOrRefuse d p r) := by
  unfold State.referOrRefuse
  dsimp only
  split
  · exact (State.Quiet.verdict ..).calm
  · split
    · exact (State.Quiet.verdict ..).calm
    · exact .createReferral ..

end Sys2Proof.Machine
end

