-- ==== Sys2Proof/Laws/Operands.lean ====
section
/-! SUPPORT. The ranges of the fields read from payloads. -/

namespace Sys2Proof.Machine

theorem numberOf_append (bs : List Byte) (b : Byte) : numberOf (bs ++ [b]) = numberOf bs * 256 + b.toNat := by
  simp [numberOf]

theorem numberOf_lt (bs : List Byte) : numberOf bs < 256 ^ bs.length := by
  induction bs using List.reverseRecOn with
  | nil => simp [numberOf]
  | append_singleton bs b ih =>
    have := b.isLt
    rw [numberOf_append, List.length_append, List.length_singleton, pow_succ]
    omega

theorem fieldAt_lt (p : List Byte) (off size : Nat) : fieldAt p off size < 256 ^ size :=
  (numberOf_lt _).trans_le (Nat.pow_le_pow_right (by decide) (by simp))

theorem tokenOf_serial_le (p : List Byte) : (tokenOf p).serial ≤ 65535 := by
  have := fieldAt_lt p 6 2
  simp only [tokenOf]
  omega

theorem bytesOf_length (k n : Nat) : (bytesOf k n).length = k := by
  induction k generalizing n with
  | zero => rfl
  | succ k ih => simp [bytesOf, ih]

theorem clamp_mem {lo hi : Nat} (h : lo ≤ hi) (x : Nat) : lo ≤ clamp lo hi x ∧ clamp lo hi x ≤ hi := by
  simp only [clamp]
  omega

/-- A written entry of a valid pass id has its fields in range (R29, R30). -/
theorem writtenEntry_ranged (id : Nat) (cls : PassClass) (p : List Byte) (off : Nat) (h : 1 ≤ id)
    (h' : id < 4294967296) : (writtenEntry id cls p off).Ranged where
  id := ⟨h, h'⟩
  rides := by have := fieldAt_lt p (off + 9) 2; simp only [writtenEntry]; omega
  bikes := clamp_mem (by decide) _
  serial := by have := fieldAt_lt p (off + 12) 2; simp only [writtenEntry]; omega
  validFrom := fieldAt_lt p (off + 1) 4
  validUntil u hu := by
    have := fieldAt_lt p (off + 5) 4
    simp only [writtenEntry, optionalField] at hu
    split at hu
    · cases hu
    · cases hu; omega

end Sys2Proof.Machine
end

