-- ==== Sys2Proof/Laws/CalmCommands.lean ====
section
/-! SUPPORT. What the effects of commands can do outside their matter (State.Calm), one lemma for each effect. -/

namespace Sys2Proof.Machine

theorem State.perform_cases {s t : State} {eff : State → State} (h : s.perform eff = .next t) :
    t = s ∨ (s.phase ≠ .inReset ∧ t = eff s) := by
  simp only [State.perform, State.unlessReset, Host.Outcome.next.injEq] at h
  split at h
  · exact .inl h.symm
  · exact .inr ⟨by assumption, h.symm⟩

theorem State.Calm.checkReservations (s : State) : s.Calm s.checkReservations := by
  unfold State.checkReservations
  split
  · exact .refl s
  · dsimp only
    split
    · exact (State.Quiet.latch ..).calm.after (.inside (.refl _))
    · exact .inside (.refl _)

theorem PassEntry.Ranged.replaceWith {a b : PassEntry} (ha : a.Ranged) (hb : b.Ranged) : (a.replaceWith b).Ranged := by
  unfold PassEntry.replaceWith
  split
  · exact { hb with }
  · exact { hb with serial := ha.serial }

theorem State.Calm.applyStop (s : State) (a) : s.Calm (s.applyStop a) := by
  unfold State.applyStop
  split
  · exact .endOrder ..
  · exact .driveEnd ..
  · exact .endReferral ..

theorem State.Calm.foldl {α} (g : State → α → State) (hg : ∀ (s : State) a, s.Calm (g s a)) (l : List α) (s : State) : s.Calm (l.foldl g s) := by
  induction l generalizing s with
  | nil => exact .refl s
  | cons a l ih => exact (hg s a).trans (ih _)

theorem State.Calm.stopEffects (s : State) : s.Calm s.stopEffects := by
  unfold State.stopEffects
  refine State.Calm.after (State.Calm.foldl _ (fun s a => .beginClosing ..) _ _) ?_
  refine State.Calm.after (State.Calm.foldl _ State.Calm.applyStop _ _) ?_
  exact (State.Quiet.spendFree ..).calm

theorem State.Calm.stopAllEffects (s : State) : s.Calm s.stopAllEffects := by
  have h : s.Calm { State.stopEffects { s with stopAsserted := true } with stopAsserted := s.stopAsserted } := by
    refine State.Calm.after (t := State.stopEffects { s with stopAsserted := true }) (.inside (.refl _)) ?_
    exact (State.Calm.stopEffects _).after (.inside (.refl _))
  unfold State.stopAllEffects
  dsimp only
  split
  · exact h
  · exact (State.Calm.evaluateGrants _).after h

theorem State.Calm.serviceDock (s : State) (d) : s.Calm (s.serviceDock d) := by
  unfold State.serviceDock
  split
  · exact .endOrder ..
  · exact .driveEnd ..
  · exact .driveEnd ..
  · exact .driveEnd ..
  · exact .endReferralAt ..
  all_goals exact (State.Calm.modDock ..).after (.endReferralAt ..)

theorem State.Calm.evaluateFromLatest (s : State) : s.Calm s.evaluateFromLatest := by
  unfold State.evaluateFromLatest; split
  · exact .evaluateLevel ..
  · exact .refl s

theorem State.Calm.evaluateAndAttend (s : State) : s.Calm s.evaluateAndAttend := by
  unfold State.evaluateAndAttend
  split
  · split
    · exact (State.Calm.evaluateFromLatest _).after ((State.Quiet.attend _).calm.after (State.Quiet.spendFree ..).calm)
    · exact (State.Quiet.attend _).calm.after ((State.Calm.evaluateFromLatest _).after (State.Quiet.spendFree ..).calm)
  · exact (State.Calm.evaluateFromLatest _).after (State.Quiet.attend _).calm

theorem State.Calm.setReturnTimer (s : State) (d r) : s.Calm (s.setReturnTimer d r) := .inside (.refl _)

theorem State.Calm.setBikeId (s : State) (d r) : s.Calm (s.setBikeId d r) := .inside (.refl _)

theorem State.Calm.handBack (s : State) (d r) : s.Calm ((s.handOverReturn d r).setReturnTimer d .stopped) :=
  (State.Calm.handOverReturn ..).trans (.inside (.refl _))

theorem State.Calm.returnOnRise (s : State) (d) : s.Calm (s.returnOnRise d) := by
  unfold State.returnOnRise
  split
  · exact .inside (.refl _)
  · exact State.Calm.handBack ..
  · exact .refl s

theorem State.Calm.returnOnFall (s : State) (d) : s.Calm (s.returnOnFall d) := by
  unfold State.returnOnFall
  split
  · exact State.Calm.handBack ..
  · exact .refl s

theorem State.Calm.ownBikeRise (s : State) (d) : s.Calm (s.ownBikeRise d) := by
  unfold State.ownBikeRise
  split
  · exact .modDock ..
  · exact .refl s

theorem State.Calm.ownBikeFall (s : State) (d) : s.Calm (s.ownBikeFall d) := by
  unfold State.ownBikeFall
  split
  · exact .refl s
  · exact (State.Quiet.latch ..).calm.after (.modDock ..)
  · exact (State.Quiet.latch ..).calm.after (.modDock ..)
  · exact (State.Quiet.latch ..).calm.after (.modDock ..)
  · exact State.Calm.trans (State.Quiet.latch ..).calm (.inside (.refl _))
  · exact (State.Calm.endOrder ..).after (State.Quiet.latch ..).calm
  all_goals exact .driveEnd ..

theorem State.Calm.ownLatchRise (s : State) (d n) : s.Calm (s.ownLatchRise d n) := by
  unfold State.ownLatchRise
  split
  all_goals first | exact .refl s | exact (State.Quiet.latch ..).calm.after (.modDock ..) | exact (State.Calm.endOrder ..).after (State.Quiet.latch ..).calm | skip
  unfold State.captureEdge
  split
  · split
    · exact .refl s
    · exact .modDock ..
  · exact .refl s

theorem State.Calm.ownLatchFall (s : State) (d) : s.Calm (s.ownLatchFall d) := by
  unfold State.ownLatchFall
  split
  · exact .modDock ..
  · exact .driveEnd ..
  · exact .refl s

theorem State.Calm.bikeEdge (s : State) (d l g) (hg : ∀ u : State, u.Calm (g u)) : s.Calm (s.bikeEdge d l g) := by
  unfold State.bikeEdge
  split
  · exact .refl s
  · dsimp only
    split
    · exact (hg _).after ((State.Calm.modDock ..).after (.advanceToCount ..))
    · exact ((State.Calm.modDock ..).after (.advanceToCount ..))

theorem State.Calm.latchEdge (s : State) (d l g) (hg : ∀ n (u : State), u.Calm (g n u)) : s.Calm (s.latchEdge d l g) := by
  unfold State.latchEdge
  split
  · exact .refl s
  · dsimp only
    split
    · exact (hg _ _).after ((State.Calm.modDock ..).after (.advanceToCount ..))
    · exact ((State.Calm.modDock ..).after (.advanceToCount ..))

theorem State.Calm.takeBikeId (s : State) (d n) : s.Calm (s.takeBikeId d n) := by
  unfold State.takeBikeId
  split
  · exact (State.Calm.setReturnTimer ..).after ((State.Calm.handOverReturn ..).after (State.Calm.setBikeId ..))
  all_goals exact .inside (.refl _)

theorem State.Calm.decideTap (s : State) (p r) : s.Calm (s.decideTap p r) := by
  unfold State.decideTap
  dsimp only
  split
  · exact (State.Quiet.verdict ..).calm
  · split
    · exact (State.Quiet.verdict ..).calm
    · exact (State.Quiet.verdict ..).calm
    · unfold State.chainFromRoom
      dsimp only
      split
      · exact (State.Quiet.verdict ..).calm
      · split
        · exact .referOrRefuse ..
        · split
          · exact (State.Quiet.verdict ..).calm
          · exact .admitted _ _ _ _ _ _ (tokenOf_serial_le _)

theorem PassEntry.Ranged.noticed {e : PassEntry} (h : e.Ranged) {n} (hn : n ≤ 65535) (d : Int): (e.noticed n d).Ranged := by
  have h' : (if e.lastSerial < n then { e with lastSerial := n, source := .notice } else e).Ranged := by
    split
    · exact { h with serial := hn }
    · exact h
  unfold PassEntry.noticed PassEntry.addDelta
  generalize (if e.lastSerial < n then ({ e with lastSerial := n, source := .notice } : PassEntry) else e) = e' at *
  split
  · exact h'
  · refine { h' with rides := ?_ }
    show min _ _ ≤ _
    omega

theorem State.Calm.applyNotice (s : State) (a b c d) (hb : b ≤ 65535) : s.Calm (s.applyNotice a b c d) := by
  unfold State.applyNotice
  split
  · exact .refl s
  · dsimp only
    have hid : ∀ x : PassEntry, (x.noticed b c).id = x.id := by
      intro x
      unfold PassEntry.noticed PassEntry.addDelta
      split <;> split <;> rfl
    refine (State.Calm.modPass _ _ _ hid fun x _ hx => hx.noticed hb c).after ?_
    split
    · exact (State.Quiet.noteDuplicate ..).calm
    · exact .refl s

theorem State.Calm.deliverSupply (s : State) (c) : s.Calm (s.deliverSupply c) := by
  unfold State.deliverSupply
  split
  · exact (State.Calm.recomputeDuties ..).after (.evaluateLevel ..)
  · exact .refl s

theorem State.Calm.takeCoilFault (s : State) (d f) : s.Calm (s.takeCoilFault d f) := by
  unfold State.takeCoilFault
  split <;> first | exact .driveEnd .. | exact .refl s

end Sys2Proof.Machine
end

