-- ==== Sys2Proof/Laws/Endings.lean ====
section
/-! SUPPORT. What the end of an order does, once (section 5.6): the record and the settled entries, then the dock. -/

namespace Sys2Proof.Machine

theorem Order.passToSettle_eq_some {o : Order} {i : Nat} :
    o.passToSettle = some i ↔ o.origin ≠ .staff ∧ some i = o.passId := by
  unfold Order.passToSettle
  split
  · rename_i h; simp [h]
  · rename_i h; exact ⟨fun e => ⟨h, e.symm⟩, fun e => e.2.symm⟩

/-- The refund of an ending applies when it is due (R40, R109). -/
theorem State.refundApplies_iff (s : State) (o : Order) (k : OutcomeKind) :
    s.refundApplies o k = true ↔ s.RefundDue o k := by
  unfold State.refundApplies State.RefundDue State.findPass
  by_cases hs : o.origin = .staff
  · simp [Order.passToSettle, hs]
  · have hp : o.passToSettle = o.passId := by
      unfold Order.passToSettle; split
      · contradiction
      · rfl
    rw [hp]
    cases hi : o.passId with
    | none => simp [List.find?_eq_none.2]
    | some i =>
      have : (fun e : PassEntry => some e.id == some i) = fun e => e.id == i := by funext e; simp
      simp only [this, Option.bind_some, Bool.and_eq_true, bne_iff_ne, ne_eq, hs, not_false_eq_true, true_and]
      cases s.passes.find? fun e => e.id == i with
      | none => simp
      | some e => cases hc : e.cls <;> simp [PassEntry.refundable, hc]

/-- The in-flight count of the order's entry falls by one (R38). -/
theorem State.lowerInFlight_eq (s : State) (o : Order) :
    s.lowerInFlight o = { s with passes := s.passes.map (o.settledEntry false) } := by
  unfold State.lowerInFlight
  cases hp : o.passToSettle with
  | none =>
    have : s.passes.map (o.settledEntry false) = s.passes := List.map_id'' (fun x => if_neg fun h => by
      rw [Order.passToSettle_eq_some.2 h] at hp; cases hp) _
    rw [this]
  | some i =>
    obtain ⟨h1, h2⟩ := Order.passToSettle_eq_some.1 hp
    show State.mk .. = _
    congr 1
    exact List.map_congr_left fun x _ => by simp [Order.settledEntry, h1, ← h2]

/-- A refund raises the settled entry's rides left and is noticed to the siblings (R40, R109). -/
theorem State.refund_eq {s : State} {o : Order} {i : Nat} (hi : o.passToSettle = some i) :
    (s.lowerInFlight o).refund o =
      { s with passes := s.passes.map (o.settledEntry true) }.sendNotice i (o.serial.getD 0) 1 := by
  obtain ⟨h1, h2⟩ := Order.passToSettle_eq_some.1 hi
  unfold State.refund
  rw [hi, s.lowerInFlight_eq]
  show State.sendNotice (State.modPass ..) .. = _
  congr 1
  unfold State.modPass
  simp only [List.map_map]
  congr 1
  exact List.map_congr_left fun x _ => by
    by_cases hx : x.id = i <;> simp [Order.settledEntry, PassEntry.refund, h1, ← h2, hx]

/-- A refund that is due has a pass to settle. -/
theorem State.RefundDue.passToSettle {s : State} {o : Order} {k : OutcomeKind} (h : s.RefundDue o k) :
    ∃ i, o.passToSettle = some i := by
  obtain ⟨_, h1, x, hx, _⟩ := h
  exact ⟨x.id, Order.passToSettle_eq_some.2 ⟨h1, by simpa using List.find?_some hx⟩⟩

/-- The entries after the end of an order, in the two steps that the order-end rule takes (R38, R40). -/
theorem State.endSettled_shape (s : State) (o : Order) (e : Ending) :
    ∃ refunded v, (refunded = true ↔ s.RefundDue o e.kind) ∧
      State.Quiet { s with
        passes := s.passes.map (o.settledEntry refunded)
        log := s.log ++ [s.orderRecord o e refunded] } v ∧
      s.endSettled o e = v.releaseDock o.dock e.named := by
  refine ⟨s.refundApplies o e.kind, _, s.refundApplies_iff o e.kind, ?_, rfl⟩
  generalize hr : s.refundApplies o e.kind = r
  have hq : State.Quiet { s with passes := s.passes.map (o.settledEntry r) }
      (if r = true then (s.lowerInFlight o).refund o else s.lowerInFlight o) := by
    cases r with
    | false => rw [s.lowerInFlight_eq]; exact .refl _
    | true =>
      obtain ⟨i, hi⟩ := ((s.refundApplies_iff o e.kind).1 hr).passToSettle
      rw [if_pos rfl, State.refund_eq hi]
      exact .sendNotice ..
  refine State.Quiet.trans ?_ ((State.Quiet.testLogHigh _).trans (.resultFailed ..))
  generalize (if r = true then (s.lowerInFlight o).refund o else s.lowerInFlight o) = rf at hq ⊢
  have hrec : rf.orderRecord o e r = s.orderRecord o e r := by
    simp only [State.orderRecord, hq.now, hq.dock, hq.timeKnown]; rfl
  rw [hrec]
  obtain ⟨ev, a, b, n, hrf, ha, hb⟩ := hq
  rw [hrf]
  exact ⟨ev, a, b, n, rfl, ha, hb⟩

/-- An ending leaves every other dock, and of its own dock the channels; the dock is then not in flight. -/
theorem State.releaseDock_ne (s : State) {d x : DockId} (n : NamedState) (h : x ≠ d) :
    (s.releaseDock d n).dock x = s.dock x := by
  unfold State.releaseDock; rw [State.dock_modDock_ne _ _ _ _ h]; rfl

theorem State.releaseDock_self (s : State) (d : DockId) (n : NamedState) :
    (s.releaseDock d n).dock d =
      ({ s.dock d with boundPass := none, boundSerial := none, origin := none, order := none } : Dock).settle n := by
  unfold State.releaseDock; rw [State.dock_modDock_self]; rfl

theorem State.endSettled_ne (s : State) (o : Order) (e : Ending) {x : DockId} (h : x ≠ o.dock) :
    (s.endSettled o e).dock x = s.dock x := by
  obtain ⟨r, v, _, hq, hv⟩ := s.endSettled_shape o e
  rw [hv, v.releaseDock_ne _ h, hq.dock]; rfl

theorem State.endSettled_self (s : State) (o : Order) (e : Ending) :
    (s.endSettled o e).dock o.dock =
      ({ s.dock o.dock with boundPass := none, boundSerial := none, origin := none, order := none } : Dock).settle
        e.named := by
  obtain ⟨r, v, _, hq, hv⟩ := s.endSettled_shape o e
  rw [hv, v.releaseDock_self, hq.dock]; rfl

theorem State.endSettled_fields (s : State) (o : Order) (e : Ending) :
    (s.endSettled o e).referrals = s.referrals ∧ (s.endSettled o e).stopAsserted = s.stopAsserted ∧
      (s.endSettled o e).queue = s.queue.filter fun x => x.dock != o.dock := by
  obtain ⟨r, v, _, hq, hv⟩ := s.endSettled_shape o e
  rw [hv]
  refine ⟨hq.referrals, hq.stopAsserted, ?_⟩
  show v.queue.filter _ = _
  rw [hq.queue]

end Sys2Proof.Machine
end

