-- ==== Sys2Proof/Laws/LinkSlots.lean ====
section
/-! SUPPORT. What keeps the slots of the link unit in order (State.LinkOk): calm changes, a REPLY in its reservation, a
frame that leaves a receive buffer without one, and the taking of frames. -/

namespace Sys2Proof.Machine

theorem Port.Grows.rx {q r : Port} (h : q.Grows r) : r.rx = q.rx := by obtain ⟨_, rfl, _⟩ := h; rfl
theorem Port.Grows.reserved {q r : Port} (h : q.Grows r) : r.reserved = q.reserved := by
  obtain ⟨_, rfl, _⟩ := h; rfl
theorem Port.Grows.address {q r : Port} (h : q.Grows r) : r.address = q.address := by obtain ⟨_, rfl, _⟩ := h; rfl
theorem Port.Grows.line {q r : Port} (h : q.Grows r) : r.line = q.line := by obtain ⟨_, rfl, _⟩ := h; rfl
theorem Port.Grows.slots {q r : Port} (h : q.Grows r) (hq : q.tx.length + q.reserved ≤ 8) :
    r.tx.length + r.reserved ≤ 8 := by
  obtain ⟨_, rfl, hl⟩ := h
  simp only [Port.free, List.length_append] at *
  omega

/-- LinkOk reads the two ports, whether the pass store is busy, and the straps. -/
theorem State.LinkOk.congr {s t : State} (h : s.LinkOk) (hs : t.station = s.station) (hd : t.dockPort = s.dockPort)
    (hr : t.rearrangement.isSome → s.rearrangement.isSome) (hp : t.straps = s.straps) : t.LinkOk where
  stationRx := by rw [hs]; exact h.stationRx
  dockRx := by rw [hd]; exact h.dockRx
  stationSlots := by rw [hs]; exact h.stationSlots
  dockSlots := by rw [hd]; exact h.dockSlots
  stationReserved := by rw [hs, hd]; exact h.stationReserved
  dockReserved := by rw [hs, hd]; exact h.dockReserved
  busyHead := by rw [hs]; exact fun x => h.busyHead (hr x)
  stationAddress := by rw [hs, hp]; exact h.stationAddress
  dockAddress := by rw [hd]; exact h.dockAddress

theorem State.LinkOk.calm {s t : State} (h : s.LinkOk) (c : s.Calm t) : t.LinkOk where
  stationRx := by rw [c.station.rx]; exact h.stationRx
  dockRx := by rw [c.dockPort.rx]; exact h.dockRx
  stationSlots := c.station.slots h.stationSlots
  dockSlots := c.dockPort.slots h.dockSlots
  stationReserved := by rw [c.station.rx, c.station.reserved, c.dockPort.rx]; exact h.stationReserved
  dockReserved := by rw [c.station.rx, c.dockPort.reserved]; exact h.dockReserved
  busyHead := by rw [c.station.rx, c.rearrangement]; exact h.busyHead
  stationAddress := by rw [c.station.address, c.straps]; exact h.stationAddress
  dockAddress := by rw [c.dockPort.address]; exact h.dockAddress

theorem Frame.not_forward_of_reply {f : Frame} (h : f.awaitsReply) : f.awaitsForward = false := by
  simp_all [Frame.awaitsReply, Frame.awaitsForward]

theorem Frame.not_reply_of_forward {f : Frame} (h : f.awaitsForward) : f.awaitsReply = false := by
  simp_all [Frame.awaitsReply, Frame.awaitsForward]

/-- A REPLY in its reservation, the busy state having ended (R34, R177, R186). -/
theorem State.LinkOk.replyWith {s : State} (h : s.LinkOk) {f : Frame} (hf : s.station.rx.head? = some f)
    (hw : f.awaitsReply) (hb : s.rearrangement = none) (st : Status) (data : List Byte) (o : Owner) :
    (s.replyWith st data o).LinkOk := by
  obtain ⟨rest, hrx⟩ : ∃ rest, s.station.rx = f :: rest := by
    cases hx : s.station.rx <;> simp_all
  have h1 := h.stationReserved
  have h2 := h.dockReserved
  have h3 := h.stationRx
  have h4 := h.stationSlots
  simp only [hrx, List.countP_cons, hw, Frame.not_forward_of_reply hw, if_true, List.length_cons] at h1 h2 h3
  simp only [State.replyWith, hrx]
  refine ⟨?_, h.dockRx, ?_, h.dockSlots, ?_, ?_, ?_, h.stationAddress, h.dockAddress⟩
  · simp [Port.pushReserved, Port.popRx, hrx]; omega
  · simp [Port.pushReserved, Port.popRx]; omega
  · simp [Port.pushReserved, Port.popRx, hrx]; omega
  · simp [Port.pushReserved, Port.popRx, hrx]; simpa using h2
  · simp [hb]

/-- A frame with no slot promised leaves the station receive buffer (R179, R180). -/
theorem State.LinkOk.releaseStation {s : State} (h : s.LinkOk) {f : Frame} (hf : s.station.rx.head? = some f)
    (hw : f.isBroadcast) (hb : s.rearrangement = none) : (s.release .station).LinkOk := by
  obtain ⟨rest, hrx⟩ : ∃ rest, s.station.rx = f :: rest := by
    cases hx : s.station.rx <;> simp_all
  have h1 := h.stationReserved
  have h2 := h.dockReserved
  have h3 := h.stationRx
  simp only [hrx, List.countP_cons, Frame.awaitsReply, Frame.awaitsForward, hw, List.length_cons] at h1 h2 h3
  refine ⟨?_, h.dockRx, h.stationSlots, h.dockSlots, ?_, ?_, ?_, h.stationAddress, h.dockAddress⟩
  · simp [State.release, Port.popRx, hrx]; omega
  · simp [State.release, Port.popRx, hrx]; simpa [Frame.awaitsReply, Frame.awaitsForward] using h1
  · simp [State.release, Port.popRx, hrx]; simpa [Frame.awaitsForward] using h2
  · simp [State.release, hb]

/-- A frame with no slot promised leaves the dock receive buffer (R179, R180). -/
theorem State.LinkOk.releaseDockPort {s : State} (h : s.LinkOk) {f : Frame} (hf : s.dockPort.rx.head? = some f)
    (hw : f.awaitsForward = false) : (s.release .dock).LinkOk := by
  obtain ⟨rest, hrx⟩ : ∃ rest, s.dockPort.rx = f :: rest := by
    cases hx : s.dockPort.rx <;> simp_all
  have h1 := h.stationReserved
  have h3 := h.dockRx
  simp only [hrx, List.countP_cons, hw, List.length_cons] at h1 h3
  refine ⟨h.stationRx, ?_, h.stationSlots, h.dockSlots, ?_, h.dockReserved, h.busyHead, h.stationAddress,
    h.dockAddress⟩
  · simp [State.release, Port.popRx, hrx]; omega
  · simp [State.release, Port.popRx, hrx]; simpa using h1

/-! ### Taking frames (R35, R180, R193) -/

/-- What a taking from the station buffer does: nothing, or the action on a state that can take its head frame. -/
theorem State.takeStation_cases (s : State) (accepts : Frame → Bool) (act : Frame → State → State) :
    s.takeStation accepts act = s ∨ ∃ f, s.phase = .running ∧ s.marks.restart = false ∧ s.rearrangement = none ∧
      s.station.rx.head? = some f ∧ accepts f = true ∧ s.takeStation accepts act = act f s := by
  unfold State.takeStation
  split
  · rename_i f rest h1 h2 h3 h4
    split
    · exact .inr ⟨f, h1, h2, by simpa [State.busy] using h3, by simp [h4], ‹_›, rfl⟩
    · exact .inl rfl
  · exact .inl rfl

/-- What a taking from the dock buffer does: nothing, or the action on a state that can take its head frame. -/
theorem State.takeDock_cases (s : State) (accepts : Frame → Bool) (act : Frame → State → State) :
    s.takeDock accepts act = s ∨ ∃ f, s.phase = .running ∧ s.marks.restart = false ∧
      s.dockPort.rx.head? = some f ∧ accepts f = true ∧ s.takeDock accepts act = act f s := by
  unfold State.takeDock
  split
  · rename_i f rest h1 h2 h4
    split
    · exact .inr ⟨f, h1, h2, by simp [h4], ‹_›, rfl⟩
    · exact .inl rfl
  · exact .inl rfl

/-- A taking that can take its head frame acts on it. -/
theorem State.takeStation_eq {s : State} {accepts : Frame → Bool} (act : Frame → State → State) {f : Frame}
    (h1 : s.phase = .running) (h2 : s.marks.restart = false) (h3 : s.rearrangement = none)
    (h4 : s.station.rx.head? = some f) (h5 : accepts f = true) : s.takeStation accepts act = act f s := by
  obtain ⟨rest, hrx⟩ : ∃ rest, s.station.rx = f :: rest := by
    cases hx : s.station.rx <;> simp_all
  simp [State.takeStation, h1, h2, State.busy, h3, hrx, h5]

/-- A taking that can take its head frame acts on it. -/
theorem State.takeDock_eq {s : State} {accepts : Frame → Bool} (act : Frame → State → State) {f : Frame}
    (h1 : s.phase = .running) (h2 : s.marks.restart = false) (h4 : s.dockPort.rx.head? = some f)
    (h5 : accepts f = true) : s.takeDock accepts act = act f s := by
  obtain ⟨rest, hrx⟩ : ∃ rest, s.dockPort.rx = f :: rest := by
    cases hx : s.dockPort.rx <;> simp_all
  simp [State.takeDock, h1, h2, hrx, h5]

end Sys2Proof.Machine
end

