-- ==== Sys2Proof/Laws/Orders.lean ====
section
/-! SUPPORT. Docks, orders, referrals and the log stay in agreement (State.OrdersOk): what changes of a dock, grants
and the ends of orders keep. -/

namespace Sys2Proof.Machine

/-! ### Counts over the docks -/
theorem State.countP_docks (s : State) (p : Dock → Bool) :
    s.docks.countP p = allDocks.countP fun d => p (s.dock d) := by
  have h : s.docks.toList = allDocks.map s.dock := by
    apply List.ext_getElem
    · simp [allDocks]
    · intro i h1 h2
      simp [State.dock, allDocks]
  rw [← Vector.countP_toList, h, List.countP_map]
  rfl

theorem State.countP_congr {s t : State} (p q : Dock → Bool) (h : ∀ d, p (s.dock d) = q (t.dock d)) :
    s.docks.countP p = t.docks.countP q := by
  rw [s.countP_docks, t.countP_docks]
  exact List.countP_congr fun d _ => by rw [h d]

/-- A count over a list after a change at one of its entries. -/
theorem countP_update {α : Type} [DecidableEq α] (l : List α) (nodup : l.Nodup) (a : α) (ha : a ∈ l) (p q : α → Bool)
    (same : ∀ x, x ≠ a → p x = q x) : l.countP p + (q a).toNat = l.countP q + (p a).toNat := by
  have rest : (l.erase a).countP p = (l.erase a).countP q :=
    List.countP_congr fun x hx => by rw [same x ((nodup.mem_erase_iff.1 hx).1)]
  have split (r : α → Bool) : l.countP r = (l.erase a).countP r + (r a).toNat := by
    rw [(List.perm_cons_erase ha).countP_eq, List.countP_cons]
    cases r a <;> rfl
  rw [split p, split q, rest]
  exact Nat.add_right_comm ..

/-- A count of docks after a change of one dock. -/
theorem State.countP_one {s t : State} (d : DockId) (p : Dock → Bool) (h : ∀ x, x ≠ d → t.dock x = s.dock x) :
    t.docks.countP p + (p (s.dock d)).toNat = s.docks.countP p + (p (t.dock d)).toNat := by
  rw [s.countP_docks, t.countP_docks]
  exact countP_update _ (List.nodup_finRange 16) d (List.mem_finRange d) (fun d => p (t.dock d))
    (fun d => p (s.dock d)) fun x hx => by rw [h x hx]

/-- What ties an order to its dock record (R1, R92). -/
def Order.key (o : Order) : DockId × Origin × Option Nat × Option Nat := (o.dock, o.origin, o.passId, o.serial)

/-- A change of a dock that leaves alone what orders, referrals, pass entries and the log count. -/
structure Dock.Like (k k' : Dock) : Prop where
  inFlight : k'.inFlight = k.inFlight
  queued : k'.state = .queued ↔ k.state = .queued
  pulling : k'.state = .pulling → k.state = .pulling
  boundPass : k'.boundPass = k.boundPass
  boundSerial : k'.boundSerial = k.boundSerial
  origin : k'.origin = k.origin
  order : k'.order.map Order.key = k.order.map Order.key
  pendingReturn : k'.pendingReturn = k.pendingReturn

theorem Dock.Like.refl (k : Dock) : k.Like k := ⟨rfl, .rfl, id, rfl, rfl, rfl, rfl, rfl⟩

theorem Dock.Like.trans {a b c : Dock} (h : a.Like b) (h' : b.Like c) : a.Like c :=
  ⟨h'.1.trans h.1, h'.2.trans h.2, fun x => h.3 (h'.3 x), h'.4.trans h.4, h'.5.trans h.5, h'.6.trans h.6, h'.7.trans h.7, h'.8.trans h.8⟩

/-- Pass entries have changed in place, with their ids and in-flight counts as they were. -/
abbrev PassesCounted : List PassEntry → List PassEntry → Prop :=
  ChangedBy fun e x => x.id = e.id ∧ x.inFlight = e.inFlight

theorem PassesCounted.refl (ps : List PassEntry) : PassesCounted ps ps := ChangedBy.refl (fun _ => ⟨rfl, rfl⟩) ps

theorem PassesCounted.trans {a b c : List PassEntry} (h : PassesCounted a b) (h' : PassesCounted b c) : PassesCounted a c :=
  ChangedBy.trans (fun _ _ _ h h' => ⟨h'.1.trans h.1, h'.2.trans h.2⟩) h h'

/-- Referrals have changed in place, with their docks and tokens as they were. -/
abbrev ReferralsSame : List Referral → List Referral → Prop :=
  ChangedBy fun e x => x.dock = e.dock ∧ x.token = e.token

theorem ReferralsSame.refl (ps : List Referral) : ReferralsSame ps ps := ChangedBy.refl (fun _ => ⟨rfl, rfl⟩) ps
theorem ReferralsSame.trans {a b c : List Referral} (h : ReferralsSame a b) (h' : ReferralsSame b c) : ReferralsSame a c :=
  ChangedBy.trans (fun _ _ _ h h' => ⟨h'.1.trans h.1, h'.2.trans h.2⟩) h h'

/-- The slot counts lie in their ranges (R98, R101). -/
def Supply.Fine (u : Supply) : Prop := 1 ≤ u.slots ∧ u.slots ≤ 4 ∧ u.effective ≤ u.slots

/-- A change that leaves alone what orders, referrals, pass entries and the log count. -/
structure State.Steady (s t : State) : Prop where
  docks : ∀ d, (s.dock d).Like (t.dock d)
  ok : ∀ d, (s.dock d).Ok → (t.dock d).Ok
  queue : t.queue = s.queue
  referrals : ReferralsSame s.referrals t.referrals
  rearrangement : t.rearrangement = s.rearrangement
  passes : PassesCounted s.passes t.passes
  log : t.log.length = s.log.length
  supply : s.supply.Fine → t.supply.Fine
  phase : t.phase = .starting → s.phase = .starting

theorem State.Steady.refl (s : State) : s.Steady s :=
  ⟨fun _ => .refl _, fun _ => id, rfl, .refl _, rfl, .refl _, rfl, id, id⟩

theorem State.Steady.trans {s t u : State} (h : s.Steady t) (h' : t.Steady u) : s.Steady u :=
  ⟨fun d => (h.1 d).trans (h'.1 d), fun d x => h'.2 d (h.2 d x), h'.3.trans h.3, h.4.trans h'.4, h'.5.trans h.5, h.6.trans h'.6, h'.7.trans h.7, fun x => h'.8 (h.8 x), fun x => h.9 (h'.9 x)⟩

theorem State.Steady.after {s t u : State} (h' : t.Steady u) (h : s.Steady t) : s.Steady u := h.trans h'

theorem State.Steady.outside {s t : State} (docks : t.docks = s.docks := by rfl) (queue : t.queue = s.queue := by rfl)
   (referrals : t.referrals = s.referrals := by rfl) (rearrangement : t.rearrangement = s.rearrangement := by rfl)
   (passes : t.passes = s.passes := by rfl) (log : t.log = s.log := by rfl) (supply : t.supply = s.supply := by rfl)
   (phase : t.phase = s.phase := by rfl) : s.Steady t where
  docks d := by rw [s.dock_congr t docks]; exact .refl _
  ok d := by rw [s.dock_congr t docks]; exact id
  queue := queue
  referrals := by rw [referrals]; exact .refl _
  rearrangement := rearrangement
  passes := by rw [passes]; exact .refl _
  log := by rw [log]
  supply := by rw [supply]; exact id
  phase := by rw [phase]; exact id

theorem State.Quiet.steady {s t : State} (h : s.Quiet t) : s.Steady t :=
  .outside h.docks h.queue h.referrals h.rearrangement h.passes h.log h.supply h.phase

theorem State.Steady.modDock (s : State) (d : DockId) (f : Dock → Dock) (hl : (s.dock d).Like (f (s.dock d)))
    (hk : (s.dock d).Ok → (f (s.dock d)).Ok) : s.Steady (s.modDock d f) where
  docks x := by
    rw [s.dock_modDock]; split
    · rename_i h; subst h; exact hl
    · exact .refl _
  ok x := by
    rw [s.dock_modDock]; split
    · rename_i h; subst h; exact hk
    · exact id
  queue := rfl
  referrals := .refl _
  rearrangement := rfl
  passes := .refl _
  log := rfl
  supply := id
  phase := id

theorem State.Steady.mapDocks (s : State) (f : Dock → Dock) (hl : ∀ d, (s.dock d).Ok → (s.dock d).Like (f (s.dock d)))
    (hk : ∀ d, (s.dock d).Ok → (f (s.dock d)).Ok) (h : ∀ d, (s.dock d).Ok) : s.Steady { s with docks := s.docks.map f } where
  docks x := by rw [s.dock_map]; exact hl x (h x)
  ok x := by rw [s.dock_map]; exact hk x
  queue := rfl
  referrals := .refl _
  rearrangement := rfl
  passes := .refl _
  log := rfl
  supply := id
  phase := id

theorem bound_like {o : Order} {d : DockId} {k k' : Dock} (h : o.Bound d k) (l : k.Like k') : o.Bound d k' :=
  ⟨h.1, l.origin.trans h.2, l.boundPass.trans h.3, l.boundSerial.trans h.4, h.5⟩

theorem bound_key {o o' : Order} {d : DockId} {k : Dock} (h : o.Bound d k) (e : o'.key = o.key) : o'.Bound d k := by
  simp only [Order.key, Prod.mk.injEq] at e
  obtain ⟨e1, e2, e3, e4⟩ := e
  exact ⟨e1.trans h.1, by rw [e2]; exact h.2, by rw [e3]; exact h.3, by rw [e4]; exact h.4, by rw [e2, e3]; exact h.5⟩

theorem key_some {a b : Option Order} (h : b.map Order.key = a.map Order.key) {o} (ho : o ∈ b) : ∃ o' ∈ a, o.key = o'.key := by
  cases a <;> cases b <;> simp_all

theorem State.Steady.inFlight {s t : State} (c : s.Steady t) : t.inFlight = s.inFlight :=
  State.countP_congr _ _ fun d => (c.docks d).inFlight

theorem State.Steady.logSum {s t : State} (c : s.Steady t) : t.logSum = s.logSum := by
  simp only [State.logSum, c.inFlight, c.log]

theorem State.Steady.boundInFlight {s t : State} (c : s.Steady t) (i) : t.boundInFlight i = s.boundInFlight i :=
  State.countP_congr _ _ fun d => by rw [(c.docks d).inFlight, (c.docks d).boundPass]

theorem State.Steady.pullingCount {s t : State} (c : s.Steady t) : t.pullingCount ≤ s.pullingCount := by
  unfold State.pullingCount
  rw [s.countP_docks, t.countP_docks]
  exact List.countP_mono_left fun d _ h => by
    have := (c.docks d).pulling (by simpa using h)
    simpa using this

theorem State.OrdersOk.steady {s t : State} (h : s.OrdersOk) (c : s.Steady t) : t.OrdersOk where
  docks d := c.ok d (h.docks d)
  held d o ho := by
    obtain ⟨o', ho', e⟩ := key_some (c.docks d).order ho
    exact bound_key (bound_like (h.held d o' ho') (c.docks d)) e
  queued o ho := by
    rw [c.queue] at ho
    exact ⟨bound_like (h.queued o ho).1 (c.docks _), (c.docks _).queued.2 (h.queued o ho).2⟩
  inQueue d hd := by
    rw [c.queue]
    exact h.inQueue d ((c.docks d).queued.1 hd)
  queueDocks := by rw [c.queue]; exact h.queueDocks
  referralDocks := by
    obtain ⟨g, hg, hk⟩ := c.referrals
    rw [hg, List.map_map]
    have : (fun r : Referral => r.dock) ∘ g = fun r => r.dock := by funext r; exact (hk r).1
    rw [this]; exact h.referralDocks
  referralCount := by
    obtain ⟨g, hg, hk⟩ := c.referrals
    rw [hg, List.length_map]; exact h.referralCount
  referrals r hr := by
    obtain ⟨g, hg, hk⟩ := c.referrals
    rw [hg] at hr
    obtain ⟨x, hx, rfl⟩ := List.mem_map.1 hr
    have b := h.referrals x hx
    rw [(hk x).1]
    have l := c.docks x.dock
    exact ⟨by rw [(hk x).1, (hk x).2]; exact b.1, l.inFlight.trans b.2, by rw [(hk x).2]; exact l.boundPass.trans b.3,
      by rw [(hk x).2]; exact l.boundSerial.trans b.4⟩
  answer r hr := by
    rw [c.rearrangement] at hr
    have := h.answer r hr
    unfold State.AnswerFits at *
    revert this
    cases r.work <;> simp
    intro h0 h1 h2 h3
    refine ⟨fun hp => h0 (c.phase hp), h1, (c.docks _).inFlight.trans h2, ?_⟩
    obtain ⟨g, hg, hk⟩ := c.referrals
    intro r hr
    rw [hg] at hr
    obtain ⟨x, hx, rfl⟩ := List.mem_map.1 hr
    rw [(hk x).1]; exact h3 x hx
  passCounts e he := by
    obtain ⟨g, hg, hk⟩ := c.passes
    rw [hg] at he
    obtain ⟨x, hx, rfl⟩ := List.mem_map.1 he
    rw [(hk x).1, (hk x).2, c.boundInFlight]
    exact h.passCounts x hx
  room := by rw [c.logSum]; exact h.room
  slotsHeld d hd := by
    rw [c.logSum]
    exact h.slotsHeld d (by rw [← (c.docks d).pendingReturn]; exact hd)
  slots := c.supply h.slots
  pulling := c.pullingCount.trans h.pulling
  starting hp d := (c.docks d).inFlight.trans (h.starting (c.phase hp) d)
/-! ### Docks -/
theorem targetDuty_le (v vs : Nat) : targetDuty v vs ≤ 1024 := by
  unfold targetDuty
  split
  · omega
  · rename_i h
    rw [Nat.le_iff_lt_add_one, Nat.div_lt_iff_lt_mul (by omega)]
    omega

/-- The channel of a dock is off (R111, R112, R132). -/
structure Dock.Off (k : Dock) : Prop where
  applied : k.chan.applied = 0
  pending : k.chan.pending = 0
  active : k.active = false
  pullInStart : k.chan.pullInStart = none

theorem Dock.Ok.off {k : Dock} (h : k.Ok) (hw : k.state.withDrive = false) : k.Off := by
  have hd : k.state.driven = false := by revert hw; cases k.state <;> simp [DockState.driven, DockState.withDrive]
  refine ⟨(h.driven hd).1, (h.driven hd).2, ?_, ?_⟩
  · by_contra hc
    have := h.active (by simpa using hc)
    simp [hd] at this
  · by_contra hc
    have := h.pullInStart (by simpa [Option.isSome_iff_ne_none] using hc)
    simp [hw] at this

theorem withDrive_of_not_inFlight {k : Dock} (h : k.inFlight = false) : k.state.withDrive = false := by
  revert h; unfold Dock.inFlight; cases k.state <;> simp [DockState.inFlight, DockState.withDrive]

/-- A dock at rest has no order and its channel is off. -/
theorem Dock.Ok.rest {k : Dock} (h : k.Ok) (hf : k.inFlight = false) : k.order = none ∧ k.origin = none ∧ k.Off := by
  have hw := withDrive_of_not_inFlight hf
  refine ⟨?_, ?_, h.off hw⟩
  · have := h.order; simp [hw] at this; simpa using this
  · have := h.origin; simp [hf] at this; simpa using this

theorem sensed_mem (k : Dock) : k.sensed = .vacant ∨ k.sensed = .loose ∨ k.sensed = .parked := by
  unfold Dock.sensed; split
  · simp
  · split <;> simp

/-- A dock takes a state that is not in flight. -/
structure Rests (k k' : Dock) : Prop where
  state : k'.inFlight = false
  boundPass : k'.boundPass = k.boundPass
  boundSerial : k'.boundSerial = k.boundSerial
  origin : k'.origin = k.origin
  order : k'.order = k.order
  pendingReturn : k'.pendingReturn = k.pendingReturn
  chan : k'.chan = k.chan
  sense : k'.sense = k.sense
  fault : k'.fault.isSome ↔ k'.state = .service
  reservation : k'.reservation.isSome ↔ k'.state = .reserved

theorem Rests.like {k k' : Dock} (h : Rests k k') (hk : k.inFlight = false) : k.Like k' := by
  refine ⟨by rw [h.1, hk], ?_, ?_, h.2, h.3, h.4, by rw [h.5], h.6⟩
  · have h1 := h.1
    unfold Dock.inFlight at *
    constructor <;> intro e <;> simp [e, DockState.inFlight] at *
  · have h1 := h.1
    unfold Dock.inFlight at *
    intro e; simp [e, DockState.inFlight] at *

theorem Rests.ok {k k' : Dock} (h : Rests k k') (ho : k.order = none) (hg : k.origin = none) (off : k.Off) : k'.Ok := by
  have hw := withDrive_of_not_inFlight h.state
  refine ⟨h.fault, h.reservation, by simp [h.origin, hg, h.state], by simp [h.order, ho, hw], ?_, ?_, ?_, ?_⟩
  · intro _; rw [h.chan]; exact ⟨off.1, off.2⟩
  · rw [h.chan, off.1, off.2]; omega
  · have := off.active; unfold Dock.active at *; rw [h.sense]; simp [this]
  · rw [h.chan, off.4]; simp

theorem Rests.takeRest (k : Dock) {st} (hst : st = .vacant ∨ st = .loose ∨ st = .parked) : Rests k (k.takeRest st) := by
  rcases hst with rfl | rfl | rfl <;>
  constructor <;> simp [Dock.takeRest, Dock.enterVacant, Dock.inFlight, DockState.inFlight]

theorem Rests.takeService (k : Dock) (f) : Rests k (k.takeService f) := by
  constructor <;> simp [Dock.takeService, Dock.inFlight, DockState.inFlight]

theorem Rests.takeFromSensors (k : Dock) : Rests k k.takeFromSensors := .takeRest k (sensed_mem k)

theorem Rests.settle (k : Dock) (n) : Rests k (k.settle n) := by
  unfold Dock.settle Dock.settleRest
  split
  · split
    · exact .takeRest k (by simp)
    · exact .takeFromSensors k
  · split
    · exact .takeRest k (by simp)
    · exact .takeFromSensors k
  · split
    · exact .takeRest k (by simp)
    · exact .takeFromSensors k
  · exact .takeService ..
  · exact .takeFromSensors k

theorem State.Steady.rests (s : State) (d : DockId) (f : Dock → Dock) (h : Rests (s.dock d) (f (s.dock d))) (hk : (s.dock d).inFlight = false) :
    s.Steady (s.modDock d f) :=
  .modDock s d f (h.like hk) fun ok => h.ok (ok.rest hk).1 (ok.rest hk).2.1 (ok.rest hk).2.2

/-- A change of fields that the agreement does not speak of. -/
theorem State.Steady.aside (s : State) (d : DockId) (f : Dock → Dock)
    (state : (f (s.dock d)).state = (s.dock d).state := by rfl) (fault : (f (s.dock d)).fault = (s.dock d).fault := by rfl)
    (reservation : (f (s.dock d)).reservation = (s.dock d).reservation := by rfl)
    (boundPass : (f (s.dock d)).boundPass = (s.dock d).boundPass := by rfl) (boundSerial : (f (s.dock d)).boundSerial = (s.dock d).boundSerial := by rfl)
    (origin : (f (s.dock d)).origin = (s.dock d).origin := by rfl) (order : (f (s.dock d)).order.map Order.key = (s.dock d).order.map Order.key := by rfl)
    (pendingReturn : (f (s.dock d)).pendingReturn = (s.dock d).pendingReturn := by rfl)
    (applied : (f (s.dock d)).chan.applied = (s.dock d).chan.applied := by rfl)
    (pending : (f (s.dock d)).chan.pending = (s.dock d).chan.pending := by rfl)
    (pullInStart : (f (s.dock d)).chan.pullInStart = (s.dock d).chan.pullInStart := by rfl)
    (activity : (f (s.dock d)).sense.activity = (s.dock d).sense.activity := by rfl) : s.Steady (s.modDock d f) := by
  refine .modDock s d f ⟨by simp only [Dock.inFlight, state], by rw [state], by rw [state]; exact id, boundPass, boundSerial, origin, order, pendingReturn⟩ fun ok => ?_
  have hs : (f (s.dock d)).order.isSome = (s.dock d).order.isSome := by
    have := congrArg Option.isSome order
    simpa using this
  refine ⟨by rw [fault, state]; exact ok.1, by rw [reservation, state]; exact ok.2, by simp only [Dock.inFlight, origin, state]; exact ok.3,
    by rw [hs, state]; exact ok.4, ?_, ?_, ?_, ?_⟩
  · rw [state, applied, pending]; exact ok.5
  · rw [applied, pending]; exact ok.6
  · simp only [Dock.active, activity, state]; exact ok.7
  · rw [pullInStart, state]; exact ok.8

theorem State.Steady.advanceTo (s : State) (n) : s.Steady (s.advanceTo n) := .outside
theorem State.Steady.advanceToCount (s : State) (n) : s.Steady (s.advanceToCount n) := .outside
theorem State.Steady.modSense (s : State) (f) : s.Steady (s.modSense f) := .outside
theorem State.Steady.setConverter (s : State) (f) : s.Steady (s.setConverter f) := .outside
theorem State.Steady.beginSupplyTurn (s : State) : s.Steady s.beginSupplyTurn := .outside
theorem State.Steady.beginCoilTurn (s : State) : s.Steady s.beginCoilTurn := by
  unfold State.beginCoilTurn
  split <;> exact .outside
theorem State.Steady.endTurn (s : State) : s.Steady s.endTurn := by
  unfold State.endTurn
  split
  · exact .beginSupplyTurn s
  · exact .beginCoilTurn s

theorem State.Steady.converterAtChange (s : State) (d a) : s.Steady (s.converterAtChange d a) := by
  unfold State.converterAtChange
  split
  · split
    · exact .refl s
    · exact .beginCoilTurn s
  · split
    · exact .refl s
    · split
      · exact .endTurn s
      · exact .setConverter ..
  · exact .refl s
  · exact .setConverter ..

theorem State.converterAtChange_docks (s : State) (d a) : (s.converterAtChange d a).docks = s.docks := by
  unfold State.converterAtChange State.endTurn State.beginCoilTurn State.beginSupplyTurn
  (repeat' split) <;> rfl

theorem State.Steady.setActivity (s : State) (d a) (h : a ≠ .inactive → (s.dock d).state.driven = true) : s.Steady (s.setActivity d a) := by
  unfold State.setActivity
  split
  · exact .refl s
  · refine (State.Steady.modDock s d _ ⟨rfl, .rfl, id, rfl, rfl, rfl, rfl, rfl⟩ fun ok => ?_).trans (.converterAtChange ..)
    refine { ok with active := ?_ }
    intro ha
    exact h (by simpa [Dock.active] using ha)

theorem State.Steady.setViolations (s : State) (d n) : s.Steady (s.setViolations d n) := .aside s d _

theorem State.Steady.compareSample (s : State) (d v) : s.Steady (s.compareSample d v) := by
  unfold State.compareSample
  split
  · exact .setViolations ..
  · split
    · exact (State.Steady.setViolations ..).trans (.modSense ..)
    · exact .setViolations ..

theorem State.Steady.judgeSample (s : State) (d n c) : s.Steady (s.judgeSample d n c) := by
  unfold State.judgeSample
  dsimp only
  split
  · exact .aside s d _
  · split
    · exact .aside s d _
    · exact ((State.Steady.aside s d _).trans (State.Quiet.spendFree ..).steady).trans (.compareSample ..)

theorem Dock.coilOff_like (k : Dock) : k.Like k.leaveDrive := ⟨rfl, .rfl, id, rfl, rfl, rfl, rfl, rfl⟩

theorem Dock.leaveDrive_ok {k : Dock} (h : k.Ok) : k.leaveDrive.Ok :=
  ⟨h.1, h.2, h.3, h.4, fun _ => ⟨rfl, rfl⟩, by simp [Dock.leaveDrive, Dock.coilOff], h.7, by simp [Dock.leaveDrive]⟩

theorem State.Steady.leave (s : State) (d) : s.Steady ((s.modDock d Dock.leaveDrive).setActivity d .inactive) :=
  (State.Steady.modDock s d _ (Dock.coilOff_like _) Dock.leaveDrive_ok).trans (.setActivity _ _ _ (by simp))

theorem setActivity_dock (s : State) (d a x) : (s.setActivity d a).dock x = if x = d then { s.dock d with sense := if (s.dock d).sense.activity = a then (s.dock d).sense else ⟨a, none, 0⟩ } else s.dock x := by
  unfold State.setActivity
  split
  · split
    · rename_i h; subst h; rfl
    · rfl
  · rw [State.dock_congr _ _ (State.converterAtChange_docks ..), State.dock_modDock]

theorem State.leave_off (s : State) (d) : (((s.modDock d Dock.leaveDrive).setActivity d .inactive).dock d).Off := by
  rw [setActivity_dock]
  simp only [if_true, State.dock_modDock_self]
  refine ⟨rfl, rfl, ?_, rfl⟩
  unfold Dock.active
  dsimp only
  split
  · rename_i h; simp [h]
  · rfl

theorem State.Steady.modThenInactive (s : State) (d) (f : Dock → Dock) (hl : (s.dock d).Like (f (s.dock d)))
    (hk : (s.dock d).Ok → ∀ x : SenseChannel, x.activity = .inactive → ({ f (s.dock d) with sense := x } : Dock).Ok) :
    s.Steady ((s.modDock d f).setActivity d .inactive) := by
  have h1 : (s.modDock d f).Steady ((s.modDock d f).setActivity d .inactive) := .setActivity _ _ _ (by simp)
  refine ⟨fun x => ?_, fun x ok => ?_, h1.queue, h1.referrals, h1.rearrangement, h1.passes, h1.log, h1.supply, h1.phase⟩
  · refine Dock.Like.trans ?_ (h1.docks x)
    rw [s.dock_modDock]; split
    · rename_i h; subst h; exact hl
    · exact .refl _
  · rw [setActivity_dock]
    split
    · rename_i h; subst h
      rw [State.dock_modDock_self]
      refine hk ok _ ?_
      split
      · assumption
      · rfl
    · rename_i h
      rw [s.dock_modDock_ne _ _ _ h]; exact ok

theorem State.Steady.beginClosing (s : State) (d b) (h : (s.dock d).state = .opened) : s.Steady (s.beginClosing d b) := by
  unfold State.beginClosing
  refine State.Steady.modThenInactive s d _ ?_ fun ok x hx => ?_
  · refine ⟨by simp [Dock.inFlight, h, DockState.inFlight], by simp [h], by simp, rfl, rfl, rfl, ?_, rfl⟩
    cases (s.dock d).order <;> rfl
  · have h1 := ok.1
    have h2 := ok.2
    have h3 := ok.3
    have h4 := ok.4
    simp only [h, Dock.inFlight, DockState.inFlight, DockState.withDrive] at h1 h2 h3 h4
    refine ⟨by simpa [Dock.coilOff] using h1, by simpa [Dock.coilOff] using h2, by simpa [Dock.coilOff, Dock.inFlight, DockState.inFlight] using h3, by simpa [DockState.withDrive] using h4, by simp [Dock.coilOff], by simp [Dock.coilOff], by simp [Dock.active, hx], by simp [DockState.withDrive]⟩

/-! ### The log and the pending return slots -/
theorem State.Steady.setReturnTimer (s : State) (d r) : s.Steady (s.setReturnTimer d r) := .aside s d _
theorem State.Steady.setBikeId (s : State) (d r) : s.Steady (s.setBikeId d r) := .aside s d _

/-- A return record enters a log with room. -/
theorem State.OrdersOk.appendLog {s : State} (h : s.OrdersOk) (hr : s.logSum < 64) (r) : (s.appendLog r).OrdersOk where
  docks := h.docks
  held := h.held
  queued := h.queued
  inQueue := h.inQueue
  queueDocks := h.queueDocks
  referralDocks := h.referralDocks
  referralCount := h.referralCount
  referrals := h.referrals
  answer r hr := by
    have := h.answer r hr
    unfold State.AnswerFits at *; exact this
  passCounts := h.passCounts
  room := by
    have : (s.appendLog r).logSum = s.logSum + 1 := by simp [State.logSum, State.appendLog, State.inFlight]; omega
    omega
  slotsHeld d hd := absurd (h.slotsHeld d hd) (by omega)
  slots := h.slots
  pulling := h.pulling
  starting := h.starting

theorem State.OrdersOk.of {s t : State} (c : s.Steady t) (h : s.OrdersOk) : t.OrdersOk := h.steady c

theorem State.OrdersOk.logReturn {s : State} (h : s.OrdersOk) (hr : s.logSum < 64) (r) : (s.logReturn r).OrdersOk :=
  ((h.appendLog hr r).steady (State.Quiet.latch ..).steady).steady (State.Quiet.testLogHigh _).steady

/-- A pending return slot is filled while there is no room, or emptied. -/
theorem State.OrdersOk.setPending {s : State} (h : s.OrdersOk) (d) (r) (hr : r.isSome → s.logSum = 64) :
    (s.modDock d fun k => { k with pendingReturn := r }).OrdersOk := by
  set t := s.modDock d fun k => { k with pendingReturn := r } with ht
  have hd : ∀ x, ∃ q, t.dock x = { s.dock x with pendingReturn := q } := by
    intro x
    rw [ht, s.dock_modDock]
    split
    · rename_i h; subst h; exact ⟨r, rfl⟩
    · exact ⟨_, rfl⟩
  have hfl : ∀ x, (t.dock x).inFlight = (s.dock x).inFlight := fun x => by obtain ⟨q, hq⟩ := hd x; rw [hq]; rfl
  have hst : ∀ x, (t.dock x).state = (s.dock x).state := fun x => by obtain ⟨q, hq⟩ := hd x; rw [hq]
  have hbp : ∀ x, (t.dock x).boundPass = (s.dock x).boundPass := fun x => by obtain ⟨q, hq⟩ := hd x; rw [hq]
  have hsum : t.logSum = s.logSum := by
    have : t.inFlight = s.inFlight := State.countP_congr _ _ hfl
    simp only [State.logSum, this]; rfl
  refine ⟨?_, ?_, ?_, ?_, h.queueDocks, h.referralDocks, h.referralCount, ?_, ?_, ?_, by rw [hsum]; exact h.room, ?_, h.slots, ?_, ?_⟩
  · intro x; obtain ⟨q, hq⟩ := hd x; rw [hq]; have := h.docks x; exact ⟨this.1, this.2, this.3, this.4, this.5, this.6, this.7, this.8⟩
  · intro x o ho; obtain ⟨q, hq⟩ := hd x; rw [hq] at ho ⊢; have := h.held x o ho; exact ⟨this.1, this.2, this.3, this.4, this.5⟩
  · intro o ho; obtain ⟨q, hq⟩ := hd o.dock; have := h.queued o ho; rw [hst, hq]; exact ⟨⟨this.1.1, this.1.2, this.1.3, this.1.4, this.1.5⟩, this.2⟩
  · intro x hx; rw [hst] at hx; exact h.inQueue x hx
  · intro r hr; have := h.referrals r hr; obtain ⟨q, hq⟩ := hd r.dock; rw [hq]; exact ⟨this.1, this.2, this.3, this.4⟩
  · intro r hr; have := h.answer r hr; revert this; unfold State.AnswerFits; cases r.work <;> simp
    intro z a b c; exact ⟨z, a, by rw [hfl]; exact b, c⟩
  · intro e he
    have := h.passCounts e he
    rw [this]
    exact State.countP_congr _ _ fun x => by rw [hfl, hbp]
  · intro x hx
    rw [hsum]
    by_cases hxd : x = d
    · subst hxd; simp [ht] at hx; exact hr hx
    · rw [ht, s.dock_modDock_ne _ _ _ hxd] at hx; exact h.slotsHeld x hx
  · have : t.pullingCount = s.pullingCount := State.countP_congr _ _ fun x => by rw [hst]
    rw [this]; exact h.pulling
  · intro hp x; rw [hfl]; exact h.starting hp x

theorem State.OrdersOk.handOverReturn {s : State} (h : s.OrdersOk) (d r) : (s.handOverReturn d r).OrdersOk := by
  have h1 := h.room
  unfold State.handOverReturn
  split
  · exact h.logReturn (by assumption) r
  · split
    · exact (h.setPending d (some r) (by intro _; omega)).steady (State.Quiet.latch ..).steady
    · exact h.setPending d (some r) (by intro _; omega)

theorem State.inFlight_le (s : State) : s.inFlight ≤ 16 := by
  rw [State.inFlight, s.countP_docks]
  exact List.countP_le_length.trans (by simp [allDocks])

theorem State.OrdersOk.removeLogHead {s : State} (h : s.OrdersOk) : s.removeLogHead.OrdersOk := by
  have hi := s.inFlight_le
  have hroom := h.room
  unfold State.removeLogHead State.drainReturn
  set u : State := { s with log := s.log.tail } with hu
  have hul : u.log.length = s.log.length - 1 := by simp [hu]
  have huf : u.inFlight = s.inFlight := rfl
  have hus : u.logSum = (s.log.length - 1) + s.inFlight := by simp [State.logSum, hul, huf]
  have huq : ∀ (k : State), (∀ d, ((k.dock d).pendingReturn = none) ∨ k.logSum = 64) → ∀ d, ((k.dock d).pendingReturn).isSome → k.logSum = 64 := by
    intro k hk d hd
    rcases hk d with h | h
    · rw [h] at hd; simp at hd
    · exact h
  have core : (∀ d, (u.dock d).pendingReturn = none) → u.OrdersOk := by
    intro hn
    refine ⟨h.docks, h.held, h.queued, h.inQueue, h.queueDocks, h.referralDocks, h.referralCount, h.referrals, ?_, h.passCounts, ?_, ?_, h.slots, h.pulling, h.starting⟩
    · intro r hr
      have := h.answer r hr
      unfold State.AnswerFits at *; exact this
    · rw [hus]; simp only [State.logSum] at hroom; omega
    · intro d hd; rw [hn d] at hd; simp at hd
  unfold State.firstPendingReturn
  split
  · rename_i d r hd
    obtain ⟨x, hx, hx'⟩ := List.exists_of_findSome?_eq_some hd
    rw [Option.map_eq_some_iff] at hx'
    obtain ⟨r', hr', e⟩ := hx'
    obtain ⟨rfl, rfl⟩ := Prod.mk.inj e
    have h64 : s.logSum = 64 := h.slotsHeld x (by rw [show (s.dock x).pendingReturn = some r' from hr']; rfl)
    simp only [State.logSum] at h64
    -- log is not empty; move: v = s with slot x emptied and log tail appended
    have hs : (s.modDock x fun k => { k with pendingReturn := none }).OrdersOk := h.setPending x none (by simp)
    refine State.OrdersOk.of (State.Quiet.testLogHigh _).steady (State.OrdersOk.of (State.Quiet.latch ..).steady ?_)
    set v := s.modDock x fun k => { k with pendingReturn := none } with hv
    have hw : v.Steady ((u.modDock x fun k => { k with pendingReturn := none }).appendLog r') := by
      refine ⟨fun _ => .refl _, fun _ => id, rfl, .refl _, rfl, .refl _, ?_, id, id⟩
      simp [State.appendLog, hu, hv]
      omega
    exact hs.steady hw
  · rename_i hd
    apply core
    intro d
    have := List.findSome?_eq_none_iff.1 hd d (List.mem_finRange d)
    simpa using this
/-! ### Grants -/
theorem State.OrdersOk.grant {s : State} (h : s.OrdersOk) {o rest} (hq : s.queue = o :: rest) (hp : s.pullingCount < 4) : (s.grant o rest).OrdersOk := by
  obtain ⟨hb, hs⟩ := h.queued o (by simp [hq])
  have ok := h.docks o.dock
  have off := ok.off (by rw [hs]; rfl)
  set t := s.grant o rest with ht
  have hnd : ∀ x ∈ rest, x.dock ≠ o.dock := by
    have := h.queueDocks
    rw [hq, List.map_cons, List.nodup_cons] at this
    intro x hx e
    exact this.1 (by rw [← e]; exact List.mem_map_of_mem hx)
  have hself : t.dock o.dock = ({ s.dock o.dock with state := .pulling }).computePullIn s.latestSupply o := by
    rw [ht]; unfold State.grant; rw [State.dock_modDock_self]; rfl
  have hne : ∀ x, x ≠ o.dock → t.dock x = s.dock x := fun x hx => by
    rw [ht]; unfold State.grant; rw [State.dock_modDock_ne _ _ _ _ hx]; rfl
  have hfl : ∀ x, (t.dock x).inFlight = (s.dock x).inFlight := fun x => by
    by_cases hx : x = o.dock
    · subst hx; rw [hself]; simp [Dock.computePullIn, Dock.inFlight, hs, DockState.inFlight]
    · rw [hne x hx]
  have hbp : ∀ x, (t.dock x).boundPass = (s.dock x).boundPass := fun x => by
    by_cases hx : x = o.dock
    · subst hx; rw [hself]; rfl
    · rw [hne x hx]
  have hpr : ∀ x, (t.dock x).pendingReturn = (s.dock x).pendingReturn := fun x => by
    by_cases hx : x = o.dock
    · subst hx; rw [hself]; rfl
    · rw [hne x hx]
  have hsum : t.logSum = s.logSum := by
    have : t.inFlight = s.inFlight := State.countP_congr _ _ hfl
    simp only [State.logSum, this]; rfl
  refine ⟨?_, ?_, ?_, ?_, ?_, h.referralDocks, h.referralCount, ?_, ?_, ?_, by rw [hsum]; exact h.room, ?_, h.slots, ?_, ?_⟩
  · intro x
    by_cases hx : x = o.dock
    · subst hx
      rw [hself]
      have h1 := ok.1
      have h2 := ok.2
      have h3 := ok.3
      simp only [hs, Dock.inFlight, DockState.inFlight] at h1 h2 h3
      refine ⟨by simpa [Dock.computePullIn] using h1, by simpa [Dock.computePullIn] using h2, by simpa [Dock.computePullIn, Dock.inFlight, DockState.inFlight] using h3, by simp [Dock.computePullIn, DockState.withDrive], by simp [Dock.computePullIn, DockState.driven], ?_, by simp [Dock.computePullIn, DockState.driven], by simp [Dock.computePullIn, DockState.withDrive]⟩
      simp only [Dock.computePullIn]
      exact ⟨ok.6.1, targetDuty_le _ _⟩
    · rw [hne x hx]; exact h.docks x
  · intro x o' ho'
    by_cases hx : x = o.dock
    · subst hx
      rw [hself] at ho' ⊢
      simp only [Dock.computePullIn, Option.mem_def, Option.some.injEq] at ho'
      subst ho'
      exact ⟨rfl, hb.2, hb.3, hb.4, hb.5⟩
    · rw [hne x hx] at ho' ⊢; exact h.held x o' ho'
  · intro x hx
    have hx' : x ∈ rest := hx
    rw [hne _ (hnd x hx')]
    exact h.queued x (by simp [hq, hx'])
  · intro x hx
    by_cases hxo : x = o.dock
    · subst hxo; rw [hself] at hx; simp [Dock.computePullIn] at hx
    · rw [hne x hxo] at hx
      obtain ⟨y, hy, hyd⟩ := h.inQueue x hx
      rw [hq, List.mem_cons] at hy
      rcases hy with rfl | hy
      · exact absurd hyd.symm hxo
      · exact ⟨y, hy, hyd⟩
  · have := h.queueDocks
    rw [hq, List.map_cons, List.nodup_cons] at this
    exact this.2
  · intro r hr
    have b := h.referrals r hr
    have : r.dock ≠ o.dock := by
      intro e
      have := b.resting
      rw [e] at this
      simp [Dock.inFlight, hs, DockState.inFlight] at this
    rw [hne _ this]; exact b
  · intro r hr
    have := h.answer r hr
    revert this; unfold State.AnswerFits; cases r.work <;> simp
    intro z a b c; exact ⟨z, a, by rw [hfl]; exact b, c⟩
  · intro e he
    rw [h.passCounts e he]
    exact State.countP_congr _ _ fun x => by rw [hfl, hbp]
  · intro x hx
    rw [hsum]; rw [hpr] at hx; exact h.slotsHeld x hx
  · have := State.countP_one (s := s) (t := t) o.dock (fun k => k.state == .pulling) hne
    have e1 : ((s.dock o.dock).state == .pulling) = false := by rw [hs]; rfl
    have e2 : ((t.dock o.dock).state == .pulling) = true := by rw [hself]; rfl
    simp only [e1, e2] at this
    show t.pullingCount ≤ 4
    unfold State.pullingCount at *
    simp at this
    omega
  · intro hph x
    rw [hfl]; exact h.starting hph x

theorem State.OrdersOk.grantLoop {l : List Order} {s : State} (h : s.OrdersOk) (hq : s.queue = l) : (State.grantLoop l s).OrdersOk := by
  induction l generalizing s with
  | nil => exact h
  | cons o rest ih =>
    unfold State.grantLoop
    split
    · rename_i hc
      refine ih (h.grant hq ?_) rfl
      have := h.slots
      simp at hc
      omega
    · exact h

theorem State.OrdersOk.evaluateGrants {s : State} (h : s.OrdersOk) : s.evaluateGrants.OrdersOk := h.grantLoop rfl

/-! ### Ends of orders -/
theorem State.OrdersOk.released {s t : State} (h : s.OrdersOk) (d : DockId) (o : Order) (hb : o.Bound d (s.dock d)) (off : (s.dock d).Off)
    (hdock : Rests { s.dock d with boundPass := none, boundSerial := none, origin := none, order := none } (t.dock d))
    (hne : ∀ x, x ≠ d → t.dock x = s.dock x) (hq : t.queue = s.queue.filter fun o => o.dock != d)
    (hp : ∃ g : PassEntry → PassEntry, t.passes = s.passes.map g ∧ ∀ e, (g e).id = e.id ∧ (g e).inFlight = e.inFlight - if o.passToSettle = some e.id then 1 else 0)
    (hlog : t.log.length = s.log.length + 1) (referrals : t.referrals = s.referrals) (rearrangement : t.rearrangement = s.rearrangement)
    (supply : t.supply = s.supply) (phase : t.phase = s.phase) : t.OrdersOk := by
  have ok := h.docks d
  have hfd : (s.dock d).inFlight = true := by
    have := ok.3.1 (by rw [hb.2]; rfl); exact this
  have hfl : ∀ x, (t.dock x).inFlight = true → (s.dock x).inFlight = true := fun x hx => by
    by_cases hxd : x = d
    · subst hxd; exact hfd
    · rw [← hne x hxd]; exact hx
  have hsum : t.logSum = s.logSum := by
    have := State.countP_one (s := s) (t := t) d Dock.inFlight hne
    rw [hfd, hdock.state] at this
    simp only [State.logSum, State.inFlight, hlog]
    simp at this
    omega
  refine ⟨?_, ?_, ?_, ?_, ?_, ?_, ?_, ?_, ?_, ?_, by rw [hsum]; exact h.room, ?_, by rw [supply]; exact h.slots, ?_, ?_⟩
  · intro x
    by_cases hx : x = d
    · subst hx; exact hdock.ok rfl rfl ⟨off.1, off.2, off.3, off.4⟩
    · rw [hne x hx]; exact h.docks x
  · intro x o' ho'
    by_cases hx : x = d
    · subst hx; rw [hdock.order] at ho'; simp at ho'
    · rw [hne x hx] at ho' ⊢; exact h.held x o' ho'
  · intro x hx
    rw [hq, List.mem_filter] at hx
    have : x.dock ≠ d := by simpa using hx.2
    rw [hne _ this]; exact h.queued x hx.1
  · intro x hx
    by_cases hxd : x = d
    · subst hxd
      have := hdock.state
      simp [Dock.inFlight, hx, DockState.inFlight] at this
    · rw [hne x hxd] at hx
      obtain ⟨y, hy, hyd⟩ := h.inQueue x hx
      exact ⟨y, by rw [hq, List.mem_filter]; exact ⟨hy, by simpa [hyd] using hxd⟩, hyd⟩
  · rw [hq]
    exact h.queueDocks.sublist ((List.filter_sublist).map _)
  · rw [referrals]; exact h.referralDocks
  · rw [referrals]; exact h.referralCount
  · intro r hr
    rw [referrals] at hr
    have b := h.referrals r hr
    have : r.dock ≠ d := by
      intro e
      have := b.resting
      rw [e, hfd] at this
      simp at this
    rw [hne _ this]; exact b
  · intro r hr
    rw [rearrangement] at hr
    have := h.answer r hr
    revert this; unfold State.AnswerFits; cases r.work <;> simp
    intro z a b c
    refine ⟨by rw [phase]; exact z, a, ?_, by rw [referrals]; exact c⟩
    by_contra hc
    rw [hfl _ (by simpa using hc)] at b
    simp at b
  · intro e he
    obtain ⟨g, hg, hk⟩ := hp
    rw [hg] at he
    obtain ⟨x, hx, rfl⟩ := List.mem_map.1 he
    rw [(hk x).1, (hk x).2, h.passCounts x hx]
    have := State.countP_one (s := s) (t := t) d (fun k => k.inFlight && k.boundPass == some x.id) hne
    rw [hfd, hdock.state, hb.3] at this
    have hps : o.passToSettle = some x.id ↔ o.passId = some x.id := by
      unfold Order.passToSettle
      split
      · rename_i ho
        rw [hb.5.1 ho]
      · rfl
    simp only [State.boundInFlight]
    by_cases hxp : o.passId = some x.id
    · simp [hxp] at this
      rw [if_pos (hps.2 hxp)]
      omega
    · have e0 : (o.passId == some x.id) = false := by simpa using hxp
      simp [e0] at this
      rw [if_neg (fun e => hxp (hps.1 e))]
      omega
  · intro x hx
    rw [hsum]
    by_cases hxd : x = d
    · subst hxd; rw [hdock.pendingReturn] at hx; exact h.slotsHeld x hx
    · rw [hne x hxd] at hx; exact h.slotsHeld x hx
  · refine le_trans ?_ h.pulling
    have := State.countP_one (s := s) (t := t) d (fun k => k.state == .pulling) hne
    have e2 : ((t.dock d).state == .pulling) = false := by
      have := hdock.state
      unfold Dock.inFlight at this
      revert this; cases (t.dock d).state <;> simp [DockState.inFlight]
    simp only [e2] at this
    unfold State.pullingCount
    simp at this
    omega
  · intro hph x
    rw [phase] at hph
    have := h.starting hph d
    rw [hfd] at this; simp at this

/-- A refund changes entries in place, their ids and in-flight counts kept, and its NOTICE is the rest of it (R109). -/
theorem State.refund_passes (s : State) (o : Order) :
    ∃ f : PassEntry → PassEntry, (∀ x, (f x).id = x.id ∧ (f x).inFlight = x.inFlight) ∧
      State.Quiet { s with passes := s.passes.map f } (s.refund o) := by
  unfold State.refund
  split
  · rename_i id _
    refine ⟨fun x => if x.id = id then x.refund else x, fun x => ?_, .sendNotice ..⟩
    by_cases hx : x.id = id <;> simp [hx, PassEntry.refund]
  · exact ⟨id, fun _ => ⟨rfl, rfl⟩, by rw [List.map_id]; exact .refl _⟩

theorem State.OrdersOk.endSettled {s : State} (h : s.OrdersOk) (d : DockId) (o : Order) (hb : o.Bound d (s.dock d)) (off : (s.dock d).Off) (e) :
    (s.endSettled o e).OrdersOk := by
  have hd : o.dock = d := hb.1
  unfold State.endSettled
  dsimp only
  set rf := if s.refundApplies o e.kind = true then (s.lowerInFlight o).refund o else s.lowerInFlight o with hrf
  have hlow : ∃ g : PassEntry → PassEntry, s.lowerInFlight o = { s with passes := s.passes.map g } ∧
      ∀ e, (g e).id = e.id ∧ (g e).inFlight = e.inFlight - if o.passToSettle = some e.id then 1 else 0 := by
    unfold State.lowerInFlight
    split
    · rename_i id hid
      refine ⟨_, rfl, fun x => ?_⟩
      by_cases hx : x.id = id
      · simp [hx, hid]
      · simp [hx, hid, Ne.symm hx]
    · rename_i hid
      exact ⟨id, by simp, by simp [hid]⟩
  obtain ⟨g, hg, hk⟩ := hlow
  have hrf' : ∃ (u : State) (f : PassEntry → PassEntry), u = { s with passes := s.passes.map f } ∧ u.Quiet rf ∧
      ∀ e, (f e).id = e.id ∧ (f e).inFlight = e.inFlight - if o.passToSettle = some e.id then 1 else 0 := by
    by_cases due : s.refundApplies o e.kind = true
    · obtain ⟨f, same, told⟩ := (s.lowerInFlight o).refund_passes o
      refine ⟨_, f ∘ g, rfl, ?_, fun x => ?_⟩
      · rw [hrf, if_pos due, ← List.map_map]
        rw [hg] at told ⊢
        exact told
      · rw [Function.comp_apply, (same _).1, (same _).2]; exact hk x
    · rw [hrf, if_neg due, hg]
      exact ⟨{ s with passes := s.passes.map g }, g, rfl, State.Quiet.refl _, hk⟩
  obtain ⟨u, f, hu, hq, hf⟩ := hrf'
  set v := (rf.logOrder (rf.orderRecord o e (s.refundApplies o e.kind))).resultFailed o.dock e with hv
  have hqv : (rf.appendLog (rf.orderRecord o e (s.refundApplies o e.kind))).Quiet v :=
    (State.Quiet.testLogHigh _).trans (.resultFailed ..)
  have hdock : ∀ x, v.dock x = s.dock x := fun x => by
    rw [hqv.dock]
    show rf.dock x = _
    rw [hq.dock, hu]; rfl
  refine h.released d o hb off ?_ ?_ ?_ ⟨f, ?_, hf⟩ ?_ ?_ ?_ ?_ ?_
  · rw [hd]
    unfold State.releaseDock
    rw [State.dock_modDock_self]
    show Rests _ (({ v.dock d with boundPass := none, boundSerial := none, origin := none, order := none } : Dock).settle e.named)
    rw [hdock]
    exact .settle ..
  · intro x hx
    rw [hd]
    unfold State.releaseDock
    rw [State.dock_modDock_ne _ _ _ _ hx]
    exact hdock x
  · show v.queue.filter _ = _
    rw [hqv.queue, hd]
    show rf.queue.filter _ = _
    rw [hq.queue, hu]
  · show v.passes = _
    rw [hqv.passes]
    show rf.passes = _
    rw [hq.passes, hu]
  · show v.log.length = _
    rw [hqv.log]
    show (rf.log ++ [_]).length = _
    rw [hq.log, hu]
    simp
  · show v.referrals = _
    rw [hqv.referrals]
    show rf.referrals = _
    rw [hq.referrals, hu]
  · show v.rearrangement = _
    rw [hqv.rearrangement]
    show rf.rearrangement = _
    rw [hq.rearrangement, hu]
  · show v.supply = _
    rw [hqv.supply]
    show rf.supply = _
    rw [hq.supply, hu]
  · show v.phase = _
    rw [hqv.phase]
    show rf.phase = _
    rw [hq.phase, hu]

theorem State.OrdersOk.endOrder {s : State} (h : s.OrdersOk) (d) (off : (s.dock d).Off) (e) : (s.endOrder d e).OrdersOk := by
  unfold State.endOrder
  split
  · rename_i o ho
    have hb : o.Bound d (s.dock d) := by
      unfold State.orderAt at ho
      split at ho
      · rename_i o' ho'
        simp at ho; subst ho
        exact h.held d o' ho'
      · have h1 := List.mem_of_find?_eq_some ho
        have h2 := List.find?_some ho
        simp at h2
        have := (h.queued o h1).1
        rw [h2] at this; exact this
    exact h.endSettled d { o with dock := d } ⟨rfl, hb.2, hb.3, hb.4, hb.5⟩ off _
  · exact h

theorem State.OrdersOk.driveEnd {s : State} (h : s.OrdersOk) (d ev c e) : (s.driveEnd d ev c e).OrdersOk := by
  unfold State.driveEnd
  dsimp only
  set off := (s.modDock d Dock.leaveDrive).setActivity d .inactive with hoff
  have h1 : off.OrdersOk := h.steady (.leave s d)
  have hq : off.Quiet (if c = true then (off.latchOption ev).result d .closed 0 else off.latchOption ev) := by
    split
    · exact (State.Quiet.latchOption ..).trans (.result ..)
    · exact .latchOption ..
  have h2 := (h1.steady hq.steady).endOrder d (by rw [hq.dock]; exact s.leave_off d) e
  split
  · exact h2.evaluateGrants
  · exact h2
end Sys2Proof.Machine
end

