-- ==== Sys2Proof/Laws/OrdersKept.lean ====
section
/-! SUPPORT. Docks, orders, referrals and the log stay in agreement (State.OrdersOk): what the effects of commands keep,
one lemma for each effect. -/

namespace Sys2Proof.Machine

/-! ### Supply -/
theorem effectiveSlots_le (l : SupplyLevel) {n : Nat} (h : 1 ≤ n) : effectiveSlots l n ≤ n := by
  unfold effectiveSlots; split <;> omega

theorem State.OrdersOk.evaluateLevel {s : State} (h : s.OrdersOk) (vs) : (s.evaluateLevel vs).OrdersOk := by
  unfold State.evaluateLevel
  dsimp only
  have hf := h.slots
  set moved : State := { s with supply := ({ s.supply with level := s.supply.nextLevel vs }).recount } with hm
  have h1 : moved.OrdersOk := by
    refine h.steady ⟨fun _ => .refl _, fun _ => id, rfl, .refl _, rfl, .refl _, rfl, fun _ => ?_, id⟩
    exact ⟨hf.1, hf.2.1, effectiveSlots_le _ hf.1⟩
  have h2 := h1.steady (State.Quiet.latchLevelMove moved s.supply.level (s.supply.nextLevel vs)).steady
  split
  · exact h2
  · exact h2.evaluateGrants

theorem State.Steady.recomputeDuties (s : State) (vs) (h : s.OrdersOk) : s.Steady (s.recomputeDuties vs) := by
  refine .mapDocks s _ (fun d _ => ?_) (fun d ok => ?_) h.docks
  · unfold Dock.recompute
    cases hk : (s.dock d).state <;> cases hw : (s.dock d).order <;> try exact .refl _
    · exact { Dock.Like.refl (s.dock d) with order := by rw [hw]; rfl }
    · exact { Dock.Like.refl (s.dock d) with }
  · unfold Dock.recompute
    split
    · rename_i o hs ho
      refine ⟨ok.1, ok.2, ok.3, ?_, ?_, ⟨ok.6.1, targetDuty_le _ _⟩, ok.7, ok.8⟩
      · simp [Dock.computePullIn, hs, DockState.withDrive]
      · simp [Dock.computePullIn, hs, DockState.driven]
    · rename_i o hs ho
      refine ⟨ok.1, ok.2, ok.3, ok.4, ?_, ⟨ok.6.1, targetDuty_le _ _⟩, ok.7, ok.8⟩
      · simp [Dock.computeHold, hs, DockState.driven]
    · exact ok

/-! ### Referrals -/
theorem State.OrdersOk.unbindWith {s : State} (h : s.OrdersOk) (d : DockId) (hd : (s.dock d).inFlight = false) (p : Referral → Bool)
    (hp : ∀ r ∈ s.referrals, p r = true → r.dock ≠ d) :
    ({ s with referrals := s.referrals.filter p }.modDock d Dock.unbind).OrdersOk := by
  set t := ({ s with referrals := s.referrals.filter p } : State).modDock d Dock.unbind with ht
  have hself : t.dock d = (s.dock d).unbind := by rw [ht, State.dock_modDock_self]; rfl
  have hne : ∀ x, x ≠ d → t.dock x = s.dock x := fun x hx => by rw [ht, State.dock_modDock_ne _ _ _ _ hx]; rfl
  have hfl : ∀ x, (t.dock x).inFlight = (s.dock x).inFlight := fun x => by
    by_cases hx : x = d
    · subst hx; rw [hself]; rfl
    · rw [hne x hx]
  have hst : ∀ x, (t.dock x).state = (s.dock x).state := fun x => by
    by_cases hx : x = d
    · subst hx; rw [hself]; rfl
    · rw [hne x hx]
  have hsum : t.logSum = s.logSum := by
    have : t.inFlight = s.inFlight := State.countP_congr _ _ hfl
    simp only [State.logSum, this]; rfl
  have ok := h.docks d
  have hrest := ok.rest hd
  refine ⟨?_, ?_, ?_, ?_, h.queueDocks, ?_, ?_, ?_, ?_, ?_, by rw [hsum]; exact h.room, ?_, h.slots, ?_, ?_⟩
  · intro x
    by_cases hx : x = d
    · subst hx; rw [hself]; exact ⟨ok.1, ok.2, ok.3, ok.4, ok.5, ok.6, ok.7, ok.8⟩
    · rw [hne x hx]; exact h.docks x
  · intro x o ho
    by_cases hx : x = d
    · subst hx; rw [hself] at ho; simp [Dock.unbind, hrest.1] at ho
    · rw [hne x hx] at ho ⊢; exact h.held x o ho
  · intro o ho
    have := h.queued o ho
    have hx : o.dock ≠ d := by
      intro e; rw [e] at this; have := this.2; simp [Dock.inFlight, this, DockState.inFlight] at hd
    rw [hne _ hx]; exact this
  · intro x hx; rw [hst] at hx; exact h.inQueue x hx
  · exact h.referralDocks.sublist ((List.filter_sublist).map _)
  · exact (List.length_filter_le _ _).trans h.referralCount
  · intro r hr
    obtain ⟨hr1, hr2⟩ := List.mem_filter.1 hr
    rw [hne _ (hp r hr1 hr2)]
    exact h.referrals r hr1
  · intro r hr
    have := h.answer r hr
    revert this; unfold State.AnswerFits; cases r.work <;> simp
    intro z a b c
    refine ⟨z, a, by rw [hfl]; exact b, fun r hr => c r (List.mem_filter.1 hr).1⟩
  · intro e he
    rw [h.passCounts e he]
    refine State.countP_congr _ _ fun x => ?_
    by_cases hx : x = d
    · subst hx; rw [hfl, hd]; rfl
    · rw [hne x hx]
  · intro x hx
    rw [hsum]
    by_cases hxd : x = d
    · subst hxd; rw [hself] at hx; exact h.slotsHeld x hx
    · rw [hne x hxd] at hx; exact h.slotsHeld x hx
  · have : t.pullingCount = s.pullingCount := State.countP_congr _ _ fun x => by rw [hst]
    rw [this]; exact h.pulling
  · intro hph x; rw [hfl]; exact h.starting hph x

/-- A referral may end when its dock is at rest and no other referral is on it. -/
theorem State.OrdersOk.endReferral' {s : State} (h : s.OrdersOk) (r : Referral) (hd : (s.dock r.dock).inFlight = false) (hp : ∀ x ∈ s.referrals, x.number ≠ r.number → x.dock ≠ r.dock)
    (v n) : (s.endReferral r v n).OrdersOk := by
  unfold State.endReferral
  refine State.OrdersOk.of (State.Quiet.verdict ..).steady ?_
  exact h.unbindWith r.dock hd _ fun x hx hn => hp x hx (by simpa using hn)

theorem nodup_map_unique {α β} {f : α → β} {l : List α} (h : (l.map f).Nodup) {a b} (ha : a ∈ l) (hb : b ∈ l) (e : f a = f b) : a = b :=
  List.inj_on_of_nodup_map h ha hb e

theorem State.OrdersOk.endReferral {s : State} (h : s.OrdersOk) {r : Referral} (hr : r ∈ s.referrals) (v n) : (s.endReferral r v n).OrdersOk := by
  refine h.endReferral' r (h.referrals r hr).resting ?_ v n
  intro x hx hn e
  exact hn (by rw [nodup_map_unique h.referralDocks hx hr e])

theorem State.OrdersOk.endReferralAt {s : State} (h : s.OrdersOk) (d) : (s.endReferralAt d).OrdersOk := by
  unfold State.endReferralAt
  split
  · rename_i r hr
    exact h.endReferral (List.mem_of_find?_eq_some hr) _ _
  · exact h

/-- The end of a referral leaves the docks as they were but for their bindings. -/
theorem State.endReferralAt_docks (s : State) (d) : ∀ x, ((s.endReferralAt d).dock x).state = (s.dock x).state ∧ ((s.endReferralAt d).dock x).fault = (s.dock x).fault := by
  intro x
  unfold State.endReferralAt
  split
  · unfold State.endReferral
    rw [(State.Quiet.verdict ..).dock, State.dock_modDock]
    split
    · rename_i h; subst h; exact ⟨rfl, rfl⟩
    · exact ⟨rfl, rfl⟩
  · exact ⟨rfl, rfl⟩

theorem State.OrdersOk.endReferralAt_gone {s : State} (h : s.OrdersOk) (d) : ∀ r ∈ (s.endReferralAt d).referrals, r.dock ≠ d := by
  unfold State.endReferralAt
  split
  · rename_i r hr
    have h1 := List.mem_of_find?_eq_some hr
    have h2 := List.find?_some hr
    simp at h2
    unfold State.endReferral
    rw [(State.Quiet.verdict ..).referrals]
    intro x hx
    obtain ⟨hx1, hx2⟩ := List.mem_filter.1 hx
    intro e
    have := nodup_map_unique h.referralDocks hx1 h1 (e.trans h2.symm)
    rw [this] at hx2
    simp at hx2
  · rename_i hn
    simpa [State.referralAt] using hn

theorem State.endReferralAt_logSum (s : State) (d) : (s.endReferralAt d).logSum = s.logSum := by
  have : (s.endReferralAt d).inFlight = s.inFlight := State.countP_congr _ _ fun x => by
    simp only [Dock.inFlight, (s.endReferralAt_docks d x).1]
  have h2 : (s.endReferralAt d).log = s.log := by
    unfold State.endReferralAt
    split
    · unfold State.endReferral; rw [(State.Quiet.verdict ..).log]; rfl
    · rfl
  simp only [State.logSum, this, h2]

theorem State.endReferralAt_same (s : State) (d) : (s.endReferralAt d).phase = s.phase ∧ (s.endReferralAt d).rearrangement = s.rearrangement := by
    unfold State.endReferralAt
    split
    · unfold State.endReferral; rw [(State.Quiet.verdict ..).phase, (State.Quiet.verdict ..).rearrangement]; exact ⟨rfl, rfl⟩
    · exact ⟨rfl, rfl⟩

/-! ### Order creation -/
theorem State.OrdersOk.join {s : State} (h : s.OrdersOk) (d : DockId) (origin : Origin) (passId serial : Option Nat) (ps : List PassEntry)
    (hps : ∀ e ∈ ps, e.inFlight = s.boundInFlight e.id + if passId = some e.id then 1 else 0)
    (hd : (s.dock d).inFlight = false) (hr : ∀ r ∈ s.referrals, r.dock ≠ d) (hroom : s.logSum ≤ 63) (hrear : s.rearrangement = none)
    (hst : origin = .staff ↔ passId = none) (hph : s.phase ≠ .starting) :
    (({ s with passes := ps } : State).queueOrder d origin passId serial).OrdersOk := by
  unfold State.queueOrder
  apply State.OrdersOk.evaluateGrants
  generalize hso : State.newOrder { s with passes := ps } d origin passId serial = o
  have hod : o.dock = d ∧ o.origin = origin ∧ o.passId = passId ∧ o.serial = serial := by subst hso; exact ⟨rfl, rfl, rfl, rfl⟩
  obtain ⟨ho1, ho2, ho3, ho4⟩ := hod
  generalize hf : (fun k : Dock => { k with state := .queued, fault := none, reservation := none, boundPass := passId, boundSerial := serial, origin := some origin }) = f
  set t := State.modDock { s with passes := ps, queue := s.queue ++ [o] } d f with ht
  have hself : t.dock d = f (s.dock d) := by rw [ht, State.dock_modDock_self]; rfl
  have hne : ∀ x, x ≠ d → t.dock x = s.dock x := fun x hx => by rw [ht, State.dock_modDock_ne _ _ _ _ hx]; rfl
  have hfd : (t.dock d).inFlight = true := by rw [hself]; subst hf; rfl
  have hsum : t.logSum = s.logSum + 1 := by
    have := State.countP_one (s := s) (t := t) d Dock.inFlight hne
    rw [hfd, hd] at this
    have hl : t.log = s.log := rfl
    simp only [State.logSum, State.inFlight, hl]
    simp at this
    omega
  have ok := h.docks d
  have hrest := ok.rest hd
  have hnq : ∀ x ∈ s.queue, x.dock ≠ d := by
    intro x hx e
    have := (h.queued x hx).2
    rw [e] at this; simp [Dock.inFlight, this, DockState.inFlight] at hd
  have hbd : o.Bound d (t.dock d) := by
    rw [hself]; subst hf
    have sameOrigin : some origin = some o.origin := congrArg some ho2.symm
    rw [← ho2, ← ho3] at hst
    exact ⟨ho1, sameOrigin, ho3.symm, ho4.symm, hst⟩
  refine ⟨?_, ?_, ?_, ?_, ?_, h.referralDocks, h.referralCount, ?_, ?_, ?_, by rw [hsum]; omega, ?_, h.slots, ?_, ?_⟩
  · intro x
    by_cases hx : x = d
    · subst hx; rw [hself]; subst hf
      refine ⟨by simp, by simp, by simp [Dock.inFlight, DockState.inFlight], by simp [hrest.1, DockState.withDrive], ?_, ok.6, ?_, ?_⟩
      · intro _; exact ⟨hrest.2.2.1, hrest.2.2.2⟩
      · have := hrest.2.2.3; unfold Dock.active at *; simp only; rw [this]; simp
      · simp [hrest.2.2.4]
    · rw [hne x hx]; exact h.docks x
  · intro x o' ho'
    by_cases hx : x = d
    · subst hx; rw [hself] at ho'; subst hf; simp [hrest.1] at ho'
    · rw [hne x hx] at ho' ⊢; exact h.held x o' ho'
  · intro x hx
    have hx' : x ∈ s.queue ++ [o] := hx
    rcases List.mem_append.1 hx' with hx | hx
    · rw [hne _ (hnq x hx)]; exact h.queued x hx
    · rw [List.mem_singleton] at hx; subst hx
      rw [ho1]; exact ⟨hbd, by rw [hself]; subst hf; rfl⟩
  · intro x hx
    by_cases hxd : x = d
    · exact ⟨o, by simp [ht], by rw [ho1, hxd]⟩
    · rw [hne x hxd] at hx
      obtain ⟨y, hy, hyd⟩ := h.inQueue x hx
      exact ⟨y, by simp [ht, hy], hyd⟩
  · show ((s.queue ++ [o]).map (·.dock)).Nodup
    rw [List.map_append, List.nodup_append]
    refine ⟨h.queueDocks, by simp, ?_⟩
    intro a ha b hb
    simp at hb
    obtain ⟨x, hx, rfl⟩ := List.mem_map.1 ha
    rw [hb, ho1]; exact hnq x hx
  · intro r hr'
    rw [hne _ (hr r hr')]; exact h.referrals r hr'
  · intro r hr'
    have : s.rearrangement = some r := hr'
    rw [hrear] at this; simp at this
  · intro e he
    have he' : e ∈ ps := he
    rw [hps e he']
    have := State.countP_one (s := s) (t := t) d (fun k => k.inFlight && k.boundPass == some e.id) hne
    have hbp : (t.dock d).boundPass = passId := by rw [hself]; subst hf; rfl
    simp only [hfd, hd, hbp] at this
    simp only [State.boundInFlight]
    by_cases hxp : passId = some e.id
    · simp [hxp] at this ⊢; omega
    · have e0 : (passId == some e.id) = false := by simpa using hxp
      simp [e0] at this
      rw [if_neg hxp]; omega
  · intro x hx
    have : (t.dock x).pendingReturn = (s.dock x).pendingReturn := by
      by_cases hxd : x = d
      · subst hxd; rw [hself]; subst hf; rfl
      · rw [hne x hxd]
    rw [this] at hx
    have := h.slotsHeld x hx
    omega
  · refine le_trans ?_ h.pulling
    have := State.countP_one (s := s) (t := t) d (fun k => k.state == .pulling) hne
    have e2 : ((t.dock d).state == .pulling) = false := by rw [hself]; subst hf; rfl
    simp only [e2] at this
    unfold State.pullingCount
    simp at this
    omega
  · intro hp; exact absurd hp hph

theorem State.OrdersOk.admitted {s : State} (h : s.OrdersOk) (d : DockId) (tk : Token) (origin : Origin) (e : PassEntry) (reader : Address)
    (hd : (s.dock d).inFlight = false) (hr : ∀ r ∈ s.referrals, r.dock ≠ d) (hroom : s.logSum ≤ 63) (hrear : s.rearrangement = none)
    (hst : origin ≠ .staff) (hph : s.phase ≠ .starting) : (s.admitted d tk origin e reader).OrdersOk := by
  unfold State.admitted
  refine State.OrdersOk.of (State.Quiet.sendNotice ..).steady (State.OrdersOk.of (State.Quiet.verdict ..).steady ?_)
  refine h.join d origin (some tk.passId) (some tk.serial) _ ?_ hd hr hroom hrear (by simp [hst]) hph
  intro x hx
  obtain ⟨y, hy, rfl⟩ := List.mem_map.1 hx
  have := h.passCounts y hy
  by_cases hi : y.id = tk.passId
  · simp only [hi, if_true, PassEntry.consume]
    rw [← hi, this]
  · simp only [hi, if_false]
    rw [if_neg (by simpa using Ne.symm hi)]
    exact this

/-! ### Referral creation -/
theorem State.OrdersOk.createReferral {s : State} (h : s.OrdersOk) (d : DockId) (p : List Byte) (reader : Address)
    (htok : dockOf (tokenOf p).dock = some d) (hd : (s.dock d).inFlight = false) (hr : ∀ r ∈ s.referrals, r.dock ≠ d) (hc : s.referrals.length < 4)
    (hrear : s.rearrangement = none) : (s.createReferral d p reader).OrdersOk := by
  unfold State.createReferral
  dsimp only
  refine State.OrdersOk.of (State.Quiet.verdict ..).steady (State.OrdersOk.of (State.Quiet.offer ..).steady ?_)
  generalize hro : (⟨s.referralCount, d, p, s.uptime, .awaitingSend⟩ : Referral) = r
  have hrd : r.dock = d ∧ r.token = p := by subst hro; exact ⟨rfl, rfl⟩
  generalize hf : (fun k : Dock => { k with boundPass := some (tokenOf p).passId, boundSerial := some (tokenOf p).serial }) = f
  set t := State.modDock { s with referrals := s.referrals ++ [r], referralCount := s.referralCount + 1 } d f with ht
  have hself : t.dock d = f (s.dock d) := by rw [ht, State.dock_modDock_self]; rfl
  have hne : ∀ x, x ≠ d → t.dock x = s.dock x := fun x hx => by rw [ht, State.dock_modDock_ne _ _ _ _ hx]; rfl
  have hst : ∀ x, (t.dock x).state = (s.dock x).state := fun x => by
    by_cases hx : x = d
    · subst hx; rw [hself]; subst hf; rfl
    · rw [hne x hx]
  have hfl : ∀ x, (t.dock x).inFlight = (s.dock x).inFlight := fun x => by simp only [Dock.inFlight, hst]
  have hsum : t.logSum = s.logSum := by
    have : t.inFlight = s.inFlight := State.countP_congr _ _ hfl
    simp only [State.logSum, this]; rfl
  have ok := h.docks d
  have hrest := ok.rest hd
  refine ⟨?_, ?_, ?_, ?_, h.queueDocks, ?_, ?_, ?_, ?_, ?_, by rw [hsum]; exact h.room, ?_, h.slots, ?_, ?_⟩
  · intro x
    by_cases hx : x = d
    · subst hx; rw [hself]; subst hf; exact ⟨ok.1, ok.2, ok.3, ok.4, ok.5, ok.6, ok.7, ok.8⟩
    · rw [hne x hx]; exact h.docks x
  · intro x o ho
    by_cases hx : x = d
    · subst hx; rw [hself] at ho; subst hf; simp [hrest.1] at ho
    · rw [hne x hx] at ho ⊢; exact h.held x o ho
  · intro o ho
    have := h.queued o ho
    have hx : o.dock ≠ d := by
      intro e; rw [e] at this; have := this.2; simp [Dock.inFlight, this, DockState.inFlight] at hd
    rw [hne _ hx]; exact this
  · intro x hx; rw [hst] at hx; exact h.inQueue x hx
  · show ((s.referrals ++ [r]).map (·.dock)).Nodup
    rw [List.map_append, List.nodup_append]
    refine ⟨h.referralDocks, by simp, ?_⟩
    intro a ha b hb
    simp at hb
    obtain ⟨x, hx, rfl⟩ := List.mem_map.1 ha
    rw [hb, hrd.1]; exact hr x hx
  · show (s.referrals ++ [r]).length ≤ 4
    simp; omega
  · intro x hx
    have hx' : x ∈ s.referrals ++ [r] := hx
    rcases List.mem_append.1 hx' with hx | hx
    · rw [hne _ (hr x hx)]; exact h.referrals x hx
    · rw [List.mem_singleton] at hx; subst hx
      rw [hrd.1]
      exact ⟨by rw [hrd.1, hrd.2]; exact htok, by rw [hfl]; exact hd, by rw [hself, hrd.2]; subst hf; rfl, by rw [hself, hrd.2]; subst hf; rfl⟩
  · intro r hr'
    have : s.rearrangement = some r := hr'
    rw [hrear] at this; simp at this
  · intro e he
    rw [h.passCounts e he]
    refine State.countP_congr _ _ fun x => ?_
    by_cases hx : x = d
    · subst hx; rw [hfl, hd]; rfl
    · rw [hne x hx]
  · intro x hx
    rw [hsum]
    by_cases hxd : x = d
    · subst hxd; rw [hself] at hx; subst hf; exact h.slotsHeld x hx
    · rw [hne x hxd] at hx; exact h.slotsHeld x hx
  · have : t.pullingCount = s.pullingCount := State.countP_congr _ _ fun x => by rw [hst]
    rw [this]; exact h.pulling
  · intro hph x; rw [hfl]; exact h.starting hph x

/-! ### Decisions -/
/-- Rows 6 to 8 let only the dock they test pass (R58). -/
theorem Dock.reservationTest_pass {k : Dock} {x d : DockId} {tk : Token} (h : k.reservationTest x tk = .pass d) :
    x = d := by
  unfold Dock.reservationTest at h
  grind

/-- The rows let a dock pass that rests PARKED or RESERVED with no referral (R58). -/
theorem State.dockRows_pass {s : State} {x d : DockId} {tk : Token} (h : s.dockRows x tk = .pass d) :
    x = d ∧ (s.dock x).inFlight = false ∧ s.referralAt x = none := by
  unfold State.dockRows at h
  unfold Dock.inFlight
  have row (c : Bool) (v w : Verdict) : (if c = true then DockTest.again v else .refuse w) ≠ .pass d := by
    cases c <;> nofun
  have parked (hp : (if (s.referralAt x).isSome = true then
      if (s.dock x).bindingMatches tk = true then DockTest.again .pending else .refuse .dockBusy
      else (s.dock x).reservationTest x tk) = .pass d) : x = d ∧ s.referralAt x = none := by
    cases hr : s.referralAt x
    · rw [hr] at hp; exact ⟨Dock.reservationTest_pass hp, rfl⟩
    · rw [hr] at hp; exact (row _ _ _ hp).elim
  cases hk : (s.dock x).state <;> rw [hk] at h
  case parked | reserved => exact ⟨(parked h).1, rfl, (parked h).2⟩
  case queued | pulling | opened | closing => exact (row _ _ _ h).elim
  all_goals cases h

theorem dockTest_pass {s : State} {tk : Token} {d} (h : s.dockTest tk = .pass d) :
    dockOf tk.dock = some d ∧ (s.dock d).inFlight = false ∧ (∀ r ∈ s.referrals, r.dock ≠ d) := by
  unfold State.dockTest at h
  cases hx : dockOf tk.dock with
  | none => rw [hx] at h; cases h
  | some x =>
    rw [hx] at h
    replace h : (if (s.dock x).configured = true then s.dockRows x tk else .refuse .dockService) = .pass d := h
    split at h
    · obtain ⟨rfl, h2, h3⟩ := State.dockRows_pass h
      exact ⟨rfl, h2, by simpa [State.referralAt] using h3⟩
    · cases h

theorem firstRefusal_none {l : List (Option Verdict)} (h : firstRefusal l = none) : ∀ x ∈ l, x = none := by
  induction l with
  | nil => simp
  | cons a l ih =>
    cases a with
    | some v => simp [firstRefusal] at h
    | none => simp [firstRefusal] at h; simpa using ih h

theorem roomTest_none {s : State} (h : s.roomTest = none) : s.logSum ≤ 63 := by
  unfold State.roomTest at h
  split at h
  · rename_i hr; simpa [State.roomForOrder] using hr
  · simp at h

theorem State.OrdersOk.decideTap {s : State} (h : s.OrdersOk) (p r) (hrear : s.rearrangement = none) (hph : s.phase ≠ .starting) : (s.decideTap p r).OrdersOk := by
  have hv : ∀ a b c d e f, (s.verdict a b c d e f).OrdersOk := fun a b c d e f => h.steady (State.Quiet.verdict ..).steady
  unfold State.decideTap
  dsimp only
  split
  · exact hv ..
  · split
    · exact hv ..
    · exact hv ..
    · rename_i d hd
      obtain ⟨h1, h2, h3⟩ := dockTest_pass hd
      unfold State.chainFromRoom
      dsimp only
      split
      · exact hv ..
      · rename_i hn
        have hroom := roomTest_none (firstRefusal_none hn _ (.head _))
        split
        · unfold State.referOrRefuse
          dsimp only
          split
          · exact hv ..
          · split
            · exact hv ..
            · rename_i hc
              exact h.createReferral d p r h1 h2 h3 (by simp only [not_or] at hc; omega) hrear
        · split
          · exact hv ..
          · exact h.admitted d _ .rider _ _ h2 h3 hroom hrear (by simp) hph

theorem State.Steady.replyWith (s : State) (a b c) : s.Steady (s.replyWith a b c) := by
  unfold State.replyWith
  split
  · exact .refl s
  · exact .outside
theorem State.Steady.reply (s : State) (a) : s.Steady (s.reply a) := .replyWith ..
theorem State.OrdersOk.reply {s : State} (h : s.OrdersOk) (a) : (s.reply a).OrdersOk := h.steady (.reply ..)
theorem State.OrdersOk.replyWith {s : State} (h : s.OrdersOk) (a b c) : (s.replyWith a b c).OrdersOk := h.steady (.replyWith ..)
theorem State.Steady.modPort (s : State) (p f) : s.Steady (s.modPort p f) := by cases p <;> exact .outside
theorem State.Steady.release (s : State) (p) : s.Steady (s.release p) := .modPort ..
theorem State.Steady.setLine (s : State) (p l) : s.Steady (s.setLine p l) := .modPort ..

theorem State.OrdersOk.decideAnswer {s : State} (h : s.OrdersOk) (d tk e st) (hd : (s.dock d).inFlight = false) (hr : ∀ r ∈ s.referrals, r.dock ≠ d)
    (hrear : s.rearrangement = none) (hph : s.phase ≠ .starting) : (s.decideAnswer d tk e st).OrdersOk := by
  unfold State.decideAnswer
  dsimp only
  split
  · refine State.OrdersOk.of (.replyWith ..) (State.OrdersOk.of (State.Quiet.verdict ..).steady ?_)
    have := h.unbindWith d hd (fun _ => true) fun r hr' _ => hr r hr'
    simpa using this
  · rename_i hn
    have hm := firstRefusal_none hn
    have hroom := roomTest_none (hm _ (.tail _ (.tail _ (.head _))))
    exact (h.admitted d _ .referred _ _ hd hr hroom hrear (by simp) hph).replyWith ..

/-- Of the pass entries only their counts matter. -/
theorem State.OrdersOk.withPasses {s : State} (h : s.OrdersOk) (ps : List PassEntry) (hp : ∀ e ∈ ps, e.inFlight = s.boundInFlight e.id) : State.OrdersOk { s with passes := ps } :=
  ⟨h.docks, h.held, h.queued, h.inQueue, h.queueDocks, h.referralDocks, h.referralCount, h.referrals, by
    intro r hr
    have := h.answer r hr
    unfold State.AnswerFits at *; exact this, hp, h.room, h.slotsHeld, h.slots, h.pulling, h.starting⟩

theorem State.OrdersOk.insertPass {s : State} (h : s.OrdersOk) (e) : (s.insertPass e).OrdersOk := by
  refine h.withPasses _ fun x hx => ?_
  have : ∀ {a : PassEntry} {l : List PassEntry}, x ∈ insertPassEntry a l → x = a ∨ x ∈ l := by
    intro a l
    induction l with
    | nil => simp [insertPassEntry]
    | cons b l ih =>
      unfold insertPassEntry
      split
      · simp
      · simp; rintro (hx | hx)
        · simp [hx]
        · rcases ih hx with h | h <;> simp [h]
  rcases this hx with rfl | hx
  · rfl
  · exact h.passCounts x hx

/-- A rearrangement begins or ends. -/
theorem State.OrdersOk.withWork {s : State} (h : s.OrdersOk) (n : Nat) (r : Option Rearrangement) (hr : ∀ x ∈ r, s.AnswerFits x.work) :
    State.OrdersOk { s with clock := n, rearrangement := r } :=
  ⟨h.docks, h.held, h.queued, h.inQueue, h.queueDocks, h.referralDocks, h.referralCount, h.referrals, by
    intro x hx
    have := hr x hx
    unfold State.AnswerFits at *; exact this, h.passCounts, h.room, h.slotsHeld, h.slots, h.pulling, h.starting⟩

theorem State.OrdersOk.finishWork {s : State} (h : s.OrdersOk) (hrear : s.rearrangement = none) {w} (hw : s.AnswerFits w) : (s.finishWork w).OrdersOk := by
  unfold State.finishWork
  unfold State.AnswerFits at hw
  split
  · exact (h.insertPass _).reply _
  · exact h.reply _
  · exact State.OrdersOk.reply (s := { s with denies := _ }) (h.steady .outside) _
  · exact h.reply _
  · exact (h.insertPass _).decideAnswer _ _ _ _ hw.2.2.1 hw.2.2.2 hrear hw.1

theorem State.OrdersOk.rearrange {s : State} (h : s.OrdersOk) (hrear : s.rearrangement = none) (n) {w} (hw : s.AnswerFits w) : (s.rearrange n w).OrdersOk := by
  unfold State.rearrange
  split
  · exact h.finishWork hrear hw
  · exact h.withWork s.clock _ (by simpa using hw)

theorem State.OrdersOk.replacePass {s : State} (h : s.OrdersOk) (w : PassEntry) : (s.modPass w.id fun x => x.replaceWith w).OrdersOk := by
  refine h.withPasses _ fun x hx => ?_
  obtain ⟨y, hy, rfl⟩ := List.mem_map.1 hx
  have := h.passCounts y hy
  by_cases hi : y.id = w.id
  · simp only [hi, if_true]
    unfold PassEntry.replaceWith
    split <;> simp only [] <;> rw [← hi, this]
  · simpa [hi] using this

theorem State.OrdersOk.writeAnswered {s : State} (h : s.OrdersOk) (hrear : s.rearrangement = none) (hph : s.phase ≠ .starting) (r : Referral) (w)
   (hd : (s.dock r.dock).inFlight = false) (hr : ∀ x ∈ s.referrals, x.dock ≠ r.dock) (htok : dockOf (tokenOf r.token).dock = some r.dock) : (s.writeAnswered r w).OrdersOk := by
  unfold State.writeAnswered
  split
  · split
    · exact h.decideAnswer _ _ _ _ hd hr hrear hph
    · exact (h.replacePass w).decideAnswer _ _ _ _ hd hr hrear hph
  · split
    · exact h.decideAnswer _ _ _ _ hd hr hrear hph
    · exact h.rearrange hrear _ ⟨hph, htok, hd, hr⟩

theorem State.OrdersOk.admitAnswer {s : State} (h : s.OrdersOk) (hrear : s.rearrangement = none) (hph : s.phase ≠ .starting) {r : Referral} (hr : r ∈ s.referrals) (p) : (s.admitAnswer r p).OrdersOk := by
  unfold State.admitAnswer
  split
  · exact h.reply _
  · dsimp only
    split
    · exact h.reply _
    · have b := h.referrals r hr
      have hs : State.OrdersOk { s with referrals := s.referrals.filter fun x => x.number != r.number } :=
        ⟨h.docks, h.held, h.queued, h.inQueue, h.queueDocks, h.referralDocks.sublist ((List.filter_sublist).map _),
          (List.length_filter_le _ _).trans h.referralCount, fun x hx => h.referrals x (List.mem_filter.1 hx).1, by
            intro x hx; rw [show s.rearrangement = some x from hx] at hrear; simp at hrear, h.passCounts, h.room, h.slotsHeld, h.slots, h.pulling, h.starting⟩
      refine hs.writeAnswered hrear hph r _ b.resting ?_ b.token
      intro x hx e
      obtain ⟨hx1, hx2⟩ := List.mem_filter.1 hx
      have := nodup_map_unique h.referralDocks hx1 hr e
      rw [this] at hx2; simp at hx2

/-! ### Sensors -/
theorem State.OrdersOk.returnOnRise {s : State} (h : s.OrdersOk) (d) : (s.returnOnRise d).OrdersOk := by
  unfold State.returnOnRise
  split
  · exact h.steady (.setReturnTimer ..)
  · exact (h.handOverReturn ..).steady (.setReturnTimer ..)
  · exact h

theorem State.OrdersOk.returnOnFall {s : State} (h : s.OrdersOk) (d) : (s.returnOnFall d).OrdersOk := by
  unfold State.returnOnFall
  split
  · exact (h.handOverReturn ..).steady (.setReturnTimer ..)
  · exact h

theorem State.OrdersOk.restsAt {s : State} (h : s.OrdersOk) (d) (f : Dock → Dock) (hr : Rests (s.dock d) (f (s.dock d))) (hs : (s.dock d).state.inFlight = false) : (s.modDock d f).OrdersOk :=
  h.steady (.rests s d f hr hs)

theorem State.OrdersOk.queuedEnd {s : State} (h : s.OrdersOk) (d) (hs : (s.dock d).state = .queued) (e) : (s.endOrder d e).OrdersOk :=
  h.endOrder d ((h.docks d).off (by rw [hs]; rfl)) e

theorem State.OrdersOk.ownBikeRise {s : State} (h : s.OrdersOk) (d) : (s.ownBikeRise d).OrdersOk := by
  unfold State.ownBikeRise
  split
  · rename_i hs
    refine h.restsAt d _ (.takeRest _ ?_) (by rw [hs]; rfl)
    split <;> simp
  · exact h

theorem State.OrdersOk.ownBikeFall {s : State} (h : s.OrdersOk) (d) : (s.ownBikeFall d).OrdersOk := by
  have hq : ∀ {t : State} {k}, t.OrdersOk → (t.latch k).OrdersOk := fun h => h.steady (State.Quiet.latch ..).steady
  unfold State.ownBikeFall
  split
  · exact h
  · rename_i hs
    exact hq (h.restsAt d _ (.takeRest _ (by simp)) (by rw [hs]; rfl))
  · rename_i hs
    exact hq (h.restsAt d _ (.takeRest _ (by simp)) (by rw [hs]; rfl))
  · rename_i hs
    exact hq (h.restsAt d _ (.takeRest _ (by simp)) (by rw [hs]; rfl))
  · exact State.OrdersOk.of (.setBikeId ..) (hq h)
  · rename_i hs
    exact (hq h).queuedEnd d (by rw [(State.Quiet.latch ..).dock]; exact hs) _
  · exact h.driveEnd ..
  · exact h.driveEnd ..
  · exact h.driveEnd ..

theorem State.OrdersOk.captureEdge {s : State} (h : s.OrdersOk) (d n) : (s.captureEdge d n).OrdersOk := by
  unfold State.captureEdge
  split
  · rename_i o ho
    split
    · exact h
    · refine h.steady (.aside s d _ rfl rfl rfl rfl rfl rfl ?_)
      simp [ho, Order.key]
  · exact h

theorem State.OrdersOk.ownLatchRise {s : State} (h : s.OrdersOk) (d n) : (s.ownLatchRise d n).OrdersOk := by
  have hq : ∀ {t : State} {k}, t.OrdersOk → (t.latch k).OrdersOk := fun h => h.steady (State.Quiet.latch ..).steady
  unfold State.ownLatchRise
  split
  · exact h
  · exact h
  · exact h
  · exact h
  · exact h
  · rename_i hs
    exact hq (h.restsAt d _ (.takeRest _ (by simp)) (by rw [hs]; rfl))
  · rename_i hs
    exact hq (h.restsAt d _ (.takeRest _ (by simp)) (by rw [hs]; rfl))
  · rename_i hs
    exact (hq h).queuedEnd d (by rw [(State.Quiet.latch ..).dock]; exact hs) _
  · exact h.captureEdge ..

theorem State.OrdersOk.ownLatchFall {s : State} (h : s.OrdersOk) (d) : (s.ownLatchFall d).OrdersOk := by
  unfold State.ownLatchFall
  split
  · rename_i hs
    exact h.restsAt d _ (.takeRest _ (by simp)) (by rw [hs]; rfl)
  · exact h.driveEnd ..
  · exact h

theorem State.OrdersOk.bikeEdge {s : State} (h : s.OrdersOk) (d l g) (hg : ∀ u : State, u.OrdersOk → (g u).OrdersOk) : (s.bikeEdge d l g).OrdersOk := by
  unfold State.bikeEdge
  split
  · exact h
  · rename_i c _
    dsimp only
    have h1 : ((s.advanceToCount (c + 500)).modDock d fun k => { k with bike := { k.bike with level := l } }).OrdersOk :=
      State.OrdersOk.of (.aside _ d _) (h.steady (.advanceToCount ..))
    split
    · exact hg _ h1
    · exact h1

theorem State.OrdersOk.latchEdge {s : State} (h : s.OrdersOk) (d l g) (hg : ∀ n (u : State), u.OrdersOk → (g n u).OrdersOk) : (s.latchEdge d l g).OrdersOk := by
  unfold State.latchEdge
  split
  · exact h
  · rename_i c _
    dsimp only
    have h1 : ((s.advanceToCount (c + 50)).modDock d fun k => { k with latch := { k.latch with level := l } }).OrdersOk :=
      State.OrdersOk.of (.aside _ d _) (h.steady (.advanceToCount ..))
    split
    · exact hg _ _ h1
    · exact h1

theorem State.OrdersOk.takeBikeId {s : State} (h : s.OrdersOk) (d n) : (s.takeBikeId d n).OrdersOk := by
  unfold State.takeBikeId
  split
  · exact (State.OrdersOk.handOverReturn (h.steady (.setBikeId ..)) ..).steady (.setReturnTimer ..)
  · exact h.steady (.setBikeId ..)
  · exact (h.steady (.setBikeId ..)).steady (.setReturnTimer ..)
  · exact (h.steady (.setBikeId ..)).steady (.setReturnTimer ..)
  · exact h
  · exact h

/-! ### Reservations, service -/
theorem State.OrdersOk.checkReservations {s : State} (h : s.OrdersOk) : s.checkReservations.OrdersOk := by
  unfold State.checkReservations
  split
  · exact h
  · rename_i now _
    dsimp only
    have h1 : State.OrdersOk { s with docks := s.docks.map (Dock.expireReservation now) } := by
      refine h.steady (.mapDocks s _ (fun d ok => ?_) (fun d ok => ?_) h.docks)
      · unfold Dock.expireReservation
        split
        · rename_i hr
          have hs : (s.dock d).state = .reserved := by unfold Dock.reservationExpired at hr; simp at hr; exact hr.1
          exact ⟨by simp [Dock.inFlight, hs, DockState.inFlight], by simp [hs], by simp, rfl, rfl, rfl, rfl, rfl⟩
        · exact .refl _
      · unfold Dock.expireReservation
        split
        · rename_i hr
          have hs : (s.dock d).state = .reserved := by unfold Dock.reservationExpired at hr; simp at hr; exact hr.1
          have hf := ok.1
          simp [hs] at hf
          obtain ⟨a, b, c⟩ := ok.rest (by simp [Dock.inFlight, hs, DockState.inFlight])
          refine ⟨by simp [hf], by simp, by simp [b, Dock.inFlight, DockState.inFlight], by simp [a, DockState.withDrive], fun _ => ⟨c.1, c.2⟩, ok.6, ?_, ?_⟩
          · have := c.3; unfold Dock.active at *; simp only; rw [this]; simp
          · simp [c.4]
        · exact ok
    split
    · exact h1.steady (State.Quiet.latch ..).steady
    · exact h1

theorem State.OrdersOk.reserveDock {s : State} (h : s.OrdersOk) (d r) : (s.reserveDock d r).OrdersOk := by
  have key : (s.dock d).inFlight = false → (s.dock d).state ≠ .service →
      (s.modDock d fun k => { k with state := .reserved, reservation := some r }).OrdersOk := by
    intro hf hs
    refine h.steady (.rests s d _ ?_ hf)
    have := (h.docks d).fault
    simp only [hs, iff_false] at this
    constructor <;> simp [Dock.inFlight, DockState.inFlight]
    simpa using this
  unfold State.reserveDock
  split
  · exact h.reply _
  · split
    · rename_i hs
      split
      · exact h.reply _
      · exact (key (by simp [Dock.inFlight, hs, DockState.inFlight]) (by simp [hs])).reply _
    · rename_i hs
      split
      · exact h.reply _
      · exact (key (by simp [Dock.inFlight, hs, DockState.inFlight]) (by simp [hs])).reply _
    · exact h.reply _

theorem State.OrdersOk.serviceDock {s : State} (h : s.OrdersOk) (d) : (s.serviceDock d).OrdersOk := by
  have key : (s.dock d).state.inFlight = false → ((s.endReferralAt d).modDock d (Dock.takeService .staffSet)).OrdersOk := fun hs =>
    State.OrdersOk.restsAt (h.endReferralAt d) d _ (.takeService ..) (by rw [(s.endReferralAt_docks d d).1]; exact hs)
  unfold State.serviceDock
  split
  · rename_i hs; exact h.queuedEnd d hs _
  · exact h.driveEnd ..
  · exact h.driveEnd ..
  · exact h.driveEnd ..
  · exact h.endReferralAt d
  all_goals
    rename_i hs
    exact key (by rw [hs]; rfl)

theorem State.OrdersOk.staffUnlock {s : State} (h : s.OrdersOk) (d) (hn : s.unlockRefusal d = none) (hrear : s.rearrangement = none) (hph : s.phase ≠ .starting) :
    ((s.endReferralAt d).queueOrder d .staff none none).OrdersOk := by
  have hfl : (s.dock d).inFlight = false ∧ s.logSum ≤ 63 := by
    simp only [State.unlockRefusal, State.roomForOrder] at hn
    grind
  have hsame := s.endReferralAt_same d
  have := (h.endReferralAt d).join d .staff none none (s.endReferralAt d).passes (by intro e he; simpa using (h.endReferralAt d).passCounts e he)
    (by simp only [Dock.inFlight, (s.endReferralAt_docks d d).1]; exact hfl.1) (h.endReferralAt_gone d) (by rw [s.endReferralAt_logSum]; exact hfl.2)
    (by rw [hsame.2]; exact hrear) (by simp) (by rw [hsame.1]; exact hph)
  exact this

theorem State.Steady.writeProfile (s : State) (d p) : s.Steady (s.modDock d (Dock.writeProfile p)) := by
  by_cases hc : (s.dock d).state = .service ∧ (s.dock d).fault = some .unconfigured
  · have e : (s.modDock d (Dock.writeProfile p)) = (s.modDock d fun k => { k with profile := p, configured := true }).modDock d Dock.takeFromSensors := by
      have : Dock.writeProfile p (s.dock d) = ({ s.dock d with profile := p, configured := true } : Dock).takeFromSensors := by
        unfold Dock.writeProfile; rw [if_pos hc]
      unfold State.modDock
      simp [State.dock] at this ⊢
      rw [this]
    rw [e]
    refine (State.Steady.aside s d _).trans (.rests _ d _ (.takeFromSensors _) ?_)
    rw [State.dock_modDock_self]
    simp [Dock.inFlight, hc.1, DockState.inFlight]
  · have e : (s.modDock d (Dock.writeProfile p)) = (s.modDock d fun k => { k with profile := p, configured := true }) := by
      have : Dock.writeProfile p (s.dock d) = ({ s.dock d with profile := p, configured := true } : Dock) := by
        unfold Dock.writeProfile; rw [if_neg hc]
      unfold State.modDock
      rw [this]
    rw [e]
    exact .aside s d _

/-! ### Start-up -/
theorem State.OrdersOk.evaluateFromLatest {s : State} (h : s.OrdersOk) : s.evaluateFromLatest.OrdersOk := by
  unfold State.evaluateFromLatest; split
  · exact h.evaluateLevel _
  · exact h

theorem State.OrdersOk.evaluateAndAttend {s : State} (h : s.OrdersOk) : s.evaluateAndAttend.OrdersOk := by
  unfold State.evaluateAndAttend
  have ha : ∀ {t : State}, t.OrdersOk → t.attend.OrdersOk := fun h => h.steady (State.Quiet.attend _).steady
  have hs : (s.spendFree 1).OrdersOk := h.steady (State.Quiet.spendFree ..).steady
  split
  · split
    · exact (ha hs).evaluateFromLatest
    · exact ha hs.evaluateFromLatest
  · exact (ha h).evaluateFromLatest

theorem State.OrdersOk.enterRunning {s : State} (h : s.OrdersOk) (hp : s.phase = .starting) : s.enterRunning.OrdersOk := by
  unfold State.enterRunning
  apply State.OrdersOk.evaluateAndAttend
  have h1 : s.Steady { s with docks := s.docks.map Dock.classify } := by
    refine .mapDocks s _ (fun d _ => ?_) (fun d ok => ?_) h.docks
    · unfold Dock.classify; split
      · exact (Rests.takeFromSensors _).like (h.starting hp d)
      · exact .refl _
    · unfold Dock.classify; split
      · obtain ⟨a, b, c⟩ := ok.rest (h.starting hp d)
        exact (Rests.takeFromSensors _).ok a b c
      · exact ok
  refine h.steady (h1.trans ⟨fun _ => .refl _, fun _ => id, rfl, .refl _, rfl, .refl _, rfl, id, ?_⟩)
  simp

theorem State.OrdersOk.endLoad {s : State} (h : s.OrdersOk) (hp : s.phase = .starting) (st) : (s.endLoad st).OrdersOk := by
  unfold State.endLoad
  dsimp only
  have h1 : State.OrdersOk { s with loader := { s.loader with status := st } } := h.steady .outside
  split
  · exact h1.enterRunning hp
  · exact (h1.steady (State.Quiet.latch ..).steady).enterRunning (by rw [(State.Quiet.latch ..).phase]; exact hp)

theorem State.Steady.applyRecord (s : State) (k r) : s.Steady (s.applyRecord k r) := by
  unfold State.applyRecord
  split
  · exact .outside
  · refine ⟨fun _ => .refl _, fun _ => id, rfl, .refl _, rfl, .refl _, rfl, fun _ => ?_, id⟩
    have := clamp_mem (lo := 1) (hi := 4) (by decide) (fieldAt r 1 1)
    exact ⟨this.1, this.2, effectiveSlots_le _ this.1⟩
  · exact .aside s _ _
  · exact .refl s
  · exact .refl s

theorem State.applyRecord_phase (s : State) (k r) : (s.applyRecord k r).phase = s.phase := by
  unfold State.applyRecord; split <;> rfl

theorem State.OrdersOk.judgeRecord {s : State} (h : s.OrdersOk) (hp : s.phase = .starting) (r) : (s.judgeRecord r).OrdersOk := by
  unfold State.judgeRecord
  dsimp only
  split
  · split
    · exact h.endLoad hp _
    · exact h.endLoad hp _
    · have h1 := h.steady (.applyRecord s (recordKindOf (fieldAt r 0 1)) r)
      unfold State.nextRecord
      split
      · exact h1.endLoad (by rw [s.applyRecord_phase]; exact hp) _
      · exact h1.steady .outside
  · exact h.endLoad hp _

theorem Dock.atReset_ok (a b) : (Dock.atReset a b).Ok := by
  refine ⟨?_, ?_, ?_, ?_, ?_, ?_, ?_, ?_⟩ <;> simp [Dock.atReset, Dock.inFlight, DockState.inFlight, DockState.withDrive, Channel.atReset, Dock.active, SenseChannel.atReset]

theorem State.OrdersOk.afterReset (straps stop docks n m l)
    (fresh : ∀ d : DockId, ∃ bike latch, docks[d.val] = Dock.atReset bike latch) (p : Phase) :
    State.OrdersOk { State.afterReset straps stop docks n m l with phase := p } := by
  set t : State := { State.afterReset straps stop docks n m l with phase := p } with ht
  have all {P : Dock → Prop} (h : ∀ bike latch, P (.atReset bike latch)) (d : DockId) : P (t.dock d) := by
    obtain ⟨bike, latch, e⟩ := fresh d
    rw [show t.dock d = .atReset bike latch from e]
    exact h bike latch
  have none_in (p : Dock → Bool) (h : ∀ bike latch, p (.atReset bike latch) = false) : t.docks.countP p = 0 := by
    rw [t.countP_docks, List.countP_eq_zero]
    exact fun d _ => by rw [all (P := fun k => p k = false) h d]; simp
  have idle : ∀ d, (t.dock d).inFlight = false :=
    all (P := fun k => k.inFlight = false) fun _ _ => rfl
  exact {
    docks := all Dock.atReset_ok
    held := fun d o ho => by rw [all (P := fun k => k.order = none) (fun _ _ => rfl) d] at ho; cases ho
    queued := nofun
    inQueue := fun d hs => by rw [all (P := fun k => k.state = .service) (fun _ _ => rfl) d] at hs; cases hs
    queueDocks := .nil
    referralDocks := .nil
    referralCount := Nat.zero_le _
    referrals := nofun
    answer := nofun
    passCounts := nofun
    room := by
      unfold State.logSum State.inFlight
      rw [none_in Dock.inFlight fun _ _ => rfl]
      exact Nat.zero_le _
    slotsHeld := fun d hs => by
      rw [all (P := fun k => k.pendingReturn = none) (fun _ _ => rfl) d] at hs; cases hs
    slots := by simp [ht, State.afterReset, Supply.atReset]
    pulling := by
      unfold State.pullingCount
      rw [none_in (fun k => k.state == .pulling) fun _ _ => rfl]
      decide
    starting := fun _ => idle }

theorem State.OrdersOk.fullReset (s : State) (z) : (s.fullReset z).OrdersOk :=
  .afterReset _ _ _ _ _ _ (fun d => ⟨(s.docks[d.val]).bike.raw, (s.docks[d.val]).latch.raw, by simp⟩) .starting

theorem State.OrdersOk.tellOwner {s : State} (h : s.OrdersOk) (o w z) : (s.tellOwner o w z).OrdersOk := by
  unfold State.tellOwner
  split
  · exact h
  · unfold State.referralDeparted
    split
    · exact h
    · exact h.steady { State.Steady.refl s with
        referrals := ⟨_, rfl, fun r => by dsimp only; split <;> exact ⟨rfl, rfl⟩⟩ }
    · rename_i hr _
      exact h.endReferral (List.mem_of_find?_eq_some hr) _ _
  · unfold State.collectDeparted
    dsimp only
    have h1 : State.OrdersOk { s with marks := { s.marks with collect := false } } := h.steady .outside
    split
    · exact h1.removeLogHead
    · exact h1
  · unfold State.eventReadDeparted
    dsimp only
    split
    · exact State.OrdersOk.of (State.Quiet.attend _).steady (h.steady .outside)
    · exact h.steady .outside
  · exact .fullReset s _

theorem State.OrdersOk.stationDeparture {s : State} (h : s.OrdersOk) (o w z) : (s.stationDeparture o w z).OrdersOk := by
  have ow : ∀ {s : State}, s.OrdersOk → s.attendOwed.OrdersOk := fun h => h.steady (State.Quiet.attendOwed _).steady
  have sp : ∀ {s : State}, s.OrdersOk → (s.spendFree 1).OrdersOk := fun h => h.steady (State.Quiet.spendFree ..).steady
  unfold State.stationDeparture
  split
  · exact ow h
  · split
    · exact ow ((sp h).tellOwner _ _ _)
    · exact (ow (sp h)).tellOwner _ _ _
  · exact h.tellOwner _ _ _

theorem State.Steady.reserveOn (s : State) (p) : s.Steady (s.reserveOn p) := by
  unfold State.reserveOn; split
  · exact .modPort ..
  · exact .refl s

theorem State.Steady.judgeFrame (s : State) (p f) : s.Steady (s.judgeFrame p f) := by
  unfold State.judgeFrame
  split
  · split
    · exact .modPort ..
    · exact .refl s
  · split
    · split
      · exact (State.Steady.reserveOn ..).trans (.modPort ..)
      · exact .refl s
    · exact .refl s

theorem State.Steady.endAttempt (s : State) (p a n r) : s.Steady (s.endAttempt p a n r) := by
  unfold State.endAttempt
  split
  · exact .setLine ..
  · exact (State.Steady.advanceTo ..).trans (.setLine ..)
  · exact (State.Steady.advanceTo ..).trans (.setLine ..)

/-! ### Taking frames -/

theorem State.OrdersOk.takeStation {s : State} (h : s.OrdersOk) (acc : Frame → Bool) (act)
   (hh : ∀ f, s.rearrangement = none → s.phase ≠ .starting → (act f s).OrdersOk) : (s.takeStation acc act).OrdersOk := by
  obtain h' | ⟨f, hp, _, hb, hf, ha, h'⟩ := s.takeStation_cases acc act
  · rw [h']; exact h
  · rw [h']; exact hh f hb (by rw [hp]; simp)

theorem State.OrdersOk.takeDock {s : State} (h : s.OrdersOk) (acc : Frame → Bool) (act)
   (hh : ∀ f, s.phase ≠ .starting → (act f s).OrdersOk) : (s.takeDock acc act).OrdersOk := by
  obtain h' | ⟨f, hp, _, hf, ha, h'⟩ := s.takeDock_cases acc act
  · rw [h']; exact h
  · rw [h']; exact hh f (by rw [hp]; simp)

theorem State.OrdersOk.takeRequest {s : State} (hs : s.OrdersOk) (k : Kind) (n act)
   (h : ∀ p, s.rearrangement = none → s.phase ≠ .starting → (act p s).OrdersOk) : (s.takeRequest k n act).OrdersOk := by
  refine hs.takeStation _ _ fun f hr hp => ?_
  split
  · exact h _ hr hp
  · exact hs.reply _

theorem State.OrdersOk.takeCommand {s : State} (hs : s.OrdersOk) (c act)
   (h : ∀ d p, s.rearrangement = none → s.phase ≠ .starting → (act d p s).OrdersOk) : (s.takeCommand c act).OrdersOk := by
  refine hs.takeStation _ _ fun f hr hp => ?_
  split
  · exact hs.reply _
  · split
    · exact h _ _ hr hp
    · exact hs.reply _

theorem State.OrdersOk.takeAnswer {s : State} (hs : s.OrdersOk) (a n act)
   (h : ∀ r ∈ s.referrals, ∀ p, s.rearrangement = none → s.phase ≠ .starting → (act r p s).OrdersOk) : (s.takeAnswer a n act).OrdersOk := by
  refine hs.takeStation _ _ fun f hr hp => ?_
  split
  · exact hs.reply _
  · split
    · exact hs.reply _
    · rename_i r hm
      exact h r (List.mem_of_find?_eq_some hm) _ hr hp

end Sys2Proof.Machine
end

