-- ==== Sys2Proof/Laws/Requests.lean ====
section
/-! SUPPORT. What the operations that take, answer and queue frames do, in the terms of Safety.lean: a request at the
head is taken, its REPLY queued, a VERDICT, RESULT or NOTICE offered. -/

namespace Sys2Proof.Machine

/-- A command outside reset has its effect. -/
theorem State.perform_eq {s : State} (h : s.phase ≠ .inReset) (effect : State → State) :
    s.perform effect = .next (effect s) := by
  unfold State.perform State.unlessReset
  split
  · exact absurd (by assumption) h
  · rfl

theorem State.perform_running {s : State} (h : s.phase = .running) (effect : State → State) :
    s.perform effect = .next (effect s) := State.perform_eq (by rw [h]; decide) effect

/-- An addressed request of its kind is one the taker accepts. -/
theorem State.Request.accepted {s : State} {k : Kind} {f : Frame} (h : s.Request k f) : f.isAddressed k = true := by
  have := h.addressed
  simp_all [Frame.isAddressed, Frame.isBroadcast, h.kind]

theorem State.DockFrame.accepted {s : State} {k : Kind} {f : Frame} (h : s.DockFrame k f) :
    f.isAddressed k = true := by
  have := h.addressed
  simp_all [Frame.isAddressed, Frame.isBroadcast, h.kind]

theorem State.Request.takeStation {s : State} {k : Kind} {f : Frame} (h : s.Request k f) {accepts : Frame → Bool}
    (ha : accepts f = true) (act : Frame → State → State) : s.takeStation accepts act = act f s :=
  State.takeStation_eq act h.running h.restart h.notBusy h.head ha

/-- A request of the length of its kind is handed on. -/
theorem State.Request.takeRequest {s : State} {k : Kind} {f : Frame} {n : Nat} (h : s.Request k f)
    (act : List Byte → State → State) :
    s.takeRequest k n act = if f.payload.length = n then act f.payload s else s.reply .badLength :=
  h.takeStation h.accepted _

/-- A dock command of its length, for a dock of the row, is handed on. -/
theorem State.Request.takeCommand {s : State} {f : Frame} (h : s.Request .dockCommand f) {c : DockCommand}
    (hc : dockCommandOf (fieldAt f.payload 0 1) = some c) (act : DockId → List Byte → State → State) :
    s.takeCommand c act = if f.payload.length ≠ c.length then s.reply .badLength
      else match dockOf (fieldAt f.payload 1 1) with
        | some d => act d f.payload s
        | none => s.reply .badValue := by
  unfold State.takeCommand
  exact h.takeStation (by simp [h.accepted, hc]) _

theorem dockOf_val (d : DockId) : dockOf d.val = some d := by simp [dockOf]

theorem dockOf_none {n : Nat} (h : 16 ≤ n) : dockOf n = none := by simp [dockOf]; omega

/-- A REPLY stands at the tail of the station queue in its reservation, and the request has left the buffer. -/
theorem State.replyWith_eq {s : State} {f : Frame} (h : s.station.rx.head? = some f) (st : Status) (data : List Byte)
    (o : Owner) : s.replyWith st data o = s.replied f (replyPriority f.kind) st.code data o := by
  unfold State.replyWith
  cases hs : s.station.rx with
  | nil => simp [hs] at h
  | cons g rest =>
    obtain rfl : g = f := by simpa [hs] using h
    cases st <;>
      simp [State.replied, Port.answered, State.modPort, Port.popRx, Port.pushReserved, State.frameFrom, State.port,
        bytesOf, Status.code, Kind.code]

theorem State.reply_eq {s : State} {f : Frame} (h : s.station.rx.head? = some f) (st : Status) :
    s.reply st = s.replied f (replyPriority f.kind) st.code := State.replyWith_eq h st [] .none

theorem Port.free_eq_zero (q : Port) : q.free = 0 ↔ 8 ≤ q.tx.length + q.reserved := by
  unfold Port.free; omega

theorem State.offer_dock_eq (s : State) (t : TxFrame) :
    s.offer .dock t = { s with dockPort := s.dockPort.offered t } := by
  unfold State.offer Port.offered
  rw [show (s.port .dock).free = s.dockPort.free from rfl]
  by_cases h : s.dockPort.free = 0
  · rw [if_pos h, if_neg (by have := s.dockPort.free_eq_zero.1 h; omega)]
  · rw [if_neg h, if_pos (by have := s.dockPort.free_eq_zero.not.1 h; omega)]; rfl

theorem State.offer_station_eq (s : State) (t : TxFrame) :
    s.offer .station t = { s with station := s.station.offered t } := by
  unfold State.offer Port.offered
  rw [show (s.port .station).free = s.station.free from rfl]
  by_cases h : s.station.free = 0
  · rw [if_pos h, if_neg (by have := s.station.free_eq_zero.1 h; omega)]
  · rw [if_neg h, if_pos (by have := s.station.free_eq_zero.not.1 h; omega)]; rfl

theorem readerOf_eq (d : DockId) : readerOf d = BitVec.ofNat 6 (16 + d.val) := by revert d; decide

theorem bytesOf_one (n : Nat) : bytesOf 1 n = [BitVec.ofNat 8 n] := by simp [bytesOf]

/-- A VERDICT is offered to the dock port. -/
theorem State.verdict_eq (s : State) (dest : Address) (dock passId serial : Nat) (v : Verdict) (reason : Nat) :
    s.verdict dest dock passId serial v reason =
      { s with dockPort := s.dockPort.offered (s.dockPort.verdictFrame dest dock passId serial v.code reason) } := by
  unfold State.verdict
  rw [State.offer_dock_eq]; rfl

/-- A RESULT is offered to the dock port. -/
theorem State.result_eq (s : State) (d : DockId) (r : LatchResult) (reason : Nat) :
    s.result d r reason = { s with dockPort := s.dockPort.offered (s.dockPort.resultFrame d r.code reason) } := by
  unfold State.result
  rw [State.offer_dock_eq]
  simp [Port.resultFrame, State.frameFrom, State.port, bytesOf_one, readerOf_eq, Kind.code]

/-- A NOTICE is offered to the station port if notices are enabled. -/
theorem State.sendNotice_eq (s : State) (id serial : Nat) (delta : Int) :
    s.sendNotice id serial delta = { s with
      station := s.station.offeredIf (s.identity.noticeEnable = true)
        ⟨⟨2, 0, s.station.address, 0x24, bytesOf 4 id ++ bytesOf 2 serial ++ [deltaByte delta]⟩, .none⟩ } := by
  unfold State.sendNotice Port.offeredIf
  split
  · rw [State.offer_station_eq]; rfl
  · rfl

/-- A referral that ends leaves the list, unbinds its dock and sends its VERDICT. -/
theorem State.endReferral_eq (s : State) (r : Referral) (v : Verdict) (reason : Nat) :
    s.endReferral r v reason = s.referralEnded r v.code reason := by
  unfold State.endReferral
  rw [State.verdict_eq]
  simp [State.referralEnded, State.withDock, State.modDock, State.dock, Dock.unbind, readerOf_eq, bne, decide_not]
  exact List.filter_congr fun x _ => by simp [Bool.beq_eq_decide_eq]

theorem State.endReferralAt_eq (s : State) (d : DockId) : s.endReferralAt d = s.referralCleared d := by
  unfold State.endReferralAt State.referralCleared State.referralAt State.referralOf
  cases s.referrals.find? fun r => r.dock == d with
  | none => rfl
  | some r => exact s.endReferral_eq r .noAnswer 0

/-- The ATTENTION rule does what its table says. -/
theorem State.attend_attended (s : State) : s.Attended s.attend := by
  unfold State.Attended State.attend Events.unmasked
  refine ⟨fun h => ?_, fun h h' => ?_, fun h h' => ⟨fun hf => ?_, fun hf => ?_⟩⟩
  · cases ha : s.events.attention <;> simp only [h, if_true] <;> first | rfl | rw [← ha]
  · cases ha : s.events.attention <;> simp_all
  · have : s.station.free ≠ 0 := fun e => by have := s.station.free_eq_zero.1 e; omega
    simp only [h']
    rw [if_neg h, if_neg this, State.offer_station_eq, Port.offered, if_pos hf]
    rfl
  · simp only [h']
    rw [if_neg h, if_pos (s.station.free_eq_zero.2 hf)]
    rfl

end Sys2Proof.Machine
end

