-- ==== Sys2Proof/Laws/Ended.lean ====
section
/-! SUPPORT. What latching does, and the end of an order, in the terms of the statements (State.Latched,
State.EndedAt). -/

namespace Sys2Proof.Machine

/-! ### Latching (R157, R163, R166) -/

/-- A set of kinds that latches is pending, and in RUNNING the ATTENTION rule follows. -/
theorem State.latchSet_latched (s : State) (k : EventSet) : s.Latched (s.latchSet k) k := by
  unfold State.latchSet State.attendIfRunning
  constructor
  · intro h
    rw [show (s.addPending k).phase = .running from h]
    exact State.attend_attended _
  · intro h
    cases hp : s.phase
    · rw [show (s.addPending k).phase = .inReset from hp]; rfl
    · rw [show (s.addPending k).phase = .starting from hp]; rfl
    · exact absurd hp h

theorem State.latch_latched (s : State) (k : EventKind) : s.Latched (s.latch k) (kindSet k.number) :=
  s.latchSet_latched _

theorem State.Attended.pending {s t : State} (h : s.Attended t) : t.events.pending = s.events.pending := by
  obtain ⟨h1, h2, h3⟩ := h
  by_cases hu : s.events.pending &&& ~~~s.events.mask = 0
  · rw [h1 hu]
  · by_cases ha : s.events.attention = .armed
    · rcases Nat.lt_or_ge (s.station.tx.length + s.station.reserved) 8 with hf | hf
      · rw [(h3 hu ha).1 hf]
      · rw [(h3 hu ha).2 hf]
    · rw [h2 hu ha]

/-- The kinds of a set that has latched are pending beside those that were. -/
theorem State.Latched.pending {s t : State} {k : EventSet} (h : s.Latched t k) :
    t.events.pending = s.events.pending ||| k := by
  by_cases hp : s.phase = .running
  · exact (h.1 hp).pending
  · rw [h.2 hp]; rfl

theorem State.Latched.pending_kind {s t : State} {n : Nat} (h : s.Latched t (kindSet n)) (hn : n < 12) :
    t.Pending n := by
  unfold State.Pending
  rw [h.pending]
  simp [kindSet, hn]

/-- LOG_HIGH latches when the log count has become 48 (R153). -/
theorem State.testLogHigh_latched (s : State) :
    (s.log.length = 48 → s.Latched s.testLogHigh (kindSet 6)) ∧ (s.log.length ≠ 48 → s.testLogHigh = s) := by
  unfold State.testLogHigh
  exact ⟨fun h => by rw [if_pos h]; exact s.latch_latched .logHigh, fun h => if_neg h⟩

/-- Latching neither reads nor changes the dock port. -/
theorem State.latch_dockPort (s : State) (q : Port) (k : EventKind) :
    State.latch { s with dockPort := q } k = { s.latch k with dockPort := q } := by
  have ho (t : State) (x : TxFrame) :
      State.offer { t with dockPort := q } .station x = { t.offer .station x with dockPort := q } := by
    rw [State.offer_station_eq, State.offer_station_eq]
  have ha (t : State) : State.attend { t with dockPort := q } = { t.attend with dockPort := q } := by
    unfold State.attend
    cases t.events.attention <;> dsimp only
    · split
      · rfl
      · split
        · rfl
        · show State.setAttention (State.offer { t with dockPort := q } .station _) .sent = _
          rw [ho]; rfl
    all_goals split <;> rfl
  show State.attendIfRunning { s.addPending k.bit with dockPort := q } = _
  unfold State.attendIfRunning
  dsimp only
  split
  · rw [ha, State.latch, State.latchSet, State.attendIfRunning]
    rename_i hp
    simp only [hp]
  · rw [State.latch, State.latchSet, State.attendIfRunning]
    split
    · contradiction
    · rfl

theorem State.testLogHigh_dockPort (s : State) (q : Port) :
    State.testLogHigh { s with dockPort := q } = { s.testLogHigh with dockPort := q } := by
  unfold State.testLogHigh
  split
  · exact s.latch_dockPort q _
  · rfl

/-! ### The dock after an ending (R2, R3, R110) -/

/-- The fault kind of an ending that names SERVICE. -/
def NamedState.fault : NamedState → Option FaultKind
  | .service f => some f
  | _ => none

theorem Dock.takeFromSensors_eq (k : Dock) : k.takeFromSensors = k.fromSensors := by
  unfold Dock.takeFromSensors Dock.sensed Dock.fromSensors
  cases k.bike.level
  · rfl
  · cases k.latch.level <;> rfl

theorem Dock.settle_eq (k : Dock) (n : NamedState) : k.settle n = k.settledAs n.fault := by
  have rest (st) : k.settleRest st = k.fromSensors := by
    unfold Dock.settleRest
    split
    · rw [← Dock.takeFromSensors_eq]; unfold Dock.takeFromSensors; rw [‹k.sensed = st›]
    · exact k.takeFromSensors_eq
  cases n
  · exact rest _
  · exact rest _
  · exact rest _
  · rfl
  · exact k.takeFromSensors_eq

theorem Dock.fromSensors_atSensors (k : Dock) : k.fromSensors.AtSensors := by
  unfold Dock.fromSensors Dock.AtSensors
  cases hb : k.bike.level
  · simp [Dock.vacated, Dock.restAt, hb]
  · simp [Dock.restAt, hb]

/-! ### Endings (R108 to R110, R119) -/

/-- The settled entries and the notice of a refund (R38, R40, R109). -/
theorem State.settled_eq (s : State) (o : Order) (k : OutcomeKind) :
    (if s.refundApplies o k = true then (s.lowerInFlight o).refund o else s.lowerInFlight o) = { s with
      passes := s.passes.map (o.settledEntry (s.refundApplies o k))
      station := s.station.offeredIf (s.refundApplies o k = true ∧ s.identity.noticeEnable = true)
        ⟨⟨2, 0, s.station.address, 0x24, bytesOf 4 (o.passId.getD 0) ++ bytesOf 2 (o.serial.getD 0) ++ [1]⟩,
          .none⟩ } := by
  cases hr : s.refundApplies o k with
  | false => rw [if_neg (by decide), s.lowerInFlight_eq]; simp [Port.offeredIf]
  | true =>
    obtain ⟨i, hi⟩ := ((s.refundApplies_iff o k).1 hr).passToSettle
    rw [if_pos rfl, State.refund_eq hi, State.sendNotice_eq]
    simp [← (Order.passToSettle_eq_some.1 hi).2, deltaByte]

/-- RESULT FAILED for UNLOCK_FAILED, which has a reason (R110). -/
theorem State.resultFailed_eq (s : State) (d : DockId) {e : Ending} (h : e.kind = .unlockFailed → e.reason.isSome) :
    s.resultFailed d e = { s with
      dockPort := s.dockPort.offeredIf (e.kind = .unlockFailed)
        (s.dockPort.resultFrame d 3 ((e.reason.map Reason.code).getD 0)) } := by
  obtain ⟨kind, reason, named⟩ := e
  unfold State.resultFailed
  cases kind
  case unlockFailed =>
    obtain ⟨r, rfl⟩ := Option.isSome_iff_exists.1 (h rfl)
    exact State.result_eq ..
  all_goals simp [Port.offeredIf]

/-- The order is gone and the dock, no longer bound, as its ending names it (R110). -/
theorem State.releaseDock_eq (s : State) (d : DockId) (n : NamedState) :
    s.releaseDock d n = { s.withDock d (fun k =>
        { k with boundPass := none, boundSerial := none, origin := none, order := none }.settledAs n.fault) with
      queue := s.queue.filter fun x => x.dock ≠ d } := by
  unfold State.releaseDock
  simp only [Dock.settle_eq]
  show State.mk .. = State.mk ..
  congr 1
  exact List.filter_congr fun x _ => by simp [bne, Bool.beq_eq_decide_eq]

/-- The state at an order's end once its record stands in the log (R108, R109). -/
def State.recorded (s : State) (o : Order) (e : Ending) (refunded : Bool) : State :=
  { s with
    passes := s.passes.map (o.settledEntry refunded)
    station := s.station.offeredIf (refunded = true ∧ s.identity.noticeEnable = true)
      ⟨⟨2, 0, s.station.address, 0x24, bytesOf 4 (o.passId.getD 0) ++ bytesOf 2 (o.serial.getD 0) ++ [1]⟩, .none⟩
    log := s.log ++ [s.orderRecord o e refunded] }

theorem State.endSettled_eq (s : State) (o : Order) (e : Ending) :
    s.endSettled o e = (((s.recorded o e (s.refundApplies o e.kind)).testLogHigh).resultFailed o.dock e).releaseDock
      o.dock e.named := by
  unfold State.endSettled
  dsimp only
  rw [State.settled_eq]
  rfl

/-- What an ending reads of a state, and leaves to the ending. -/
structure State.Nears (s u : State) (d : DockId) : Prop where
  tables : u.passes = s.passes ∧ u.log = s.log ∧ u.queue = s.queue
  time : u.timeKnown = s.timeKnown ∧ u.stationTime = s.stationTime
  identity : u.identity = s.identity
  address : u.station.address = s.station.address
  bikeId : (u.dock d).bikeId = (s.dock d).bikeId

/-- The order-end rule at a dock whose channel is off, once the event and RESULT CLOSED of the ending are told. -/
theorem State.EndedAt.of_settled {s off u : State} {d : DockId} {o : Order} {e : Ending} {event : Option Nat}
    (closed : Bool) (hod : o.dock = d) (hr : e.kind = .unlockFailed → e.reason.isSome)
    (hoff : off = if (s.dock d).state = .queued then s
      else State.setActivity (s.withDock d fun k => { k with chan := ⟨0, 0, none, .stopped⟩ }) d .inactive)
    (near : s.Nears u d) (hnone : event = none → u = off)
    (hsome : ∀ n, event = some n → off.Latched u (kindSet n)) :
    s.EndedAt (State.endSettled
        { u with dockPort := if closed then s.dockPort.offered (s.dockPort.resultFrame d 2 0) else s.dockPort } o e)
      d o closed e.kind e.reason event e.named.fault := by
  obtain ⟨⟨hp, hl, hq⟩, ⟨hk, ht⟩, hi, ha, hb⟩ := near
  have hdue : u.RefundDue o e.kind ↔ s.RefundDue o e.kind := by unfold State.RefundDue; rw [hp]
  have hsent (q : Port) (t) : (q.offered t).address = q.address := by unfold Port.offered; split <;> rfl
  have hend (q : Port) : State.endSettled { u with dockPort := q } o e =
      { (u.recorded o e (u.refundApplies o e.kind)).testLogHigh.withDock d (fun k =>
        { k with boundPass := none, boundSerial := none, origin := none, order := none }.settledAs e.named.fault) with
        dockPort := q.offeredIf (e.kind = .unlockFailed) (q.resultFrame d 3 ((e.reason.map Reason.code).getD 0))
        queue := s.queue.filter fun x => x.dock ≠ d } := by
    rw [State.endSettled_eq, hod]
    show State.releaseDock (State.resultFailed (State.testLogHigh
      { u.recorded o e (u.refundApplies o e.kind) with dockPort := q }) d e) d e.named = _
    rw [State.testLogHigh_dockPort, State.resultFailed_eq _ _ hr, State.releaseDock_eq]
    have := (State.Quiet.testLogHigh (u.recorded o e (u.refundApplies o e.kind))).queue
    rw [show (u.recorded o e (u.refundApplies o e.kind)).queue = s.queue from hq] at this
    show State.mk .. = State.mk ..
    dsimp only
    rw [this]
    rfl
  rw [hend]
  refine ⟨u.refundApplies o e.kind, u, (u.recorded o e (u.refundApplies o e.kind)).testLogHigh,
    (u.refundApplies_iff o e.kind).trans hdue, hoff ▸ hnone, hoff ▸ hsome, ?_⟩
  generalize u.refundApplies o e.kind = refunded
  have hw : u.recorded o e refunded = { u with
      passes := s.passes.map (o.settledEntry refunded)
      station := u.station.offeredIf (refunded = true ∧ s.identity.noticeEnable = true)
        ⟨⟨2, 0, s.station.address, 0x24, bytesOf 4 (o.passId.getD 0) ++ bytesOf 2 (o.serial.getD 0) ++ [1]⟩, .none⟩
      log := s.log ++ [s.orderRecord o e refunded] } := by
    unfold State.recorded State.orderRecord State.now
    rw [hp, hl, hi, ha, hk, ht, hod, hb]
  have hlog : (u.recorded o e refunded).log.length = s.log.length + 1 := by rw [hw]; simp
  have hlatch := (u.recorded o e refunded).testLogHigh_latched
  rw [hlog] at hlatch
  generalize (u.recorded o e refunded).testLogHigh = v at hlatch
  rw [hw] at hlatch
  have hport (q : Port) : (q.offered (q.resultFrame d 2 0)).resultFrame d = q.resultFrame d := by
    unfold Port.resultFrame; rw [hsent]
  have hrec : s.orderRecord o e refunded =
      { kind := e.kind, origin := o.origin, dock := d, passId := o.passId, serial := o.serial
        admitTime := o.admitTime
        endTime := if s.timeKnown then some s.stationTime else none
        throwTime := o.throwTime, bikeId := (s.dock d).bikeId, reason := e.reason
        underdriven := o.underdriven, refundApplied := refunded
        timeUnknown := o.admitTime.isNone || !s.timeKnown } := by
    unfold State.orderRecord State.now; rw [hod]
  rw [hrec] at hlatch
  refine ⟨fun h => hlatch.1 (by omega), fun h => hlatch.2 (by omega), ?_⟩
  cases closed
  · rfl
  · rw [if_pos rfl, hport]

theorem Ending.settleKind_reason {e : Ending} (h : e.kind = .unlockFailed → e.reason.isSome) (o : Order) :
    (e.settleKind o).kind = .unlockFailed → (e.settleKind o).reason.isSome := by
  unfold Ending.settleKind
  split
  · exact fun _ => rfl
  · exact h

theorem Ending.settleKind_named (e : Ending) (o : Order) : (e.settleKind o).named = e.named := by
  unfold Ending.settleKind; split <;> rfl

/-- A quiet change keeps what an ending reads. -/
theorem State.Nears.quiet {s t u : State} {d : DockId} (h : s.Nears t d) (q : t.Quiet u) : s.Nears u d := by
  obtain ⟨_, _, _, _, rfl, _, _⟩ := q; exact ⟨h.1, h.2, h.3, h.4, h.5⟩

/-- The end of a QUEUED order, its event latched first (R96; entry 34). -/
theorem State.EndedAt.endOrder {s u : State} {d : DockId} {o : Order} {event : Option Nat}
    (ho : s.queue.find? (fun x => x.dock == d) = some o) (hs : (s.dock d).state = .queued)
    (hn : (s.dock d).order = none) (e : Ending) (hr : e.kind = .unlockFailed → e.reason.isSome) (hq : s.Quiet u)
    (hd : u.dockPort = s.dockPort) (hnone : event = none → u = s)
    (hsome : ∀ n, event = some n → s.Latched u (kindSet n)) :
    s.EndedAt (u.endOrder d e) d o false (e.settleKind o).kind (e.settleKind o).reason event e.named.fault := by
  have hod : o.dock = d := by simpa using List.find?_some ho
  have hat : u.orderAt d = some o := by unfold State.orderAt; rw [hq.dock, hn, hq.queue]; exact ho
  have hend : u.endOrder d e = State.endSettled { u with dockPort := s.dockPort } o (e.settleKind o) := by
    unfold State.endOrder; rw [hat, ← hd, ← hod]
  rw [hend, ← e.settleKind_named o]
  exact .of_settled false hod (e.settleKind_reason hr o) (if_pos hs).symm
    (.quiet ⟨⟨rfl, rfl, rfl⟩, ⟨rfl, rfl⟩, rfl, rfl, rfl⟩ hq) hnone hsome

/-- What no change of a channel's activity touches. -/
theorem State.setActivity_outside (s : State) (d : DockId) (a : Activity) : ∃ docks sense,
    s.setActivity d a = { s with docks := docks, sense := sense } := by
  unfold State.setActivity State.converterAtChange State.endTurn State.beginCoilTurn State.beginSupplyTurn
  (repeat' split) <;> exact ⟨_, _, rfl⟩

/-- An order's end leaves the STOP state as it was. -/
theorem State.endOrder_stop (s : State) (d : DockId) (e : Ending) :
    (s.endOrder d e).stopAsserted = s.stopAsserted := by
  unfold State.endOrder
  split
  · exact (s.endSettled_fields _ _).2.1
  · rfl

/-- An ending by the drive unit, but for the grants that follow it at a PULLING dock (R119). -/
theorem State.EndedAt.driveEnd {s : State} {d : DockId} {o : Order} (h : s.OrdersOk) (ho : (s.dock d).order = some o)
    (event : Option EventKind) (closed : Bool) (e : Ending) (hr : e.kind = .unlockFailed → e.reason.isSome) :
    ∃ u, s.EndedAt u d o closed (e.settleKind o).kind (e.settleKind o).reason (event.map EventKind.number)
        e.named.fault ∧
      s.driveEnd d event closed e = (if (s.dock d).state = .pulling then u.evaluateGrants else u) ∧
      u.stopAsserted = s.stopAsserted := by
  have hod := (h.held d o ho).dock
  have hst : (s.dock d).state ≠ .queued := fun hq => by
    have := (h.docks d).order.1 (by rw [ho]; rfl)
    rw [hq] at this; cases this
  refine ⟨_, ?_, rfl, ?stop⟩
  case stop =>
    obtain ⟨docks, sense, hx⟩ := (s.modDock d Dock.leaveDrive).setActivity_outside d .inactive
    have told := (State.Quiet.latchOption ((s.modDock d Dock.leaveDrive).setActivity d .inactive) event).stopAsserted
    rw [hx] at told
    rw [State.endOrder_stop, hx]
    cases closed
    · exact told
    · exact (State.Quiet.result _ d .closed 0).stopAsserted.trans told
  generalize hoff : (s.modDock d Dock.leaveDrive).setActivity d .inactive = off
  have hself : off.dock d = { (s.dock d).leaveDrive with sense := (off.dock d).sense } := by
    rw [← hoff, setActivity_dock, if_pos rfl, s.dock_modDock_self]
  have near : s.Nears off d := by
    obtain ⟨docks, sense, hx⟩ := (s.modDock d Dock.leaveDrive).setActivity_outside d .inactive
    refine ⟨?_, ?_, ?_, ?_, by rw [hself]; rfl⟩ <;> rw [← hoff, hx] <;> simp [State.modDock]
  have hport : off.dockPort = s.dockPort := by
    obtain ⟨docks, sense, hx⟩ := (s.modDock d Dock.leaveDrive).setActivity_outside d .inactive
    rw [← hoff, hx]; rfl
  have hq : off.Quiet (off.latchOption event) := .latchOption ..
  have hpu : (off.latchOption event).dockPort = s.dockPort := by
    cases event with
    | none => exact hport
    | some k =>
      have := off.latch_dockPort off.dockPort k
      exact (congrArg State.dockPort this).trans hport
  have hres : (if closed = true then (off.latchOption event).result d .closed 0 else off.latchOption event) =
      { off.latchOption event with
        dockPort := if closed then s.dockPort.offered (s.dockPort.resultFrame d 2 0) else s.dockPort } := by
    rw [← hpu]
    cases closed
    · rfl
    · exact State.result_eq ..
  have hat (q : Port) : State.orderAt { off.latchOption event with dockPort := q } d = some o := by
    unfold State.orderAt
    rw [show State.dock { off.latchOption event with dockPort := q } d = off.dock d from hq.dock d, hself]
    have : ({ (s.dock d).leaveDrive with sense := (off.dock d).sense } : Dock).order = some o := ho
    rw [this]
  rw [hres]
  unfold State.endOrder
  rw [hat]
  show s.EndedAt (State.endSettled _ { o with dock := d } _) d o closed _ _ _ _
  rw [show ({ o with dock := d } : Order) = o by rw [← hod], ← e.settleKind_named o]
  refine .of_settled (off := off) closed hod (e.settleKind_reason hr o) ?_ (near.quiet hq) (fun hn => ?_) fun n hn => ?_
  · rw [if_neg hst, ← hoff]; rfl
  · cases event
    · rfl
    · cases hn
  · cases event with
    | none => cases hn
    | some k => cases hn; exact off.latch_latched k

end Sys2Proof.Machine
end

