-- ==== Sys2Proof/Laws/LinkKept.lean ====
section
/-! SUPPORT. The effects of commands keep the slots of the link unit (State.LinkOk), one lemma for each effect. -/

namespace Sys2Proof.Machine

theorem State.LinkOk.of {s t : State} (c : s.Calm t) (h : s.LinkOk) : t.LinkOk := h.calm c

/-- A state that can take the frame at the head of its station buffer and reply to it. -/
structure Takeable (s : State) (f : Frame) : Prop where
  ok : s.LinkOk
  head : s.station.rx.head? = some f
  waits : f.awaitsReply = true
  nb : s.rearrangement = none

theorem Takeable.calm {s t : State} {f} (h : Takeable s f) (c : s.Calm t) : Takeable t f :=
  ⟨h.ok.calm c, by rw [c.station.rx]; exact h.head, h.waits, by rw [c.rearrangement]; exact h.nb⟩

theorem Takeable.inside {s t : State} {f} (h : Takeable s f) 
    (station : t.station = s.station := by rfl) (dockPort : t.dockPort = s.dockPort := by rfl)
    (rearrangement : t.rearrangement = s.rearrangement := by rfl)
    (straps : t.straps = s.straps := by rfl) : Takeable t f :=
  ⟨h.ok.congr station dockPort (by rw [rearrangement]; exact id) straps, by rw [station]; exact h.head, h.waits, by rw [rearrangement]; exact h.nb⟩

theorem Takeable.replyWith {s : State} {f} (h : Takeable s f) (st data o) : (s.replyWith st data o).LinkOk :=
  h.ok.replyWith h.head h.waits h.nb st data o

theorem Takeable.reply {s : State} {f} (h : Takeable s f) (st) : (s.reply st).LinkOk :=
  h.replyWith st [] .none

theorem takeStation_link {s : State} (hs : s.LinkOk) (acc : Frame → Bool) (act)
   (h : ∀ f, s.station.rx.head? = some f → acc f = true → s.rearrangement = none → s.phase = .running → (act f s).LinkOk) : (s.takeStation acc act).LinkOk := by
  obtain h' | ⟨f, hp, _, hb, hf, ha, h'⟩ := s.takeStation_cases acc act
  · rw [h']; exact hs
  · rw [h']; exact h f hf ha hb hp

theorem takeRequest_link {s : State} (hs : s.LinkOk) (k : Kind) (hk : k ≠ .message) (n act)
   (h : ∀ p f, Takeable s f → (act p s).LinkOk) : (s.takeRequest k n act).LinkOk := by
  unfold State.takeRequest
  apply takeStation_link hs
  intro f hf ha hb _
  have hw : f.awaitsReply = true := by
    simp [Frame.isAddressed, Frame.awaitsReply] at *
    refine ⟨ha.1, ?_⟩
    rw [ha.2]
    revert hk; cases k <;> decide
  have ht : Takeable s f := ⟨hs, hf, hw, hb⟩
  split
  · exact h _ f ht
  · exact ht.reply _

theorem takeCommand_link {s : State} (hs : s.LinkOk) (c act)
   (h : ∀ d p f, Takeable s f → (act d p s).LinkOk) : (s.takeCommand c act).LinkOk := by
  unfold State.takeCommand
  apply takeStation_link hs
  intro f hf ha hb _
  have hw : f.awaitsReply = true := by
    simp [Frame.isAddressed, Frame.awaitsReply] at *
    refine ⟨ha.1.1, ?_⟩
    rw [ha.1.2]
    decide
  have ht : Takeable s f := ⟨hs, hf, hw, hb⟩
  split
  · exact ht.reply _
  · split
    · exact h _ _ f ht
    · exact ht.reply _

theorem decideAnswer_link {s : State} {f} (h : Takeable s f) (d tk e st) : (s.decideAnswer d tk e st).LinkOk := by
  unfold State.decideAnswer
  dsimp only
  split
  · exact ((h.calm (.modDock ..)).calm (State.Quiet.verdict ..).calm).replyWith ..
  · exact (h.calm (.admitted _ _ _ _ _ _ (tokenOf_serial_le _))).replyWith ..

theorem finishWork_link {s : State} {f} (h : Takeable s f) (w) : (s.finishWork w).LinkOk := by
  unfold State.finishWork
  split
  · exact Takeable.reply (s := s.insertPass _) (h.inside) _
  · exact h.reply _
  · exact Takeable.reply (s := { s with denies := _ }) (h.inside) _
  · exact h.reply _
  · exact decideAnswer_link (h.inside) ..

theorem rearrange_link {s : State} {f} (h : Takeable s f) (n w) : (s.rearrange n w).LinkOk := by
  unfold State.rearrange
  split
  · exact finishWork_link h w
  · exact { h.ok with busyHead := fun _ => ⟨f, h.head, h.waits⟩ }

theorem modPass_take {s : State} {f} (h : Takeable s f) (i g) : Takeable (s.modPass i g) f := h.inside

theorem fullReset_link (s : State) (z) : (s.fullReset z).LinkOk := by
  refine ⟨?_, ?_, ?_, ?_, ?_, ?_, ?_, ?_, ?_⟩ <;> simp [State.fullReset, State.afterReset, Port.atReset]

/-- Two ports that differ in their rates and lines alone. -/
structure PortSame (q r : Port) : Prop where
  rx : r.rx = q.rx
  tx : r.tx = q.tx
  reserved : r.reserved = q.reserved
  address : r.address = q.address

theorem PortSame.takeRate (q : Port) (r : Rate) (c : Nat) : PortSame q (q.takeRate r c) := by
  unfold Port.takeRate
  split
  · exact ⟨rfl, rfl, rfl, rfl⟩
  · exact ⟨rfl, rfl, rfl, rfl⟩

theorem State.LinkOk.portSame {s t : State} (h : s.LinkOk) (hs : PortSame s.station t.station)
    (hd : PortSame s.dockPort t.dockPort) (busy : t.rearrangement = s.rearrangement) (pins : t.straps = s.straps) :
    t.LinkOk where
  stationRx := hs.rx ▸ h.stationRx
  dockRx := hd.rx ▸ h.dockRx
  stationSlots := hs.tx ▸ hs.reserved ▸ h.stationSlots
  dockSlots := hd.tx ▸ hd.reserved ▸ h.dockSlots
  stationReserved := hs.reserved ▸ hs.rx ▸ hd.rx ▸ h.stationReserved
  dockReserved := hd.reserved ▸ hs.rx ▸ h.dockReserved
  busyHead := busy ▸ hs.rx ▸ h.busyHead
  stationAddress := hs.address ▸ pins ▸ h.stationAddress
  dockAddress := hd.address ▸ h.dockAddress

theorem enterRunning_link {s : State} (h : s.LinkOk) : s.enterRunning.LinkOk := by
  unfold State.enterRunning
  refine State.LinkOk.calm ?_ (State.Calm.evaluateAndAttend _)
  exact h.portSame (.takeRate ..) (.takeRate ..) rfl rfl

theorem endLoad_link {s : State} (h : s.LinkOk) (st) : (s.endLoad st).LinkOk := by
  unfold State.endLoad
  dsimp only
  split
  · exact enterRunning_link (h.congr rfl rfl id rfl)
  · exact enterRunning_link (State.LinkOk.of (State.Quiet.latch ..).calm (h.congr rfl rfl id rfl))

theorem judgeRecord_link {s : State} (h : s.LinkOk) (r) : (s.judgeRecord r).LinkOk := by
  unfold State.judgeRecord
  dsimp only
  split
  · split
    · exact endLoad_link h _
    · exact endLoad_link h _
    · unfold State.nextRecord
      split
      · apply endLoad_link
        unfold State.applyRecord
        split
        all_goals exact h.congr rfl rfl id rfl
      · unfold State.applyRecord
        split
        all_goals exact h.congr rfl rfl id rfl
  · exact endLoad_link h _

theorem setLine_link {s : State} (h : s.LinkOk) (p l) : (s.setLine p l).LinkOk := by
  cases p <;> exact h.portSame ⟨rfl, rfl, rfl, rfl⟩ ⟨rfl, rfl, rfl, rfl⟩ rfl rfl

theorem stationAddress_ne (x : BitVec 3) : Sys2Proof.stationAddress x ≠ 0 := by revert x; decide

theorem place_bcast {s : State} (h : s.LinkOk) (p f) (hb : f.isBroadcast = true) (hc : s.canReceive p = true) : (s.modPort p (·.place f)).LinkOk := by
  have h5 := h.stationReserved
  have h6 := h.dockReserved
  have h7 := h.busyHead
  cases p <;> simp [State.canReceive] at hc
  · refine ⟨?_, h.2, h.3, h.4, ?_, ?_, ?_, h.8, h.9⟩
    · simp [Port.place]; omega
    · simp [Port.place, Frame.awaitsReply, hb]; simpa [Frame.awaitsReply] using h5
    · simp [Port.place, Frame.awaitsForward, hb]; simpa [Frame.awaitsForward] using h6
    · intro hr
      obtain ⟨g, hg, hg'⟩ := h7 hr
      refine ⟨g, ?_, hg'⟩
      cases hx : s.station.rx <;> simp_all [Port.place]
  · refine ⟨h.1, ?_, h.3, h.4, ?_, ?_, ?_, h.8, h.9⟩
    · simp [Port.place]; omega
    · simp [Port.place, Frame.awaitsForward, hb]; simpa [Frame.awaitsForward] using h5
    · exact h6
    · exact h7

theorem place_addr {s : State} (h : s.LinkOk) (p f) (hb : f.isBroadcast = false) (hc : s.acknowledges p f = true) :
   ((s.reserveOn (f.reservesOn p)).modPort p (·.place f)).LinkOk := by
  have h5 := h.stationReserved
  have h6 := h.dockReserved
  have h7 := h.busyHead
  have h3 := h.stationSlots
  have h4 := h.dockSlots
  simp [State.acknowledges, State.canReceive] at hc
  obtain ⟨⟨hr, _⟩, hsl⟩ := hc
  cases p <;> by_cases hm : f.kind = Kind.message.code
  all_goals simp [Frame.reservesOn, hm, otherPort, State.hasSlot, Port.free, State.reserveOn] at hsl hr ⊢
  all_goals refine ⟨?_, ?_, ?_, ?_, ?_, ?_, ?_, h.8, h.9⟩
  all_goals simp [Port.place, Port.reserve, Frame.awaitsReply, Frame.awaitsForward, hb, hm] at h5 h6 h7 ⊢
  all_goals first | omega | exact h.1 | exact h.2 | assumption | skip
  all_goals
      intro hr
      obtain ⟨g, hg, hg'⟩ := h7 hr
      simp_all

theorem judgeFrame_link {s : State} (h : s.LinkOk) (p f) : (s.judgeFrame p f).LinkOk := by
  unfold State.judgeFrame
  split
  · split
    · exact place_bcast h p f ‹_› ‹_›
    · exact h
  · split
    · split
      · exact place_addr h p f (by simpa using ‹¬f.isBroadcast = true›) ‹_›
      · exact h
    · exact h

theorem advanceTo_link {s : State} (h : s.LinkOk) (n) : (s.advanceTo n).LinkOk := h.calm (.advanceTo ..)

theorem receive_link {s : State} (h : s.LinkOk) (p n hd pl ck) : (s.receive p n hd pl ck).LinkOk := by
  unfold State.receive
  dsimp only
  split
  · exact judgeFrame_link (setLine_link (advanceTo_link h _) _ _) _ _
  · exact (setLine_link (advanceTo_link h _) _ _)

theorem tellOwner_link {s : State} (h : s.LinkOk) (o w z) : (s.tellOwner o w z).LinkOk := by
  unfold State.tellOwner
  split
  · exact h
  · unfold State.referralDeparted
    split
    · exact h
    · exact h.congr rfl rfl id rfl
    · exact h.calm (.endReferral ..)
  · unfold State.collectDeparted
    dsimp only
    split
    · exact State.LinkOk.of (.removeLogHead _) (h.congr rfl rfl id rfl)
    · exact (h.congr rfl rfl id rfl)
  · unfold State.eventReadDeparted
    dsimp only
    split
    · exact State.LinkOk.of (State.Quiet.attend _).calm (h.congr rfl rfl id rfl)
    · exact (h.congr rfl rfl id rfl)
  · exact fullReset_link s _

theorem stationDeparture_link {s : State} (h : s.LinkOk) (o w z) : (s.stationDeparture o w z).LinkOk := by
  have ow : ∀ {s : State}, s.LinkOk → s.attendOwed.LinkOk := fun h => h.calm (State.Quiet.attendOwed _).calm
  have sp : ∀ {s : State}, s.LinkOk → (s.spendFree 1).LinkOk := fun h => h.calm (State.Quiet.spendFree ..).calm
  unfold State.stationDeparture
  split
  · exact ow h
  · split
    · exact ow (tellOwner_link (sp h) _ _ _)
    · exact tellOwner_link (ow (sp h)) _ _ _
  · exact tellOwner_link h _ _ _

theorem popTx_link {s : State} (h : s.LinkOk) (p) : (s.popTx p).LinkOk := by
  have h3 := h.stationSlots
  have h4 := h.dockSlots
  cases p
  · exact ⟨h.1, h.2, by simp [State.popTx]; omega, h.4, h.5, h.6, h.7, h.8, h.9⟩
  · exact ⟨h.1, h.2, h.3, by simp [State.popTx]; omega, h.5, h.6, h.7, h.8, h.9⟩

theorem departure_link {s t : State} (h : s.LinkOk) (p levels) (e : execFrameDeparture p levels s = .next t) : t.LinkOk := by
  unfold execFrameDeparture at e
  obtain rfl | ⟨_, rfl⟩ := State.perform_cases e
  · exact h
  · split
    · dsimp only
      rename_i since head _ hl _
      have : ((s.endAttempt p since head.frame.payload.length levels.readBack).popTx p).LinkOk := by
        apply popTx_link
        unfold State.endAttempt
        split
        · exact setLine_link h _ _
        · exact setLine_link (advanceTo_link h _) _ _
        · exact setLine_link (advanceTo_link h _) _ _
      split
      · exact stationDeparture_link this _ _ _
      · exact this
    · exact h

theorem msgFrom_link {s t : State} (h : s.LinkOk) (e : execMessageFromReader s = .next t) : t.LinkOk := by
  unfold execMessageFromReader at e
  obtain rfl | ⟨_, rfl⟩ := State.perform_cases e
  · exact h
  obtain h' | ⟨f, _, _, hf, ha, h'⟩ := s.takeDock_cases (fun f => f.isAddressed .message) fun f u =>
      (u.modPort .station (·.pushReserved ⟨u.upstream f, .none⟩)).release .dock
  · rw [h']; exact h
  rw [h']
  obtain ⟨rest, hrx⟩ : ∃ rest, s.dockPort.rx = f :: rest := by
    cases hx : s.dockPort.rx <;> simp_all
  have hw : f.awaitsForward = true := by simpa [Frame.isAddressed, Frame.awaitsForward] using ha
  have waits := h.stationReserved
  have slots := h.stationSlots
  have room := h.dockRx
  simp only [hrx, List.countP_cons, hw, List.length_cons, if_true] at waits room
  exact { h with
    dockRx := by simp [State.release, Port.popRx, hrx]; omega
    stationSlots := by simp [State.release, Port.pushReserved]; omega
    stationReserved := by simp [State.release, Port.pushReserved, Port.popRx, hrx]; omega }

theorem msgTo_link {s t : State} (h : s.LinkOk) (e : execMessageToReader s = .next t) : t.LinkOk := by
  unfold execMessageToReader at e
  obtain rfl | ⟨_, rfl⟩ := State.perform_cases e
  · exact h
  obtain h' | ⟨f, _, _, hb, hf, ha, h'⟩ := s.takeStation_cases (fun f => f.isAddressed .message) fun f u =>
      (u.modPort .dock (·.pushReserved ⟨u.downstream f, .none⟩)).release .station
  · rw [h']; exact h
  rw [h']
  obtain ⟨rest, hrx⟩ : ∃ rest, s.station.rx = f :: rest := by
    cases hx : s.station.rx <;> simp_all
  have hw : f.awaitsForward = true := by simpa [Frame.isAddressed, Frame.awaitsForward] using ha
  have hw' := Frame.not_reply_of_forward hw
  have waits := h.dockReserved
  have others := h.stationReserved
  have slots := h.dockSlots
  have room := h.stationRx
  simp [hrx, hw, hw'] at waits others room
  exact { h with
    stationRx := by simp [State.release, Port.popRx, hrx]; omega
    dockSlots := by simp [State.release, Port.pushReserved]; omega
    stationReserved := by simp [State.release, Port.pushReserved, Port.popRx, hrx]; omega
    dockReserved := by simp [State.release, Port.pushReserved, Port.popRx, hrx]; omega
    busyHead := by simp [State.release, hb] }

theorem takeDock_link {s : State} (hs : s.LinkOk) (acc : Frame → Bool) (act)
   (h : ∀ f, s.dockPort.rx.head? = some f → acc f = true → s.phase = .running → (act f s).LinkOk) : (s.takeDock acc act).LinkOk := by
  obtain h' | ⟨f, hp, _, hf, ha, h'⟩ := s.takeDock_cases acc act
  · rw [h']; exact hs
  · rw [h']; exact h f hf ha hp

theorem rel_d {s t : State} (h : s.LinkOk) (c : s.Calm t) {f : Frame} (hf : s.dockPort.rx.head? = some f)
    (hw : f.awaitsForward = false) : (t.release .dock).LinkOk :=
  (h.calm c).releaseDockPort (by rw [c.dockPort.rx]; exact hf) hw

theorem rel_s {s t : State} (h : s.LinkOk) (c : s.Calm t) {f : Frame} (hf : s.station.rx.head? = some f)
    (hw : f.isBroadcast = true) (hb : s.rearrangement = none) : (t.release .station).LinkOk :=
  (h.calm c).releaseStation (by rw [c.station.rx]; exact hf) hw (by rw [c.rearrangement]; exact hb)

theorem writeAnswered_link {s : State} {f} (h : Takeable s f) (r w) : (s.writeAnswered r w).LinkOk := by
  unfold State.writeAnswered
  split
  · split
    · exact decideAnswer_link h ..
    · exact decideAnswer_link (s := s.modPass _ _) h.inside ..
  · split
    · exact decideAnswer_link h ..
    · exact rearrange_link h ..

theorem takeAnswer_link {s : State} (hs : s.LinkOk) (a n act)
   (h : ∀ r p f, Takeable s f → (act r p s).LinkOk) : (s.takeAnswer a n act).LinkOk := by
  unfold State.takeAnswer
  apply takeStation_link hs
  intro f hf ha hb _
  have hw : f.awaitsReply = true := by
    simp [Frame.isAddressed, Frame.awaitsReply] at *
    refine ⟨ha.1.1, ?_⟩
    rw [ha.1.2]
    decide
  have ht : Takeable s f := ⟨hs, hf, hw, hb⟩
  split
  · exact ht.reply _
  · split
    · exact ht.reply _
    · exact h _ _ f ht

end Sys2Proof.Machine
end

