-- ==== Sys2Proof/Laws/Stop.lean ====
section
/-! SUPPORT. An assertion of STOP, in whatever order its acts come (R106): it keeps docks, orders, referrals and the log in
agreement. -/

namespace Sys2Proof.Machine

theorem mem_insertFree {α} {n : Nat} {x y : α} {l : List α} : y ∈ insertFree n x l ↔ y = x ∨ y ∈ l := by
  unfold insertFree
  generalize n % (l.length + 1) = k
  conv_rhs => rw [← List.take_append_drop k l]
  simp only [List.mem_append, List.mem_cons]
  tauto

theorem mem_arrangeFree {α} {f : Nat → Nat} {y : α} {l : List α} {k} : y ∈ arrangeFree f k l ↔ y ∈ l := by
  induction l generalizing k with
  | nil => simp [arrangeFree]
  | cons x l ih =>
    cases l with
    | nil => simp [arrangeFree]
    | cons z l =>
      rw [arrangeFree, mem_insertFree, ih]
      simp
      simp

theorem mem_mergeFree {α} {f : Nat → Nat} {y : α} {xs ys : List α} {k} : y ∈ mergeFree f k xs ys ↔ y ∈ xs ∨ y ∈ ys := by
  induction xs generalizing k ys with
  | nil => cases ys <;> simp [mergeFree]
  | cons x xs ih =>
    cases ys with
    | nil => simp [mergeFree]
    | cons z zs =>
      rw [mergeFree]
      · generalize f k % ((z :: zs).length + 1) = n
        simp only [List.mem_append, List.mem_cons, ih]
        rw [show (y = z ∨ y ∈ zs) ↔ y ∈ z :: zs by simp]
        conv_rhs => rw [← List.take_append_drop n (z :: zs), List.mem_append]
        tauto
      · simp

theorem mem_stopActs {s : State} {a : StopAct} : a ∈ s.stopActs ↔
    (∃ o ∈ s.queue, a = .queued o.dock) ∨ (∃ r ∈ s.referrals, a = .referral r) ∨ ∃ d, (s.dock d).state = .pulling ∧ a = .pulling d := by
  unfold State.stopActs
  rw [mem_mergeFree, mem_mergeFree, mem_arrangeFree]
  have : ∀ d, d ∈ s.docksIn .pulling ↔ (s.dock d).state = .pulling := fun d => by
    simp only [State.docksIn, List.mem_filter, beq_iff_eq, and_iff_right_iff_imp]
    exact fun _ => List.mem_finRange d
  simp only [List.mem_map, this, eq_comm]

/-- What an act of STOP can do to docks and referrals. -/
structure StopFrame (s t : State) : Prop where
  off : ∀ x, (s.dock x).Off → (t.dock x).Off
  rest : ∀ x, (s.dock x).inFlight = false → (t.dock x).inFlight = false
  opened : ∀ x, (s.dock x).state = .opened → (t.dock x).state = .opened ∧ (t.dock x).order = (s.dock x).order
  newOpened : ∀ x, (t.dock x).state = .opened → (s.dock x).state = .opened
  referrals : ∀ r ∈ t.referrals, r ∈ s.referrals
  stop : t.stopAsserted = s.stopAsserted

theorem StopFrame.refl (s : State) : StopFrame s s := ⟨fun _ => id, fun _ => id, fun _ h => ⟨h, rfl⟩, fun _ => id, fun _ => id, rfl⟩

theorem StopFrame.trans {s t u : State} (h : StopFrame s t) (h' : StopFrame t u) : StopFrame s u :=
  ⟨fun x k => h'.1 x (h.1 x k), fun x k => h'.2 x (h.2 x k),
   fun x k => ⟨(h'.3 x (h.3 x k).1).1, (h'.3 x (h.3 x k).1).2.trans (h.3 x k).2⟩,
   fun x k => h.4 x (h'.4 x k), fun r k => h.5 r (h'.5 r k), h'.6.trans h.6⟩

theorem StopFrame.quiet {s t : State} (h : s.Quiet t) : StopFrame s t :=
  ⟨fun x => by rw [h.dock]; exact id, fun x => by rw [h.dock]; exact id, fun x k => by rw [h.dock]; exact ⟨k, rfl⟩,
   fun x => by rw [h.dock]; exact id, fun r => by rw [h.referrals]; exact id, h.stopAsserted⟩

/-- An ending at a dock that is not OPEN. -/
theorem StopFrame.endOrder (s : State) (d e) (hd : (s.dock d).state ≠ .opened) : StopFrame s (s.endOrder d e) := by
  unfold State.endOrder
  split
  · rename_i o _
    generalize ho : ({ o with dock := d } : Order) = o'
    have hod : o'.dock = d := by subst ho; rfl
    generalize e.settleKind o = e'
    have hself := s.endSettled_self o' e'
    rw [hod] at hself
    have hne := fun x (h : x ≠ d) => s.endSettled_ne o' e' (x := x) (by rw [hod]; exact h)
    obtain ⟨f1, f2, f3⟩ := s.endSettled_fields o' e'
    have hr := Rests.settle ({ s.dock d with boundPass := none, boundSerial := none, origin := none, order := none } : Dock) e'.named
    rw [← hself] at hr
    refine ⟨?_, ?_, ?_, ?_, by rw [f1]; exact fun _ => id, f2⟩
    · intro x hx
      by_cases hxd : x = d
      · subst hxd
        exact ⟨by rw [hr.chan]; exact hx.1, by rw [hr.chan]; exact hx.2, by have := hx.3; unfold Dock.active at *; rw [hr.sense]; exact this, by rw [hr.chan]; exact hx.4⟩
      · rw [hne x hxd]; exact hx
    · intro x hx
      by_cases hxd : x = d
      · subst hxd; exact hr.state
      · rw [hne x hxd]; exact hx
    · intro x hx
      by_cases hxd : x = d
      · subst hxd; exact absurd hx hd
      · rw [hne x hxd]; exact ⟨hx, rfl⟩
    · intro x hx
      by_cases hxd : x = d
      · subst hxd
        have := hr.state
        simp [Dock.inFlight, hx, DockState.inFlight] at this
      · rw [hne x hxd] at hx; exact hx
  · exact .refl s

theorem evaluateGrants_stop {s : State} (h : s.stopAsserted = true) : s.evaluateGrants = s := by
  unfold State.evaluateGrants
  cases hq : s.queue with
  | nil => rfl
  | cons o l => simp [State.grantLoop, h]

theorem StopFrame.leave (s : State) (d) : StopFrame s ((s.modDock d Dock.leaveDrive).setActivity d .inactive) := by
  have hd : ∀ x, x ≠ d → ((s.modDock d Dock.leaveDrive).setActivity d .inactive).dock x = s.dock x := fun x hx => by
    rw [setActivity_dock, if_neg hx, s.dock_modDock_ne _ _ _ hx]
  have hs := s.leave_off d
  have hst := State.Steady.leave s d
  have hself : ∃ sn, ((s.modDock d Dock.leaveDrive).setActivity d .inactive).dock d = { (s.dock d).leaveDrive with sense := sn } := by
    rw [setActivity_dock, if_pos rfl, s.dock_modDock_self]; exact ⟨_, rfl⟩
  obtain ⟨sn, hself⟩ := hself
  refine ⟨?_, ?_, ?_, ?_, ?_, ?_⟩
  · intro x hx
    by_cases h : x = d
    · subst h; exact hs
    · rw [hd x h]; exact hx
  · intro x hx; rw [(hst.docks x).inFlight]; exact hx
  · intro x hx
    by_cases h : x = d
    · subst h; rw [hself]; exact ⟨hx, rfl⟩
    · rw [hd x h]; exact ⟨hx, rfl⟩
  · intro x hx
    by_cases h : x = d
    · subst h; rw [hself] at hx; exact hx
    · rw [hd x h] at hx; exact hx
  · have : ∀ t : State, ∀ a, (t.setActivity d a).referrals = t.referrals := by
      intro t a
      unfold State.setActivity State.converterAtChange State.endTurn State.beginCoilTurn State.beginSupplyTurn
      (repeat' split) <;> rfl
    rw [this]; exact fun _ => id
  · unfold State.setActivity State.converterAtChange State.endTurn State.beginCoilTurn State.beginSupplyTurn
    (repeat' split) <;> rfl

theorem StopFrame.driveEnd {s : State} (hs : s.stopAsserted = true) (d ev c e) (hd : (s.dock d).state ≠ .opened) : StopFrame s (s.driveEnd d ev c e) := by
  unfold State.driveEnd
  dsimp only
  set off := (s.modDock d Dock.leaveDrive).setActivity d .inactive with hoff
  have h1 : StopFrame s off := .leave s d
  have hq : off.Quiet (if c = true then (off.latchOption ev).result d .closed 0 else off.latchOption ev) := by
    split
    · exact (State.Quiet.latchOption ..).trans (.result ..)
    · exact .latchOption ..
  have h2 := h1.trans ((StopFrame.quiet hq).trans (.endOrder _ d e (by rw [hq.dock]; exact fun hx => hd (h1.newOpened d hx))))
  split
  · rw [evaluateGrants_stop (by rw [h2.stop]; exact hs)]; exact h2
  · exact h2

/-- A change of dock bindings and a shorter referral list are within what an act of STOP may do. -/
theorem StopFrame.ofBindings {s t : State}
    (same : ∀ x, ∃ pass serial, t.dock x = { s.dock x with boundPass := pass, boundSerial := serial })
    (fewer : ∀ r ∈ t.referrals, r ∈ s.referrals) (line : t.stopAsserted = s.stopAsserted) : StopFrame s t := by
  have off (x : DockId) : (t.dock x).Off ↔ (s.dock x).Off := by
    obtain ⟨_, _, e⟩ := same x
    rw [e]
    exact ⟨fun k => { k with }, fun k => { k with }⟩
  have fields (x : DockId) : (t.dock x).state = (s.dock x).state ∧ (t.dock x).order = (s.dock x).order := by
    obtain ⟨_, _, e⟩ := same x
    rw [e]
    exact ⟨rfl, rfl⟩
  exact {
    off := fun x => (off x).2
    rest := fun x k => by unfold Dock.inFlight at *; rw [(fields x).1]; exact k
    opened := fun x k => ⟨(fields x).1.trans k, (fields x).2⟩
    newOpened := fun x k => (fields x).1.symm.trans k
    referrals := fewer
    stop := line }

theorem StopFrame.endReferral (s : State) (r v n) : StopFrame s (s.endReferral r v n) := by
  unfold State.endReferral
  refine StopFrame.trans ?_ (.quiet (.verdict ..))
  refine .ofBindings (fun x => ?_) (fun x hx => (List.mem_filter.1 hx).1) rfl
  rw [State.dock_modDock]
  split
  · rename_i h; subst h; exact ⟨none, none, rfl⟩
  · exact ⟨_, _, rfl⟩

/-- An act of STOP that may come now. -/
def State.Actable (s : State) : StopAct → Prop
  | .queued d => (s.dock d).Off ∧ (s.dock d).state ≠ .opened
  | .pulling d => (s.dock d).state ≠ .opened
  | .referral r => (s.dock r.dock).inFlight = false ∧ ∀ x ∈ s.referrals, x.number ≠ r.number → x.dock ≠ r.dock

theorem State.Actable.frame {s t : State} (h : StopFrame s t) {a} (ha : s.Actable a) : t.Actable a := by
  cases a with
  | queued d => exact ⟨h.off d ha.1, fun hx => ha.2 (h.newOpened d hx)⟩
  | pulling d => exact fun hx => ha (h.newOpened d hx)
  | referral r => exact ⟨h.rest _ ha.1, fun x hx => ha.2 x (h.referrals x hx)⟩

theorem State.OrdersOk.applyStop {s : State} (h : s.OrdersOk) (hs : s.stopAsserted = true) {a} (ha : s.Actable a) :
    (s.applyStop a).OrdersOk ∧ StopFrame s (s.applyStop a) := by
  cases a with
  | queued d => exact ⟨h.endOrder d ha.1 _, .endOrder s d _ ha.2⟩
  | pulling d => exact ⟨h.driveEnd .., .driveEnd hs _ _ _ _ ha⟩
  | referral r => exact ⟨h.endReferral' r ha.1 ha.2 _ _, .endReferral ..⟩

theorem State.OrdersOk.applyStops {l : List StopAct} {s : State} (h : s.OrdersOk) (hs : s.stopAsserted = true) (ha : ∀ a ∈ l, s.Actable a) :
    (l.foldl State.applyStop s).OrdersOk ∧ StopFrame s (l.foldl State.applyStop s) := by
  induction l generalizing s with
  | nil => exact ⟨h, .refl s⟩
  | cons a l ih =>
    obtain ⟨h1, h2⟩ := h.applyStop hs (ha a (by simp))
    obtain ⟨h3, h4⟩ := ih h1 (by rw [h2.stop]; exact hs) fun b hb => (ha b (by simp [hb])).frame h2
    exact ⟨h3, h2.trans h4⟩

theorem State.OrdersOk.closeAll {l : List DockId} {s : State} (h : s.OrdersOk) (hn : l.Nodup) (ho : ∀ d ∈ l, (s.dock d).state = .opened) :
    (l.foldl (fun t d => t.beginClosing d true) s).OrdersOk := by
  induction l generalizing s with
  | nil => exact h
  | cons d l ih =>
    obtain ⟨hd, hn⟩ := List.nodup_cons.1 hn
    refine ih (h.steady (.beginClosing s d true (ho d (by simp)))) hn fun x hx => ?_
    have hxd : x ≠ d := fun e => hd (e ▸ hx)
    unfold State.beginClosing
    rw [setActivity_dock, if_neg hxd, s.dock_modDock_ne _ _ _ hxd]
    exact ho x (by simp [hx])

theorem State.OrdersOk.actable {s : State} (h : s.OrdersOk) {a} (ha : a ∈ s.stopActs) : s.Actable a := by
  rcases mem_stopActs.1 ha with ⟨o, ho, rfl⟩ | ⟨r, hr, rfl⟩ | ⟨d, hd, rfl⟩
  · have hs := (h.queued o ho).2
    exact ⟨(h.docks _).off (by rw [hs]; rfl), by simp [hs]⟩
  · exact ⟨(h.referrals r hr).resting, fun x hx hn e => hn (by rw [nodup_map_unique h.referralDocks hx hr e])⟩
  · show (s.dock d).state ≠ _
    rw [hd]; simp

theorem State.OrdersOk.stopEffects {s : State} (h : s.OrdersOk) (hs : s.stopAsserted = true) : s.stopEffects.OrdersOk := by
  unfold State.stopEffects
  have h0 : (s.spendFree 64).OrdersOk := h.steady (State.Quiet.spendFree ..).steady
  obtain ⟨h1, h2⟩ := h0.applyStops (l := s.stopActs) hs fun a ha => State.Actable.frame (.quiet (.spendFree ..)) (h.actable ha)
  refine h1.closeAll ((List.nodup_finRange 16).filter _) fun d hd => ?_
  refine (h2.opened d ?_).1
  have : (s.dock d).state = .opened := by simpa using (List.mem_filter.1 hd).2
  exact this

theorem State.OrdersOk.stopAllEffects {s : State} (h : s.OrdersOk) : s.stopAllEffects.OrdersOk := by
  have h1 : State.OrdersOk { State.stopEffects { s with stopAsserted := true } with stopAsserted := s.stopAsserted } := by
    have : State.OrdersOk { s with stopAsserted := true } := h.steady .outside
    exact (this.stopEffects rfl).steady .outside
  unfold State.stopAllEffects
  dsimp only
  split
  · exact h1
  · exact h1.evaluateGrants

end Sys2Proof.Machine
end

