-- ==== Sys2Proof/Laws/StopSequence.lean ====
section
/-! SUPPORT. What an assertion of STOP ends, one after the other, in the terms of the statements (State.StopSequence):
the acts of State.stopActs are the endings of the queued orders, of the pull-ins and of the referrals. -/

namespace Sys2Proof.Machine

/-- The dock that an act of STOP is about. -/
def StopAct.dock : StopAct → DockId
  | .queued d => d
  | .pulling d => d
  | .referral r => r.dock

/-- What an act of STOP ends: the queued order or the pull-in of its dock, or its referral. -/
def StopAct.Ends (s : State) : StopAct → Order ⊕ Referral → Prop
  | .queued d, .inl o => (s.dock d).state = .queued ∧ s.queue.find? (fun x => x.dock == d) = some o
  | .pulling d, .inl o => (s.dock d).state = .pulling ∧ (s.dock d).order = some o
  | .referral r, .inr x => x = r
  | _, _ => False

/-- Nothing at dock `x` has changed, and its place in the queue is as it was. -/
structure State.Apart (s t : State) (x : DockId) : Prop where
  dock : t.dock x = s.dock x
  order : t.queue.find? (fun o => o.dock == x) = s.queue.find? (fun o => o.dock == x)

theorem State.Apart.trans {s t u : State} {x : DockId} (first : s.Apart t x) (second : t.Apart u x) : s.Apart u x where
  dock := second.dock.trans first.dock
  order := second.order.trans first.order

theorem State.Apart.quiet {s t : State} (h : s.Quiet t) (x : DockId) : s.Apart t x where
  dock := h.dock x
  order := by rw [h.queue]

theorem State.Apart.endOrder (s : State) {d x : DockId} (e : Ending) (h : x ≠ d) : s.Apart (s.endOrder d e) x := by
  unfold State.endOrder
  split
  · refine ⟨s.endSettled_ne _ _ h, ?_⟩
    rw [(s.endSettled_fields _ _).2.2, List.find?_filter]
    congr 1
    funext o
    by_cases ho : o.dock = x
    · simp [ho, h]
    · simp [ho]
  · exact ⟨rfl, rfl⟩

theorem State.Apart.leave (s : State) {d x : DockId} (h : x ≠ d) :
    s.Apart ((s.modDock d Dock.leaveDrive).setActivity d .inactive) x where
  dock := by rw [setActivity_dock, if_neg h, s.dock_modDock_ne _ _ _ h]
  order := by
    obtain ⟨docks, sense, e⟩ := (s.modDock d Dock.leaveDrive).setActivity_outside d .inactive
    rw [e]; rfl

/-- With STOP asserted an ending by the drive unit is followed by no grant. -/
theorem State.driveEnd_stopped {s : State} (stop : s.stopAsserted = true) (d : DockId) (e : Ending) :
    s.driveEnd d none false e = ((s.modDock d Dock.leaveDrive).setActivity d .inactive).endOrder d e := by
  unfold State.driveEnd
  dsimp only
  split
  · rw [evaluateGrants_stop]
    · rfl
    · obtain ⟨docks, sense, hx⟩ := (s.modDock d Dock.leaveDrive).setActivity_outside d .inactive
      rw [State.endOrder_stop, hx]
      exact stop
  · rfl

/-- An act of STOP leaves every dock but its own apart: with STOP asserted no grant follows. -/
theorem State.Apart.applyStop {s : State} (stop : s.stopAsserted = true) {a : StopAct} {x : DockId} (h : x ≠ a.dock) :
    s.Apart (s.applyStop a) x := by
  cases a with
  | queued d => exact .endOrder s _ h
  | pulling d =>
    rw [show s.applyStop (.pulling d) = _ from State.driveEnd_stopped stop d _]
    exact (State.Apart.leave s h).trans (.endOrder _ _ h)
  | referral r =>
    show s.Apart (s.endReferral r .stopped 0) x
    unfold State.endReferral
    refine State.Apart.trans ?_ (.quiet (.verdict ..) x)
    exact ⟨State.dock_modDock_ne _ _ _ _ h, rfl⟩

/-- One act of STOP is the ending it stands for. -/
theorem State.StopSequence.applyStop {s : State} (h : s.OrdersOk) (stop : s.stopAsserted = true) {a : StopAct}
    {e : Order ⊕ Referral} (names : a.Ends s e) {rest : List (Order ⊕ Referral)} {t : State}
    (later : (s.applyStop a).StopSequence rest t) : s.StopSequence (e :: rest) t := by
  cases a with
  | queued d =>
    cases e with
    | inr r => exact names.elim
    | inl o =>
      obtain ⟨hs, ho⟩ := names
      have hd : o.dock = d := by simpa using List.find?_some ho
      have hn : (s.dock d).order = none := by
        have := (h.docks d).order
        rw [hs] at this
        simpa [DockState.withDrive] using this
      subst hd
      exact ⟨_, .endOrder ho hs hn (.failed .abortedStop .parked) (fun _ => rfl) (.refl s) rfl (fun _ => rfl) nofun, later⟩
  | pulling d =>
    cases e with
    | inr r => exact names.elim
    | inl o =>
      obtain ⟨hs, ho⟩ := names
      have hd := (h.held d o ho).dock
      subst hd
      obtain ⟨u, hu, eq, line⟩ := State.EndedAt.driveEnd h ho none false (.failed .abortedStop .fromSensors) (fun _ => rfl)
      rw [if_pos hs, evaluateGrants_stop] at eq
      · exact ⟨u, hu, eq ▸ later⟩
      · exact line.trans stop
  | referral r =>
    cases e with
    | inl o => exact names.elim
    | inr x =>
      cases names
      have told : s.applyStop (.referral r) = s.referralEnded r 3 0 := s.endReferral_eq r .stopped 0
      rw [told] at later
      exact later

/-- What an act ends is the same in a state that is the same at its dock. -/
theorem StopAct.Ends.apart {s t : State} {a : StopAct} {e : Order ⊕ Referral} (names : a.Ends s e)
    (same : s.Apart t a.dock) : a.Ends t e := by
  cases a with
  | queued d =>
    cases e with
    | inl o => exact ⟨(congrArg Dock.state same.dock).trans names.1, same.order.trans names.2⟩
    | inr r => exact names
  | pulling d =>
    cases e with
    | inl o => exact ⟨(congrArg Dock.state same.dock).trans names.1, (congrArg Dock.order same.dock).trans names.2⟩
    | inr r => exact names
  | referral r => cases e <;> exact names

theorem StopAct.Ends.allApart {s t : State} {acts : List StopAct} {ends : List (Order ⊕ Referral)}
    (same : ∀ a ∈ acts, s.Apart t a.dock) (names : List.Forall₂ (StopAct.Ends s) acts ends) :
    List.Forall₂ (StopAct.Ends t) acts ends := by
  induction names with
  | nil => exact .nil
  | cons first _ ih =>
    have same' := List.forall_mem_cons.1 same
    exact .cons (first.apart same'.1) (ih same'.2)

/-- Acts of STOP about different docks, one after the other, are the sequence of the endings they stand for. -/
theorem State.StopSequence.applyStops {acts : List StopAct} {ends : List (Order ⊕ Referral)} {s : State} (h : s.OrdersOk)
    (stop : s.stopAsserted = true) (able : ∀ a ∈ acts, s.Actable a) (docks : (acts.map StopAct.dock).Nodup)
    (names : List.Forall₂ (StopAct.Ends s) acts ends) : s.StopSequence ends (acts.foldl State.applyStop s) := by
  induction acts generalizing s ends with
  | nil => cases names; rfl
  | cons a acts ih =>
    obtain _ | ⟨first, others⟩ := names
    have able' := List.forall_mem_cons.1 able
    obtain ⟨alone, docks⟩ := List.nodup_cons.1 docks
    obtain ⟨kept, frame⟩ := h.applyStop stop able'.1
    have away : ∀ b ∈ acts, s.Apart (s.applyStop a) b.dock := fun b hb =>
      .applyStop stop fun same => alone (same ▸ List.mem_map_of_mem hb)
    exact .applyStop h stop first (ih kept (frame.stop.trans stop) (fun b hb => (able'.2 b hb).frame frame) docks
      (StopAct.Ends.allApart away others))

/-- The closing of an OPEN dock at a STOP, in the terms of the statements. -/
theorem State.beginClosing_eq (s : State) (d : DockId) : s.beginClosing d true = s.stopClosed d := by
  unfold State.beginClosing State.stopClosed
  simp only [Bool.or_true]
  rfl

end Sys2Proof.Machine
end

