-- ==== Sys2Proof/Laws/TablesKept.lean ====
section
/-! SUPPORT. The effects of commands keep the pass table and the deny list (State.TablesOk), one lemma for each
effect. -/

namespace Sys2Proof.Machine

theorem State.TablesOk.congr {s t : State} (h : s.TablesOk) (passes : t.passes = s.passes) (denies : t.denies = s.denies)
    (work : ∀ r ∈ t.rearrangement, s.WorkFits r.work) : t.TablesOk where
  passOrder := by rw [passes]; exact h.passOrder
  passCount := by rw [passes]; exact h.passCount
  passRange := by rw [passes]; exact h.passRange
  denyOrder := by rw [denies]; exact h.denyOrder
  denyCount := by rw [denies]; exact h.denyCount
  denyRange := by rw [denies]; exact h.denyRange
  work := by
    intro r hr
    have := work r hr
    unfold State.WorkFits at *
    rw [passes, denies]
    exact this

theorem State.TablesOk.same {s t : State} (h : s.TablesOk) (passes : t.passes = s.passes := by rfl) (denies : t.denies = s.denies := by rfl)
    (rearrangement : t.rearrangement = s.rearrangement := by rfl) : t.TablesOk :=
  h.congr passes denies (by rw [rearrangement]; exact h.work)

theorem State.TablesOk.passesKept {s t : State} (h : s.TablesOk) (passes : PassesKept s.passes t.passes) (denies : t.denies = s.denies := by rfl)
    (rearrangement : t.rearrangement = s.rearrangement := by rfl) : t.TablesOk := by
  obtain ⟨g, hg, hk⟩ := passes
  refine ⟨?_, ?_, ?_, ?_, ?_, ?_, ?_⟩
  · rw [hg, List.pairwise_map]
    exact h.passOrder.imp fun h => by simpa [hk] using h
  · rw [hg, List.length_map]; exact h.passCount
  · rw [hg]
    intro e he
    obtain ⟨x, hx, rfl⟩ := List.mem_map.1 he
    exact (hk x).2 (h.passRange x hx)
  · rw [denies]; exact h.denyOrder
  · rw [denies]; exact h.denyCount
  · rw [denies]; exact h.denyRange
  · intro r hr
    rw [rearrangement] at hr
    have := h.work r hr
    unfold State.WorkFits at *
    rw [denies, hg]
    revert this
    cases r.work <;> simp [hk]

theorem State.TablesOk.calm {s t : State} (h : s.TablesOk) (c : s.Calm t) : t.TablesOk :=
  h.passesKept c.passes c.denies c.rearrangement

theorem State.TablesOk.of {s t : State} (c : s.Calm t) (h : s.TablesOk) : t.TablesOk := h.calm c

theorem State.TablesOk.replyWith {s : State} (h : s.TablesOk) (a b c) : (s.replyWith a b c).TablesOk := by
  unfold State.replyWith
  split
  · exact h
  · exact h.same

theorem State.TablesOk.reply {s : State} (h : s.TablesOk) (a) : (s.reply a).TablesOk := h.replyWith ..

theorem State.TablesOk.release {s : State} (h : s.TablesOk) (p) : (s.release p).TablesOk := by
  cases p <;> exact h.same

theorem mem_insertPassEntry {e x : PassEntry} {l} : x ∈ insertPassEntry e l ↔ x = e ∨ x ∈ l := by
  induction l with
  | nil => simp [insertPassEntry]
  | cons a l ih =>
    unfold insertPassEntry
    split
    · simp
    · simp [ih]; tauto

theorem length_insertPassEntry {e : PassEntry} {l} : (insertPassEntry e l).length = l.length + 1 := by
  induction l with
  | nil => simp [insertPassEntry]
  | cons a l ih =>
    unfold insertPassEntry
    split
    · simp
    · simp [ih]

theorem pairwise_insertPassEntry {e : PassEntry} {l} (h : l.Pairwise fun a b : PassEntry => a.id < b.id) (hn : ∀ x ∈ l, x.id ≠ e.id) :
    (insertPassEntry e l).Pairwise fun a b => a.id < b.id := by
  induction l with
  | nil => simp [insertPassEntry]
  | cons a l ih =>
    have h' := List.pairwise_cons.1 h
    unfold insertPassEntry
    split
    · rename_i hlt
      refine List.pairwise_cons.2 ⟨?_, h⟩
      intro x hx
      rcases List.mem_cons.1 hx with rfl | hx
      · exact hlt
      · exact hlt.trans (h'.1 x hx)
    · rename_i hlt
      refine List.pairwise_cons.2 ⟨?_, ih h'.2 fun x hx => hn x (by simp [hx])⟩
      intro x hx
      rcases mem_insertPassEntry.1 hx with rfl | hx
      · have := hn a (by simp)
        omega
      · exact h'.1 x hx

theorem mem_insertDenyEntry {e x : DenyEntry} {l} : x ∈ insertDenyEntry e l ↔ x = e ∨ x ∈ l := by
  induction l with
  | nil => simp [insertDenyEntry]
  | cons a l ih =>
    unfold insertDenyEntry
    split
    · simp
    · simp [ih]; tauto

theorem length_insertDenyEntry {e : DenyEntry} {l} : (insertDenyEntry e l).length = l.length + 1 := by
  induction l with
  | nil => simp [insertDenyEntry]
  | cons a l ih =>
    unfold insertDenyEntry
    split
    · simp
    · simp [ih]

theorem pairwise_insertDenyEntry {e : DenyEntry} {l} (h : l.Pairwise fun a b : DenyEntry => a.id < b.id) (hn : ∀ x ∈ l, x.id ≠ e.id) :
    (insertDenyEntry e l).Pairwise fun a b => a.id < b.id := by
  induction l with
  | nil => simp [insertDenyEntry]
  | cons a l ih =>
    have h' := List.pairwise_cons.1 h
    unfold insertDenyEntry
    split
    · rename_i hlt
      refine List.pairwise_cons.2 ⟨?_, h⟩
      intro x hx
      rcases List.mem_cons.1 hx with rfl | hx
      · exact hlt
      · exact hlt.trans (h'.1 x hx)
    · rename_i hlt
      refine List.pairwise_cons.2 ⟨?_, ih h'.2 fun x hx => hn x (by simp [hx])⟩
      intro x hx
      rcases mem_insertDenyEntry.1 hx with rfl | hx
      · have := hn a (by simp)
        omega
      · exact h'.1 x hx

/-- An insert that fits keeps the pass table (R30). -/
theorem State.TablesOk.insertPass {s : State} (h : s.TablesOk) {e} (hr : s.rearrangement = none) (he : e.Ranged) (hl : s.passes.length < 1024)
   (hn : ∀ x ∈ s.passes, x.id ≠ e.id) : (s.insertPass e).TablesOk where
  passOrder := pairwise_insertPassEntry h.passOrder hn
  passCount := by simp only [State.insertPass, length_insertPassEntry]; omega
  passRange := by
    intro x hx
    rcases mem_insertPassEntry.1 hx with rfl | hx
    · exact { he with }
    · exact h.passRange x hx
  denyOrder := h.denyOrder
  denyCount := h.denyCount
  denyRange := h.denyRange
  work := by simp [State.insertPass, hr]

theorem State.TablesOk.insertDeny {s : State} (h : s.TablesOk) {e : DenyEntry} (hr : s.rearrangement = none) (he : e.Ranged) (hl : s.denies.length < 256)
   (hn : ∀ x ∈ s.denies, x.id ≠ e.id) : State.TablesOk { s with denies := insertDenyEntry e s.denies } where
  passOrder := h.passOrder
  passCount := h.passCount
  passRange := h.passRange
  denyOrder := pairwise_insertDenyEntry h.denyOrder hn
  denyCount := by simp only [length_insertDenyEntry]; omega
  denyRange := by
    intro x hx
    rcases mem_insertDenyEntry.1 hx with rfl | hx
    · exact ⟨he.1, he.2⟩
    · exact h.denyRange x hx
  work := by simp [hr]

theorem State.TablesOk.decideAnswer {s : State} (h : s.TablesOk) (d tk e st) : (s.decideAnswer d tk e st).TablesOk := by
  unfold State.decideAnswer
  dsimp only
  split
  · exact ((h.calm (.modDock ..)).calm (State.Quiet.verdict ..).calm).replyWith ..
  · exact (h.calm (.admitted _ _ _ _ _ _ (tokenOf_serial_le _))).replyWith ..

theorem State.TablesOk.finishWork {s : State} (h : s.TablesOk) (hr : s.rearrangement = none) {w} (hw : s.WorkFits w) : (s.finishWork w).TablesOk := by
  unfold State.finishWork
  unfold State.WorkFits at hw
  split
  · exact (h.insertPass hr hw.1 hw.2.1 hw.2.2).reply _
  · exact h.reply _
  · exact (h.insertDeny hr hw.1 hw.2.1 hw.2.2).reply _
  · exact h.reply _
  · exact (h.insertPass hr hw.1 hw.2.1 hw.2.2).decideAnswer ..

theorem State.TablesOk.rearrange {s : State} (h : s.TablesOk) (hr : s.rearrangement = none) (n) {w} (hw : s.WorkFits w) : (s.rearrange n w).TablesOk := by
  unfold State.rearrange
  split
  · exact h.finishWork hr hw
  · exact h.congr rfl rfl (by simpa using hw)

theorem State.TablesOk.filterPasses {s : State} (h : s.TablesOk) (hr : s.rearrangement = none) (p) : State.TablesOk { s with passes := s.passes.filter p } where
  passOrder := h.passOrder.filter _
  passCount := (List.length_filter_le _ _).trans h.passCount
  passRange e he := h.passRange e (List.mem_of_mem_filter he)
  denyOrder := h.denyOrder
  denyCount := h.denyCount
  denyRange := h.denyRange
  work := by simp [hr]

theorem State.TablesOk.filterDenies {s : State} (h : s.TablesOk) (hr : s.rearrangement = none) (p) : State.TablesOk { s with denies := s.denies.filter p } where
  passOrder := h.passOrder
  passCount := h.passCount
  passRange := h.passRange
  denyOrder := h.denyOrder.filter _
  denyCount := (List.length_filter_le _ _).trans h.denyCount
  denyRange e he := h.denyRange e (List.mem_of_mem_filter he)
  work := by simp [hr]

/-- An entry is replaced in place (R31). -/
theorem State.TablesOk.replacePass {s : State} (h : s.TablesOk) {w : PassEntry} (hw : w.Ranged) : (s.modPass w.id fun x => x.replaceWith w).TablesOk := by
  refine h.passesKept ⟨_, rfl, fun e => ?_⟩
  by_cases hi : e.id = w.id
  · simp only [hi, if_true]
    refine ⟨?_, fun he => he.replaceWith hw⟩
    unfold PassEntry.replaceWith
    split <;> rfl
  · simp [hi]

theorem State.TablesOk.replaceDeny {s : State} (h : s.TablesOk) (hr : s.rearrangement = none) {w : DenyEntry} (hw : w.Ranged) :
    State.TablesOk { s with denies := s.denies.map fun e => if e.id = w.id then w else e } where
  passOrder := h.passOrder
  passCount := h.passCount
  passRange := h.passRange
  denyOrder := by
    rw [List.pairwise_map]
    refine h.denyOrder.imp fun {a b} h => ?_
    split <;> split <;> omega
  denyCount := by simpa using h.denyCount
  denyRange := by
    intro e he
    obtain ⟨x, hx, rfl⟩ := List.mem_map.1 he
    split
    · exact hw
    · exact h.denyRange x hx
  work := by simp [hr]

theorem findPass_none {s : State} {i} (h : s.findPass i = none) : ∀ x ∈ s.passes, x.id ≠ i := by
  simpa [State.findPass] using h

theorem findDeny_none {s : State} {i} (h : s.findDeny i = none) : ∀ x ∈ s.denies, x.id ≠ i := by
  simpa [State.findDeny] using h

theorem State.TablesOk.takeStation {s : State} (h : s.TablesOk) (acc : Frame → Bool) (act)
   (hh : ∀ f, s.rearrangement = none → (act f s).TablesOk) : (s.takeStation acc act).TablesOk := by
  obtain h' | ⟨f, hp, _, hb, hf, ha, h'⟩ := s.takeStation_cases acc act
  · rw [h']; exact h
  · rw [h']; exact hh f hb

theorem State.TablesOk.takeDock {s : State} (h : s.TablesOk) (acc : Frame → Bool) (act)
   (hh : ∀ f, (act f s).TablesOk) : (s.takeDock acc act).TablesOk := by
  obtain h' | ⟨f, hp, _, hf, ha, h'⟩ := s.takeDock_cases acc act
  · rw [h']; exact h
  · rw [h']; exact hh f

theorem State.TablesOk.takeRequest {s : State} (hs : s.TablesOk) (k : Kind) (n act)
   (h : ∀ p, s.rearrangement = none → (act p s).TablesOk) : (s.takeRequest k n act).TablesOk := by
  refine hs.takeStation _ _ fun f hr => ?_
  split
  · exact h _ hr
  · exact hs.reply _

theorem State.TablesOk.takeCommand {s : State} (hs : s.TablesOk) (c act)
   (h : ∀ d p, s.rearrangement = none → (act d p s).TablesOk) : (s.takeCommand c act).TablesOk := by
  refine hs.takeStation _ _ fun f hr => ?_
  split
  · exact hs.reply _
  · split
    · exact h _ _ hr
    · exact hs.reply _

theorem State.TablesOk.takeAnswer {s : State} (hs : s.TablesOk) (a n act)
   (h : ∀ r p, s.rearrangement = none → (act r p s).TablesOk) : (s.takeAnswer a n act).TablesOk := by
  refine hs.takeStation _ _ fun f hr => ?_
  split
  · exact hs.reply _
  · split
    · exact hs.reply _
    · exact h _ _ hr

theorem State.TablesOk.enterRunning {s : State} (h : s.TablesOk) : s.enterRunning.TablesOk := by
  unfold State.enterRunning
  refine State.TablesOk.calm ?_ (.evaluateAndAttend _)
  exact h.same

theorem State.TablesOk.endLoad {s : State} (h : s.TablesOk) (st) : (s.endLoad st).TablesOk := by
  unfold State.endLoad
  dsimp only
  split
  · exact State.TablesOk.enterRunning h.same
  · exact State.TablesOk.enterRunning (State.TablesOk.of (State.Quiet.latch ..).calm h.same)

theorem State.TablesOk.judgeRecord {s : State} (h : s.TablesOk) (r) : (s.judgeRecord r).TablesOk := by
  unfold State.judgeRecord
  dsimp only
  split
  · split
    · exact h.endLoad _
    · exact h.endLoad _
    · unfold State.nextRecord
      split
      · apply State.TablesOk.endLoad
        unfold State.applyRecord
        split
        all_goals exact h.same
      · unfold State.applyRecord
        split
        all_goals exact h.same
  · exact h.endLoad _

theorem State.TablesOk.emptied {s : State} (h1 : s.passes = [] := by rfl) (h2 : s.denies = [] := by rfl) (h3 : s.rearrangement = none := by rfl) : s.TablesOk := by
  refine ⟨?_, ?_, ?_, ?_, ?_, ?_, ?_⟩ <;> simp [h1, h2, h3]

theorem State.TablesOk.tellOwner {s : State} (h : s.TablesOk) (o w z) : (s.tellOwner o w z).TablesOk := by
  unfold State.tellOwner
  split
  · exact h
  · unfold State.referralDeparted
    split
    · exact h
    · exact h.same
    · exact h.calm (.endReferral ..)
  · unfold State.collectDeparted
    dsimp only
    split
    · exact State.TablesOk.of (.removeLogHead _) h.same
    · exact h.same
  · unfold State.eventReadDeparted
    dsimp only
    split
    · exact State.TablesOk.of (State.Quiet.attend _).calm h.same
    · exact h.same
  · exact .emptied

theorem State.TablesOk.stationDeparture {s : State} (h : s.TablesOk) (o w z) : (s.stationDeparture o w z).TablesOk := by
  have ow : ∀ {s : State}, s.TablesOk → s.attendOwed.TablesOk := fun h => h.calm (State.Quiet.attendOwed _).calm
  have sp : ∀ {s : State}, s.TablesOk → (s.spendFree 1).TablesOk := fun h => h.calm (State.Quiet.spendFree ..).calm
  unfold State.stationDeparture
  split
  · exact ow h
  · split
    · exact ow ((sp h).tellOwner _ _ _)
    · exact (ow (sp h)).tellOwner _ _ _
  · exact h.tellOwner _ _ _

theorem State.TablesOk.setLine {s : State} (h : s.TablesOk) (p l) : (s.setLine p l).TablesOk := by
  cases p <;> exact h.same

theorem State.TablesOk.modPort {s : State} (h : s.TablesOk) (p f) : (s.modPort p f).TablesOk := by
  cases p <;> exact h.same

theorem State.TablesOk.reserveOn {s : State} (h : s.TablesOk) (p) : (s.reserveOn p).TablesOk := by
  cases p <;> [exact h; exact h.modPort _ _]

theorem State.TablesOk.judgeFrame {s : State} (h : s.TablesOk) (p f) : (s.judgeFrame p f).TablesOk := by
  unfold State.judgeFrame
  split
  · split
    · exact h.modPort ..
    · exact h
  · split
    · split
      · exact (h.reserveOn _).modPort ..
      · exact h
    · exact h

theorem State.TablesOk.endAttempt {s : State} (h : s.TablesOk) (p a n r) : (s.endAttempt p a n r).TablesOk := by
  unfold State.endAttempt
  split
  · exact h.setLine ..
  · exact (h.calm (.advanceTo ..)).setLine ..
  · exact (h.calm (.advanceTo ..)).setLine ..

theorem State.TablesOk.writeAnswered {s : State} (h : s.TablesOk) (hr : s.rearrangement = none) (r) {w} (hw : w.id ≠ 0 → w.Ranged) : (s.writeAnswered r w).TablesOk := by
  unfold State.writeAnswered
  split
  · split
    · exact h.decideAnswer ..
    · exact (h.replacePass (hw (by assumption))).decideAnswer ..
  · rename_i hn
    split
    · exact h.decideAnswer ..
    · rename_i hi
      simp only [not_or, Nat.not_le] at hi
      exact h.rearrange hr _ ⟨hw hi.1, hi.2, findPass_none hn⟩
end Sys2Proof.Machine
end

