-- ==== Sys2Proof/Tests/Slice0.lean ====
section
/-! SUPPORT. Tests of the model against figures of spec/ and hand calculation, and a witness for each statement of
Certificates/ that has hypotheses: a state and operands that meet them. -/

set_option Elab.async false

namespace Sys2Proof.Tests

open Sys2Proof.Machine

/-! ### Figures of the spec -/

/-- WellFormed refuses a record of 7 bytes (R196). -/
theorem test_record_of_seven_bytes : (Instr.settingsRecordRead [1, 0, 0, 0, 0, 0, 0]).wellFormed = false ∧
    exec (.settingsRecordRead [1, 0, 0, 0, 0, 0, 0]) State.reset = .refused (.illFormed "SETTINGS_RECORD_READ") :=
  ⟨rfl, rfl⟩

/-- WellFormed refuses a frame of fewer payload bytes than its header names (R169). -/
theorem test_frame_of_wrong_length : (Instr.frameReceived .station 0x82811001#32 [] 0).wellFormed = false ∧
    exec (.frameReceived .station 0x82811001#32 [] 0) State.reset = .refused (.illFormed "FRAME_RECEIVED") :=
  ⟨rfl, rfl⟩

/-- The nine digits give the check value of this polynomial and initial value (R170). -/
theorem test_frame_check : frameCheck [49, 50, 51, 52, 53, 54, 55, 56, 57] = 0x29B1 := by decide +kernel

/-- The nine digits under polynomial 0x04C11DB7, complemented (R53). -/
theorem test_check_code : checkCode [49, 50, 51] [52, 53, 54, 55, 56, 57] = 0xFC891918 := by decide +kernel

/-- The code rows of the table have no bits, so no word spells a command. -/
theorem test_no_word_spells_a_command : decodeTableWord 16 0x1234 = none := rfl

/-- Target duties of chapter 6: the defaults at 24 V, equality, and a low supply (R114). -/
theorem test_target_duty : targetDuty 12000 24000 = 512 ∧ targetDuty 4500 24000 = 192 ∧ targetDuty 12000 12000 = 1024 ∧
    targetDuty 12000 11000 = 1024 ∧ targetDuty 2000 40950 = 51 ∧ targetDuty 6000 40950 = 151 := by decide

/-- R187's examples: 50 and 70 give 60 and 60, a pull-in time of 200 gives 125, I_max 0 gives 1. -/
theorem test_profile_clamps : profileOf [50, 70, 200, 1, 0, 0] 0 = ⟨60, 60, 125, 5, 1, 0⟩ := by decide

/-- R189's examples: L 100 with F 120 gives F 95; S 0 gives 1; L 1,000 gives 400. -/
theorem test_supply_clamps :
    supplySettingsOf [0, 0, 100, 0, 120] 0 .atReset = { Supply.atReset with slots := 1, lowMark := 100, floor := 95 } ∧
    (supplySettingsOf [4, 3, 0xE8, 0, 0] 0 .atReset).lowMark = 400 := by decide +kernel

/-- R99's examples with the defaults: 15,200 mV and 20,200 mV. -/
theorem test_supply_levels : ({ Supply.atReset with level := .belowFloor }).nextLevel 15200 = .belowFloor ∧
    Supply.atReset.nextLevel 15200 = .low ∧ ({ Supply.atReset with level := .low }).nextLevel 20200 = .low ∧
    Supply.atReset.nextLevel 20200 = .normal ∧ Supply.atReset.nextLevel 14999 = .belowFloor := by decide

/-- R143's examples: codes 1,600 and 1,601 with I_max 100, codes 100 and 99 with I_min 25. -/
theorem test_violations : violationOf .default .pullIn 1600 0 = none ∧
    violationOf .default .pullIn 1601 0 = some .overcurrent ∧ violationOf .default .hold 100 0 = none ∧
    violationOf .default .hold 99 0 = some .undercurrent ∧ violationOf .default .pullIn 99 0 = none := by
  decide +kernel

/-- R201's example: a RIDE_START at dock 9 for pass 3,000,117 serial 41 (times 1 and 2 taken here). -/
theorem test_record_bytes :
    (OutcomeRecord.bytes ⟨.rideStart, .rider, 9, some 3000117, some 41, some 1, some 2, some 374, none, none,
      false, false, false⟩) =
    [1, 1, 9, 0x00, 0x2D, 0xC7, 0x35, 0, 41, 0, 0, 0, 1, 0, 0, 0, 2, 0x01, 0x76, 0, 0, 0, 0, 0, 0, 7] := by
  decide +kernel

/-- R170: a frame without payload lasts 57 bit times, 209 bit times with 19 payload bytes. -/
theorem test_frame_bits : frameBits 0 = 57 ∧ frameBits 19 = 209 ∧ frameBits 32 = 313 := by decide

/-! ### Helper states -/

/-- RUNNING with every dock as after reset. -/
def run : State := { State.reset with phase := .running }

/-- `run` with dock 0 replaced. -/
def at0 (k : Dock) : State := { run with docks := run.docks.set 0 k }

/-- A configured PARKED dock. -/
def parked : Dock := { Dock.atReset true false with state := .parked, fault := none, configured := true }

/-- A station frame of a kind, from address 1 to the part. -/
def fr (k : Kind) (p : List Byte) : Frame := ⟨2, 2, 1, k.code, p⟩

/-- A dock frame of a kind, from the reader of dock 0 to the part. -/
def df (k : Kind) (p : List Byte) : Frame := ⟨2, 1, 16, k.code, p⟩

/-- A frame at the head of the station buffer. -/
def withRx (s : State) (f : Frame) : State := { s with station := { s.station with rx := [f], reserved := 1 } }

/-- A request at the head of the station buffer. -/
def ask (s : State) (k : Kind) (p : List Byte) : State := withRx s (fr k p)

/-- A frame at the head of the dock buffer. -/
def call (s : State) (f : Frame) : State := { s with dockPort := { s.dockPort with rx := [f] } }

theorem ask_request (s : State) (k : Kind) (p : List Byte) (h : s.phase = .running ∧ s.marks.restart = false ∧
    s.rearrangement = none) : (ask s k p).Request k (fr k p) := ⟨h.1, h.2.1, h.2.2, rfl, by simp [fr], rfl⟩

theorem call_frame (s : State) (k : Kind) (p : List Byte) (h : s.phase = .running ∧ s.marks.restart = false) :
    (call s (df k p)).DockFrame k (df k p) := ⟨h.1, h.2, rfl, by simp [df], rfl⟩

/-- The order that the witnesses hold at dock 0. -/
def ord : Order := ⟨0, .rider, some 7, some 1, none, 0, .default, false, false, none⟩

/-- The pass of that order, with one dock in flight. -/
def pass : PassEntry := ⟨7, .rider, 0, none, 5, 2, 1, .localUse, 1⟩

/-- Dock 0 in a state that holds the order. -/
def holding (st : DockState) (t : PhaseTimer) : Dock :=
  { parked with
    state := st, boundPass := some 7, boundSerial := some 1, origin := some .rider, order := some ord
    chan := ⟨0, 0, some 0, t⟩ }

/-- The order with the drive unit at dock 0. -/
def driving (st : DockState) (t : PhaseTimer) : State := { at0 (holding st t) with passes := [pass] }

/-- The order in the latch queue. -/
def queued : State := { at0 { holding .queued .stopped with order := none, chan := .atReset } with
  passes := [pass], queue := [ord], stopAsserted := true, stopLevel := true }

/-- What Dock.Ok, Order.Bound and the rest of State.OrdersOk ask, in a form that Lean can decide. -/
abbrev DockCheck (k : Dock) : Prop :=
  (k.fault.isSome ↔ k.state = .service) ∧ (k.reservation.isSome ↔ k.state = .reserved) ∧
  (k.origin.isSome ↔ k.inFlight) ∧ (k.order.isSome ↔ k.state.withDrive) ∧
  (k.state.driven = false → k.chan.applied = 0 ∧ k.chan.pending = 0) ∧
  (k.chan.applied ≤ 1024 ∧ k.chan.pending ≤ 1024) ∧ (k.active → k.state.driven) ∧
  (k.chan.pullInStart.isSome → k.state.withDrive)

theorem DockCheck.ok {k : Dock} (h : DockCheck k) : k.Ok :=
  ⟨h.1, h.2.1, h.2.2.1, h.2.2.2.1, h.2.2.2.2.1, h.2.2.2.2.2.1, h.2.2.2.2.2.2.1, h.2.2.2.2.2.2.2⟩

abbrev BoundCheck (o : Order) (d : DockId) (k : Dock) : Prop :=
  o.dock = d ∧ k.origin = some o.origin ∧ k.boundPass = o.passId ∧ k.boundSerial = o.serial ∧
  (o.origin = .staff ↔ o.passId = none)

theorem BoundCheck.ok {o : Order} {d : DockId} {k : Dock} (h : BoundCheck o d k) : o.Bound d k :=
  ⟨h.1, h.2.1, h.2.2.1, h.2.2.2.1, h.2.2.2.2⟩

abbrev OrdersCheck (s : State) : Prop :=
  (∀ d, DockCheck (s.dock d)) ∧ (∀ d, ∀ o ∈ (s.dock d).order, BoundCheck o d (s.dock d)) ∧
  (∀ o ∈ s.queue, BoundCheck o o.dock (s.dock o.dock) ∧ (s.dock o.dock).state = .queued) ∧
  (∀ d, (s.dock d).state = .queued → ∃ o ∈ s.queue, o.dock = d) ∧ (s.queue.map (·.dock)).Nodup ∧
  (s.referrals.map (·.dock)).Nodup ∧ s.referrals.length ≤ 4 ∧
  (∀ r ∈ s.referrals, dockOf (tokenOf r.token).dock = some r.dock ∧ (s.dock r.dock).inFlight = false ∧
    (s.dock r.dock).boundPass = some (tokenOf r.token).passId ∧
    (s.dock r.dock).boundSerial = some (tokenOf r.token).serial) ∧
  (∀ e ∈ s.passes, e.inFlight = s.boundInFlight e.id) ∧ s.logSum ≤ 64 ∧
  (∀ d, (s.dock d).pendingReturn.isSome → s.logSum = 64) ∧
  (1 ≤ s.supply.slots ∧ s.supply.slots ≤ 4 ∧ s.supply.effective ≤ s.supply.slots) ∧ s.pullingCount ≤ 4 ∧
  (s.phase = .starting → ∀ d, (s.dock d).inFlight = false)

theorem OrdersCheck.ok {s : State} (h : OrdersCheck s) (answer : ∀ r ∈ s.rearrangement, s.AnswerFits r.work) :
    s.OrdersOk where
  docks d := (h.1 d).ok
  held d o ho := (h.2.1 d o ho).ok
  queued o ho := (h.2.2.1 o ho).imp_left BoundCheck.ok
  inQueue := h.2.2.2.1
  queueDocks := h.2.2.2.2.1
  referralDocks := h.2.2.2.2.2.1
  referralCount := h.2.2.2.2.2.2.1
  referrals r hr :=
    let bound := h.2.2.2.2.2.2.2.1 r hr
    { token := bound.1, resting := bound.2.1, passId := bound.2.2.1, serial := bound.2.2.2 }
  answer := answer
  passCounts := h.2.2.2.2.2.2.2.2.1
  room := h.2.2.2.2.2.2.2.2.2.1
  slotsHeld := h.2.2.2.2.2.2.2.2.2.2.1
  slots := h.2.2.2.2.2.2.2.2.2.2.2.1
  pulling := h.2.2.2.2.2.2.2.2.2.2.2.2.1
  starting := h.2.2.2.2.2.2.2.2.2.2.2.2.2

theorem OrdersCheck.ok' {s : State} (h : OrdersCheck s) (hr : s.rearrangement = none) : s.OrdersOk :=
  h.ok (by simp [hr])

/-! ### Witnesses: commands, reset and start-up -/

/-- The state a command answers, its own state for a refusal. -/
def after (c : Instr) (s : State) : State :=
  match exec c s with
  | .next t => t
  | _ => s

theorem witness_CommandsComplete : (Instr.frameReceived .dock 0 [] 0).wellFormed = true ∧
    (Instr.frameReceived .dock 1 [] 0).wellFormed = false ∧ Instr.tap.wellFormed = true ∧
    ([0, 0, 0, 0, 0, 0, 0] : List Byte).length ≠ 8 ∧ ([] : List Byte).length ≠ headerLength 1 := by decide +kernel

theorem witness_HeldInReset : ({ run with phase := .inReset } : State).phase = .inReset ∧ Instr.tap.wellFormed = true ∧
    (∀ straps stop bike latch, Instr.tap ≠ .resetRelease straps stop bike latch) ∧ Instr.tap ≠ .resetInputAsserted ∧
    run.pending = [] ∧ run.phase ≠ .inReset := by
  refine ⟨rfl, rfl, ?_, ?_, rfl, by decide⟩ <;> simp

theorem witness_SettingsRecordApplied : State.reset.phase = .starting ∧ State.reset.loader.index ≠ 31 ∧
    State.reset.clock ≤ (State.reset.loader.startedAt + 100) * 2048 ∧ run.phase ≠ .starting ∧
    ({ State.reset with clock := 204800 } : State).clock ≤ (State.reset.loader.startedAt + 100) * 2048 ∧
    (∀ t ∈ State.reset.loader.lastTag, t < (0x01 : Byte).toNat) ∧ (0x1F : Byte).toNat = 16 + (15 : DockId).val ∧
    (0x10 : Byte).toNat = 16 + (0 : DockId).val := by decide

theorem witness_LoadEnds :
    let s : State := { State.reset with loader := { State.reset.loader with index := 31, lastTag := some 0x1E } }
    s.phase = .starting ∧ s.queue = [] ∧ s.loader.index = 31 ∧ s.clock ≤ (s.loader.startedAt + 100) * 2048 ∧
    ([0xFF, 0, 0, 0, 0, 0, 0, 0] : List Byte).length = 8 ∧
    (s.loader.startedAt + 100) * 2048 < ({ s with clock := 204801 } : State).clock ∧
    (∃ x ∈ s.loader.lastTag, (0x1E : Byte).toNat ≤ x) ∧ (∀ x ∈ s.loader.lastTag, x < (0x1F : Byte).toNat) ∧
    (0x1F : Byte).toNat = 16 + (15 : DockId).val ∧ (0x20 : Byte).toNat < 0xFF ∧
    (∀ x ∈ State.reset.loader.lastTag, x < (0x01 : Byte).toNat) ∧ (0x0F : Byte).toNat < 0x10 ∧
    (0xFE : Byte).toNat < 0xFF := by decide +kernel

/-! ### Witnesses: invariants -/

abbrev RangedCheck (e : PassEntry) : Prop :=
  (1 ≤ e.id ∧ e.id < 4294967296) ∧ e.ridesLeft ≤ 65535 ∧ (1 ≤ e.bikesMax ∧ e.bikesMax ≤ 4) ∧ e.lastSerial ≤ 65535 ∧
  e.validFrom < 4294967296 ∧ ∀ u ∈ e.validUntil, 1 ≤ u ∧ u < 4294967296

theorem RangedCheck.ok {e : PassEntry} (h : RangedCheck e) : e.Ranged :=
  { id := h.1, rides := h.2.1, bikes := h.2.2.1, serial := h.2.2.2.1, validFrom := h.2.2.2.2.1, validUntil := h.2.2.2.2.2 }

abbrev TablesCheck (s : State) : Prop :=
  (s.passes.Pairwise fun a b => a.id < b.id) ∧ s.passes.length ≤ 1024 ∧ (∀ e ∈ s.passes, RangedCheck e) ∧
  (s.denies.Pairwise fun a b => a.id < b.id) ∧ s.denies.length ≤ 256 ∧
  (∀ e ∈ s.denies, (1 ≤ e.id ∧ e.id < 4294967296) ∧ ∀ n ∈ e.floor, 1 ≤ n ∧ n ≤ 65535)

theorem TablesCheck.ok {s : State} (h : TablesCheck s) (hw : ∀ r ∈ s.rearrangement, s.WorkFits r.work) :
    s.TablesOk where
  passOrder := h.1
  passCount := h.2.1
  passRange e he := (h.2.2.1 e he).ok
  denyOrder := h.2.2.2.1
  denyCount := h.2.2.2.2.1
  denyRange e he := { id := (h.2.2.2.2.2 e he).1, floor := (h.2.2.2.2.2 e he).2 }
  work := hw

theorem TablesCheck.ok' {s : State} (h : TablesCheck s) (hr : s.rearrangement = none) : s.TablesOk :=
  h.ok (by simp [hr])

/-- Two passes and two deny entries. -/
def tables : State := { run with
  passes := [{ pass with inFlight := 0 }, ⟨9, .staff, 10, some 20, 65535, 1, 0, .written, 0⟩]
  denies := [⟨5, none⟩, ⟨8, some 3⟩] }

theorem tables_ok : tables.TablesOk := TablesCheck.ok' (by decide +kernel) rfl
theorem tables_orders : tables.OrdersOk := OrdersCheck.ok'
  (by unfold OrdersCheck; constructorm* _ ∧ _ <;> decide +kernel) rfl

theorem witness_TablesKept : tables.TablesOk ∧ tables.OrdersOk ∧ tables.passes ≠ [] ∧ ∃ t, step tables = .next t :=
  ⟨tables_ok, tables_orders, nofun, _, rfl⟩

theorem asked_link : (ask run .statusRead []).LinkOk :=
  ⟨by decide, by decide, by decide, by decide, by decide +kernel, by decide +kernel, by simp [ask, withRx, run,
    State.reset, State.afterReset], rfl, rfl⟩

theorem witness_LinkSlotsKept : (ask run .statusRead []).LinkOk ∧
    ∃ t, step { ask run .statusRead [] with pending := [.statusRead] } = .next t :=
  ⟨asked_link, _, rfl⟩

theorem queued_ok : queued.OrdersOk := OrdersCheck.ok'
  (by unfold OrdersCheck; constructorm* _ ∧ _ <;> decide +kernel) rfl
theorem pulling_ok : (driving .pulling (.pullLimit 5)).OrdersOk := OrdersCheck.ok'
  (by unfold OrdersCheck; constructorm* _ ∧ _ <;> decide +kernel) rfl
theorem extending_ok : (driving .pulling (.extension 5)).OrdersOk := OrdersCheck.ok'
  (by unfold OrdersCheck; constructorm* _ ∧ _ <;> decide +kernel) rfl
theorem opened_ok : (driving .opened (.hold 5)).OrdersOk := OrdersCheck.ok'
  (by unfold OrdersCheck; constructorm* _ ∧ _ <;> decide +kernel) rfl
theorem closing_ok : (driving .closing (.closingLimit 5)).OrdersOk := OrdersCheck.ok'
  (by unfold OrdersCheck; constructorm* _ ∧ _ <;> decide +kernel) rfl

theorem witness_OrdersKept : queued.OrdersOk ∧ ∃ t, step { queued with pending := [.stopRelease] } = .next t :=
  ⟨queued_ok, _, rfl⟩

theorem witness_FrameRoundTrip : (fr .profileWrite (List.replicate 32 0)).payload.length ≤ 32 ∧
    65535 < 256 ^ 2 := by decide

/-! ### Witnesses: sensors, returns and the clock -/

/-- Dock 0 in a state with given filters. -/
def sensing (st : DockState) (bike latch : Filter) : State := at0 { parked with state := st, bike := bike, latch := latch }

/-- A filter whose rise or fall is due, captured at uptime 3. -/
def rising : Filter := ⟨true, false, some 3⟩
def falling : Filter := ⟨false, true, some 3⟩
def high : Filter := ⟨true, true, none⟩
def low : Filter := ⟨false, false, none⟩

theorem witness_LevelsStored : (sensing .parked rising low).phase ≠ .inReset ∧
    ({ sensing .parked rising falling with phase := .starting } : State).phase = .starting ∧
    ((sensing .parked rising falling).dock 0).bike = ⟨true, false, some 3⟩ ∧
    ((sensing .parked falling rising).dock 0).bike = ⟨false, true, some 3⟩ ∧
    ((sensing .parked falling rising).dock 0).latch = ⟨true, false, some 3⟩ ∧
    ((sensing .parked rising falling).dock 0).latch = ⟨false, true, some 3⟩ := by decide +kernel

theorem witness_BikeArrives : (sensing .vacant rising low).phase = .running ∧
    ((sensing .vacant rising low).dock 0).bike = ⟨true, false, some 3⟩ ∧
    ((sensing .vacant rising low).dock 0).returnTimer = .stopped ∧
    ((sensing .vacant rising low).dock 0).bikeId = none ∧
    ((at0 { parked with bike := rising, returnTimer := .runningForId 9 }).dock 0).returnTimer = .runningForId 9 ∧
    ((at0 { parked with bike := rising, returnTimer := .runningForId 9 }).dock 0).bike = ⟨true, false, some 3⟩ := by
  decide +kernel

theorem witness_BikeLeavesRest : ∀ st ∈ [DockState.loose, .parked, .reserved, .service],
    (sensing st falling low).phase = .running ∧ ((sensing st falling low).dock 0).bike = ⟨false, true, some 3⟩ ∧
    ((sensing st falling low).dock 0).state = st := by decide +kernel

theorem witness_BikeLeavesRest_vacant : ((sensing .vacant falling low).dock 0).bike = ⟨false, true, some 3⟩ ∧
    ((sensing .vacant falling low).dock 0).state = .vacant := by decide +kernel

/-- The order with the drive unit, its dock's filters given. -/
def moving (st : DockState) (bike latch : Filter) (t : PhaseTimer) : State :=
  { at0 { holding st t with bike := bike, latch := latch } with passes := [pass] }

theorem witness_RideStarts : (moving .opened falling high (.hold 5)).OrdersOk ∧
    (moving .opened falling high (.hold 5)).phase = .running ∧
    ((moving .opened falling high (.hold 5)).dock 0).bike = ⟨false, true, some 3⟩ ∧
    ((moving .opened falling high (.hold 5)).dock 0).order = some ord :=
  ⟨OrdersCheck.ok' (by unfold OrdersCheck; constructorm* _ ∧ _ <;> decide +kernel) rfl,
    rfl, rfl, rfl⟩

theorem witness_LatchMoves : (sensing .parked high rising).phase = .running ∧
    ((sensing .parked high rising).dock 0).latch = ⟨true, false, some 3⟩ ∧
    ((sensing .parked high rising).dock 0).state ∈ [DockState.parked, .reserved] ∧
    ((sensing .vacant high rising).dock 0).state ∈ [DockState.vacant, .loose, .service, .opened, .closing] ∧
    ((moving .pulling high rising (.pullLimit 5)).dock 0).state = .pulling ∧
    ((moving .pulling high rising (.pullLimit 5)).dock 0).order = some ord ∧ ord.throwTime = none ∧
    ((sensing .loose high falling).dock 0).latch = ⟨false, true, some 3⟩ ∧
    ((sensing .loose high falling).dock 0).state = .loose ∧
    ((sensing .vacant high falling).dock 0).state ∈
      [DockState.vacant, .parked, .reserved, .queued, .pulling, .opened, .service] := by decide +kernel

/-- A second rise in one pull-in: the throw time is there already (R120). -/
theorem witness_LatchMoves_secondRise :
    let s := at0 { holding .pulling (.extension 9) with
      latch := rising, order := some { ord with throwTime := some 2 } }
    s.phase = .running ∧ (s.dock 0).latch = ⟨true, false, some 3⟩ ∧ (s.dock 0).state = .pulling ∧
    (s.dock 0).order = some { ord with throwTime := some 2 } ∧
    ({ ord with throwTime := some 2 } : Order).throwTime.isSome := by decide +kernel

theorem witness_ReturnTimerExpires : run.phase ≠ .inReset ∧
    ((at0 { parked with returnTimer := .runningForBike 9 }).dock 0).returnTimer = .runningForBike 9 ∧
    ((at0 { parked with returnTimer := .runningForId 9 }).dock 0).returnTimer = .runningForId 9 ∧
    ((at0 parked).dock 0).returnTimer = .stopped := by decide +kernel

theorem witness_BikeIdTaken :
    (call (at0 parked) (df .bikeId [0, 0, 0, 0, 7])).DockFrame .bikeId (df .bikeId [0, 0, 0, 0, 7]) ∧
    (df .bikeId [16, 0, 0, 0, 7]).payload.length = 5 ∧ 16 ≤ fieldAt [16, 0, 0, 0, 7] 0 1 ∧
    fieldAt [0, 0, 0, 0, 7] 0 1 = (0 : DockId).val ∧ fieldAt [0, 0, 0, 0, 7] 1 4 ≠ 0 ∧
    ((at0 { parked with returnTimer := .runningForBike 9 }).dock 0).returnTimer = .runningForBike 9 ∧
    ((at0 parked).dock 0).bike.level = true ∧ ((at0 parked).dock 0).returnTimer = .stopped ∧
    (∀ due, ((at0 { parked with bike := low }).dock 0).returnTimer ≠ .runningForBike due) ∧
    ((at0 { parked with bike := low }).dock 0).bike.level = false :=
  ⟨call_frame _ _ _ (by decide), rfl, by decide, rfl, by decide, rfl, rfl, rfl, by
    intro due; show ReturnTimer.stopped ≠ _; simp, rfl⟩

theorem witness_StationTime : run.phase ≠ .inReset ∧ ({ run with timeKnown := true } : State).timeKnown = true ∧
    run.timeKnown = false ∧ (ask run .timeSet [0, 0, 1, 0]).Request .timeSet (fr .timeSet [0, 0, 1, 0]) ∧
    (fr .timeSet [0, 0, 1, 0]).payload.length = 4 := ⟨by decide, rfl, rfl, ask_request _ _ _ (by decide), rfl⟩

/-! ### Witnesses: grants and dock commands -/

theorem OrdersOk.ask {s : State} (h : s.OrdersOk) (f : Frame) : (withRx s f).OrdersOk :=
  ⟨h.docks, h.held, h.queued, h.inQueue, h.queueDocks, h.referralDocks, h.referralCount, h.referrals,
    fun r hr => by
      have := h.answer r hr
      revert this
      cases r.work <;> exact id,
    h.passCounts, h.room, h.slotsHeld, h.slots, h.pulling, h.starting⟩

theorem OrdersOk.call {s : State} (h : s.OrdersOk) (f : Frame) : (call s f).OrdersOk :=
  ⟨h.docks, h.held, h.queued, h.inQueue, h.queueDocks, h.referralDocks, h.referralCount, h.referrals,
    fun r hr => by
      have := h.answer r hr
      revert this
      cases r.work <;> exact id,
    h.passCounts, h.room, h.slotsHeld, h.slots, h.pulling, h.starting⟩

theorem parked_ok : (at0 parked).OrdersOk := OrdersCheck.ok'
  (by unfold OrdersCheck; constructorm* _ ∧ _ <;> decide +kernel) rfl

/-- The order in the latch queue with STOP released and both slots free: a grant takes it. -/
def grantable : State := { queued with stopAsserted := false, stopLevel := false }

theorem grantable_ok : grantable.OrdersOk := OrdersCheck.ok' (by unfold OrdersCheck; constructorm* _ ∧ _ <;> decide +kernel) rfl

theorem witness_GrantEvaluation : queued.OrdersOk ∧ queued.queue ≠ [] ∧ queued.grantable = 0 ∧
    grantable.OrdersOk ∧ grantable.queue = [ord] ∧ grantable.grantable = 1 :=
  ⟨queued_ok, by decide, by decide +kernel, grantable_ok, by decide +kernel⟩

theorem witness_RequestsRefused :
    (ask run .passWrite []).Request .passWrite (fr .passWrite []) ∧ (fr .passWrite []).payload.length ≠ 18 ∧
    (ask run .stopAll [1]).Request .stopAll (fr .stopAll [1]) ∧ (fr .stopAll [1]).payload.length ≠ 0 ∧
    (ask run .dockCommand [4]).Request .dockCommand (fr .dockCommand [4]) ∧ fieldAt [4] 0 1 = 4 ∧
    (ask run .dockCommand []).Request .dockCommand (fr .dockCommand []) ∧ (fr .dockCommand []).payload = [] ∧
    fieldAt [6, 0] 0 1 ∉ [1, 2, 3, 4, 5] ∧ fieldAt [0, 0] 0 1 ∉ [1, 2, 3, 4, 5] ∧ 16 ≤ fieldAt [2, 16] 1 1 ∧
    (fr .dockCommand [2, 16]).payload.length = 2 ∧ (fr .dockCommand [4, 16, 0, 0, 0, 7, 0, 0, 0, 9]).payload.length = 10 ∧
    (ask run .referralAnswer [0, 0, 0, 0, 7, 0, 1, 1]).Request .referralAnswer
      (fr .referralAnswer [0, 0, 0, 0, 7, 0, 1, 1]) ∧ fieldAt [0, 0, 0, 0, 7, 0, 1, 1] 7 1 = 1 ∧
    fieldAt [0, 0, 0, 0, 7, 0, 1, 2] 7 1 = 2 ∧ fieldAt [0, 0, 0, 0, 7, 0, 1, 3] 7 1 ≠ 2 ∧
    (fr .notice []).kind ≠ 0x05 ∧ ¬(0x10 ≤ (fr .notice []).kind.toNat ∧ (fr .notice []).kind.toNat ≤ 0x23) ∧
    ¬(0x10 ≤ (0x0F : KindCode).toNat ∧ (0x0F : KindCode).toNat ≤ 0x23) :=
  ⟨ask_request _ _ _ (by decide), by decide, ask_request _ _ _ (by decide), by decide, ask_request _ _ _ (by decide),
    rfl, ask_request _ _ _ (by decide), rfl, by decide, by decide, by decide, rfl, rfl, ask_request _ _ _ (by decide),
    by decide +kernel⟩

/-- A rearrangement that moves one entry. -/
def busy (w : RearrangementWork) : State := { tables with rearrangement := some ⟨0, 1, w⟩ }

theorem witness_FramesLeftWaiting : (busy .passDelete).rearrangement.isSome ∧
    State.reset.phase ≠ .running ∧ ({ run with marks := ⟨false, false, true⟩ } : State).marks.restart = true := by
  decide

/-- A DOCK_COMMAND that reserves dock 0 for a pass until station time 9 (section 6.5.1). -/
def reserveFor (pass : Byte) : List Byte := [4, 0, 0, 0, 0] ++ [pass] ++ [0, 0, 0] ++ [9]

theorem witness_ReserveAndCancel :
    (ask (at0 parked) .dockCommand (reserveFor 7)).Request .dockCommand
      (fr .dockCommand (reserveFor 7)) ∧
    (∀ p ∈ [reserveFor 7, reserveFor 0],
      fieldAt p 1 1 = (0 : DockId).val ∧ fieldAt p 0 1 = 4 ∧ p.length = 10) ∧
    fieldAt (reserveFor 7) 2 4 ≠ 0 ∧ fieldAt (reserveFor 0) 2 4 = 0 ∧
    ({ run with timeKnown := true, stationTime := 9 } : State).timeKnown = true ∧
    fieldAt (reserveFor 7) 6 4 ≤ ({ run with stationTime := 9 } : State).stationTime ∧
    ({ run with stationTime := 8 } : State).stationTime < fieldAt (reserveFor 7) 6 4 ∧
    ((at0 parked).dock 0).state ∈ [DockState.parked, .reserved] ∧ (∀ r ∈ (at0 parked).referrals, r.dock ≠ 0) ∧
    (run.dock 0).state ∉ [DockState.parked, .reserved] ∧
    fieldAt [5, 0] 0 1 = 5 ∧ ((at0 { parked with state := .reserved }).dock 0).state = .reserved :=
  ⟨ask_request _ _ _ (by decide), by decide +kernel⟩

/-- Dock 0 in SERVICE with a fault kind. -/
def inService (x : FaultKind) : State := at0 { parked with state := .service, fault := some x }

theorem witness_ClearService :
    (∀ x ∈ [FaultKind.staffSet, .latchJam, .overcurrent, .undercurrent, .unconfigured],
      ((inService x).dock 0).state = .service ∧ ((inService x).dock 0).fault = some x) ∧
    (ask (inService .latchJam) .dockCommand [3, 0]).Request .dockCommand (fr .dockCommand [3, 0]) ∧
    fieldAt [3, 0] 1 1 = (0 : DockId).val ∧ fieldAt [3, 0] 0 1 = 3 ∧ ((at0 parked).dock 0).state ≠ .service :=
  ⟨by decide +kernel, ask_request _ _ _ (by decide), rfl, rfl, by decide +kernel⟩

theorem witness_SetService :
    (ask (at0 parked) .dockCommand [2, 0]).OrdersOk ∧ (ask queued .dockCommand [2, 0]).OrdersOk ∧
    (ask (driving .closing (.closingLimit 5)) .dockCommand [2, 0]).OrdersOk ∧
    (ask queued .dockCommand [2, 0]).Request .dockCommand (fr .dockCommand [2, 0]) ∧
    fieldAt [2, 0] 1 1 = (0 : DockId).val ∧ fieldAt [2, 0] 0 1 = 2 ∧
    ((at0 parked).dock 0).state ∈ [DockState.vacant, .loose, .parked, .reserved] ∧ (run.dock 0).state = .service ∧
    queued.queue.find? (fun x => x.dock == 0) = some ord ∧
    ((driving .closing (.closingLimit 5)).dock 0).order = some ord :=
  ⟨OrdersOk.ask parked_ok _, OrdersOk.ask queued_ok _, OrdersOk.ask closing_ok _, ask_request _ _ _ (by decide), rfl, rfl,
    by decide +kernel, rfl, rfl, rfl⟩

theorem witness_StaffUnlock : (ask (at0 parked) .dockCommand [1, 0]).OrdersOk ∧
    (ask (at0 parked) .dockCommand [1, 0]).Request .dockCommand (fr .dockCommand [1, 0]) ∧
    fieldAt [1, 0] 1 1 = (0 : DockId).val ∧ fieldAt [1, 0] 0 1 = 1 ∧
    ((at0 parked).dock 0).state ∉ [DockState.queued, .pulling, .opened, .closing] ∧
    ((at0 parked).dock 0).state ≠ .service ∧ (at0 parked).stopAsserted = false ∧
    (at0 parked).log.length + (at0 parked).inFlight ≤ 63 ∧ queued.stopAsserted = true ∧
    ((driving .opened (.hold 5)).dock 0).state ∈ [DockState.queued, .pulling, .opened, .closing] ∧
    (run.dock 0).state = .service ∧
    (run.dock 0).fault ∈ [some FaultKind.unconfigured, some .overcurrent, some .undercurrent] ∧
    ¬({ at0 parked with log := List.replicate 64 (run.returnOf 0 none) } : State).log.length + run.inFlight ≤ 63 :=
  ⟨OrdersOk.ask parked_ok _, ask_request _ _ _ (by decide), by decide +kernel⟩

theorem witness_ProfileWritten :
    (ask run .profileWrite [15, 1, 2, 3, 4, 5, 6]).Request .profileWrite (fr .profileWrite [15, 1, 2, 3, 4, 5, 6]) ∧
    fieldAt [15, 1, 2, 3, 4, 5, 6] 0 1 = (15 : DockId).val ∧ 16 ≤ fieldAt [16, 1, 2, 3, 4, 5, 6] 0 1 :=
  ⟨ask_request _ _ _ (by decide), rfl, by decide⟩

theorem witness_QueuedOrClosingOrderEnds : queued.OrdersOk ∧ queued.queue.find? (fun x => x.dock == 0) = some ord ∧
    queued.phase ≠ .inReset ∧
    (let s := { queued with docks := queued.docks.set 0 { queued.dock 0 with bike := falling, latch := rising } }
     s.OrdersOk ∧ s.phase = .running ∧ (s.dock 0).bike = ⟨false, true, some 3⟩ ∧
       (s.dock 0).latch = ⟨true, false, some 3⟩) ∧
    (moving .closing high falling (.closingLimit 5)).OrdersOk ∧
    ((moving .closing high falling (.closingLimit 5)).dock 0).state = .closing ∧
    ((moving .closing high falling (.closingLimit 5)).dock 0).order = some ord ∧
    ((moving .closing high falling (.closingLimit 5)).dock 0).latch = ⟨false, true, some 3⟩ ∧
    ((moving .closing high falling (.closingLimit 5)).dock 0).chan.timer = .closingLimit 5 :=
  ⟨queued_ok, rfl, by decide, ⟨OrdersCheck.ok'
    (by unfold OrdersCheck; constructorm* _ ∧ _ <;> decide +kernel) rfl, rfl, rfl, rfl⟩,
    OrdersCheck.ok' (by unfold OrdersCheck; constructorm* _ ∧ _ <;> decide +kernel) rfl,
    rfl, rfl, rfl, rfl⟩

/-! ### Witnesses: admission, referrals and notices -/

/-- The key of slot 0. -/
def key : List Byte := [1, 2, 3, 4, 5, 6, 7, 8]

/-- The token bytes of pass 7, key slot 0, serial 2, issued at 100 for 60 s, any station. -/
def token : List Byte := [0, 0, 0, 7, 0, 0, 2, 0, 0, 0, 100, 0, 60, 0, 0]

/-- A TAP of that token at dock 0 with its check code. -/
def tapBytes : List Byte := [0] ++ token ++ bytesOf 4 (checkCode key token)

/-- RUNNING with dock 0 PARKED, the key loaded, time known. -/
def open0 (passes : List PassEntry) : State :=
  { at0 parked with
    passes := passes, keys := run.keys.set 0 (some key), timeKnown := true, stationTime := 100 }

/-- The pass with no dock in flight. -/
def idlePass : PassEntry := { pass with inFlight := 0 }

theorem open_ok : (open0 [idlePass]).OrdersOk := OrdersCheck.ok'
  (by unfold OrdersCheck; constructorm* _ ∧ _ <;> decide +kernel) rfl

theorem tap_noCase (passes : List PassEntry) :
    NoCase ((open0 passes).dockCases 0 (tokenOf tapBytes) 1 2 ++ (open0 passes).tokenCases tapBytes) := by
  have h0 : (open0 passes).dock 0 = parked := rfl
  have h1 : (open0 passes).logSum = 0 := by show (at0 parked).logSum = 0; decide +kernel
  simp only [NoCase, State.dockCases, State.tokenCases, h0, h1, List.cons_append, List.nil_append, List.forall_mem_cons]
  refine ⟨by simp [open0, at0, run, State.reset, State.afterReset], by decide, by decide, by decide, by decide,
    by decide, by decide, by simp [open0, at0, run, State.reset, State.afterReset],
    by simp [open0, at0, run, State.reset, State.afterReset], by decide, by decide, ?_, ?_, ?_, by simp⟩
  · intro h
    exact h ⟨by decide +kernel, key, rfl, by decide +kernel⟩
  · intro h
    exact h.1 (by decide +kernel)
  · simp [open0, at0, run, State.reset, State.afterReset]

/-- A case whose condition fails passes to the next. -/
theorem FirstCase.passOver {c : Prop} {n v : Nat} {cases : List (Prop × Nat)} (fails : ¬c) (later : FirstCase cases v) :
    FirstCase ((c, n) :: cases) v := .inr ⟨fails, later⟩

/-- A case whose condition holds decides. -/
theorem FirstCase.here {c : Prop} {v : Nat} {cases : List (Prop × Nat)} (holds : c) : FirstCase ((c, v) :: cases) v :=
  .inl ⟨holds, rfl⟩

theorem witness_TapRefused :
    (call run (df .tap tapBytes)).DockFrame .tap (df .tap tapBytes) ∧ run.rearrangement = none ∧
    tapBytes.length = 20 ∧ (df .tap []).payload.length ≠ 20 ∧ queued.stopAsserted = true ∧ run.stopAsserted = false ∧
    16 ≤ (tokenOf (16 :: tapBytes.tail)).dock ∧ (tokenOf tapBytes).dock = (0 : DockId).val ∧
    FirstCase (run.dockCases 0 (tokenOf tapBytes) 1 2 ++ run.tokenCases tapBytes) 4 ∧
    (open0 [{ idlePass with lastSerial := 2 }]).passes.find? (fun x => x.id == (tokenOf tapBytes).passId) =
      some { idlePass with lastSerial := 2 } ∧
    FirstCase ((open0 []).entryCases (tokenOf tapBytes) { idlePass with lastSerial := 2 }) 19 := by
  have unconfigured : FirstCase (run.dockCases 0 (tokenOf tapBytes) 1 2 ++ run.tokenCases tapBytes) 4 :=
    .inr ⟨by decide, .inl ⟨by decide, rfl⟩⟩
  have used : FirstCase ((open0 []).entryCases (tokenOf tapBytes) { idlePass with lastSerial := 2 }) 19 :=
    FirstCase.passOver (by decide) <| FirstCase.passOver (by decide +kernel) <|
      FirstCase.passOver (by decide +kernel) <| FirstCase.here (by decide +kernel)
  exact ⟨call_frame _ _ _ (by decide), rfl, by decide +kernel, by decide, rfl, rfl, by decide +kernel,
    by decide +kernel, unconfigured, by decide +kernel, used⟩

theorem witness_TapAdmitted : (call (open0 [idlePass]) (df .tap tapBytes)).OrdersOk ∧
    (call (open0 [idlePass]) (df .tap tapBytes)).DockFrame .tap (df .tap tapBytes) ∧
    (open0 [idlePass]).rearrangement = none ∧ tapBytes.length = 20 ∧
    (open0 [idlePass]).passes.find? (fun x => x.id == (tokenOf tapBytes).passId) = some idlePass ∧
    NoCase ((open0 [idlePass]).entryCases (tokenOf tapBytes) idlePass) := by
  refine ⟨OrdersOk.call open_ok _, call_frame _ _ _ (by decide), rfl, by decide +kernel, by decide +kernel, ?_⟩
  simp only [State.entryCases, NoCase, List.forall_mem_cons]
  refine ⟨by decide, by decide +kernel, by decide +kernel, by decide +kernel, by decide, by decide, by simp⟩

theorem witness_TapReferred : (call (open0 []) (df .tap tapBytes)).DockFrame .tap (df .tap tapBytes) ∧
    (∀ e ∈ (open0 []).passes, e.id ≠ (tokenOf tapBytes).passId) ∧ (open0 []).identity.referralEnable = true ∧
    (open0 []).referrals.length < 4 ∧ (open0 []).station.tx.length + (open0 []).station.reserved < 8 ∧
    8 ≤ ({ run with station := { run.station with reserved := 8 } } : State).station.reserved ∧
    ({ run with identity := ⟨0, 30, false, true⟩ } : State).identity.referralEnable = false :=
  ⟨call_frame _ _ _ (by decide), by simp [open0], rfl, by decide, by decide, by decide, rfl⟩

/-- The referral of that TAP. -/
def referral (st : ReferralState) : Referral := ⟨0, 0, tapBytes, 3, st⟩

/-- The referral outstanding at dock 0. -/
def referred (st : ReferralState) : State :=
  { open0 [{ idlePass with id := 9 }] with
    referrals := [referral st], referralCount := 1
    docks := run.docks.set 0 { parked with boundPass := some 7, boundSerial := some 2 } }

theorem referred_ok (st : ReferralState) : (referred st).OrdersOk := OrdersCheck.ok'
  (by unfold OrdersCheck; cases st <;> constructorm* _ ∧ _ <;> decide +kernel) rfl

theorem referred_tables (st : ReferralState) : (referred st).TablesOk := TablesCheck.ok'
  (by cases st <;> decide +kernel) rfl

theorem TablesOk.ask {s : State} (h : s.TablesOk) (f : Frame) : (withRx s f).TablesOk :=
  ⟨h.passOrder, h.passCount, h.passRange, h.denyOrder, h.denyCount, h.denyRange, fun r hr => by
    have := h.work r hr
    revert this
    cases r.work <;> exact id⟩

/-- An ADMIT answer for pass `id` at dock 0. -/
def admitBytes (id cls : Byte) : List Byte :=
  [0, 0, 0, 0, id, 0, 2, 1, cls, 0, 0, 0, 0, 0, 0, 0, 0, 0, 5, 1, 0, 1]

theorem witness_AnswerAdmit :
    let s := ask (referred .awaitingAnswer) .referralAnswer (admitBytes 7 1)
    s.OrdersOk ∧ s.TablesOk ∧ s.Request .referralAnswer (fr .referralAnswer (admitBytes 7 1)) ∧
    (admitBytes 7 1).length = 22 ∧ fieldAt (admitBytes 7 1) 7 1 = 1 ∧ fieldAt (admitBytes 7 1) 8 1 = PassClass.rider.code ∧
    fieldAt (admitBytes 7 3) 8 1 ∉ [1, 2] ∧ fieldAt (admitBytes 7 1) 13 4 = 0 ∧
    s.referrals.find? (fun r => decide (r.dock.val = fieldAt (admitBytes 7 1) 0 1 ∧
      (tokenOf r.token).passId = fieldAt (admitBytes 7 1) 1 4 ∧
      (tokenOf r.token).serial = fieldAt (admitBytes 7 1) 5 2)) = some (referral .awaitingAnswer) ∧
    (s.passes.countP fun e => decide (7 < e.id)) ≠ 0 ∧ ((open0 []).passes.countP fun e => decide (7 < e.id)) = 0 ∧
    (∀ e ∈ s.passes, e.id ≠ 7) ∧ s.passes.length < 1024 ∧
    (open0 [idlePass]).passes.find? (fun e => e.id == 7) = some idlePass ∧ fieldAt (admitBytes 0 1) 1 4 = 0 ∧
    ∀ r ∈ run.referrals, r.dock ≠ 0 :=
  ⟨OrdersOk.ask (referred_ok _) _, TablesOk.ask (referred_tables _) _, ask_request _ _ _ (by decide),
    by decide +kernel⟩

theorem witness_ReferralEnds :
    let p : List Byte := [0, 0, 0, 0, 7, 0, 2, 2, 5]
    (ask (referred .awaitingAnswer) .referralAnswer p).Request .referralAnswer (fr .referralAnswer p) ∧
    fieldAt p 7 1 = 2 ∧
    (referred .awaitingAnswer).referrals.find? (fun r => decide (r.dock.val = fieldAt p 0 1 ∧
      (tokenOf r.token).passId = fieldAt p 1 4 ∧ (tokenOf r.token).serial = fieldAt p 5 2)) =
        some (referral .awaitingAnswer) ∧
    (∀ r ∈ run.referrals, r.dock ≠ 0) ∧ (referred .awaitingSend).phase ≠ .inReset ∧
    (referred .awaitingSend).referralOf 0 = some (referral .awaitingSend) ∧
    (referred .awaitingAnswer).referralOf 0 = some (referral .awaitingAnswer) :=
  ⟨ask_request _ _ _ (by decide), by decide +kernel, by decide +kernel, by decide, by decide, by decide +kernel,
    by decide +kernel⟩

/-- A sibling's broadcast. -/
def broadcast (k : Kind) (p : List Byte) : Frame := ⟨2, 0, 3, k.code, p⟩

theorem witness_NoticeTaken :
    let f := broadcast .notice [0, 0, 0, 7, 0, 1, 255]
    let s := withRx (open0 [idlePass]) f
    s.phase = .running ∧ s.marks.restart = false ∧ s.rearrangement = none ∧ s.station.rx.head? = some f ∧ f.dest = 0 ∧
    f.kind = 0x24 ∧ f.source ≠ s.station.address ∧ f.payload.length = 7 ∧ fieldAt f.payload 6 1 = 255 ∧
    s.passes.find? (fun e => e.id == fieldAt f.payload 0 4) = some idlePass ∧
    (idlePass.lastSerial = fieldAt f.payload 4 2 ∧ idlePass.source = .localUse) ∧
    fieldAt [0, 0, 0, 7, 0, 1, 2] 6 1 ∉ [0, 1, 255] ∧ fieldAt [0, 0, 0, 7, 0, 1, 1] 6 1 = 1 ∧
    (∀ e ∈ run.passes, e.id ≠ 7) := by
  refine ⟨rfl, rfl, rfl, rfl, rfl, rfl, by decide, rfl, ?_⟩
  decide +kernel

/-! ### Witnesses: the pass store -/

/-- A PASS_WRITE of pass `id` with valid from 1. -/
def writeBytes (id cls validUntil : Byte) : List Byte :=
  [0, 0, 0, id, cls, 0, 0, 0, 1, 0, 0, 0, validUntil, 0, 5, 2, 0, 0]

theorem witness_PassTableWritten : (ask tables .passWrite (writeBytes 8 1 0)).TablesOk ∧
    (ask tables .passWrite (writeBytes 8 1 0)).Request .passWrite (fr .passWrite (writeBytes 8 1 0)) ∧
    (writeBytes 8 1 0).length = 18 ∧ fieldAt (writeBytes 0 1 0) 0 4 = 0 ∧ fieldAt (writeBytes 8 3 0) 4 1 ∉ [1, 2] ∧
    fieldAt (writeBytes 8 1 1) 9 4 ≠ 0 ∧ ¬fieldAt (writeBytes 8 1 1) 9 4 < fieldAt (writeBytes 8 1 1) 5 4 ∧
    fieldAt (writeBytes 8 2 0) 4 1 = PassClass.staff.code ∧ (∃ e ∈ tables.passes, e.id = 9) ∧
    (∀ e ∈ tables.passes, e.id ≠ 8) ∧ tables.passes.length < 1024 ∧
    (tables.passes.countP fun e => decide (8 < e.id)) ≠ 0 ∧ (tables.passes.countP fun e => decide (9 < e.id)) = 0 ∧
    (ask tables .passDelete [0, 0, 0, 9]).Request .passDelete (fr .passDelete [0, 0, 0, 9]) ∧
    fieldAt [0, 0, 0, 9] 0 4 = 9 :=
  ⟨TablesOk.ask tables_ok _, ask_request _ _ _ (by decide), rfl, by decide +kernel, by decide +kernel,
    by decide +kernel, by decide +kernel, by decide +kernel, ⟨_, List.mem_cons_of_mem _ (List.mem_singleton.2 rfl), rfl⟩,
    by decide +kernel, by decide +kernel, by decide +kernel, by decide +kernel, ask_request _ _ _ (by decide),
    by decide +kernel⟩

/-- A table of 1,024 passes and a list of 256 deny entries are full. -/
theorem witness_full_tables : 1024 ≤ ((List.range 1024).map fun i => { idlePass with id := i + 1 }).length ∧
    256 ≤ ((List.range 256).map fun i => (⟨i + 1, none⟩ : DenyEntry)).length := by simp

theorem witness_PassRead : tables.TablesOk ∧ (busy .passDelete).rearrangement.isSome ∧
    (ask tables .passRead [0, 0, 0, 7, 1]).Request .passRead (fr .passRead [0, 0, 0, 7, 1]) ∧
    fieldAt [0, 0, 0, 7, 1] 4 1 = 1 ∧ fieldAt [0, 0, 0, 7, 0] 4 1 = 0 ∧ 2 ≤ fieldAt [0, 0, 0, 7, 2] 4 1 ∧
    (∃ e ∈ tables.passes, 7 < e.id ∧ ∀ x ∈ tables.passes, 7 < x.id → e.id ≤ x.id) ∧
    (∀ e ∈ tables.passes, e.id ≤ 9) ∧ (∃ e ∈ tables.passes, e.id = 7) ∧ (∀ e ∈ tables.passes, e.id ≠ 0) :=
  ⟨tables_ok, rfl, ask_request _ _ _ (by decide), by decide +kernel⟩

theorem witness_DenyWritten : (ask tables .denyWrite [0, 0, 0, 6, 0, 1]).TablesOk ∧
    (ask tables .denyWrite [0, 0, 0, 6, 0, 1]).Request .denyWrite (fr .denyWrite [0, 0, 0, 6, 0, 1]) ∧
    fieldAt [0, 0, 0, 6, 0, 1] 0 4 = 6 ∧ fieldAt [0, 0, 0, 0, 0, 1] 0 4 = 0 ∧ (∃ e ∈ tables.denies, e.id = 5) ∧
    (∀ e ∈ tables.denies, e.id ≠ 6) ∧ tables.denies.length < 256 ∧
    (tables.denies.countP fun e => decide (6 < e.id)) ≠ 0 ∧ (tables.denies.countP fun e => decide (9 < e.id)) = 0 :=
  ⟨TablesOk.ask tables_ok _, ask_request _ _ _ (by decide), by decide +kernel⟩

/-- A rearrangement with its request at the head. -/
def rearranging (k : Kind) (w : RearrangementWork) : State := withRx (busy w) (fr k [])

theorem witness_DenyDeleted : (ask tables .denyDelete [0, 0, 0, 5]).TablesOk ∧
    (ask tables .denyDelete [0, 0, 0, 5]).Request .denyDelete (fr .denyDelete [0, 0, 0, 5]) ∧
    (∃ e ∈ tables.denies, e.id = 5) ∧ (tables.denies.countP fun e => decide (5 < e.id)) ≠ 0 ∧
    (tables.denies.countP fun e => decide (8 < e.id)) = 0 ∧ (∀ e ∈ tables.denies, e.id ≠ 6) ∧
    (rearranging .denyDelete .denyDelete).phase ≠ .inReset ∧
    (rearranging .denyDelete .denyDelete).station.rx.head? = some (fr .denyDelete []) ∧
    (rearranging .denyDelete .denyDelete).rearrangement = some ⟨0, 1, .denyDelete⟩ ∧
    (rearranging .denyDelete .denyDelete).clock ≤ 0 + (1 * 512 + 24) / 25 ∧ (fr .denyDelete []).kind = 0x14 :=
  ⟨TablesOk.ask tables_ok _, ask_request _ _ _ (by decide), by decide +kernel⟩

theorem witness_Keys : (ask run .keyWrite (3 :: key)).Request .keyWrite (fr .keyWrite (3 :: key)) ∧
    (fr .keyWrite (3 :: key)).payload.length = 9 ∧ fieldAt (3 :: key) 0 1 < 4 ∧ 3 < fieldAt (4 :: key) 0 1 ∧
    (ask run .keyClear [3]).Request .keyClear (fr .keyClear [3]) ∧ fieldAt [3] 0 1 < 4 ∧ 3 < fieldAt [4] 0 1 :=
  ⟨ask_request _ _ _ (by decide), rfl, by decide +kernel, by decide +kernel, ask_request _ _ _ (by decide),
    by decide +kernel, by decide +kernel⟩

theorem busy_tables (w : RearrangementWork) (h : tables.WorkFits w) : (busy w).TablesOk :=
  ⟨tables_ok.passOrder, tables_ok.passCount, tables_ok.passRange, tables_ok.denyOrder, tables_ok.denyCount,
    tables_ok.denyRange, fun r hr => by
      obtain rfl : (⟨0, 1, w⟩ : Rearrangement) = r := by simpa [busy] using hr
      revert h
      cases w <;> exact id⟩

theorem busy_orders (w : RearrangementWork) (h : tables.AnswerFits w) : (busy w).OrdersOk :=
  let o := tables_orders
  ⟨o.docks, o.held, o.queued, o.inQueue, o.queueDocks, o.referralDocks, o.referralCount, o.referrals, fun r hr => by
      obtain rfl : (⟨0, 1, w⟩ : Rearrangement) = r := by simpa [busy] using hr
      revert h
      cases w <;> exact id,
    o.passCounts, o.room, o.slotsHeld, o.slots, o.pulling, o.starting⟩

/-- An ADMIT answer's insert under way, its request at the head. -/
def answering : State := withRx { referred .awaitingAnswer with
  referrals := [], rearrangement := some ⟨0, 1, .answerInsert { idlePass with id := 7 } 0 tapBytes⟩ } (fr .referralAnswer [])

theorem answering_ok : answering.TablesOk ∧ answering.OrdersOk := by
  refine ⟨TablesOk.ask (TablesCheck.ok (by decide +kernel) ?_) _,
    OrdersOk.ask (OrdersCheck.ok (by unfold OrdersCheck; constructorm* _ ∧ _ <;> decide +kernel) ?_) _⟩
  · rintro _ ⟨⟩
    exact ⟨RangedCheck.ok (by decide), by decide +kernel⟩
  · rintro _ ⟨⟩
    exact ⟨nofun, by decide +kernel, by decide +kernel, nofun⟩

/-- A rearrangement can end: its request is at the head of the station buffer. -/
abbrev Endable (s : State) (k : Kind) (w : RearrangementWork) (code : KindCode) : Prop :=
  s.TablesOk ∧ s.OrdersOk ∧ s.phase ≠ .inReset ∧ s.station.rx.head? = some (fr k []) ∧
    s.rearrangement = some ⟨0, 1, w⟩ ∧ (fr k []).kind = code

theorem endable (k : Kind) (w : RearrangementWork) (h : tables.WorkFits w) (h' : tables.AnswerFits w) :
    Endable (rearranging k w) k w k.code :=
  ⟨TablesOk.ask (busy_tables w h) _, OrdersOk.ask (busy_orders w h') _, nofun, rfl, rfl, rfl⟩

theorem witness_RearrangementEnds :
    (let w := RearrangementWork.passInsert { idlePass with id := 8 }; Endable (rearranging .passWrite w) .passWrite w 0x10) ∧
    Endable (rearranging .passDelete .passDelete) .passDelete .passDelete 0x11 ∧
    (let w := RearrangementWork.denyInsert ⟨6, none⟩; Endable (rearranging .denyWrite w) .denyWrite w 0x13) ∧
    Endable (rearranging .denyDelete .denyDelete) .denyDelete .denyDelete 0x14 ∧
    Endable answering .referralAnswer (.answerInsert { idlePass with id := 7 } 0 tapBytes) 0x1B :=
  ⟨endable _ _ ⟨RangedCheck.ok (by decide), by decide +kernel⟩ trivial, endable _ _ trivial trivial,
    endable _ _ ⟨{ id := by decide, floor := nofun }, by decide +kernel⟩ trivial, endable _ _ trivial trivial,
    answering_ok.1, answering_ok.2, nofun, rfl, rfl, rfl⟩

/-! ### Witnesses: STOP, supply and drive -/

/-- A pull-in with the STOP input asserted since uptime 3, and the queue with the input back since uptime 3. -/
def stopping : State := { driving .pulling (.pullLimit 5) with stopLevel := true, stopChange := some 3 }
def releasing : State := { queued with stopLevel := false, stopChange := some 3 }

theorem stopping_ok : stopping.OrdersOk := OrdersCheck.ok' (by unfold OrdersCheck; constructorm* _ ∧ _ <;> decide +kernel) rfl
theorem releasing_ok : releasing.OrdersOk := OrdersCheck.ok' (by unfold OrdersCheck; constructorm* _ ∧ _ <;> decide +kernel) rfl

theorem witness_StopTaken : stopping.OrdersOk ∧ stopping.phase = .running ∧ stopping.phase ≠ .inReset ∧
    stopping.stopAsserted = false ∧ stopping.stopLevel = true ∧ stopping.stopChange = some 3 ∧
    ({ stopping with phase := .starting } : State).phase = .starting ∧
    run.phase ≠ .inReset ∧ run.stopLevel = false ∧ queued.stopAsserted = true ∧ run.stopChange = none ∧
    (ask queued .stopAll []).OrdersOk ∧ (ask queued .stopAll []).Request .stopAll (fr .stopAll []) ∧
    (withRx queued (broadcast .stopAll [1])).OrdersOk ∧
    (withRx queued (broadcast .stopAll [1])).station.rx.head? = some (broadcast .stopAll [1]) ∧
    (broadcast .stopAll [1]).dest = 0 ∧ (broadcast .stopAll [1]).kind = 0x22 :=
  ⟨stopping_ok, rfl, nofun, rfl, rfl, rfl, rfl, nofun, rfl, rfl, rfl, OrdersOk.ask queued_ok _,
    ask_request _ _ _ (by decide), OrdersOk.ask queued_ok _, by decide +kernel⟩

theorem witness_StopReleasedAndSupplyWritten : releasing.OrdersOk ∧
    (ask run .supplyWrite [4, 0, 100, 0, 120]).Request .supplyWrite (fr .supplyWrite [4, 0, 100, 0, 120]) ∧
    (fr .supplyWrite [4, 0, 100, 0, 120]).payload.length = 5 ∧
    releasing.phase = .running ∧ releasing.phase ≠ .inReset ∧ releasing.stopAsserted = true ∧
    releasing.stopLevel = false ∧ releasing.stopChange = some 3 ∧ queued.stopLevel = true ∧
    ({ releasing with phase := .starting } : State).phase = .starting ∧ run.stopAsserted = false :=
  ⟨releasing_ok, ask_request _ _ _ (by decide), by decide +kernel⟩

theorem witness_SupplyDelivered : State.reset.phase ≠ .inReset ∧ State.reset.phase = .starting ∧
    State.reset.sense.converter = .convertingSupply 0 ∧ queued.phase = .running ∧ queued.OrdersOk ∧
    queued.sense.converter = .convertingSupply 0 ∧
    (∀ x, ({ run with sense := { run.sense with converter := .idle } } : State).sense.converter ≠ .convertingSupply x) :=
  ⟨by decide, rfl, rfl, rfl, queued_ok, rfl, by simp⟩

theorem witness_RowFigures : (12000 : Nat) ≤ 12000 ∧ (12000 : Nat) < 12001 ∧
    Supply.atReset.floor + 5 ≤ Supply.atReset.lowMark ∧ (95 : Nat) + 5 ≤ 100 ∧
    run.phase ≠ .inReset ∧ 1024 % 1024 = (run.pwmPhase + 64 * (0 : DockId).val) % 1024 ∧ run.clock < 1024 ∧
    1024 ≤ run.clock + 1024 := by decide

theorem witness_PeriodStarts :
    let s := at0 { holding .pulling .stopped with chan := .atReset }
    s.phase ≠ .inReset ∧ (s.dock 0).state = .pulling ∧ (s.dock 0).order = some ord ∧
    (s.dock 0).chan.pullInStart = none ∧ ¬((run.dock 0).state = .pulling ∧ (run.dock 0).chan.pullInStart = none) := by
  decide +kernel

theorem witness_OpenThenClosing : (driving .pulling (.extension 5)).OrdersOk ∧
    (driving .pulling (.extension 5)).phase ≠ .inReset ∧ ((driving .pulling (.extension 5)).dock 0).order = some ord ∧
    ((driving .pulling (.extension 5)).dock 0).state = .pulling ∧
    ((driving .pulling (.extension 5)).dock 0).chan.timer = .extension 5 ∧
    ((driving .opened (.hold 5)).dock 0).state = .opened ∧ ((driving .opened (.hold 5)).dock 0).chan.timer = .hold 5 ∧
    ((driving .opened (.hold 5)).dock 0).order = some ord :=
  ⟨extending_ok, by decide, rfl, rfl, rfl, rfl, rfl, rfl⟩

theorem witness_DriveFailures : (driving .pulling (.pullLimit 5)).OrdersOk ∧
    (driving .pulling (.pullLimit 5)).phase ≠ .inReset ∧ ((driving .pulling (.pullLimit 5)).dock 0).state = .pulling ∧
    ((driving .pulling (.pullLimit 5)).dock 0).order = some ord ∧
    ((driving .pulling (.pullLimit 5)).dock 0).chan.timer = .pullLimit 5 ∧ ord.underdriven = false ∧
    ({ ord with underdriven := true } : Order).underdriven = true ∧
    ({ driving .opened (.hold 5) with sense := { run.sense with reports := [(0, .undercurrent)] } } : State).sense.reports
      = (0, .undercurrent) :: [] ∧ (run.dock 0).state ∉ [DockState.pulling, .opened] :=
  ⟨pulling_ok, by decide, rfl, rfl, rfl, rfl, rfl, rfl, by decide +kernel⟩

/-! ### Witnesses: the sense unit -/

/-- Dock 0 with an active channel. -/
def sensed (c : Converter) (violations : Nat) : State :=
  { at0 { holding .opened (.hold 5) with sense := ⟨.hold, none, violations⟩ } with
    passes := [pass], sense := { run.sense with converter := c } }

theorem witness_TurnsAndActivity : ({ run with sense := { run.sense with nextTurn := .supply } } : State).sense.nextTurn
      = .supply ∧ run.sense.nextTurn = .coil ∧ (∀ d, (run.dock d).sense.activity = .inactive) ∧
    ((sensed .idle 0).dock 0).sense.activity ≠ .inactive ∧ (sensed .idle 0).sense.nextTurn = .coil ∧
    (∀ x, ((sensed .idle 0).dock x).sense.activity ≠ .inactive → 0 ≤ x) ∧
    ((sensed .idle 0).dock 0).sense.activity = .hold ∧ ((sensed .idle 0).dock 0).sense.activity ≠ .pullIn := by
  decide +kernel

theorem witness_SamplingPoints : run.phase ≠ .inReset ∧
    (sensed (.waiting 0 none false) 0).sense.converter = .waiting 0 none false ∧
    ((sensed (.waiting 0 none false) 0).dock 0).chan.pending < 64 ∧
    64 ≤ ((at0 { holding .opened (.hold 5) with chan := ⟨64, 64, some 0, .hold 5⟩ }).dock 0).chan.pending ∧
    (sensed (.waiting 0 (some 9) false) 0).sense.converter = .waiting 0 (some 9) false ∧
    (sensed .idle 0).sense.converter = .idle := by decide +kernel

theorem witness_Violations : 0 < Profile.default.iMin ∧ ({ Profile.default with iMin := 0 } : Profile).iMin = 0 ∧
    ¬2 * (1600 : Code).toNat > 32 * Profile.default.iMax ∧ 2 * (1601 : Code).toNat > 32 * Profile.default.iMax ∧
    2 * (99 : Code).toNat < 8 * Profile.default.iMin ∧ ¬2 * (100 : Code).toNat < 8 * Profile.default.iMin ∧
    2 * (17 : Code).toNat > 32 * (1 : Nat) ∧ 2 * (17 : Code).toNat < 8 * (5 : Nat) := by
  decide

theorem witness_CoilJudged : (sensed (.convertingCoil 0 9 false) 2).phase ≠ .inReset ∧
    (sensed (.convertingCoil 0 9 false) 2).sense.converter = .convertingCoil 0 9 false ∧
    ((sensed (.convertingCoil 0 9 false) 2).dock 0).order = some ord ∧
    (sensed (.convertingCoil 0 9 true) 2).sense.converter = .convertingCoil 0 9 true ∧
    ¬((sensed (.convertingCoil 0 9 false) 2).dock 0).sense.activity = .pullIn ∧
    (9 / 2048 < 0 + 200 ∧ ¬409600 / 2048 < 0 + 200) ∧ violationOf ord.profile .hold 100 0 = none ∧
    violationOf ord.profile .hold 99 0 = some .undercurrent ∧
    ((sensed (.convertingCoil 0 9 false) 1).dock 0).sense.violations < 2 ∧
    2 ≤ ((sensed (.convertingCoil 0 9 false) 2).dock 0).sense.violations := by decide +kernel

/-! ### Witnesses: reports and the link -/

theorem witness_CollectAnswered : (ask run .collect []).Request .collect (fr .collect []) ∧
    ({ run with marks := ⟨true, false, false⟩ } : State).marks.collect = true ∧ run.marks.collect = false ∧ run.log = [] ∧
    ({ run with log := [run.returnOf 0 none] } : State).log = run.returnOf 0 none :: [] :=
  ⟨ask_request _ _ _ (by decide), rfl, rfl, rfl, rfl⟩

theorem witness_ReadsAnswered : (ask run .eventRead []).Request .eventRead (fr .eventRead []) ∧
    (ask run .statusRead []).Request .statusRead (fr .statusRead []) ∧
    (ask run .restart []).Request .restart (fr .restart []) ∧ (fr .restart []).payload = [] ∧
    run.events.clearMode = .readClears ∧ run.marks.eventRead = false ∧
    ({ run with marks := ⟨false, true, false⟩ } : State).marks.eventRead = true ∧
    ({ run.events with clearMode := .clearByRequest } : Events).clearMode = .clearByRequest ∧
    ({ run.loader with status := .complete } : Loader).status ≠ .loading :=
  ⟨ask_request _ _ _ (by decide), ask_request _ _ _ (by decide), ask_request _ _ _ (by decide), rfl, rfl, rfl, rfl, rfl,
    by simp⟩

theorem witness_EventCleared : (ask run .eventClear [0x0F, 0xFF]).Request .eventClear (fr .eventClear [0x0F, 0xFF]) ∧
    fieldAt [0x0F, 0xFF] 0 2 < 4096 ∧ 4096 ≤ fieldAt [0x10, 0] 0 2 :=
  ⟨ask_request _ _ _ (by decide), by decide +kernel, by decide +kernel⟩

theorem witness_EventsMaskedAndForced :
    (ask run .eventMask [0x0F, 0xFF]).Request .eventMask (fr .eventMask [0x0F, 0xFF]) ∧
    (ask run .eventForce [0x0F, 0xFF]).Request .eventForce (fr .eventForce [0x0F, 0xFF]) ∧
    fieldAt [0x0F, 0xFF] 0 2 < 4096 ∧ 4096 ≤ fieldAt [0x10, 0] 0 2 :=
  ⟨ask_request _ _ _ (by decide), ask_request _ _ _ (by decide), by decide +kernel, by decide +kernel⟩

theorem witness_FramesForwardedOrDiscarded :
    (call run (df .message [])).DockFrame .message (df .message []) ∧
    (ask run .message [15]).Request .message (fr .message [15]) ∧
    (call run (df .verdict [])).dockPort.rx.head? = some (df .verdict []) ∧
    (df .verdict []).kind ∉ [0x01, 0x02, 0x05] ∧ (withRx run (broadcast .restart [])).station.rx.head? =
      some (broadcast .restart []) ∧ (broadcast .restart []).dest = 0 ∧ (broadcast .restart []).kind ∉ [0x22, 0x24] :=
  ⟨call_frame _ _ _ (by decide), ask_request _ _ _ (by decide), rfl, by decide, rfl, rfl, by decide⟩

/-- A port of `run` in a line state. -/
def lineAt (p : PortId) (l : LineState) (tx : List TxFrame) : State :=
  run.modPort p fun q => { q with line := l, tx := tx }

theorem witness_FrameReceived : ∀ f ∈ [fr .statusRead [], broadcast .notice [0, 0, 0, 7, 0, 1, 255], fr .message [15],
      { fr .statusRead [] with dest := 4 }],
    (lineAt .station (.receiving 0 none) []).phase ≠ .inReset ∧ f.payload.length = headerLength f.header ∧
    headerHasNoEnd f.header = false ∧
    ((lineAt .station (.receiving 0 none) []).port .station).line = .receiving 0 none ∧
    receivedFrame f.header f.payload f.check = some f ∧ receivedFrame f.header f.payload (f.check + 1) = none := by
  decide +kernel

/-- Another node's start bit was seen at step 0, in the bit time that still runs, with a frame to send. -/
def startSeen : State := lineAt .dock (.receiving 0 none) [⟨fr .notice [], .none⟩]

theorem witness_LineFollowed : run.phase ≠ .inReset ∧ (run.port .dock).line = .waiting 0 ∧
    ((lineAt .dock .idle [⟨fr .notice [], .none⟩]).port .dock).line = .idle ∧
    ((lineAt .dock .idle [⟨fr .notice [], .none⟩]).port .dock).tx ≠ [] ∧
    ((lineAt .dock (.sending 9) [⟨fr .notice [], .none⟩]).port .dock).line = .sending 9 ∧
    ((lineAt .dock (.sending 9) [⟨fr .notice [], .none⟩]).port .dock).tx.head? = some ⟨fr .notice [], .none⟩ ∧
    (0x0000 : BitVec 16).getMsbD 0 = false ∧ (fr .notice []).arbitration.getMsbD 0 = true ∧
    ((lineAt .dock (.receiving 9 none) []).port .dock).line = .receiving 9 none ∧
    (startSeen.port .dock).line = .receiving 0 none ∧ (startSeen.port .dock).tx ≠ [] ∧
    (startSeen.port .dock).rate = .kbit125 ∧ startSeen.clock < 0 + (8 * 512 + 24) / 25 ∧
    0 + (8 * 512 + 24) / 25 ≤ ({ startSeen with clock := 164 } : State).clock ∧
    headerHasNoEnd 33#32 = true ∧
    ((lineAt .dock (.receiving 9 (some 0)) []).port .dock).line = .receiving 9 (some 0) := by decide +kernel

theorem witness_FrameDeparts : ∀ p ∈ [PortId.station, .dock], ∀ o ∈ [Owner.none, .referral 0, .collect, .eventRead, .restart],
    (lineAt p (.sending 9) [⟨fr .reply [0], o⟩]).phase ≠ .inReset ∧
    ((lineAt p (.sending 9) [⟨fr .reply [0], o⟩]).port p).line = .sending 9 ∧
    ((lineAt p (.sending 9) [⟨fr .reply [0], o⟩]).port p).tx = [⟨fr .reply [0], o⟩] ∧
    run.events.attention ≠ .owed ∧ ({ run.events with attention := .owed } : Events).attention = .owed := by
  decide +kernel

/-! ### Commands on small states, expected results by hand from the rules -/

/-- A dock's reply: the payload of the last frame queued on the station port. -/
def lastReply (s : State) : Option (List Byte) := s.station.tx.getLast?.map (·.frame.payload)

/-- The payload of the last frame queued on the dock port. -/
def lastToReader (s : State) : Option (List Byte) := s.dockPort.tx.getLast?.map (·.frame.payload)

/-- An admitted TAP takes a ride and the serial, is granted at once (STOP released, 2 slots), and VERDICT ADMIT carries
dock 0, pass 7, serial 2, code 1 (R70 to R72, R102, R103). With no supply sample yet the duty is 1,024 (R116). -/
theorem test_tap_admits :
    let t := after .tap (call (open0 [idlePass]) (df .tap tapBytes))
    t.passes = [{ idlePass with ridesLeft := 4, lastSerial := 2, inFlight := 1 }] ∧ (t.dock 0).state = .pulling ∧
    (t.dock 0).chan.pending = 1024 ∧ lastToReader t = some [0, 0, 0, 0, 7, 0, 2, 1, 0] ∧
    lastReply t = some [0, 0, 0, 7, 0, 2, 0xFF] := by decide +kernel

/-- R65's window for issue time 100, lifetime 60 and skew 30: 70 to 190 inclusive. -/
theorem test_token_window : ∀ x ∈ [(69, some Verdict.expired), (70, none), (190, none), (191, some .expired)],
    State.windowTest { open0 [] with stationTime := x.1 } (tokenOf tapBytes) idlePass = x.2 := by decide +kernel

/-- A TAP for a pass not held is referred: REFERRAL carries its 20 bytes and the reader gets PENDING (R79). -/
theorem test_tap_refers :
    let t := after .tap (call (open0 []) (df .tap tapBytes))
    t.referrals.length = 1 ∧ lastReply t = some tapBytes ∧ lastToReader t = some [0, 0, 0, 0, 7, 0, 2, 2, 0] := by
  decide +kernel

/-- A REFUSE answer with reason 5: VERDICT REFUSED_BY_STATION (22) with the reason, REPLY OK with the code (R86). -/
theorem test_answer_refuses :
    let t := after .referralAnswerRefuse (ask (referred .awaitingAnswer) .referralAnswer [0, 0, 0, 0, 7, 0, 2, 2, 5])
    t.referrals = [] ∧ (t.dock 0).boundPass = none ∧ lastToReader t = some [0, 0, 0, 0, 7, 0, 2, 22, 5] ∧
    lastReply t = some [0, 22] := by decide +kernel

/-- An ADMIT answer for a pass not held, in a table with a higher id, waits on a rearrangement of one entry (R84). -/
theorem test_answer_admits : (after .referralAnswerAdmit
    (ask (referred .awaitingAnswer) .referralAnswer (admitBytes 7 1))).rearrangement.map (·.moved) = some 1 := by
  decide +kernel

/-- A sibling's notice of the serial that this gateway admitted last lowers the rides and is a duplicate (R90, R91). -/
theorem test_notice_duplicate :
    let t := after .notice (withRx (open0 [idlePass]) (broadcast .notice [0, 0, 0, 7, 0, 1, 255]))
    t.passes = [{ idlePass with ridesLeft := 4 }] ∧ t.events.lastDuplicate = some ⟨7, 1, 3⟩ ∧
    t.events.pending = 0x100 ∧ t.station.rx = [] := by decide +kernel

/-- The bike is lifted in OPEN: RIDE_START, BIKE_REMOVED and its ATTENTION, the coil off, the dock VACANT (R125). -/
theorem test_ride_start :
    let t := after (.bikePresentFall 0) (moving .opened falling high (.hold 5))
    t.log.map (·.kind) = [.rideStart] ∧ t.events.pending = 1 ∧ lastReply t = some [0, 1] ∧
    (t.dock 0).state = .vacant ∧ t.passes = [{ pass with inFlight := 0 }] := by decide +kernel

/-- A pull-in with no edge at full supply: LATCH_JAM, a refund, RESULT FAILED with reason 2 (R109, R123). -/
theorem test_latch_jam :
    let t := after (.pullLimitExpiry 0) (driving .pulling (.pullLimit 5))
    t.log.map (·.reason) = [some .latchJam] ∧ (t.dock 0).fault = some .latchJam ∧ t.events.pending = 4 ∧
    t.passes = [{ pass with inFlight := 0, ridesLeft := 6 }] ∧ lastToReader t = some [0, 3, 2] := by decide +kernel

/-- The latch closes in CLOSING: RESULT CLOSED (2), NOT_TAKEN, PARKED (R129). -/
theorem test_not_taken :
    let t := after (.latchOpenFall 0) (moving .closing high falling (.closingLimit 5))
    t.log.map (·.kind) = [.notTaken] ∧ (t.dock 0).state = .parked ∧ lastToReader t = some [0, 2, 0] := by
  decide +kernel

/-- Throw time: an edge captured 3 units after a pull-in start at 0 (R121); EXTENSION runs 20 ms from 8 (5 ms later). -/
theorem test_throw_time :
    let t := after (.latchOpenRise 0) (moving .pulling high ⟨true, false, some 3⟩ (.pullLimit 5))
    (t.dock 0).order.map (·.throwTime) = some (some 3) ∧ (t.dock 0).chan.timer = .extension 253 := by decide +kernel

/-- STOP held for 1 ms (from uptime 3 to 13) ends the pull-in (R105, R106). -/
theorem test_stop :
    let t := after .stopAssertion stopping
    t.log.map (·.reason) = [some .abortedStop] ∧ (t.dock 0).state = .parked ∧ t.stopAsserted = true ∧
    t.clock = 13 * 2048 := by decide +kernel

/-- A STOP level that went back within 1 ms is not seen (R105). -/
theorem test_stop_bounce :
    let t := after .stopRelease (after .stopAssertion run)
    after .stopRelease t = t ∧ (after .stopAssertion t).stopAsserted = false ∧ t.stopAsserted = false ∧
    (after .stopAssertion (after .stopAssertion run)).stopAsserted = true := by decide +kernel

/-- A release grants the queued order (R107). -/
theorem test_stop_release : ((after .stopRelease releasing).dock 0).state = .pulling ∧
    (after .stopRelease releasing).queue = [] := by decide +kernel

/-- Own and other start bit in one bit time (8 µs, 164 steps) are one start from step 0, which a lower header wins at its
first bit; a bit time later the port defers (R173, R174). -/
theorem test_one_start :
    let idle := lineAt .dock .idle [⟨fr .notice [], .none⟩]
    let seen : State := { after (.otherNodeStartBit .dock) idle with clock := 163 }
    let both := after (.frameSendStart .dock) seen
    both.dockPort.line = .sending 0 ∧ (after (.arbitrationLost .dock 0) both).dockPort.line = .receiving 0 none ∧
    (after (.frameSendStart .dock) { seen with clock := 164 }).dockPort.line = .receiving 0 none := by decide +kernel

/-- The reset of a RESTART samples the straps and the STOP input: address 2 + 5, STOP asserted (R105, R167, R192). -/
theorem test_restart_samples_pins :
    let s : State := { lineAt .station (.sending 9) [⟨fr .reply [0], .restart⟩] with stopLevel := true }
    let t := after (.frameDeparture .station ⟨.ackDominant, 5⟩) s
    t.phase = .starting ∧ t.station.address = 7 ∧ t.stopAsserted = true ∧ t.clock = 0 := by decide +kernel

/-- RESERVE at a PARKED dock, then its expiry one second past the until time (R17, R18). -/
theorem test_reserve :
    let t := after .reserve (ask (at0 parked) .dockCommand (reserveFor 7))
    (t.dock 0).state = .reserved ∧ (t.dock 0).reservation = some ⟨7, 9⟩ ∧ lastReply t = some [0] ∧
    ((after .stationTimeAdvance { t with timeKnown := true, stationTime := 8 }).dock 0).state = .reserved ∧
    ((after .stationTimeAdvance { t with timeKnown := true, stationTime := 9 }).dock 0).state = .parked := by
  decide +kernel

/-- PASS_WRITE between two passes moves one entry, and 1 µs (21 steps) later it is present (R30, R34). -/
theorem test_pass_write :
    let t := after .passWrite (ask tables .passWrite (writeBytes 8 1 0))
    t.rearrangement.map (·.moved) = some 1 ∧ t.station.tx = [] ∧
    (after .rearrangementEnd t).passes.map (·.id) = [7, 8, 9] ∧ (after .rearrangementEnd t).clock = 21 ∧
    lastReply (after .rearrangementEnd t) = some [0] := by decide +kernel

/-- PASS_READ NEXT from 7 gives pass 9, a STAFF pass valid 10 to 20, unlimited (section 12.4). -/
theorem test_pass_read : lastReply (after .passRead (ask tables .passRead [0, 0, 0, 7, 1])) =
    some [0, 0, 0, 0, 9, 2, 0, 0, 0, 10, 0, 0, 0, 20, 0xFF, 0xFF, 1, 0, 0, 3, 0] := by decide +kernel

/-- DENY_DELETE of the lower entry, and the deny check on the other: floor 3 revokes 2 and not 3 (R43, R45). -/
theorem test_deny : (after .denyDelete (ask tables .denyDelete [0, 0, 0, 5])).denies = [⟨8, some 3⟩] ∧
    tables.revoked 5 65535 = true ∧ tables.revoked 8 2 = true ∧ tables.revoked 8 3 = false ∧
    tables.revoked 7 1 = false := by decide +kernel

/-- EVENT_FORCE of kinds 0 and 11 queues one ATTENTION with both (R162, R163). -/
theorem test_event_force :
    let t := after .eventForce (ask run .eventForce [0x08, 0x01])
    t.events.pending = 0x801 ∧ t.station.tx.map (·.frame.payload) = [[0x08, 0x01], [0]] := by decide +kernel

/-- COLLECT of the one record: 28 bytes, none behind (R154, R201). -/
theorem test_collect :
    let t := after .collect (ask { run with log := [run.returnOf 0 (some 5)] } .collect [])
    (lastReply t).map List.length = some 28 ∧ (lastReply t).bind (·.getLast?) = some 0 ∧ t.marks.collect = true ∧
    t.log.length = 1 := by decide +kernel

/-- Identity, supply and dock 15's profile, then the end tag: COMPLETE and RUNNING, the dock at its sensors (R197 to
R199). -/
theorem test_settings_load :
    let load (s : State) (r : List Byte) : State := after (.settingsRecordRead r) s
    let t := [[0x01, 0x12, 0x34, 2, 0, 3, 7, 0], [0x02, 4, 0, 100, 0, 120, 0, 0], [0x1F, 120, 45, 50, 20, 100, 25, 1],
      [0xFF, 0, 0, 0, 0, 0, 0, 0]].foldl load State.reset
    t.phase = .running ∧ t.loader.status = .complete ∧ t.identity = ⟨0x1234, 7, true, true⟩ ∧
    t.supply.floor = 95 ∧ t.dockPort.rate = .kbit250 ∧ t.station.rate = .kbit62 ∧ (t.dock 15).state = .vacant ∧
    (t.dock 0).state = .service ∧ t.events.pending = 0 := by decide +kernel

/-- A failed transaction at record 0 is ABSENT, with LOAD_ERROR (kind 9) and its ATTENTION (R166, R198). -/
theorem test_settings_absent :
    let t := after (.i2cTransactionTimeout .notAcknowledged) State.reset
    t.loader.status = .absent ∧ t.events.pending = 0x200 ∧ lastReply t = some [2, 0] := by decide +kernel

/-- Record 2 stands at byte address 16 of the memory at 0x53; a transaction longer than 10 ms has failed, here at
record 0, so that its record is not applied (R196, R198). -/
theorem test_settings_addressed_and_late :
    State.addressBytes { State.reset with loader := { State.reset.loader with index := 2 } } =
      [.device 0x53 false, .byteAddress 16, .device 0x53 true] ∧
    (after (.settingsRecordRead [0x01, 0x12, 0x34, 2, 0, 3, 7, 0]) { State.reset with clock := 204800 }).identity.group
      = 0x1234 ∧
    (let t := after (.settingsRecordRead [0x01, 0x12, 0x34, 2, 0, 3, 7, 0]) { State.reset with clock := 204801 }
     t.identity.group = 0 ∧ t.loader.status = .absent) := by decide +kernel

/-- A sample both above 32 × 1 mA and below 8 × 5 mA is over or under, as a free value chooses (R143, R144). -/
theorem test_violation_both : violationOf ⟨120, 45, 50, 20, 1, 5⟩ .hold 17 0 = some .overcurrent ∧
    violationOf ⟨120, 45, 50, 20, 1, 5⟩ .hold 17 1 = some .undercurrent := by decide +kernel

/-- Eleven bit times at 125 kbit/s are 88 µs, 1,803 steps rounded up (R168, R169). -/
theorem test_line_idle : (after (.lineIdle .station) run).clock = 1803 ∧
    (after (.lineIdle .station) run).station.line = .idle := by decide +kernel

/-- STATUS_READ is acknowledged, reserves a slot and waits at the head; its REPLY takes the slot (R178, R186). -/
theorem test_frame_received :
    let f := fr .statusRead []
    let t := after (.frameReceived .station f.header f.payload f.check) (lineAt .station (.receiving 0 none) [])
    t.station.rx = [f] ∧ t.station.reserved = 1 ∧ (after .statusRead t).station.reserved = 0 ∧
    (lastReply (after .statusRead t)).map List.length = some 25 := by decide +kernel

/-- A NOTICE (destination 0) and a REPLY of one priority: the broadcast wins at header bit 7, the lowest bit of the
destination 1 (R172, R174). -/
theorem test_arbitration :
    let reply : Frame := ⟨2, 1, 2, 0x28, [0]⟩
    let notice : Frame := ⟨2, 0, 3, 0x24, []⟩
    notice.arbitration < reply.arbitration ∧ firstDifference notice.arbitration reply.arbitration = 7 := by
  decide +kernel

end Sys2Proof.Tests
end

section
/-! Requests as a whole: a station request of its length is executed as its kind's act, and its REPLY carries the
priority of its kind (R172, R184, R186). -/

namespace Sys2Proof.Machine

/-- A command whose effect leaves the state as it is answers with that state, in reset too. -/
theorem State.perform_unchanged {s : State} {effect : State → State} (h : effect s = s) :
    s.perform effect = .next s := by
  unfold State.perform State.unlessReset
  split
  · rfl
  · rw [h]

/-- While the pass store is busy no station frame is taken (R35). -/
theorem State.takeStation_busy {s : State} (h : s.rearrangement.isSome) (accepts : Frame → Bool)
    (act : Frame → State → State) : s.takeStation accepts act = s := by
  obtain unchanged | ⟨_, _, _, notBusy, _⟩ := s.takeStation_cases accepts act
  · exact unchanged
  · simp [notBusy] at h

/-- A request of its length is executed by the act of its kind. -/
theorem State.Request.perform {s : State} {k : Kind} {f : Frame} {n : Nat} (h : s.Request k f)
    (length : f.payload.length = n) (act : List Byte → State → State) :
    s.perform (fun t => t.takeRequest k n act) = .next (act f.payload s) := by
  rw [State.perform_running h.running, h.takeRequest act, if_pos length]

/-- The REPLY that answers a request has the priority of the request's kind (R172). -/
theorem State.replyWith_of_kind {s : State} {f : Frame} {k : Kind} {priority : BitVec 2}
    (head : s.station.rx.head? = some f) (kind : f.kind = k.code) (st : Status) (data : List Byte)
    (ofKind : replyPriority k.code = priority := by decide) :
    s.replyWith st data .none = s.replied f priority st.code data := by
  rw [State.replyWith_eq head, kind, ofKind]

/-- The same for a REPLY that carries its status alone. -/
theorem State.reply_of_kind {s : State} {f : Frame} {k : Kind} {priority : BitVec 2}
    (head : s.station.rx.head? = some f) (kind : f.kind = k.code) (st : Status)
    (ofKind : replyPriority k.code = priority := by decide) : s.reply st = s.replied f priority st.code :=
  State.replyWith_of_kind head kind st [] ofKind

end Sys2Proof.Machine
end

section
/-! Tables in ascending key order: which entry a search finds, and how many entries the removal of a key takes away
(R27, R33, R42, R45). -/

namespace Sys2Proof.Machine

section
variable {α : Type} (key : α → Nat)

/-- In an ascending table a search finds the entry with the lowest key among those it accepts. -/
theorem find?_eq_some_of_lowest {l : List α} (order : l.Pairwise fun a b => key a < key b) {p : α → Bool} {e : α}
    (mem : e ∈ l) (accepted : p e = true) (lowest : ∀ x ∈ l, p x = true → key e ≤ key x) : l.find? p = some e := by
  induction l with
  | nil => simp at mem
  | cons x xs ih =>
    obtain ⟨below, rest⟩ := List.pairwise_cons.1 order
    obtain rfl | tail := List.mem_cons.1 mem
    · exact List.find?_cons_of_pos accepted
    · have rejected : ¬p x = true := fun hx => by
        have := below e tail
        have := lowest x List.mem_cons_self hx
        omega
      rw [List.find?_cons_of_neg rejected]
      exact ih rest tail fun y hy => lowest y (List.mem_cons_of_mem x hy)

/-- An ascending table holds a key once. -/
theorem countP_key_eq_one {l : List α} (order : l.Pairwise fun a b => key a < key b) {id : Nat}
    (held : ∃ e ∈ l, key e = id) : l.countP (fun e => key e == id) = 1 := by
  have keysOnce : (l.map key).Nodup := List.pairwise_map.2 (order.imp Nat.ne_of_lt)
  rw [← List.count_eq_one_of_mem keysOnce (List.mem_map.2 held), List.count, List.countP_map]
  rfl

/-- An ascending table without one of its keys is one entry shorter. -/
theorem length_filter_key_ne {l : List α} (order : l.Pairwise fun a b => key a < key b) {id : Nat}
    (held : ∃ e ∈ l, key e = id) : (l.filter fun e => key e ≠ id).length + 1 = l.length := by
  rw [List.length_eq_countP_add_countP (l := l) (fun e => key e == id), countP_key_eq_one key order held,
    ← List.countP_eq_length_filter, Nat.add_comm]
  simp

end

end Sys2Proof.Machine
end

section
/-! The pass store's requests PASS_READ and DENY_DELETE and the end of a rearrangement (R33, R34, R45). -/

namespace Sys2Proof.Machine

theorem exec_passRead (s : State) : exec .passRead s = execPassRead s := rfl

theorem exec_denyDelete (s : State) : exec .denyDelete s = execDenyDelete s := rfl

theorem exec_rearrangementEnd (s : State) : exec .rearrangementEnd s = execRearrangementEnd s := rfl

/-! ### Lookups -/

theorem State.findPass_eq_some {s : State} (h : s.TablesOk) {e : PassEntry} (mem : e ∈ s.passes) :
    s.findPass e.id = some e :=
  find?_eq_some_of_lowest PassEntry.id h.passOrder mem (by simp) fun x _ hx =>
    (beq_iff_eq.1 hx).ge

theorem State.findPass_eq_none {s : State} {id : Nat} (h : ∀ e ∈ s.passes, e.id ≠ id) : s.findPass id = none := by
  simpa [State.findPass] using h

theorem State.nextPass_eq_some {s : State} (h : s.TablesOk) {id : Nat} {e : PassEntry} (mem : e ∈ s.passes)
    (above : id < e.id) (lowest : ∀ x ∈ s.passes, id < x.id → e.id ≤ x.id) : s.nextPass id = some e :=
  find?_eq_some_of_lowest PassEntry.id h.passOrder mem (by simpa using above) fun x hx hid =>
    lowest x hx (by simpa using hid)

theorem State.nextPass_eq_none {s : State} {id : Nat} (h : ∀ e ∈ s.passes, e.id ≤ id) : s.nextPass id = none := by
  simpa [State.nextPass] using h

theorem State.findDeny_isSome {s : State} {id : Nat} (h : ∃ e ∈ s.denies, e.id = id) : ∃ e, s.findDeny id = some e :=
  Option.isSome_iff_exists.1 (by simpa [State.findDeny] using h)

theorem State.findDeny_eq_none {s : State} {id : Nat} (h : ∀ e ∈ s.denies, e.id ≠ id) : s.findDeny id = none := by
  simpa [State.findDeny] using h

/-! ### PASS_READ -/

/-- A request that waits at a busy table is not taken (R35). -/
theorem exec_passRead_busy {s : State} (h : s.rearrangement.isSome) : exec .passRead s = .next s := by
  rw [exec_passRead]
  exact State.perform_unchanged (State.takeStation_busy h _ _)

section
variable {s : State} {f : Frame} (h : s.Request .passRead f) (length : f.payload.length = 5)
include h length

theorem exec_passRead_exact (mode : fieldAt f.payload 4 1 = 0) :
    exec .passRead s = .next (s.replyEntry (s.findPass (fieldAt f.payload 0 4))) := by
  rw [exec_passRead, execPassRead, h.perform length]
  simp only [mode]

theorem exec_passRead_next (mode : fieldAt f.payload 4 1 = 1) :
    exec .passRead s = .next (s.replyEntry (s.nextPass (fieldAt f.payload 0 4))) := by
  rw [exec_passRead, execPassRead, h.perform length]
  simp only [mode]

theorem exec_passRead_badMode (mode : 2 ≤ fieldAt f.payload 4 1) : exec .passRead s = .next (s.reply .badValue) := by
  rw [exec_passRead, execPassRead, h.perform length]
  split
  · omega
  · omega
  · rfl

end

theorem State.Request.replyEntry_some {s : State} {f : Frame} (h : s.Request .passRead f) (e : PassEntry) :
    s.replyEntry (some e) = s.replied f 2 0 e.bytes :=
  State.replyWith_of_kind h.head h.kind .ok e.bytes

theorem State.Request.replyEntry_none {s : State} {f : Frame} (h : s.Request .passRead f) :
    s.replyEntry none = s.replied f 2 2 :=
  State.reply_of_kind h.head h.kind .notFound

/-- Settles O36: the search for EXACT and for NEXT finds the entry with the lowest id that it accepts, and the bytes
of the REPLY are those of the entry. -/
theorem passRead : Obligations.PassRead := by
  unfold Obligations.PassRead
  refine fun f s tables => ⟨exec_passRead_busy, fun request length => ?_⟩
  intro id carried
  have bytes_eq (e : PassEntry) : e.bytes = carried e := by
    simp only [PassEntry.bytes, bytesOf_one, carried]
    cases e.cls <;> cases e.source <;> rfl
  refine ⟨fun exactMode => ?_, fun nextMode => ?_, fun badMode => ?_⟩
  · rw [exec_passRead_exact request length exactMode]
    refine ⟨fun e mem same => ?_, fun absent => ?_⟩
    · rw [show fieldAt f.payload 0 4 = e.id from same.symm, State.findPass_eq_some tables mem,
        request.replyEntry_some, bytes_eq]
    · rw [State.findPass_eq_none absent, request.replyEntry_none]
  · rw [exec_passRead_next request length nextMode]
    refine ⟨fun e mem above lowest => ?_, fun noneAbove => ?_⟩
    · rw [State.nextPass_eq_some tables mem above lowest, request.replyEntry_some, bytes_eq]
    · rw [State.nextPass_eq_none noneAbove, request.replyEntry_none]
  · rw [exec_passRead_badMode request length badMode]
    exact congrArg _ (State.reply_of_kind request.head request.kind .badValue)

/-! ### DENY_DELETE and the end of its rearrangement -/

/-- The deny list without the entry of a pass id. -/
def State.denyRemoved (s : State) (id : Nat) : State := { s with denies := s.denies.filter fun e => e.id ≠ id }

theorem State.denyRemoved_eq (s : State) (id : Nat) :
    s.denyRemoved id = { s with denies := s.denies.filter fun e => e.id != id } := by
  simp [State.denyRemoved, bne, Bool.beq_eq_decide_eq]

section
variable {s : State} {f : Frame} (h : s.Request .denyDelete f) (length : f.payload.length = 4)
include h length

theorem exec_denyDelete_zero (zero : fieldAt f.payload 0 4 = 0) : exec .denyDelete s = .next (s.reply .badValue) := by
  rw [exec_denyDelete, execDenyDelete, h.perform length]
  exact congrArg _ (if_pos zero)

theorem exec_denyDelete_absent (nonzero : fieldAt f.payload 0 4 ≠ 0)
    (absent : ∀ e ∈ s.denies, e.id ≠ fieldAt f.payload 0 4) : exec .denyDelete s = .next (s.reply .notFound) := by
  rw [exec_denyDelete, execDenyDelete, h.perform length]
  simp only [if_neg nonzero, State.findDeny_eq_none absent]

theorem exec_denyDelete_held (nonzero : fieldAt f.payload 0 4 ≠ 0)
    (held : ∃ e ∈ s.denies, e.id = fieldAt f.payload 0 4) :
    exec .denyDelete s = .next ((s.denyRemoved (fieldAt f.payload 0 4)).rearrange
      (s.deniesAbove (fieldAt f.payload 0 4)) .denyDelete) := by
  obtain ⟨e, found⟩ := State.findDeny_isSome held
  rw [exec_denyDelete, execDenyDelete, h.perform length, State.denyRemoved_eq]
  simp only [if_neg nonzero, found]

end

theorem State.rearrange_none_moved (s : State) (w : RearrangementWork) : s.rearrange 0 w = s.finishWork w := rfl

theorem State.rearrange_moved (s : State) {n : Nat} (h : n ≠ 0) (w : RearrangementWork) :
    s.rearrange n w = s.rearranging n w := if_neg h

/-- The end of a rearrangement does its work at its due instant, or where the clock stands if that is later (R34). -/
theorem exec_rearrangementEnd_eq {s : State} {r : Rearrangement} (phase : s.phase ≠ .inReset)
    (busy : s.rearrangement = some r) :
    exec .rearrangementEnd s = .next (State.finishWork
      { s with clock := max s.clock (r.startedAt + microSteps r.moved), rearrangement := none } r.work) := by
  rw [exec_rearrangementEnd, execRearrangementEnd, State.perform_eq phase]
  simp only [busy, State.advanceTo]

/-- Settles O38: the delete takes away the one entry of its id, and the rearrangement it begins, if entries move,
ends with the REPLY alone. -/
theorem denyDeleted : Obligations.DenyDeleted := by
  unfold Obligations.DenyDeleted
  refine ⟨fun f s tables request length => ?_, fun f r s phase head kind busy work due => ?_⟩
  · intro id above removed
    refine ⟨fun zero => ?_, fun nonzero absent => ?_, fun nonzero held => ⟨?_, fun last => ?_, fun moved => ?_⟩⟩
    · rw [exec_denyDelete_zero request length zero]
      exact congrArg _ (State.reply_of_kind request.head request.kind .badValue)
    · rw [exec_denyDelete_absent request length nonzero absent]
      exact congrArg _ (State.reply_of_kind request.head request.kind .notFound)
    · exact length_filter_key_ne DenyEntry.id tables.denyOrder held
    · rw [exec_denyDelete_held request length nonzero held, show s.deniesAbove (fieldAt f.payload 0 4) = 0 from last,
        State.rearrange_none_moved]
      exact congrArg _ (State.reply_of_kind (s := removed) request.head request.kind .ok)
    · rw [exec_denyDelete_held request length nonzero held]
      exact congrArg _ (State.rearrange_moved removed moved .denyDelete)
  · rw [exec_rearrangementEnd_eq phase busy, work, show microSteps r.moved = (r.moved * 512 + 24) / 25 from rfl,
      Nat.max_eq_right due]
    exact congrArg _ (State.reply_of_kind (k := .denyDelete)
      (s := { s with clock := r.startedAt + (r.moved * 512 + 24) / 25, rearrangement := none }) head kind .ok)

end Sys2Proof.Machine
end

section
/-! The key table's requests KEY_WRITE and KEY_CLEAR (R47). -/

namespace Sys2Proof.Machine

theorem exec_keyWrite (s : State) : exec .keyWrite s = execKeyWrite s := rfl

theorem exec_keyClear (s : State) : exec .keyClear s = execKeyClear s := rfl

theorem State.Request.exec_keyWrite_eq {s : State} {f : Frame} (h : s.Request .keyWrite f)
    (length : f.payload.length = 9) :
    exec .keyWrite s = .next (s.setKey (fieldAt f.payload 0 1) (some (f.payload.drop 1))) := by
  rw [exec_keyWrite, execKeyWrite, h.perform length]

theorem State.Request.exec_keyClear_eq {s : State} {f : Frame} (h : s.Request .keyClear f)
    (length : f.payload.length = 1) : exec .keyClear s = .next (s.setKey (fieldAt f.payload 0 1) none) := by
  rw [exec_keyClear, execKeyClear, h.perform length]

/-- What a change of a slot's key does, for both kinds of request: a slot above 3 is refused, and any other holds the
key. -/
theorem State.Request.setKey {s : State} {k : Kind} {f : Frame} (h : s.Request k f)
    (priority : replyPriority k.code = 3) (slot : Nat) (key : Option (List Byte)) :
    (3 < slot → s.setKey slot key = s.replied f 3 3) ∧
      ∀ _ : slot < 4, s.setKey slot key = State.replied { s with keys := s.keys.set slot key } f 3 0 := by
  refine ⟨fun above => ?_, fun inRange => ?_⟩
  · rw [State.setKey, dif_neg (by omega), State.reply_of_kind h.head h.kind .badValue priority]
    rfl
  · rw [State.setKey, dif_pos inRange]
    exact State.reply_of_kind (s := { s with keys := s.keys.set slot key }) h.head h.kind .ok priority

/-- Settles O39: both requests change one slot's key. -/
theorem keys : Obligations.Keys := by
  unfold Obligations.Keys
  refine fun f s => ⟨fun request length => ?_, fun request length => ?_⟩
  · rw [request.exec_keyWrite_eq length]
    obtain ⟨refused, written⟩ := request.setKey (by decide) (fieldAt f.payload 0 1) (some (f.payload.drop 1))
    exact ⟨fun above => congrArg _ (refused above), fun inRange => congrArg _ (written inRange)⟩
  · rw [request.exec_keyClear_eq length]
    obtain ⟨refused, cleared⟩ := request.setKey (by decide) (fieldAt f.payload 0 1) none
    exact ⟨fun above => congrArg _ (refused above), fun inRange => congrArg _ (cleared inRange)⟩

end Sys2Proof.Machine
end

section
/-! What a step keeps, once for every property of states (O7 to O9): the queue of commands, the commands that answer the
state unchanged, and the commands whose effect is calm. -/

namespace Sys2Proof

/-- The commands of the docks' own blocks: the sensor inputs, the timers of the admission unit, the scheduler and the
drive unit, the STOP input, the station clock and the sense unit. None takes a frame or follows a line. -/
def Instr.takesNoFrame : Instr → Bool
  | .sensorRawChange .. | .bikePresentRise _ | .bikePresentFall _ | .latchOpenRise _ | .latchOpenFall _
  | .returnPendingTimerExpiry _ | .stationTimeAdvance | .referralTimeout _ | .orderDeadline _ | .stopAssertion
  | .stopRelease | .pullInStart _ | .pwmPeriodStart _ | .pullLimitExpiry _ | .extensionExpiry _ | .holdExpiry _
  | .closingLimitExpiry _ | .coilFaultReport | .supplyConversionComplete _ | .coilConversionComplete _
  | .idleSupplyTurn | .fixingPeriodStart | .coilSamplingInstant => true
  | _ => false

end Sys2Proof

set_option Elab.async false

namespace Sys2Proof.Machine

/-! ### Steps and effects -/

/-- A property that commands keep, and that neither the waiting commands nor the clock decide, is kept by a step. -/
theorem step_keeps {P : State → Prop} (command : ∀ (c : Instr) (s t : State), P s → exec c s = .next t → P t)
    (outside : ∀ (s : State) (clock : Nat) (waiting : List Instr), P s →
      P { s with clock := clock, pending := waiting })
    {s t : State} (h : P s) (e : step s = .next t) : P t := by
  unfold step at e
  split at e
  · cases e
    unfold State.tick
    split
    · exact h
    · exact outside s _ s.pending h
  · exact command _ _ _ (outside s s.clock _ h) e

/-- What an effect keeps, its command keeps, since a part held in reset stays as it is. -/
theorem State.perform_keeps {P : State → Prop} {s t : State} {effect : State → State}
    (e : s.perform effect = .next t) (h : P s) (kept : s.phase ≠ .inReset → P (effect s)) : P t := by
  obtain rfl | ⟨phase, rfl⟩ := State.perform_cases e
  · exact h
  · exact kept phase

theorem State.perform_calm {s t : State} {effect : State → State} (e : s.perform effect = .next t)
    (calm : s.Calm (effect s)) : s.Calm t :=
  State.perform_keeps (P := s.Calm) e (.refl s) fun _ => calm

/-! ### Calm commands -/

theorem State.Calm.stopInput (s : State) (asserted : Bool) (effects : State → State)
    (calm : ∀ u : State, u.Calm (effects u)) : s.Calm (s.stopInput asserted effects) := by
  unfold State.stopInput State.stopHeld
  split
  · split
    · exact .refl s
    · have held (n : Nat) : s.Calm { s.advanceToCount n with stopAsserted := asserted } := .inside (.refl _)
      dsimp only
      split
      · exact (calm _).after (held _)
      · exact held _
  · exact .inside (.refl _)

theorem execReferralTimeout_calm {s t : State} {d : DockId} (e : execReferralTimeout d s = .next t) : s.Calm t := by
  refine State.perform_calm e ?_
  dsimp only
  split
  · exact .refl s
  · have ended (n : Nat) (r : Referral) : s.Calm ((s.advanceToCount n).endReferral r .noAnswer 0) :=
      (State.Calm.advanceToCount ..).trans (.endReferral ..)
    split
    · exact (ended _ _).trans (State.Quiet.latch ..).calm
    · exact ended _ _

theorem execReturnPendingTimerExpiry_calm {s t : State} {d : DockId}
    (e : execReturnPendingTimerExpiry d s = .next t) : s.Calm t := by
  refine State.perform_calm e ?_
  dsimp only
  split
  · exact .refl s
  · exact (State.Calm.advanceToCount ..).trans (.handBack ..)
  · exact ((State.Calm.advanceToCount ..).trans (.setBikeId ..)).trans (.setReturnTimer ..)

theorem execStationTimeAdvance_calm {s t : State} (e : execStationTimeAdvance s = .next t) : s.Calm t := by
  refine State.perform_calm e ?_
  dsimp only
  split
  · exact (State.Calm.checkReservations _).after (.inside (.refl _))
  · exact .refl s

theorem execOrderDeadline_calm {s t : State} {d : DockId} (e : execOrderDeadline d s = .next t) : s.Calm t := by
  refine State.perform_calm e ?_
  split
  · exact (State.Calm.advanceToCount ..).trans (.endOrder ..)
  · exact .refl s

/-- The drive unit's own arrivals (chapter 6). -/
theorem execPullInStart_calm {s t : State} {d : DockId} (e : execPullInStart d s = .next t) : s.Calm t := by
  refine State.perform_calm e ?_
  dsimp only
  split
  · exact ((State.Calm.advanceTo ..).trans (.modDock ..)).trans (.setActivity ..)
  · exact .refl s

theorem execPwmPeriodStart_calm {s t : State} {d : DockId} (e : execPwmPeriodStart d s = .next t) : s.Calm t := by
  refine State.perform_calm e ?_
  split
  · exact .refl s
  · exact (State.Calm.advanceTo ..).trans (.modDock ..)

theorem execPullLimitExpiry_calm {s t : State} {d : DockId} (e : execPullLimitExpiry d s = .next t) : s.Calm t := by
  refine State.perform_calm e ?_
  split
  · split
    · exact (State.Calm.advanceToCount ..).trans (.driveEnd ..)
    · exact (State.Calm.advanceToCount ..).trans (.driveEnd ..)
  · exact .refl s

theorem execExtensionExpiry_calm {s t : State} {d : DockId} (e : execExtensionExpiry d s = .next t) : s.Calm t := by
  refine State.perform_calm e ?_
  dsimp only
  split
  · exact ((((State.Calm.advanceToCount ..).trans (.modDock ..)).trans (.setActivity ..)).trans
      (State.Quiet.result ..).calm).trans (.evaluateGrants _)
  · exact .refl s

theorem execHoldExpiry_calm {s t : State} {d : DockId} (e : execHoldExpiry d s = .next t) : s.Calm t := by
  refine State.perform_calm e ?_
  split
  · exact (State.Calm.advanceToCount ..).trans (.beginClosing ..)
  · exact .refl s

theorem execClosingLimitExpiry_calm {s t : State} {d : DockId} (e : execClosingLimitExpiry d s = .next t) :
    s.Calm t := by
  refine State.perform_calm e ?_
  split
  · exact (State.Calm.advanceToCount ..).trans (.driveEnd ..)
  · exact .refl s

theorem execCoilFaultReport_calm {s t : State} (e : execCoilFaultReport s = .next t) : s.Calm t := by
  refine State.perform_calm e ?_
  split
  · exact (State.Calm.modSense ..).trans (.takeCoilFault ..)
  · exact .refl s

/-- The sense unit's own arrivals (chapter 7). -/
theorem execSupplyConversionComplete_calm {s t : State} {code : Code}
    (e : execSupplyConversionComplete code s = .next t) : s.Calm t := by
  refine State.perform_calm e ?_
  split
  · exact (((State.Calm.advanceTo ..).trans (.modSense ..)).trans (.deliverSupply ..)).trans (.endTurn _)
  · exact .refl s

theorem execCoilConversionComplete_calm {s t : State} {code : Code}
    (e : execCoilConversionComplete code s = .next t) : s.Calm t := by
  refine State.perform_calm e ?_
  dsimp only
  split
  · split
    · exact (State.Calm.advanceTo ..).trans (.endTurn _)
    · exact ((State.Calm.advanceTo ..).trans (.judgeSample ..)).trans (.endTurn _)
  · exact .refl s

theorem execIdleSupplyTurn_calm {s t : State} (e : execIdleSupplyTurn s = .next t) : s.Calm t := by
  refine State.perform_calm e ?_
  split
  · exact (State.Calm.advanceToCount ..).trans (.beginSupplyTurn _)
  · exact .refl s

theorem execFixingPeriodStart_calm {s t : State} (e : execFixingPeriodStart s = .next t) : s.Calm t := by
  refine State.perform_calm e ?_
  dsimp only
  split
  · have applied (n : Nat) (d : DockId) (f : Dock → Dock) : s.Calm ((s.advanceTo n).modDock d f) :=
      (State.Calm.advanceTo ..).trans (.modDock ..)
    split
    · exact (applied _ _ _).trans (.endTurn _)
    · exact (applied _ _ _).trans (.setConverter ..)
  · exact .refl s

theorem execCoilSamplingInstant_calm {s t : State} (e : execCoilSamplingInstant s = .next t) : s.Calm t := by
  refine State.perform_calm e ?_
  dsimp only
  split
  · exact (State.Calm.advanceTo ..).trans (.setConverter ..)
  · exact .refl s

/-- A command that takes no frame and follows no line leaves the ports, the tables and the rest outside its matter as
State.Calm says. -/
theorem exec_calm {c : Instr} (noFrame : c.takesNoFrame = true) {s t : State} (e : exec c s = .next t) : s.Calm t := by
  cases c with
  | sensorRawChange d sensor => exact State.perform_calm e (.modDock ..)
  | bikePresentRise d =>
    exact State.perform_calm e (.bikeEdge _ _ _ _ fun u => (State.Calm.returnOnRise u d).trans (.ownBikeRise ..))
  | bikePresentFall d =>
    exact State.perform_calm e (.bikeEdge _ _ _ _ fun u => (State.Calm.returnOnFall u d).trans (.ownBikeFall ..))
  | latchOpenRise d => exact State.perform_calm e (.latchEdge _ _ _ _ fun _ u => .ownLatchRise u d _)
  | latchOpenFall d => exact State.perform_calm e (.latchEdge _ _ _ _ fun _ u => .ownLatchFall u d)
  | returnPendingTimerExpiry d => exact execReturnPendingTimerExpiry_calm e
  | stationTimeAdvance => exact execStationTimeAdvance_calm e
  | referralTimeout d => exact execReferralTimeout_calm e
  | orderDeadline d => exact execOrderDeadline_calm e
  | stopAssertion => exact State.perform_calm e (.stopInput _ _ _ State.Calm.stopEffects)
  | stopRelease => exact State.perform_calm e (.stopInput _ _ _ State.Calm.evaluateGrants)
  | pullInStart d => exact execPullInStart_calm e
  | pwmPeriodStart d => exact execPwmPeriodStart_calm e
  | pullLimitExpiry d => exact execPullLimitExpiry_calm e
  | extensionExpiry d => exact execExtensionExpiry_calm e
  | holdExpiry d => exact execHoldExpiry_calm e
  | closingLimitExpiry d => exact execClosingLimitExpiry_calm e
  | coilFaultReport => exact execCoilFaultReport_calm e
  | supplyConversionComplete code => exact execSupplyConversionComplete_calm e
  | coilConversionComplete code => exact execCoilConversionComplete_calm e
  | idleSupplyTurn => exact execIdleSupplyTurn_calm e
  | fixingPeriodStart => exact execFixingPeriodStart_calm e
  | coilSamplingInstant => exact execCoilSamplingInstant_calm e
  | _ => cases noFrame

end Sys2Proof.Machine
end

section
/-! Requests that write no table (R184, R186), and the commands that follow a port's line (R169): what they do leaves
the tables, the rearrangement and the receive buffers as they are but for the request answered, so that the invariants
of the tables and of the link unit hold after each of them for one reason (O7, O8). -/

namespace Sys2Proof

/-- The station requests that are answered at once and write no table of the pass store. -/
def Instr.answersAtOnce : Instr → Bool
  | .timeSet | .reserve | .cancelReserve | .setService | .clearService | .staffUnlock | .unknownDockCommand
  | .profileWrite | .supplyWrite | .passRead | .keyWrite | .keyClear | .collect | .eventRead | .eventClear | .eventMask
  | .eventForce | .statusRead | .restart | .badKind | .referralAnswerRefuse | .referralAnswerBadCode => true
  | _ => false

/-- The commands that follow the line of a port. -/
def Instr.followsLine : Instr → Bool
  | .frameSendStart _ | .arbitrationLost .. | .lineIdle _ | .dominantBitInWaiting _ | .otherNodeStartBit _
  | .headerNoEnd .. | .lastEndBit _ => true
  | _ => false

end Sys2Proof

set_option Elab.async false

namespace Sys2Proof.Machine

/-- `u` is `s` but for frames that have joined the transmit queues in free slots, pass entries changed in place, and
whatever neither the tables nor the slots of the link unit depend on. -/
structure State.Aside (s u : State) : Prop where
  station : s.station.Grows u.station
  dockPort : s.dockPort.Grows u.dockPort
  passes : PassesKept s.passes u.passes
  denies : u.denies = s.denies
  rearrangement : u.rearrangement = s.rearrangement
  straps : u.straps = s.straps
  pending : u.pending = s.pending

theorem State.Calm.aside {s u : State} (h : s.Calm u) : s.Aside u where
  station := h.station
  dockPort := h.dockPort
  passes := h.passes
  denies := h.denies
  rearrangement := h.rearrangement
  straps := h.straps
  pending := h.pending

theorem State.Aside.refl (s : State) : s.Aside s := (State.Calm.refl s).aside

/-- A change outside all the fields that State.Aside speaks of. -/
theorem State.Aside.outside {s u : State} (station : u.station = s.station := by rfl)
    (dockPort : u.dockPort = s.dockPort := by rfl) (passes : u.passes = s.passes := by rfl)
    (denies : u.denies = s.denies := by rfl) (rearrangement : u.rearrangement = s.rearrangement := by rfl)
    (straps : u.straps = s.straps := by rfl) (pending : u.pending = s.pending := by rfl) : s.Aside u :=
  ⟨.of_eq station, .of_eq dockPort, by rw [passes]; exact .refl _, denies, rearrangement, straps, pending⟩

theorem State.Aside.tables {s u : State} (h : s.Aside u) (ok : s.TablesOk) : u.TablesOk :=
  ok.passesKept h.passes h.denies h.rearrangement

/-- The slots of the link unit depend on the ports, the rearrangement and the straps alone. -/
theorem State.Aside.link {s u : State} (h : s.Aside u) (ok : s.LinkOk) : u.LinkOk :=
  have calm : s.Calm { s with station := u.station, dockPort := u.dockPort } :=
    { State.Calm.refl s with station := h.station, dockPort := h.dockPort }
  (ok.calm calm).congr rfl rfl (by rw [h.rearrangement]; exact id) h.straps

/-- `t` is a REPLY queued after a change that leaves tables and slots alone. -/
def State.Replies (s t : State) : Prop := ∃ u status data owner, s.Aside u ∧ t = u.replyWith status data owner

theorem State.Aside.replyWith {s u : State} (h : s.Aside u) (status : Status) (data : List Byte) (owner : Owner) :
    s.Replies (u.replyWith status data owner) := ⟨u, status, data, owner, h, rfl⟩

theorem State.Aside.reply {s u : State} (h : s.Aside u) (status : Status) : s.Replies (u.reply status) :=
  h.replyWith ..

theorem State.Replies.reply (s : State) (status : Status) : s.Replies (s.reply status) := (State.Aside.refl s).reply _

theorem State.Calm.reply {s u : State} (h : s.Calm u) (status : Status) : s.Replies (u.reply status) := h.aside.reply _

/-- `t` is `s`, or `s` after the frame at the head of the station buffer, which waits for a REPLY, has got it. -/
def State.Answered (s t : State) : Prop :=
  t = s ∨ ∃ f, s.rearrangement = none ∧ s.station.rx.head? = some f ∧ f.awaitsReply = true ∧ s.Replies t

theorem State.Answered.tables {s t : State} (h : s.Answered t) (ok : s.TablesOk) : t.TablesOk := by
  obtain rfl | ⟨_, _, _, _, _, _, _, _, change, rfl⟩ := h
  · exact ok
  · exact (change.tables ok).replyWith ..

theorem State.Answered.link {s t : State} (h : s.Answered t) (ok : s.LinkOk) : t.LinkOk := by
  obtain rfl | ⟨f, notBusy, head, waits, u, _, _, _, change, rfl⟩ := h
  · exact ok
  · exact (change.link ok).replyWith (by rw [change.station.rx]; exact head) waits (by rw [change.rearrangement, notBusy]) ..

theorem State.replyWith_pending (s : State) (status : Status) (data : List Byte) (owner : Owner) :
    (s.replyWith status data owner).pending = s.pending := by
  unfold State.replyWith
  split <;> rfl

theorem State.Answered.pending {s t : State} (h : s.Answered t) : t.pending = s.pending := by
  obtain rfl | ⟨_, _, _, _, u, _, _, _, change, rfl⟩ := h
  · rfl
  · rw [u.replyWith_pending, change.pending]

theorem State.perform_answered {s t : State} {effect : State → State} (e : s.perform effect = .next t)
    (answered : s.Answered (effect s)) : s.Answered t :=
  State.perform_keeps (P := s.Answered) e (.inl rfl) fun _ => answered

/-! ### The ways a request is taken -/

theorem Frame.awaitsReply_of_addressed {f : Frame} {k : Kind} (h : f.isAddressed k = true) (notMessage : k ≠ .message) :
    f.awaitsReply = true := by
  simp only [Frame.isAddressed, Bool.and_eq_true, beq_iff_eq] at h
  simp only [Frame.awaitsReply, h, bne_iff_ne, Bool.true_and]
  cases k with
  | message => exact absurd rfl notMessage
  | _ => decide

theorem State.takeStation_answered {s : State} {accepts : Frame → Bool} {act : Frame → State → State}
    (waits : ∀ f, accepts f = true → f.awaitsReply = true) (replies : ∀ f, s.Replies (act f s)) :
    s.Answered (s.takeStation accepts act) := by
  obtain same | ⟨f, _, _, notBusy, head, accepted, taken⟩ := s.takeStation_cases accepts act
  · exact .inl same
  · exact .inr ⟨f, notBusy, head, waits f accepted, taken ▸ replies f⟩

theorem State.takeRequest_answered {s : State} {k : Kind} (notMessage : k ≠ .message) (n : Nat)
    {act : List Byte → State → State} (replies : ∀ p, s.Replies (act p s)) : s.Answered (s.takeRequest k n act) := by
  refine State.takeStation_answered (fun f accepted => Frame.awaitsReply_of_addressed accepted notMessage) fun f => ?_
  split
  · exact replies _
  · exact .reply ..

theorem State.takeCommand_answered {s : State} (c : DockCommand) {act : DockId → List Byte → State → State}
    (replies : ∀ d p, s.Replies (act d p s)) : s.Answered (s.takeCommand c act) := by
  refine State.takeStation_answered (fun f accepted => Frame.awaitsReply_of_addressed (k := .dockCommand)
    (Bool.and_eq_true_iff.1 accepted).1 (by decide)) fun f => ?_
  split
  · exact .reply ..
  · split
    · exact replies _ _
    · exact .reply ..

theorem State.takeAnswer_answered {s : State} (a : AnswerCode) (n : Nat) {act : Referral → List Byte → State → State}
    (replies : ∀ r p, s.Replies (act r p s)) : s.Answered (s.takeAnswer a n act) := by
  refine State.takeStation_answered (fun f accepted => Frame.awaitsReply_of_addressed (k := .referralAnswer)
    (Bool.and_eq_true_iff.1 accepted).1 (by decide)) fun f => ?_
  split
  · exact .reply ..
  · split
    · exact .reply ..
    · exact replies _ _

/-! ### The requests -/

theorem State.Replies.reserveDock (s : State) (d : DockId) (r : Reservation) : s.Replies (s.reserveDock d r) := by
  unfold State.reserveDock
  split
  · exact .reply ..
  · split
    · split
      · exact .reply ..
      · exact (State.Calm.modDock ..).reply _
    · split
      · exact .reply ..
      · exact (State.Calm.modDock ..).reply _
    · exact .reply ..

theorem State.Replies.staffUnlock (s : State) (d : DockId) : s.Replies (match s.unlockRefusal d with
    | some status => s.reply status
    | none => ((s.endReferralAt d).queueOrder d .staff none none).reply .ok) := by
  split
  · exact .reply ..
  · exact ((State.Calm.endReferralAt s d).trans (.queueOrder ..)).reply _

theorem State.Replies.setKey (s : State) (slot : Nat) (key : Option (List Byte)) : s.Replies (s.setKey slot key) := by
  unfold State.setKey
  split
  · exact State.Aside.reply .outside _
  · exact .reply ..

theorem State.Replies.replyEntry (s : State) (e : Option PassEntry) : s.Replies (s.replyEntry e) := by
  cases e with
  | none => exact .reply ..
  | some e => exact (State.Aside.refl s).replyWith ..

theorem execTimeSet_answered {s t : State} (e : execTimeSet s = .next t) : s.Answered t := by
  refine State.perform_answered e (State.takeRequest_answered (by decide) _ fun p => ?_)
  refine State.Calm.reply (State.Calm.after (.checkReservations _) ?_) _
  exact .inside (.refl _)

theorem execCancelReserve_answered {s t : State} (e : execCancelReserve s = .next t) : s.Answered t := by
  refine State.perform_answered e (State.takeCommand_answered _ fun d _ => ?_)
  split
  · exact (State.Calm.modDock ..).reply _
  · exact .reply ..

theorem execClearService_answered {s t : State} (e : execClearService s = .next t) : s.Answered t := by
  refine State.perform_answered e (State.takeCommand_answered _ fun d _ => ?_)
  split
  · exact (State.Calm.modDock ..).reply _
  · exact .reply ..

theorem execUnknownDockCommand_answered {s t : State} (e : execUnknownDockCommand s = .next t) : s.Answered t := by
  refine State.perform_answered e (State.takeStation_answered (fun f accepted =>
    Frame.awaitsReply_of_addressed (k := .dockCommand) (Bool.and_eq_true_iff.1 accepted).1 (by decide)) fun f => ?_)
  split <;> exact .reply ..

theorem execProfileWrite_answered {s t : State} (e : execProfileWrite s = .next t) : s.Answered t := by
  refine State.perform_answered e (State.takeRequest_answered (by decide) _ fun p => ?_)
  split
  · exact (State.Calm.modDock ..).reply _
  · exact .reply ..

theorem execPassRead_answered {s t : State} (e : execPassRead s = .next t) : s.Answered t := by
  refine State.perform_answered e (State.takeRequest_answered (by decide) _ fun p => ?_)
  split
  · exact .replyEntry ..
  · exact .replyEntry ..
  · exact .reply ..

theorem execCollect_answered {s t : State} (e : execCollect s = .next t) : s.Answered t := by
  refine State.perform_answered e (State.takeRequest_answered (by decide) _ fun p => ?_)
  split
  · exact .reply ..
  · split
    · exact .reply ..
    · exact State.Aside.replyWith .outside ..

theorem execEventRead_answered {s t : State} (e : execEventRead s = .next t) : s.Answered t := by
  refine State.perform_answered e (State.takeRequest_answered (by decide) _ fun p => ?_)
  split
  · exact (State.Aside.refl s).replyWith ..
  · split
    · exact .reply ..
    · exact State.Aside.replyWith .outside ..

theorem execEventClear_answered {s t : State} (e : execEventClear s = .next t) : s.Answered t := by
  refine State.perform_answered e (State.takeRequest_answered (by decide) _ fun p => ?_)
  split
  · exact ((State.Quiet.of_events s _).trans (.attend _)).calm.reply _
  · exact .reply ..

theorem execEventMask_answered {s t : State} (e : execEventMask s = .next t) : s.Answered t := by
  refine State.perform_answered e (State.takeRequest_answered (by decide) _ fun p => ?_)
  split
  · exact ((State.Quiet.of_events s _).trans (.attend _)).calm.reply _
  · exact .reply ..

theorem execEventForce_answered {s t : State} (e : execEventForce s = .next t) : s.Answered t := by
  refine State.perform_answered e (State.takeRequest_answered (by decide) _ fun p => ?_)
  split
  · exact (State.Quiet.latchSet s _).calm.reply _
  · exact .reply ..

theorem Frame.awaitsReply_of_badKind {f : Frame} (h : (!f.isBroadcast && badKind f.kind) = true) :
    f.awaitsReply = true := by
  obtain ⟨addressed, bad⟩ := Bool.and_eq_true_iff.1 h
  simp only [Frame.awaitsReply, addressed, Bool.true_and, bne_iff_ne]
  intro message
  rw [message] at bad
  exact absurd bad (by decide)

theorem execReferralAnswerBadCode_answered {s t : State} (e : execReferralAnswerBadCode s = .next t) :
    s.Answered t := by
  refine State.perform_answered e (State.takeStation_answered (fun f accepted =>
    Frame.awaitsReply_of_addressed (k := .referralAnswer) (Bool.and_eq_true_iff.1 accepted).1 (by decide)) fun f => ?_)
  split <;> exact .reply ..

theorem exec_answered {c : Instr} (atOnce : c.answersAtOnce = true) {s t : State} (e : exec c s = .next t) :
    s.Answered t := by
  cases c with
  | timeSet => exact execTimeSet_answered e
  | reserve => exact State.perform_answered e (State.takeCommand_answered _ fun _ _ => .reserveDock ..)
  | cancelReserve => exact execCancelReserve_answered e
  | setService =>
    exact State.perform_answered e (State.takeCommand_answered _ fun _ _ => (State.Calm.serviceDock ..).reply _)
  | clearService => exact execClearService_answered e
  | staffUnlock => exact State.perform_answered e (State.takeCommand_answered _ fun d _ => .staffUnlock s d)
  | unknownDockCommand => exact execUnknownDockCommand_answered e
  | profileWrite => exact execProfileWrite_answered e
  | supplyWrite =>
    exact State.perform_answered e (State.takeRequest_answered (by decide) _ fun _ => State.Aside.reply .outside _)
  | passRead => exact execPassRead_answered e
  | keyWrite => exact State.perform_answered e (State.takeRequest_answered (by decide) _ fun _ => .setKey ..)
  | keyClear => exact State.perform_answered e (State.takeRequest_answered (by decide) _ fun _ => .setKey ..)
  | collect => exact execCollect_answered e
  | eventRead => exact execEventRead_answered e
  | eventClear => exact execEventClear_answered e
  | eventMask => exact execEventMask_answered e
  | eventForce => exact execEventForce_answered e
  | statusRead =>
    exact State.perform_answered e (State.takeRequest_answered (by decide) _ fun _ => (State.Aside.refl s).replyWith ..)
  | restart =>
    exact State.perform_answered e (State.takeRequest_answered (by decide) _ fun _ => State.Aside.replyWith .outside ..)
  | badKind =>
    exact State.perform_answered e (State.takeStation_answered (fun _ => Frame.awaitsReply_of_badKind) fun _ => .reply ..)
  | referralAnswerRefuse =>
    exact State.perform_answered e (State.takeAnswer_answered _ _ fun _ _ =>
      (State.Calm.endReferral ..).aside.replyWith ..)
  | referralAnswerBadCode => exact execReferralAnswerBadCode_answered e
  | _ => cases atOnce

/-! ### The line of a port -/

/-- `t` is `s`, or `s` at a clock with the line of one port changed. -/
def State.LineMoved (s t : State) : Prop := t = s ∨ ∃ n p l, t = (s.advanceTo n).setLine p l

theorem State.LineMoved.now (s : State) (p : PortId) (l : LineState) : s.LineMoved (s.setLine p l) :=
  .inr ⟨0, p, l, by simp [State.advanceTo]⟩

theorem State.LineMoved.later (s : State) (n : Nat) (p : PortId) (l : LineState) :
    s.LineMoved ((s.advanceTo n).setLine p l) := .inr ⟨n, p, l, rfl⟩

theorem State.perform_lineMoved {s t : State} {effect : State → State} (e : s.perform effect = .next t)
    (moved : s.LineMoved (effect s)) : s.LineMoved t :=
  State.perform_keeps (P := s.LineMoved) e (.inl rfl) fun _ => moved

theorem execFrameSendStart_lineMoved {p : PortId} {s t : State} (e : execFrameSendStart p s = .next t) :
    s.LineMoved t := by
  refine State.perform_lineMoved e ?_
  split
  · exact .now ..
  · split
    · exact .now ..
    · exact .inl rfl
  · exact .inl rfl

theorem execArbitrationLost_lineMoved {p : PortId} {lineHeader : BitVec 16} {s t : State}
    (e : execArbitrationLost p lineHeader s = .next t) : s.LineMoved t := by
  refine State.perform_lineMoved e ?_
  split
  · split
    · exact .later ..
    · exact .inl rfl
  · exact .inl rfl

theorem execHeaderNoEnd_lineMoved {p : PortId} {header : BitVec 32} {s t : State}
    (e : execHeaderNoEnd p header s = .next t) : s.LineMoved t := by
  refine State.perform_lineMoved e ?_
  split
  · split
    · exact .later ..
    · exact .inl rfl
  · exact .inl rfl

theorem execLineIdle_lineMoved {p : PortId} {s t : State} (e : execLineIdle p s = .next t) : s.LineMoved t := by
  refine State.perform_lineMoved e ?_
  split
  · exact .later ..
  · exact .inl rfl

theorem execDominantBitInWaiting_lineMoved {p : PortId} {s t : State} (e : execDominantBitInWaiting p s = .next t) :
    s.LineMoved t := by
  refine State.perform_lineMoved e ?_
  split
  · exact .now ..
  · exact .inl rfl

theorem execOtherNodeStartBit_lineMoved {p : PortId} {s t : State} (e : execOtherNodeStartBit p s = .next t) :
    s.LineMoved t := by
  refine State.perform_lineMoved e ?_
  split
  · exact .now ..
  · exact .inl rfl

theorem execLastEndBit_lineMoved {p : PortId} {s t : State} (e : execLastEndBit p s = .next t) : s.LineMoved t := by
  refine State.perform_lineMoved e ?_
  split
  · exact .later ..
  · exact .inl rfl

theorem exec_lineMoved {c : Instr} (line : c.followsLine = true) {s t : State} (e : exec c s = .next t) :
    s.LineMoved t := by
  cases c with
  | frameSendStart p => exact execFrameSendStart_lineMoved e
  | arbitrationLost p lineHeader => exact execArbitrationLost_lineMoved e
  | lineIdle p => exact execLineIdle_lineMoved e
  | dominantBitInWaiting p => exact execDominantBitInWaiting_lineMoved e
  | otherNodeStartBit p => exact execOtherNodeStartBit_lineMoved e
  | headerNoEnd p header => exact execHeaderNoEnd_lineMoved e
  | lastEndBit p => exact execLastEndBit_lineMoved e
  | _ => cases line

/-- The three sorts of commands whose effect one word describes. -/
theorem exec_ofSort {c : Instr} (sort : (c.takesNoFrame || c.answersAtOnce || c.followsLine) = true) {s t : State}
    (e : exec c s = .next t) : s.Calm t ∨ s.Answered t ∨ s.LineMoved t := by
  obtain (noFrame | atOnce) | line : (c.takesNoFrame = true ∨ c.answersAtOnce = true) ∨ c.followsLine = true := by
    simpa only [Bool.or_eq_true] using sort
  · exact .inl (exec_calm noFrame e)
  · exact .inr (.inl (exec_answered atOnce e))
  · exact .inr (.inr (exec_lineMoved line e))

end Sys2Proof.Machine
end

section
/-! Every step keeps the tables of the pass store (O7). -/

set_option Elab.async false

namespace Sys2Proof.Machine

/-! ### The commands with more than one path -/

/-- A settings record is ignored outside STARTING, and in it ends the load or is judged (R196, R197). -/
theorem execSettingsRecordRead_cases {record : List Byte} {s t : State}
    (e : execSettingsRecordRead record s = .next t) :
    t = s ∨ s.phase = .starting ∧ (t = s.endLoad s.loader.failedStatus ∨ t = s.judgeRecord record) := by
  unfold execSettingsRecordRead at e
  split at e
  · obtain rfl := Host.Outcome.next.inj e
    split
    · rename_i starting
      split
      · exact .inr ⟨starting, .inl rfl⟩
      · exact .inr ⟨starting, .inr rfl⟩
    · exact .inl rfl
  · cases e

/-- A failed transaction is ignored outside STARTING, and in it ends the load, at the clock of its time-out if it timed
out (R196). -/
theorem execI2cTransactionTimeout_cases {cause : I2cFailure} {s t : State}
    (e : execI2cTransactionTimeout cause s = .next t) :
    t = s ∨ s.phase = .starting ∧ ∃ n status, t = (s.advanceTo n).endLoad status := by
  obtain rfl := Host.Outcome.next.inj e
  split
  · exact .inr ⟨by assumption, _, _, rfl⟩
  · exact .inr ⟨by assumption, 0, s.loader.failedStatus, by simp [State.advanceTo]⟩
  · exact .inl rfl

/-- A frame received changes a port that reads one whose end it can tell, and no other (R169). -/
theorem execFrameReceived_cases {p : PortId} {header : BitVec 32} {payload : List Byte} {check : BitVec 16}
    {s t : State} (e : execFrameReceived p header payload check s = .next t) :
    t = s ∨ ∃ since, t = s.receive p since header payload check := by
  unfold execFrameReceived at e
  split at e
  · obtain rfl | ⟨_, rfl⟩ := State.perform_cases e
    · exact .inl rfl
    · split
      · split
        · exact .inl rfl
        · exact .inr ⟨_, rfl⟩
      · exact .inl rfl
  · cases e

/-- A departure changes a sending port with a frame in its queue, and no other; a station frame's owner and the event
unit are then told (R175, R176). -/
theorem execFrameDeparture_cases {p : PortId} {levels : DepartureLevels} {s t : State}
    (e : execFrameDeparture p levels s = .next t) :
    t = s ∨ ∃ since head, t = (s.endAttempt p since (head : TxFrame).frame.payload.length levels.readBack).popTx p ∨
      t = ((s.endAttempt p since head.frame.payload.length levels.readBack).popTx p).stationDeparture head.owner
        (head.frame.departure levels.readBack) levels.straps := by
  obtain rfl | ⟨_, rfl⟩ := State.perform_cases e
  · exact .inl rfl
  · split
    · rename_i since head _ _ _
      refine .inr ⟨since, head, ?_⟩
      cases p with
      | station => exact .inr rfl
      | dock => exact .inl rfl
    · exact .inl rfl

/-! ### Tables (R27, R34, R42) -/

theorem State.TablesOk.writePass {s : State} (h : s.TablesOk) (notBusy : s.rearrangement = none) {w : PassEntry}
    (inRange : w.id ≠ 0 → w.Ranged) : (s.writePass w).TablesOk := by
  unfold State.writePass
  split
  · exact h.reply _
  · rename_i valid
    have ranged : w.Ranged := inRange fun zero => valid (.inl zero)
    split
    · exact (h.replacePass ranged).reply _
    · rename_i absent
      split
      · exact h.reply _
      · exact h.rearrange notBusy _ ⟨ranged, by omega, findPass_none absent⟩

theorem writtenEntry_ranged_of_field (p : List Byte) (at_ off : Nat) (cls : PassClass) :
    (writtenEntry (fieldAt p at_ 4) cls p off).id ≠ 0 → (writtenEntry (fieldAt p at_ 4) cls p off).Ranged :=
  fun nonzero => writtenEntry_ranged _ cls p off (Nat.pos_of_ne_zero nonzero) (fieldAt_lt p at_ 4)

theorem denyEntry_ranged_of_fields (p : List Byte) (nonzero : fieldAt p 0 4 ≠ 0) :
    DenyEntry.Ranged ⟨fieldAt p 0 4, optionalField (fieldAt p 4 2)⟩ where
  id := ⟨Nat.pos_of_ne_zero nonzero, fieldAt_lt p 0 4⟩
  floor n hn := by
    have := fieldAt_lt p 4 2
    simp only [optionalField, Option.mem_def, Option.ite_none_left_eq_some, Option.some.injEq] at hn
    omega

theorem execPassWrite_tables {s t : State} (h : s.TablesOk) (e : execPassWrite s = .next t) : t.TablesOk := by
  refine State.perform_keeps e h fun _ => h.takeRequest _ _ _ fun p notBusy => ?_
  split
  · exact h.reply _
  · exact h.writePass notBusy (writtenEntry_ranged_of_field p 0 4 _)

theorem execPassDelete_tables {s t : State} (h : s.TablesOk) (e : execPassDelete s = .next t) : t.TablesOk := by
  refine State.perform_keeps e h fun _ => h.takeRequest _ _ _ fun p notBusy => ?_
  dsimp only
  split
  · exact h.reply _
  · split
    · exact h.reply _
    · exact (h.filterPasses notBusy _).rearrange notBusy _ trivial

theorem execDenyWrite_tables {s t : State} (h : s.TablesOk) (e : execDenyWrite s = .next t) : t.TablesOk := by
  refine State.perform_keeps e h fun _ => h.takeRequest _ _ _ fun p notBusy => ?_
  dsimp only
  split
  · exact h.reply _
  · rename_i nonzero
    have ranged := denyEntry_ranged_of_fields p nonzero
    split
    · exact (h.replaceDeny notBusy ranged).reply _
    · rename_i absent
      split
      · exact h.reply _
      · exact h.rearrange notBusy _ ⟨ranged, by omega, findDeny_none absent⟩

theorem execDenyDelete_tables {s t : State} (h : s.TablesOk) (e : execDenyDelete s = .next t) : t.TablesOk := by
  refine State.perform_keeps e h fun _ => h.takeRequest _ _ _ fun p notBusy => ?_
  dsimp only
  split
  · exact h.reply _
  · split
    · exact h.reply _
    · exact (h.filterDenies notBusy _).rearrange notBusy _ trivial

theorem execRearrangementEnd_tables {s t : State} (h : s.TablesOk) (e : execRearrangementEnd s = .next t) :
    t.TablesOk := by
  refine State.perform_keeps e h fun _ => ?_
  split
  · rename_i r busy
    refine State.TablesOk.finishWork (s := { s.advanceTo _ with rearrangement := none }) ?_ rfl (h.work r busy)
    exact h.congr rfl rfl fun _ none => nomatch none
  · exact h

/-- The referral list without a referral that an answer ends (R84). -/
def State.withoutReferral (s : State) (r : Referral) : State :=
  { s with referrals := s.referrals.filter fun x => x.number != r.number }

theorem execReferralAnswerAdmit_tables {s t : State} (h : s.TablesOk) (e : execReferralAnswerAdmit s = .next t) :
    t.TablesOk := by
  refine State.perform_keeps e h fun _ => h.takeAnswer _ _ _ fun r p notBusy => ?_
  unfold State.admitAnswer
  split
  · exact h.reply _
  · dsimp only
    split
    · exact h.reply _
    · have kept : (s.withoutReferral r).TablesOk := h.same
      exact kept.writeAnswered notBusy r (writtenEntry_ranged_of_field p 1 8 _)

theorem execNotice_tables {s t : State} (h : s.TablesOk) (e : execNotice s = .next t) : t.TablesOk := by
  refine State.perform_keeps e h fun _ => h.takeStation _ _ fun f _ => State.TablesOk.release ?_ _
  split
  · exact h
  · split
    · exact h
    · exact .of (.applyNotice s _ _ _ _ (Nat.le_of_lt_succ (fieldAt_lt f.payload 4 2))) h

theorem execTap_tables {s t : State} (h : s.TablesOk) (e : execTap s = .next t) : t.TablesOk := by
  refine State.perform_keeps e h fun _ => ?_
  split
  · exact h
  · refine h.takeDock _ _ fun f => State.TablesOk.release ?_ _
    split
    · exact .of (.decideTap s _ _) h
    · exact h

theorem execBikeId_tables {s t : State} (h : s.TablesOk) (e : execBikeId s = .next t) : t.TablesOk := by
  refine State.perform_keeps e h fun _ => h.takeDock _ _ fun f => State.TablesOk.release ?_ _
  split
  · split
    · exact .of (.takeBikeId s _ _) h
    · exact h
  · exact h

theorem execStopAll_tables {s t : State} (h : s.TablesOk) (e : execStopAll s = .next t) : t.TablesOk := by
  refine State.perform_keeps e h fun _ => h.takeStation _ _ fun f _ => ?_
  have stopped := State.TablesOk.of (.stopAllEffects s) h
  split
  · exact stopped.release _
  · split
    · exact stopped.reply _
    · exact h.reply _

theorem State.TablesOk.receive {s : State} (h : s.TablesOk) (p : PortId) (since : Nat) (header : BitVec 32)
    (payload : List Byte) (check : BitVec 16) : (s.receive p since header payload check).TablesOk := by
  unfold State.receive
  split
  · exact State.TablesOk.judgeFrame (State.TablesOk.setLine h.same _ _) _ _
  · exact State.TablesOk.setLine h.same _ _

theorem execFrameDiscarded_tables {p : PortId} {s t : State} (h : s.TablesOk) (e : execFrameDiscarded p s = .next t) :
    t.TablesOk := by
  refine State.perform_keeps e h fun _ => ?_
  cases p with
  | dock => exact h.takeDock _ _ fun _ => h.release _
  | station => exact h.takeStation _ _ fun _ _ => h.release _

theorem exec_keeps_tablesOk (c : Instr) (s t : State) (h : s.TablesOk) (e : exec c s = .next t) : t.TablesOk := by
  by_cases sort : (c.takesNoFrame || c.answersAtOnce || c.followsLine) = true
  · obtain calm | answered | rfl | ⟨n, p, l, rfl⟩ := exec_ofSort sort e
    · exact h.calm calm
    · exact answered.tables h
    · exact h
    · exact State.TablesOk.setLine (.of (.advanceTo s n) h) p l
  cases c with
  | resetRelease => cases e; exact .emptied
  | resetInputAsserted => cases e; exact .emptied
  | settingsRecordRead record =>
    obtain rfl | ⟨_, rfl | rfl⟩ := execSettingsRecordRead_cases e
    · exact h
    · exact h.endLoad _
    · exact h.judgeRecord record
  | i2cTransactionTimeout cause =>
    obtain rfl | ⟨_, n, status, rfl⟩ := execI2cTransactionTimeout_cases e
    · exact h
    · exact (State.TablesOk.of (.advanceTo s n) h).endLoad status
  | bikeId => exact execBikeId_tables h e
  | tap => exact execTap_tables h e
  | passWrite => exact execPassWrite_tables h e
  | passDelete => exact execPassDelete_tables h e
  | denyWrite => exact execDenyWrite_tables h e
  | denyDelete => exact execDenyDelete_tables h e
  | rearrangementEnd => exact execRearrangementEnd_tables h e
  | referralAnswerAdmit => exact execReferralAnswerAdmit_tables h e
  | notice => exact execNotice_tables h e
  | stopAll => exact execStopAll_tables h e
  | frameReceived p header payload check =>
    obtain rfl | ⟨since, rfl⟩ := execFrameReceived_cases e
    · exact h
    · exact h.receive ..
  | frameDeparture p levels =>
    obtain rfl | ⟨since, head, rfl | rfl⟩ := execFrameDeparture_cases e
    · exact h
    · exact (h.endAttempt ..).modPort ..
    · exact ((h.endAttempt ..).modPort ..).stationDeparture ..
  | messageFromReader => exact State.perform_keeps e h fun _ => h.takeDock _ _ fun f => (h.modPort ..).release _
  | messageToReader => exact State.perform_keeps e h fun _ => h.takeStation _ _ fun f _ => (h.modPort ..).release _
  | frameDiscarded p => exact execFrameDiscarded_tables h e
  | _ => exact absurd rfl sort

end Sys2Proof.Machine
end

section
/-! Every step keeps the slots of the link unit (O8). -/

set_option Elab.async false

namespace Sys2Proof.Machine

theorem execPassWrite_link {s t : State} (h : s.LinkOk) (e : execPassWrite s = .next t) : t.LinkOk := by
  refine State.perform_keeps e h fun _ => takeRequest_link h _ (by decide) _ _ fun p f take => ?_
  split
  · exact take.reply _
  · unfold State.writePass
    split
    · exact take.reply _
    · split
      · exact Takeable.reply (modPass_take take _ _) _
      · split
        · exact take.reply _
        · exact rearrange_link take _ _

theorem execPassDelete_link {s t : State} (h : s.LinkOk) (e : execPassDelete s = .next t) : t.LinkOk := by
  refine State.perform_keeps e h fun _ => takeRequest_link h _ (by decide) _ _ fun p f take => ?_
  dsimp only
  split
  · exact take.reply _
  · split
    · exact take.reply _
    · exact rearrange_link take.inside _ _

theorem execDenyWrite_link {s t : State} (h : s.LinkOk) (e : execDenyWrite s = .next t) : t.LinkOk := by
  refine State.perform_keeps e h fun _ => takeRequest_link h _ (by decide) _ _ fun p f take => ?_
  dsimp only
  split
  · exact take.reply _
  · split
    · exact Takeable.reply take.inside _
    · split
      · exact take.reply _
      · exact rearrange_link take _ _

theorem execDenyDelete_link {s t : State} (h : s.LinkOk) (e : execDenyDelete s = .next t) : t.LinkOk := by
  refine State.perform_keeps e h fun _ => takeRequest_link h _ (by decide) _ _ fun p f take => ?_
  dsimp only
  split
  · exact take.reply _
  · split
    · exact take.reply _
    · exact rearrange_link take.inside _ _

/-- The request that made the pass store busy stands at the head and waits for its REPLY (R34). -/
theorem execRearrangementEnd_link {s t : State} (h : s.LinkOk) (e : execRearrangementEnd s = .next t) : t.LinkOk := by
  refine State.perform_keeps e h fun _ => ?_
  split
  · rename_i r busy
    obtain ⟨f, head, waits⟩ := h.busyHead (by rw [busy]; rfl)
    have ended (n : Nat) : Takeable { s.advanceTo n with rearrangement := none } f :=
      ⟨h.congr rfl rfl (fun none => nomatch none) rfl, head, waits, rfl⟩
    exact finishWork_link (ended _) _
  · exact h

theorem execReferralAnswerAdmit_link {s t : State} (h : s.LinkOk) (e : execReferralAnswerAdmit s = .next t) :
    t.LinkOk := by
  refine State.perform_keeps e h fun _ => takeAnswer_link h _ _ _ fun r p f take => ?_
  unfold State.admitAnswer
  split
  · exact take.reply _
  · dsimp only
    split
    · exact take.reply _
    · have kept : Takeable (s.withoutReferral r) f := take.inside
      exact writeAnswered_link kept _ _

theorem execNotice_link {s t : State} (h : s.LinkOk) (e : execNotice s = .next t) : t.LinkOk := by
  refine State.perform_keeps e h fun _ => takeStation_link h _ _ fun f head accepted notBusy _ => ?_
  have broadcast : f.isBroadcast = true := (Bool.and_eq_true_iff.1 accepted).1
  refine rel_s h ?_ head broadcast notBusy
  split
  · exact .refl s
  · split
    · exact .refl s
    · exact .applyNotice s _ _ _ _ (Nat.le_of_lt_succ (fieldAt_lt f.payload 4 2))

theorem Frame.not_awaitsForward_of_addressed {f : Frame} {k : Kind} (h : f.isAddressed k = true)
    (notMessage : k ≠ .message) : f.awaitsForward = false :=
  Frame.not_forward_of_reply (Frame.awaitsReply_of_addressed h notMessage)

theorem execTap_link {s t : State} (h : s.LinkOk) (e : execTap s = .next t) : t.LinkOk := by
  refine State.perform_keeps e h fun _ => ?_
  split
  · exact h
  · refine takeDock_link h _ _ fun f head accepted _ =>
      rel_d h ?_ head (Frame.not_awaitsForward_of_addressed accepted (by decide))
    split
    · exact .decideTap ..
    · exact .refl s

theorem execBikeId_link {s t : State} (h : s.LinkOk) (e : execBikeId s = .next t) : t.LinkOk := by
  refine State.perform_keeps e h fun _ => takeDock_link h _ _ fun f head accepted _ =>
    rel_d h ?_ head (Frame.not_awaitsForward_of_addressed accepted (by decide))
  split
  · split
    · exact .takeBikeId ..
    · exact .refl s
  · exact .refl s

theorem execStopAll_link {s t : State} (h : s.LinkOk) (e : execStopAll s = .next t) : t.LinkOk := by
  refine State.perform_keeps e h fun _ => takeStation_link h _ _ fun f head accepted notBusy _ => ?_
  by_cases broadcast : f.isBroadcast = true
  · rw [if_pos broadcast]
    exact rel_s h (.stopAllEffects s) head broadcast notBusy
  · rw [if_neg broadcast]
    have addressed : f.isAddressed .stopAll = true := by
      simpa [Frame.isBroadcastOf, broadcast] using accepted
    have take : Takeable s f := ⟨h, head, Frame.awaitsReply_of_addressed addressed (by decide), notBusy⟩
    split
    · exact (take.calm (.stopAllEffects s)).reply _
    · exact take.reply _

/-- A frame that no block of the dock segment takes is no MESSAGE to forward (R180). -/
theorem Frame.not_awaitsForward_of_noDockTaker {f : Frame} (h : f.noDockTaker = true) : f.awaitsForward = false := by
  simp only [Frame.noDockTaker, Bool.or_eq_true, Bool.not_eq_true', decide_eq_false_iff_not] at h
  obtain broadcast | noTaker := h
  · simp [Frame.awaitsForward, broadcast]
  · have notMessage : f.kind ≠ Kind.message.code := fun same => noTaker (by rw [same]; decide)
    simp [Frame.awaitsForward, notMessage]

theorem execFrameDiscarded_link {p : PortId} {s t : State} (h : s.LinkOk) (e : execFrameDiscarded p s = .next t) :
    t.LinkOk := by
  refine State.perform_keeps e h fun _ => ?_
  cases p with
  | dock =>
    exact takeDock_link h _ _ fun f head noTaker _ =>
      h.releaseDockPort head (Frame.not_awaitsForward_of_noDockTaker noTaker)
  | station =>
    exact takeStation_link h _ _ fun f head noTaker notBusy _ =>
      h.releaseStation head (Bool.and_eq_true_iff.1 noTaker).1 notBusy

theorem exec_keeps_linkOk (c : Instr) (s t : State) (h : s.LinkOk) (e : exec c s = .next t) : t.LinkOk := by
  by_cases sort : (c.takesNoFrame || c.answersAtOnce || c.followsLine) = true
  · obtain calm | answered | rfl | ⟨n, p, l, rfl⟩ := exec_ofSort sort e
    · exact h.calm calm
    · exact answered.link h
    · exact h
    · exact setLine_link (advanceTo_link h n) p l
  cases c with
  | resetRelease straps => cases e; exact State.LinkOk.congr (fullReset_link s straps) rfl rfl id rfl
  | resetInputAsserted => cases e; exact State.LinkOk.congr (fullReset_link s s.straps) rfl rfl id rfl
  | settingsRecordRead record =>
    obtain rfl | ⟨_, rfl | rfl⟩ := execSettingsRecordRead_cases e
    · exact h
    · exact endLoad_link h _
    · exact judgeRecord_link h record
  | i2cTransactionTimeout cause =>
    obtain rfl | ⟨_, n, status, rfl⟩ := execI2cTransactionTimeout_cases e
    · exact h
    · exact endLoad_link (advanceTo_link h n) status
  | bikeId => exact execBikeId_link h e
  | tap => exact execTap_link h e
  | passWrite => exact execPassWrite_link h e
  | passDelete => exact execPassDelete_link h e
  | denyWrite => exact execDenyWrite_link h e
  | denyDelete => exact execDenyDelete_link h e
  | rearrangementEnd => exact execRearrangementEnd_link h e
  | referralAnswerAdmit => exact execReferralAnswerAdmit_link h e
  | notice => exact execNotice_link h e
  | stopAll => exact execStopAll_link h e
  | frameReceived p header payload check =>
    obtain rfl | ⟨since, rfl⟩ := execFrameReceived_cases e
    · exact h
    · exact receive_link h ..
  | frameDeparture p levels => exact departure_link h p levels e
  | messageFromReader => exact msgFrom_link h e
  | messageToReader => exact msgTo_link h e
  | frameDiscarded p => exact execFrameDiscarded_link h e
  | _ => exact absurd rfl sort

/-- Settles O8: each command keeps the slots, those that only queue frames in free slots or answer the request at the
head for one reason. -/
theorem linkSlotsKept : Obligations.LinkSlotsKept := by
  unfold Obligations.LinkSlotsKept
  intro s t
  exact step_keeps exec_keeps_linkOk fun s _ _ h => h.congr rfl rfl id rfl

end Sys2Proof.Machine
end

section
/-! Every step keeps docks, orders, referrals, pass entries and the log in agreement (O9), and so each in-flight count
within 0 to 16 (O7). -/

set_option Elab.async false

namespace Sys2Proof.Machine

/-! ### Arrivals at the docks -/

theorem State.OrdersOk.advanceToCount {s : State} (h : s.OrdersOk) (n : Nat) : (s.advanceToCount n).OrdersOk :=
  h.steady (.advanceToCount s n)

theorem State.OrdersOk.latch {s : State} (h : s.OrdersOk) (k : EventKind) : (s.latch k).OrdersOk :=
  h.steady (State.Quiet.latch s k).steady

theorem State.OrdersOk.attend {s : State} (h : s.OrdersOk) : s.attend.OrdersOk := h.steady (State.Quiet.attend s).steady

theorem execSensorRawChange_orders {d : DockId} {sensor : SensorId} {s t : State} (h : s.OrdersOk)
    (e : execSensorRawChange d sensor s = .next t) : t.OrdersOk := by
  refine State.perform_keeps e h fun _ => h.steady ?_
  cases sensor with
  | bikePresent => exact .aside ..
  | latchOpen => exact .aside ..

theorem execReturnPendingTimerExpiry_orders {d : DockId} {s t : State} (h : s.OrdersOk)
    (e : execReturnPendingTimerExpiry d s = .next t) : t.OrdersOk := by
  refine State.perform_keeps e h fun _ => ?_
  split
  · exact h
  · exact .of (.setReturnTimer ..) ((h.advanceToCount _).handOverReturn ..)
  · exact .of (.setReturnTimer ..) (.of (.setBikeId ..) (h.advanceToCount _))

theorem execStationTimeAdvance_orders {s t : State} (h : s.OrdersOk) (e : execStationTimeAdvance s = .next t) :
    t.OrdersOk := by
  refine State.perform_keeps e h fun _ => ?_
  dsimp only
  split
  · exact State.OrdersOk.checkReservations (.of (.outside) h)
  · exact h

theorem execReferralTimeout_orders {d : DockId} {s t : State} (h : s.OrdersOk)
    (e : execReferralTimeout d s = .next t) : t.OrdersOk := by
  refine State.perform_keeps e h fun _ => ?_
  split
  · exact h
  · rename_i r found
    have ended (n : Nat) : ((s.advanceToCount n).endReferral r .noAnswer 0).OrdersOk :=
      (h.advanceToCount n).endReferral (List.mem_of_find?_eq_some found) ..
    dsimp only
    split
    · exact (ended _).latch _
    · exact ended _

theorem State.queuedDock {s : State} (h : s.OrdersOk) {d : DockId} {o : Order}
    (found : s.queue.find? (fun x => x.dock == d) = some o) : (s.dock d).state = .queued := by
  have := (h.queued o (List.mem_of_find?_eq_some found)).2
  rwa [show o.dock = d by simpa using List.find?_some found] at this

theorem execOrderDeadline_orders {d : DockId} {s t : State} (h : s.OrdersOk) (e : execOrderDeadline d s = .next t) :
    t.OrdersOk := by
  refine State.perform_keeps e h fun _ => ?_
  split
  · rename_i o found
    exact (h.advanceToCount _).queuedEnd d (State.queuedDock h found) _
  · exact h

theorem State.OrdersOk.stopInput {s : State} (h : s.OrdersOk) (asserted : Bool) (effects : State → State)
    (kept : ∀ u : State, u.OrdersOk → u.stopAsserted = asserted → (effects u).OrdersOk) :
    (s.stopInput asserted effects).OrdersOk := by
  unfold State.stopInput State.stopHeld
  split
  · split
    · exact h
    · have held (n : Nat) : State.OrdersOk { s.advanceToCount n with stopAsserted := asserted } := .of .outside h
      dsimp only
      split
      · exact kept _ (held _) rfl
      · exact held _
  · exact .of .outside h

/-! ### The drive unit -/

theorem Dock.Ok.applyPending {k : Dock} (ok : k.Ok) : k.applyPending.Ok :=
  { ok with
    driven := fun off => ⟨(ok.driven off).2, (ok.driven off).2⟩
    duties := ⟨ok.duties.2, ok.duties.2⟩ }

theorem State.Steady.applyPending (s : State) (d : DockId) : s.Steady (s.modDock d Dock.applyPending) :=
  .modDock s d _ ⟨rfl, .rfl, id, rfl, rfl, rfl, rfl, rfl⟩ Dock.Ok.applyPending

theorem Dock.Ok.startPullIn {k : Dock} (ok : k.Ok) (pulling : k.state = .pulling) (n : Nat) (o : Order) :
    (k.startPullIn n o).Ok :=
  { ok with
    driven := fun off => ⟨(ok.driven off).2, (ok.driven off).2⟩
    duties := ⟨ok.duties.2, ok.duties.2⟩
    pullInStart := fun _ => show k.state.withDrive = true by rw [pulling]; rfl }

theorem State.Steady.startPullIn {s : State} {d : DockId} (pulling : (s.dock d).state = .pulling) (n : Nat) (o : Order) :
    s.Steady (s.modDock d (Dock.startPullIn n o)) :=
  .modDock s d _ ⟨rfl, .rfl, id, rfl, rfl, rfl, rfl, rfl⟩ fun ok => ok.startPullIn pulling n o

theorem Dock.Ok.enterOpen {k : Dock} (ok : k.Ok) (pulling : k.state = .pulling) (n vs : Nat) (o : Order) :
    (k.enterOpen n vs o).Ok where
  fault := (pulling ▸ ok.fault).trans ⟨nofun, nofun⟩
  reservation := (pulling ▸ ok.reservation).trans ⟨nofun, nofun⟩
  origin := by have := ok.origin; rw [Dock.inFlight, pulling] at this; exact this
  order := by have := ok.order; rw [pulling] at this; exact this
  driven off := by cases off
  duties := ⟨ok.duties.1, targetDuty_le ..⟩
  active _ := rfl
  pullInStart _ := rfl

theorem State.Steady.enterOpen {s : State} {d : DockId} (pulling : (s.dock d).state = .pulling) (n vs : Nat)
    (o : Order) : s.Steady (s.modDock d (Dock.enterOpen n vs o)) :=
  .modDock s d _
    { inFlight := by rw [Dock.inFlight, Dock.inFlight, pulling]; rfl
      queued := by rw [pulling]; exact ⟨nofun, nofun⟩
      pulling := nofun
      boundPass := rfl
      boundSerial := rfl
      origin := rfl
      order := rfl
      pendingReturn := rfl }
    fun ok => ok.enterOpen pulling n vs o

theorem execPullInStart_orders {d : DockId} {s t : State} (h : s.OrdersOk) (e : execPullInStart d s = .next t) :
    t.OrdersOk := by
  refine State.perform_keeps e h fun _ => ?_
  split
  · rename_i o pulling _ _
    refine .of (.setActivity _ d .pullIn fun _ => ?_) (.of (.startPullIn (s := s.advanceTo _) pulling _ o) (.of (.advanceTo s _) h))
    rw [State.dock_modDock_self]
    exact congrArg DockState.driven pulling
  · exact h

theorem execPwmPeriodStart_orders {d : DockId} {s t : State} (h : s.OrdersOk)
    (e : execPwmPeriodStart d s = .next t) : t.OrdersOk := by
  refine State.perform_keeps e h fun _ => ?_
  split
  · exact h
  · exact .of (.applyPending _ d) (.of (.advanceTo s _) h)

theorem execPullLimitExpiry_orders {d : DockId} {s t : State} (h : s.OrdersOk)
    (e : execPullLimitExpiry d s = .next t) : t.OrdersOk := by
  refine State.perform_keeps e h fun _ => ?_
  split
  · split
    · exact (h.advanceToCount _).driveEnd ..
    · exact (h.advanceToCount _).driveEnd ..
  · exact h

theorem execExtensionExpiry_orders {d : DockId} {s t : State} (h : s.OrdersOk)
    (e : execExtensionExpiry d s = .next t) : t.OrdersOk := by
  refine State.perform_keeps e h fun _ => ?_
  split
  · rename_i due o pulling _ _
    refine State.OrdersOk.evaluateGrants (.of (State.Quiet.result ..).steady (.of (.setActivity _ d .hold fun _ => ?_)
      (.of (.enterOpen (s := s.advanceToCount due) pulling _ _ o) (h.advanceToCount due))))
    rw [State.dock_modDock_self]
    rfl
  · exact h

theorem execHoldExpiry_orders {d : DockId} {s t : State} (h : s.OrdersOk) (e : execHoldExpiry d s = .next t) :
    t.OrdersOk := by
  refine State.perform_keeps e h fun _ => ?_
  split
  · rename_i opened _
    exact .of (.beginClosing _ d false opened) (h.advanceToCount _)
  · exact h

theorem execClosingLimitExpiry_orders {d : DockId} {s t : State} (h : s.OrdersOk)
    (e : execClosingLimitExpiry d s = .next t) : t.OrdersOk := by
  refine State.perform_keeps e h fun _ => ?_
  split
  · exact (h.advanceToCount _).driveEnd ..
  · exact h

theorem execCoilFaultReport_orders {s t : State} (h : s.OrdersOk) (e : execCoilFaultReport s = .next t) :
    t.OrdersOk := by
  refine State.perform_keeps e h fun _ => ?_
  split
  · have taken (f : Sense → Sense) : (s.modSense f).OrdersOk := h.steady (.modSense s f)
    unfold State.takeCoilFault
    split
    · exact (taken _).driveEnd ..
    · exact (taken _).driveEnd ..
    · exact taken _
  · exact h

/-! ### The sense unit -/

theorem State.OrdersOk.deliverSupply {s : State} (h : s.OrdersOk) (c : Code) : (s.deliverSupply c).OrdersOk := by
  unfold State.deliverSupply
  split
  · exact .of (.recomputeDuties _ _ (h.evaluateLevel _)) (h.evaluateLevel _)
  · exact h

theorem execSupplyConversionComplete_orders {code : Code} {s t : State} (h : s.OrdersOk)
    (e : execSupplyConversionComplete code s = .next t) : t.OrdersOk := by
  refine State.perform_keeps e h fun _ => ?_
  split
  · have stored (n : Nat) (f : Sense → Sense) : ((s.advanceTo n).modSense f).OrdersOk :=
      .of (.modSense ..) (.of (.advanceTo ..) h)
    exact .of (.endTurn _) ((stored _ _).deliverSupply code)
  · exact h

theorem execCoilConversionComplete_orders {code : Code} {s t : State} (h : s.OrdersOk)
    (e : execCoilConversionComplete code s = .next t) : t.OrdersOk := by
  refine State.perform_keeps e h fun _ => h.steady ?_
  split
  · split
    · exact (State.Steady.advanceTo ..).trans (.endTurn _)
    · exact ((State.Steady.advanceTo ..).trans (.judgeSample ..)).trans (.endTurn _)
  · exact .refl s

theorem execIdleSupplyTurn_orders {s t : State} (h : s.OrdersOk) (e : execIdleSupplyTurn s = .next t) :
    t.OrdersOk := by
  refine State.perform_keeps e h fun _ => h.steady ?_
  split
  · exact (State.Steady.advanceToCount ..).trans (.beginSupplyTurn _)
  · exact .refl s

theorem execCoilSamplingInstant_orders {s t : State} (h : s.OrdersOk) (e : execCoilSamplingInstant s = .next t) :
    t.OrdersOk := by
  refine State.perform_keeps e h fun _ => h.steady ?_
  split
  · exact (State.Steady.advanceTo ..).trans (.setConverter ..)
  · exact .refl s

theorem execFixingPeriodStart_orders {s t : State} (h : s.OrdersOk) (e : execFixingPeriodStart s = .next t) :
    t.OrdersOk := by
  refine State.perform_keeps e h fun _ => h.steady ?_
  split
  · rename_i d _ _
    have applied (n : Nat) : s.Steady ((s.advanceTo n).modDock d Dock.applyPending) :=
      (State.Steady.advanceTo ..).trans (.applyPending ..)
    dsimp only
    split
    · exact (applied _).trans (.endTurn _)
    · exact (applied _).trans (.setConverter ..)
  · exact .refl s

/-- The arrivals that take no frame keep docks, orders and the log in agreement. -/
theorem exec_keeps_ordersOk_of_noFrame {c : Instr} (noFrame : c.takesNoFrame = true) {s t : State} (h : s.OrdersOk)
    (e : exec c s = .next t) : t.OrdersOk := by
  cases c with
  | sensorRawChange d sensor => exact execSensorRawChange_orders h e
  | bikePresentRise d =>
    exact State.perform_keeps e h fun _ => h.bikeEdge _ _ _ fun u hu => (hu.returnOnRise d).ownBikeRise d
  | bikePresentFall d =>
    exact State.perform_keeps e h fun _ => h.bikeEdge _ _ _ fun u hu => (hu.returnOnFall d).ownBikeFall d
  | latchOpenRise d => exact State.perform_keeps e h fun _ => h.latchEdge _ _ _ fun _ u hu => hu.ownLatchRise d _
  | latchOpenFall d => exact State.perform_keeps e h fun _ => h.latchEdge _ _ _ fun _ u hu => hu.ownLatchFall d
  | returnPendingTimerExpiry d => exact execReturnPendingTimerExpiry_orders h e
  | stationTimeAdvance => exact execStationTimeAdvance_orders h e
  | referralTimeout d => exact execReferralTimeout_orders h e
  | orderDeadline d => exact execOrderDeadline_orders h e
  | stopAssertion =>
    exact State.perform_keeps e h fun _ => h.stopInput true _ fun _ hu stop => hu.stopEffects stop
  | stopRelease =>
    exact State.perform_keeps e h fun _ => h.stopInput false _ fun _ hu _ => hu.evaluateGrants
  | pullInStart d => exact execPullInStart_orders h e
  | pwmPeriodStart d => exact execPwmPeriodStart_orders h e
  | pullLimitExpiry d => exact execPullLimitExpiry_orders h e
  | extensionExpiry d => exact execExtensionExpiry_orders h e
  | holdExpiry d => exact execHoldExpiry_orders h e
  | closingLimitExpiry d => exact execClosingLimitExpiry_orders h e
  | coilFaultReport => exact execCoilFaultReport_orders h e
  | supplyConversionComplete code => exact execSupplyConversionComplete_orders h e
  | coilConversionComplete code => exact execCoilConversionComplete_orders h e
  | idleSupplyTurn => exact execIdleSupplyTurn_orders h e
  | fixingPeriodStart => exact execFixingPeriodStart_orders h e
  | coilSamplingInstant => exact execCoilSamplingInstant_orders h e
  | _ => cases noFrame

/-! ### Requests answered at once -/

theorem execTimeSet_orders {s t : State} (h : s.OrdersOk) (e : execTimeSet s = .next t) : t.OrdersOk := by
  refine State.perform_keeps e h fun _ => h.takeRequest _ _ _ fun p _ _ => State.OrdersOk.reply ?_ _
  exact State.OrdersOk.checkReservations (.of .outside h)

theorem Rests.parked {k : Dock} (ok : k.Ok) (reserved : k.state = .reserved) :
    Rests k { k with state := .parked, reservation := none } where
  state := rfl
  boundPass := rfl
  boundSerial := rfl
  origin := rfl
  order := rfl
  pendingReturn := rfl
  chan := rfl
  sense := rfl
  fault := (reserved ▸ ok.fault).trans ⟨nofun, nofun⟩
  reservation := ⟨nofun, nofun⟩

theorem execCancelReserve_orders {s t : State} (h : s.OrdersOk) (e : execCancelReserve s = .next t) : t.OrdersOk := by
  refine State.perform_keeps e h fun _ => h.takeCommand _ _ fun d _ _ _ => ?_
  split
  · rename_i reserved
    exact (h.restsAt d _ (.parked (h.docks d) reserved) (by rw [reserved]; rfl)).reply _
  · exact h.reply _

theorem execClearService_orders {s t : State} (h : s.OrdersOk) (e : execClearService s = .next t) : t.OrdersOk := by
  refine State.perform_keeps e h fun _ => h.takeCommand _ _ fun d _ _ _ => ?_
  split
  · rename_i service
    have resting : (s.dock d).state.inFlight = false := by rw [service.1]; rfl
    exact (h.restsAt d _ (.takeFromSensors _) resting).reply _
  · exact h.reply _

theorem execStaffUnlock_orders {s t : State} (h : s.OrdersOk) (e : execStaffUnlock s = .next t) : t.OrdersOk := by
  refine State.perform_keeps e h fun _ => h.takeCommand _ _ fun d _ notBusy notStarting => ?_
  split
  · exact h.reply _
  · exact (h.staffUnlock d (by assumption) notBusy notStarting).reply _

theorem execUnknownDockCommand_orders {s t : State} (h : s.OrdersOk) (e : execUnknownDockCommand s = .next t) :
    t.OrdersOk := by
  refine State.perform_keeps e h fun _ => h.takeStation _ _ fun f _ _ => ?_
  split <;> exact h.reply _

theorem execProfileWrite_orders {s t : State} (h : s.OrdersOk) (e : execProfileWrite s = .next t) : t.OrdersOk := by
  refine State.perform_keeps e h fun _ => h.takeRequest _ _ _ fun p _ _ => ?_
  split
  · exact State.OrdersOk.reply (.of (.writeProfile ..) h) _
  · exact h.reply _

/-- Supply settings as written lie in their ranges (R98, R101, R189). -/
theorem supplySettingsOf_fine (p : List Byte) (off : Nat) (u : Supply) : (supplySettingsOf p off u).recount.Fine := by
  obtain ⟨low, high⟩ := clamp_mem (lo := 1) (hi := 4) (by decide) (fieldAt p off 1)
  exact ⟨low, high, effectiveSlots_le _ low⟩

theorem execSupplyWrite_orders {s t : State} (h : s.OrdersOk) (e : execSupplyWrite s = .next t) : t.OrdersOk := by
  refine State.perform_keeps e h fun _ => h.takeRequest _ _ _ fun p _ _ => State.OrdersOk.reply (h.steady ?_) _
  exact { State.Steady.refl s with supply := fun _ => supplySettingsOf_fine p 0 s.supply }

theorem execPassRead_orders {s t : State} (h : s.OrdersOk) (e : execPassRead s = .next t) : t.OrdersOk := by
  refine State.perform_keeps e h fun _ => h.takeRequest _ _ _ fun p _ _ => ?_
  have replied (x : Option PassEntry) : (s.replyEntry x).OrdersOk := by
    cases x with
    | none => exact h.reply _
    | some x => exact h.replyWith _ _ _
  split
  · exact replied _
  · exact replied _
  · exact h.reply _

theorem State.OrdersOk.setKey {s : State} (h : s.OrdersOk) (slot : Nat) (key : Option (List Byte)) :
    (s.setKey slot key).OrdersOk := by
  unfold State.setKey
  split
  · exact State.OrdersOk.reply (.of .outside h) _
  · exact h.reply _

theorem execCollect_orders {s t : State} (h : s.OrdersOk) (e : execCollect s = .next t) : t.OrdersOk := by
  refine State.perform_keeps e h fun _ => h.takeRequest _ _ _ fun p _ _ => ?_
  split
  · exact h.reply _
  · split
    · exact h.reply _
    · exact State.OrdersOk.replyWith (.of .outside h) _ _ _

theorem execEventRead_orders {s t : State} (h : s.OrdersOk) (e : execEventRead s = .next t) : t.OrdersOk := by
  refine State.perform_keeps e h fun _ => h.takeRequest _ _ _ fun p _ _ => ?_
  split
  · exact h.replyWith _ _ _
  · split
    · exact h.reply _
    · exact State.OrdersOk.replyWith (.of .outside h) _ _ _

theorem execEventClear_orders {s t : State} (h : s.OrdersOk) (e : execEventClear s = .next t) : t.OrdersOk := by
  refine State.perform_keeps e h fun _ => h.takeRequest _ _ _ fun p _ _ => ?_
  split
  · exact State.OrdersOk.reply (State.OrdersOk.attend (.of .outside h)) _
  · exact h.reply _

theorem execEventMask_orders {s t : State} (h : s.OrdersOk) (e : execEventMask s = .next t) : t.OrdersOk := by
  refine State.perform_keeps e h fun _ => h.takeRequest _ _ _ fun p _ _ => ?_
  split
  · exact State.OrdersOk.reply (State.OrdersOk.attend (.of .outside h)) _
  · exact h.reply _

theorem execEventForce_orders {s t : State} (h : s.OrdersOk) (e : execEventForce s = .next t) : t.OrdersOk := by
  refine State.perform_keeps e h fun _ => h.takeRequest _ _ _ fun p _ _ => ?_
  split
  · exact State.OrdersOk.reply (.of (State.Quiet.latchSet s _).steady h) _
  · exact h.reply _

theorem execReferralAnswerBadCode_orders {s t : State} (h : s.OrdersOk)
    (e : execReferralAnswerBadCode s = .next t) : t.OrdersOk := by
  refine State.perform_keeps e h fun _ => h.takeStation _ _ fun f _ _ => ?_
  split <;> exact h.reply _

theorem exec_keeps_ordersOk_of_atOnce {c : Instr} (atOnce : c.answersAtOnce = true) {s t : State} (h : s.OrdersOk)
    (e : exec c s = .next t) : t.OrdersOk := by
  cases c with
  | timeSet => exact execTimeSet_orders h e
  | reserve => exact State.perform_keeps e h fun _ => h.takeCommand _ _ fun _ _ _ _ => h.reserveDock _ _
  | cancelReserve => exact execCancelReserve_orders h e
  | setService => exact State.perform_keeps e h fun _ => h.takeCommand _ _ fun _ _ _ _ => (h.serviceDock _).reply _
  | clearService => exact execClearService_orders h e
  | staffUnlock => exact execStaffUnlock_orders h e
  | unknownDockCommand => exact execUnknownDockCommand_orders h e
  | profileWrite => exact execProfileWrite_orders h e
  | supplyWrite => exact execSupplyWrite_orders h e
  | passRead => exact execPassRead_orders h e
  | keyWrite => exact State.perform_keeps e h fun _ => h.takeRequest _ _ _ fun _ _ _ => h.setKey _ _
  | keyClear => exact State.perform_keeps e h fun _ => h.takeRequest _ _ _ fun _ _ _ => h.setKey _ _
  | collect => exact execCollect_orders h e
  | eventRead => exact execEventRead_orders h e
  | eventClear => exact execEventClear_orders h e
  | eventMask => exact execEventMask_orders h e
  | eventForce => exact execEventForce_orders h e
  | statusRead => exact State.perform_keeps e h fun _ => h.takeRequest _ _ _ fun _ _ _ => h.replyWith _ _ _
  | restart =>
    exact State.perform_keeps e h fun _ => h.takeRequest _ _ _ fun _ _ _ =>
      State.OrdersOk.replyWith (.of .outside h) _ _ _
  | badKind => exact State.perform_keeps e h fun _ => h.takeStation _ _ fun _ _ _ => h.reply _
  | referralAnswerRefuse =>
    exact State.perform_keeps e h fun _ => h.takeAnswer _ _ _ fun r held _ _ _ => (h.endReferral held _ _).replyWith _ _ _
  | referralAnswerBadCode => exact execReferralAnswerBadCode_orders h e
  | _ => cases atOnce

/-! ### Requests that write a table -/

/-- A table written or not, the docks, orders and referrals stay, and so does the in-flight count of each entry that
stays (R31, R37). -/
theorem execPassWrite_orders {s t : State} (h : s.OrdersOk) (e : execPassWrite s = .next t) : t.OrdersOk := by
  refine State.perform_keeps e h fun _ => h.takeRequest _ _ _ fun p notBusy _ => ?_
  split
  · exact h.reply _
  · unfold State.writePass
    split
    · exact h.reply _
    · split
      · exact (h.replacePass _).reply _
      · split
        · exact h.reply _
        · exact h.rearrange notBusy _ trivial

theorem execPassDelete_orders {s t : State} (h : s.OrdersOk) (e : execPassDelete s = .next t) : t.OrdersOk := by
  refine State.perform_keeps e h fun _ => h.takeRequest _ _ _ fun p notBusy _ => ?_
  dsimp only
  split
  · exact h.reply _
  · split
    · exact h.reply _
    · have removed (keep : PassEntry → Bool) : State.OrdersOk { s with passes := s.passes.filter keep } :=
        h.withPasses _ fun x mem => h.passCounts x (List.mem_of_mem_filter mem)
      exact (removed _).rearrange (by exact notBusy) _ trivial

theorem execDenyWrite_orders {s t : State} (h : s.OrdersOk) (e : execDenyWrite s = .next t) : t.OrdersOk := by
  refine State.perform_keeps e h fun _ => h.takeRequest _ _ _ fun p notBusy _ => ?_
  dsimp only
  split
  · exact h.reply _
  · split
    · exact State.OrdersOk.reply (.of .outside h) _
    · split
      · exact h.reply _
      · exact h.rearrange notBusy _ trivial

theorem execDenyDelete_orders {s t : State} (h : s.OrdersOk) (e : execDenyDelete s = .next t) : t.OrdersOk := by
  refine State.perform_keeps e h fun _ => h.takeRequest _ _ _ fun p notBusy _ => ?_
  dsimp only
  split
  · exact h.reply _
  · split
    · exact h.reply _
    · have removed (l : List DenyEntry) : State.OrdersOk { s with denies := l } := .of .outside h
      exact (removed _).rearrange (by exact notBusy) _ trivial

theorem execRearrangementEnd_orders {s t : State} (h : s.OrdersOk) (e : execRearrangementEnd s = .next t) :
    t.OrdersOk := by
  refine State.perform_keeps e h fun _ => ?_
  split
  · rename_i r busy
    have ended (n : Nat) : State.OrdersOk { s with clock := n, rearrangement := none } :=
      h.withWork n none fun _ none => nomatch none
    exact (ended _).finishWork rfl (h.answer r busy)
  · exact h

/-! ### The other frames -/

theorem PassEntry.noticed_fixed (e : PassEntry) (serial : Nat) (delta : Int) :
    (e.noticed serial delta).id = e.id ∧ (e.noticed serial delta).inFlight = e.inFlight := by
  unfold PassEntry.noticed PassEntry.addDelta
  by_cases greater : e.lastSerial < serial
  · rw [if_pos greater]; split <;> exact ⟨rfl, rfl⟩
  · rw [if_neg greater]; split <;> exact ⟨rfl, rfl⟩

theorem State.Steady.applyNotice (s : State) (passId serial : Nat) (delta : Int) (sibling : Address) :
    s.Steady (s.applyNotice passId serial delta sibling) := by
  have noticed (u : State) : u.Steady (u.modPass passId fun x => x.noticed serial delta) :=
    { State.Steady.refl u with
      passes := ⟨_, rfl, fun x => by
        split
        · exact x.noticed_fixed serial delta
        · exact ⟨rfl, rfl⟩⟩ }
  unfold State.applyNotice
  split
  · exact .refl s
  · dsimp only
    split
    · exact (State.Quiet.noteDuplicate ..).steady.trans (noticed _)
    · exact noticed s

theorem execNotice_orders {s t : State} (h : s.OrdersOk) (e : execNotice s = .next t) : t.OrdersOk := by
  refine State.perform_keeps e h fun _ => h.takeStation _ _ fun f _ _ => .of (.release ..) ?_
  split
  · exact h
  · split
    · exact h
    · exact .of (.applyNotice ..) h

theorem execTap_orders {s t : State} (h : s.OrdersOk) (e : execTap s = .next t) : t.OrdersOk := by
  refine State.perform_keeps e h fun _ => ?_
  split
  · exact h
  · rename_i free
    refine h.takeDock _ _ fun f notStarting => .of (.release ..) ?_
    split
    · exact h.decideTap _ _ (by simpa [State.busy] using free) notStarting
    · exact h

theorem execBikeId_orders {s t : State} (h : s.OrdersOk) (e : execBikeId s = .next t) : t.OrdersOk := by
  refine State.perform_keeps e h fun _ => h.takeDock _ _ fun f _ => .of (.release ..) ?_
  split
  · split
    · exact h.takeBikeId _ _
    · exact h
  · exact h

theorem execStopAll_orders {s t : State} (h : s.OrdersOk) (e : execStopAll s = .next t) : t.OrdersOk := by
  refine State.perform_keeps e h fun _ => h.takeStation _ _ fun f _ _ => ?_
  split
  · exact .of (.release ..) h.stopAllEffects
  · split
    · exact h.stopAllEffects.reply _
    · exact h.reply _

theorem execFrameDiscarded_orders {p : PortId} {s t : State} (h : s.OrdersOk)
    (e : execFrameDiscarded p s = .next t) : t.OrdersOk := by
  refine State.perform_keeps e h fun _ => ?_
  cases p with
  | dock => exact h.takeDock _ _ fun _ _ => .of (.release ..) h
  | station => exact h.takeStation _ _ fun _ _ _ => .of (.release ..) h

theorem State.Steady.receive (s : State) (p : PortId) (since : Nat) (header : BitVec 32) (payload : List Byte)
    (check : BitVec 16) : s.Steady (s.receive p since header payload check) := by
  have read (n : Nat) (l : LineState) : s.Steady ((s.advanceTo n).setLine p l) :=
    (State.Steady.advanceTo ..).trans (.setLine ..)
  unfold State.receive
  split
  · exact (read _ _).trans (.judgeFrame ..)
  · exact read _ _

theorem exec_keeps_ordersOk (c : Instr) (s t : State) (h : s.OrdersOk) (e : exec c s = .next t) : t.OrdersOk := by
  by_cases sort : (c.takesNoFrame || c.answersAtOnce || c.followsLine) = true
  · obtain (noFrame | atOnce) | line : (c.takesNoFrame = true ∨ c.answersAtOnce = true) ∨ c.followsLine = true := by
      simpa only [Bool.or_eq_true] using sort
    · exact exec_keeps_ordersOk_of_noFrame noFrame h e
    · exact exec_keeps_ordersOk_of_atOnce atOnce h e
    · obtain rfl | ⟨n, p, l, rfl⟩ := exec_lineMoved line e
      · exact h
      · exact .of (.setLine ..) (.of (.advanceTo ..) h)
  cases c with
  | resetRelease straps stop bike latch =>
    cases e
    exact .afterReset _ _ _ _ _ _ (fun d => ⟨bike.getLsbD d.val, latch.getLsbD d.val, by simp⟩) .starting
  | resetInputAsserted =>
    cases e
    exact .afterReset _ _ _ _ _ _ (fun d => ⟨s.docks[d.val].bike.raw, s.docks[d.val].latch.raw, by simp⟩) .inReset
  | settingsRecordRead record =>
    obtain rfl | ⟨starting, rfl | rfl⟩ := execSettingsRecordRead_cases e
    · exact h
    · exact h.endLoad starting _
    · exact h.judgeRecord starting record
  | i2cTransactionTimeout cause =>
    obtain rfl | ⟨starting, n, status, rfl⟩ := execI2cTransactionTimeout_cases e
    · exact h
    · exact State.OrdersOk.endLoad (.of (.advanceTo s n) h) starting status
  | bikeId => exact execBikeId_orders h e
  | tap => exact execTap_orders h e
  | passWrite => exact execPassWrite_orders h e
  | passDelete => exact execPassDelete_orders h e
  | denyWrite => exact execDenyWrite_orders h e
  | denyDelete => exact execDenyDelete_orders h e
  | rearrangementEnd => exact execRearrangementEnd_orders h e
  | referralAnswerAdmit =>
    exact State.perform_keeps e h fun _ => h.takeAnswer _ _ _ fun _ held _ notBusy notStarting =>
      h.admitAnswer notBusy notStarting held _
  | notice => exact execNotice_orders h e
  | stopAll => exact execStopAll_orders h e
  | frameReceived p header payload check =>
    obtain rfl | ⟨since, rfl⟩ := execFrameReceived_cases e
    · exact h
    · exact .of (.receive ..) h
  | frameDeparture p levels =>
    obtain rfl | ⟨since, head, rfl | rfl⟩ := execFrameDeparture_cases e
    · exact h
    · exact .of (.modPort ..) (.of (.endAttempt ..) h)
    · exact State.OrdersOk.stationDeparture (.of (.modPort ..) (.of (.endAttempt ..) h)) _ _ _
  | messageFromReader =>
    exact State.perform_keeps e h fun _ => h.takeDock _ _ fun _ _ => .of (.release ..) (.of (.modPort ..) h)
  | messageToReader =>
    exact State.perform_keeps e h fun _ => h.takeStation _ _ fun _ _ _ => .of (.release ..) (.of (.modPort ..) h)
  | frameDiscarded p => exact execFrameDiscarded_orders h e
  | _ => exact absurd rfl sort

/-- Settles O9: each command keeps the agreement, and neither the waiting commands nor the clock have a part in it. -/
theorem ordersKept : Obligations.OrdersKept := by
  unfold Obligations.OrdersKept
  intro s t
  exact step_keeps exec_keeps_ordersOk fun s _ _ h => .of .outside h

/-- Settles O7: each command keeps the tables; and a count that counts docks (O9) is at most the docks of the row. -/
theorem tablesKept : Obligations.TablesKept := by
  unfold Obligations.TablesKept
  refine ⟨fun s t => step_keeps exec_keeps_tablesOk fun s _ _ h => h.same, fun s t h e x mem => ?_⟩
  have count := (ordersKept s t h e).passCounts x mem
  calc x.inFlight = t.boundInFlight x.id := count
    _ ≤ 16 := Vector.countP_le_size (xs := t.docks)

end Sys2Proof.Machine
end

section
/-! The queue of commands, reset and start-up: every command of the right shape answers, the part held in reset does
nothing, and a reset leaves the values of section 11.1 (O1 to O4, O10). -/

set_option Elab.async false

namespace Sys2Proof.Machine

/-- Settles O1. -/
theorem stepRunsFrontCommand : Obligations.StepRunsFrontCommand := by
  unfold Obligations.StepRunsFrontCommand
  exact fun _ _ _ => rfl

/-! ### The queue of commands is left alone -/

theorem State.endLoad_pending (s : State) (status : LoadStatus) : (s.endLoad status).pending = s.pending := by
  have entered (u : State) : u.enterRunning.pending = u.pending := (State.Calm.evaluateAndAttend _).pending
  unfold State.endLoad
  dsimp only
  split
  · exact entered _
  · rw [entered, (State.Quiet.latch _ _).pending]

theorem State.judgeRecord_pending (s : State) (record : List Byte) : (s.judgeRecord record).pending = s.pending := by
  have applied (k : RecordKind) : (s.applyRecord k record).pending = s.pending := by cases k <;> rfl
  unfold State.judgeRecord
  dsimp only
  split
  · split
    · exact s.endLoad_pending _
    · exact s.endLoad_pending _
    · unfold State.nextRecord
      split
      · rw [State.endLoad_pending, applied]
      · exact applied _
  · exact s.endLoad_pending _

theorem State.decideAnswer_pending (s : State) (d : DockId) (token : List Byte) (e : PassEntry) (status : Status) :
    (s.decideAnswer d token e status).pending = s.pending := by
  unfold State.decideAnswer
  dsimp only
  split
  · rw [State.replyWith_pending, (State.Quiet.verdict ..).pending]; rfl
  · rw [State.replyWith_pending, (State.Calm.admitted _ _ _ _ _ _ (tokenOf_serial_le _)).pending]

theorem State.finishWork_pending (s : State) (w : RearrangementWork) : (s.finishWork w).pending = s.pending := by
  have replied (u : State) (status : Status) : (u.reply status).pending = u.pending := u.replyWith_pending _ _ _
  cases w with
  | passInsert e => exact replied (s.insertPass e) _
  | passDelete => exact replied s _
  | denyInsert e => exact replied { s with denies := insertDenyEntry e s.denies } _
  | denyDelete => exact replied s _
  | answerInsert e d token => exact (s.insertPass e).decideAnswer_pending ..

theorem State.rearrange_pending (s : State) (n : Nat) (w : RearrangementWork) :
    (s.rearrange n w).pending = s.pending := by
  unfold State.rearrange
  split
  · exact s.finishWork_pending w
  · rfl

theorem State.writePass_pending (s : State) (w : PassEntry) : (s.writePass w).pending = s.pending := by
  unfold State.writePass
  split
  · exact s.replyWith_pending _ _ _
  · split
    · exact State.replyWith_pending (s.modPass _ _) _ _ _
    · split
      · exact s.replyWith_pending _ _ _
      · exact s.rearrange_pending _ _

theorem State.admitAnswer_pending (s : State) (r : Referral) (p : List Byte) :
    (s.admitAnswer r p).pending = s.pending := by
  have written (u : State) (w : PassEntry) : (u.writeAnswered r w).pending = u.pending := by
    unfold State.writeAnswered
    split
    · split
      · exact u.decideAnswer_pending ..
      · exact (u.modPass _ _).decideAnswer_pending ..
    · split
      · exact u.decideAnswer_pending ..
      · exact u.rearrange_pending _ _
  unfold State.admitAnswer
  split
  · exact s.replyWith_pending _ _ _
  · dsimp only
    split
    · exact s.replyWith_pending _ _ _
    · exact written _ _

theorem State.modPort_pending (s : State) (p : PortId) (f : Port → Port) : (s.modPort p f).pending = s.pending := by
  cases p <;> rfl

theorem State.release_pending (s : State) (p : PortId) : (s.release p).pending = s.pending := s.modPort_pending p _

theorem State.receive_pending (s : State) (p : PortId) (since : Nat) (header : BitVec 32) (payload : List Byte)
    (check : BitVec 16) : (s.receive p since header payload check).pending = s.pending := by
  have placed (u : State) (f : Frame) : (u.modPort p (·.place f)).pending = u.pending := u.modPort_pending p _
  have reserved (u : State) (q : Option PortId) : (u.reserveOn q).pending = u.pending := by
    cases q with
    | none => rfl
    | some q => exact u.modPort_pending q _
  have judged (u : State) (f : Frame) : (u.judgeFrame p f).pending = u.pending := by
    unfold State.judgeFrame
    split
    · split
      · exact placed u f
      · rfl
    · split
      · split
        · rw [placed, reserved]
        · rfl
      · rfl
  have read (u : State) (l : LineState) : (u.setLine p l).pending = u.pending := u.modPort_pending p _
  unfold State.receive
  dsimp only
  split
  · rw [judged, read]; rfl
  · rw [read]; rfl

theorem State.tellOwner_pending (s : State) (o : Owner) (w : Departure) (straps : BitVec 3) :
    (s.tellOwner o w straps).pending = s.pending := by
  unfold State.tellOwner
  split
  · rfl
  · unfold State.referralDeparted
    split
    · rfl
    · rfl
    · exact (State.Calm.endReferral ..).pending
  · unfold State.collectDeparted
    dsimp only
    split
    · exact (State.Calm.removeLogHead _).pending
    · rfl
  · unfold State.eventReadDeparted
    dsimp only
    split
    · exact (State.Quiet.attend _).pending
    · rfl
  · rfl

theorem State.stationDeparture_pending (s : State) (o : Owner) (w : Departure) (straps : BitVec 3) :
    (s.stationDeparture o w straps).pending = s.pending := by
  have owed (u : State) : u.attendOwed.pending = u.pending := (State.Quiet.attendOwed u).pending
  unfold State.stationDeparture
  split
  · exact owed s
  · split
    · rw [owed, State.tellOwner_pending]; rfl
    · rw [State.tellOwner_pending, owed]; rfl
  · exact s.tellOwner_pending ..

theorem State.endAttempt_pending (s : State) (p : PortId) (since n : Nat) (r : ReadBack) :
    (s.endAttempt p since n r).pending = s.pending := by
  unfold State.endAttempt
  split
  · exact s.modPort_pending p _
  · exact State.modPort_pending _ p _
  · exact State.modPort_pending _ p _

/-- What an effect does not change in the queue of waiting commands, its command does not either. -/
theorem State.perform_pending {s t : State} {effect : State → State} (e : s.perform effect = .next t)
    (kept : (effect s).pending = s.pending) : t.pending = s.pending :=
  State.perform_keeps (P := fun u => u.pending = s.pending) e rfl fun _ => kept

theorem State.takeStation_pending {s : State} {accepts : Frame → Bool} {act : Frame → State → State}
    (kept : ∀ f, (act f s).pending = s.pending) : (s.takeStation accepts act).pending = s.pending := by
  obtain same | ⟨f, _, _, _, _, _, taken⟩ := s.takeStation_cases accepts act
  · rw [same]
  · rw [taken, kept]

theorem State.takeDock_pending {s : State} {accepts : Frame → Bool} {act : Frame → State → State}
    (kept : ∀ f, (act f s).pending = s.pending) : (s.takeDock accepts act).pending = s.pending := by
  obtain same | ⟨f, _, _, _, _, taken⟩ := s.takeDock_cases accepts act
  · rw [same]
  · rw [taken, kept]

theorem State.takeRequest_pending {s : State} {k : Kind} {n : Nat} {act : List Byte → State → State}
    (kept : ∀ p, (act p s).pending = s.pending) : (s.takeRequest k n act).pending = s.pending := by
  refine State.takeStation_pending fun f => ?_
  split
  · exact kept _
  · exact s.replyWith_pending _ _ _

theorem execPassDelete_pending {s t : State} (e : execPassDelete s = .next t) : t.pending = s.pending := by
  refine State.perform_pending e (State.takeRequest_pending fun p => ?_)
  dsimp only
  split
  · exact s.replyWith_pending _ _ _
  · split
    · exact s.replyWith_pending _ _ _
    · exact State.rearrange_pending _ _ _

theorem execPassWrite_pending {s t : State} (e : execPassWrite s = .next t) : t.pending = s.pending := by
  refine State.perform_pending e (State.takeRequest_pending fun p => ?_)
  split
  · exact s.replyWith_pending _ _ _
  · exact s.writePass_pending _

theorem execDenyWrite_pending {s t : State} (e : execDenyWrite s = .next t) : t.pending = s.pending := by
  refine State.perform_pending e (State.takeRequest_pending fun p => ?_)
  dsimp only
  split
  · exact s.replyWith_pending _ _ _
  · split
    · exact State.replyWith_pending { s with denies := _ } _ _ _
    · split
      · exact s.replyWith_pending _ _ _
      · exact s.rearrange_pending _ _

theorem execDenyDelete_pending {s t : State} (e : execDenyDelete s = .next t) : t.pending = s.pending := by
  refine State.perform_pending e (State.takeRequest_pending fun p => ?_)
  dsimp only
  split
  · exact s.replyWith_pending _ _ _
  · split
    · exact s.replyWith_pending _ _ _
    · exact State.rearrange_pending _ _ _

theorem execRearrangementEnd_pending {s t : State} (e : execRearrangementEnd s = .next t) : t.pending = s.pending := by
  refine State.perform_pending e ?_
  split
  · exact State.finishWork_pending _ _
  · rfl

theorem execReferralAnswerAdmit_pending {s t : State} (e : execReferralAnswerAdmit s = .next t) :
    t.pending = s.pending := by
  refine State.perform_pending e (State.takeStation_pending fun f => ?_)
  split
  · exact s.replyWith_pending _ _ _
  · split
    · exact s.replyWith_pending _ _ _
    · exact s.admitAnswer_pending _ _

theorem execNotice_pending {s t : State} (e : execNotice s = .next t) : t.pending = s.pending := by
  refine State.perform_pending e (State.takeStation_pending fun f => ?_)
  rw [State.release_pending]
  split
  · rfl
  · split
    · rfl
    · exact (State.Calm.applyNotice s _ _ _ _ (Nat.le_of_lt_succ (fieldAt_lt f.payload 4 2))).pending

theorem execTap_pending {s t : State} (e : execTap s = .next t) : t.pending = s.pending := by
  refine State.perform_pending e ?_
  split
  · rfl
  · refine State.takeDock_pending fun f => ?_
    rw [State.release_pending]
    split
    · exact (State.Calm.decideTap ..).pending
    · rfl

theorem execBikeId_pending {s t : State} (e : execBikeId s = .next t) : t.pending = s.pending := by
  refine State.perform_pending e (State.takeDock_pending fun f => ?_)
  rw [State.release_pending]
  split
  · split
    · exact (State.Calm.takeBikeId ..).pending
    · rfl
  · rfl

theorem execStopAll_pending {s t : State} (e : execStopAll s = .next t) : t.pending = s.pending := by
  have stopped := (State.Calm.stopAllEffects s).pending
  refine State.perform_pending e (State.takeStation_pending fun f => ?_)
  split
  · rw [State.release_pending, stopped]
  · split
    · exact (State.replyWith_pending ..).trans stopped
    · exact s.replyWith_pending _ _ _

theorem execFrameDiscarded_pending {p : PortId} {s t : State} (e : execFrameDiscarded p s = .next t) :
    t.pending = s.pending := by
  refine State.perform_pending e ?_
  cases p with
  | dock => exact State.takeDock_pending fun _ => s.release_pending _
  | station => exact State.takeStation_pending fun _ => s.release_pending _

theorem exec_pending {c : Instr} {s t : State} (e : exec c s = .next t) : t.pending = s.pending := by
  by_cases sort : (c.takesNoFrame || c.answersAtOnce || c.followsLine) = true
  · obtain calm | answered | rfl | ⟨n, p, l, rfl⟩ := exec_ofSort sort e
    · exact calm.pending
    · exact answered.pending
    · rfl
    · exact State.modPort_pending _ p _
  cases c with
  | resetRelease => cases e; rfl
  | resetInputAsserted => cases e; rfl
  | settingsRecordRead record =>
    obtain rfl | ⟨_, rfl | rfl⟩ := execSettingsRecordRead_cases e
    · rfl
    · exact s.endLoad_pending _
    · exact s.judgeRecord_pending record
  | i2cTransactionTimeout cause =>
    obtain rfl | ⟨_, n, status, rfl⟩ := execI2cTransactionTimeout_cases e
    · rfl
    · exact State.endLoad_pending _ status
  | bikeId => exact execBikeId_pending e
  | tap => exact execTap_pending e
  | passWrite => exact execPassWrite_pending e
  | passDelete => exact execPassDelete_pending e
  | denyWrite => exact execDenyWrite_pending e
  | denyDelete => exact execDenyDelete_pending e
  | rearrangementEnd => exact execRearrangementEnd_pending e
  | referralAnswerAdmit => exact execReferralAnswerAdmit_pending e
  | notice => exact execNotice_pending e
  | stopAll => exact execStopAll_pending e
  | frameReceived p header payload check =>
    obtain rfl | ⟨since, rfl⟩ := execFrameReceived_cases e
    · rfl
    · exact s.receive_pending ..
  | frameDeparture p levels =>
    obtain rfl | ⟨since, head, rfl | rfl⟩ := execFrameDeparture_cases e
    · rfl
    · exact (State.modPort_pending _ p _).trans (s.endAttempt_pending ..)
    · rw [State.stationDeparture_pending]
      exact (State.modPort_pending _ p _).trans (s.endAttempt_pending ..)
  | messageFromReader => exact State.perform_pending e (State.takeDock_pending fun _ => rfl)
  | messageToReader => exact State.perform_pending e (State.takeStation_pending fun _ => rfl)
  | frameDiscarded p => exact execFrameDiscarded_pending e
  | _ => exact absurd rfl sort

/-- Every command whose operands have their row's shape answers a next state. -/
theorem exec_answers {c : Instr} (shape : c.wellFormed = true) (s : State) : ∃ t, exec c s = .next t := by
  cases c with
  | settingsRecordRead record => exact ⟨_, if_pos (beq_iff_eq.1 shape)⟩
  | frameReceived p header payload check => exact ⟨_, if_pos (beq_iff_eq.1 shape)⟩
  | _ => exact ⟨_, rfl⟩

/-- Settles O2: only two rows look at the shape of an operand, and no effect touches the waiting commands. -/
theorem commandsComplete : Obligations.CommandsComplete := by
  unfold Obligations.CommandsComplete
  refine ⟨fun c s shape => ?_, fun c misshapen => ?_, fun record s length => if_neg length,
    fun p header payload check s length => if_neg length⟩
  · obtain ⟨t, e⟩ := exec_answers shape s
    exact ⟨t, e, exec_pending e⟩
  · cases c with
    | settingsRecordRead record => exact .inl ⟨record, rfl⟩
    | frameReceived p header payload check => exact .inr ⟨p, header, payload, check, rfl⟩
    | _ => cases misshapen

/-! ### Held in reset -/

theorem State.perform_inReset {s : State} (h : s.phase = .inReset) (effect : State → State) :
    s.perform effect = .next s := by
  unfold State.perform State.unlessReset
  rw [h]

theorem exec_inReset {c : Instr} {s : State} (h : s.phase = .inReset) (shape : c.wellFormed = true)
    (notRelease : ∀ straps stop bike latch, c ≠ .resetRelease straps stop bike latch)
    (notAssertion : c ≠ .resetInputAsserted) : exec c s = .next s := by
  cases c with
  | resetRelease => exact absurd rfl (notRelease _ _ _ _)
  | resetInputAsserted => exact absurd rfl notAssertion
  | settingsRecordRead record =>
    show execSettingsRecordRead record s = _
    rw [execSettingsRecordRead, if_pos (beq_iff_eq.1 shape), h]
  | i2cTransactionTimeout cause =>
    show execI2cTransactionTimeout cause s = _
    simp only [execI2cTransactionTimeout, h]
  | frameReceived p header payload check =>
    exact (if_pos (beq_iff_eq.1 shape)).trans (State.perform_inReset h _)
  | _ => exact State.perform_inReset h _

theorem step_idle {s : State} (idle : s.pending = []) : step s = .next s.tick := by
  unfold step
  split
  · rfl
  · rename_i waiting
    rw [idle] at waiting
    cases waiting

/-- Settles O3: held in reset an effect is not had, and an idle step is a tick, which stands still there. -/
theorem heldInReset : Obligations.HeldInReset := by
  unfold Obligations.HeldInReset
  refine ⟨fun c s held shape notRelease notAssertion => exec_inReset held shape notRelease notAssertion,
    fun s idle => ?_⟩
  rw [step_idle idle]
  unfold State.tick
  split
  · exact ⟨fun _ => rfl, fun runs => absurd (by assumption) runs⟩
  · exact ⟨fun held => absurd held (by assumption), fun _ => rfl⟩

/-! ### The full reset -/

theorem State.afterReset_meets (straps : BitVec 3) (stop : Bool) (docks : Vector Dock 16) (pwmPhase freeCount : Nat)
    (pending : List Instr) (phase : Phase) :
    State.AfterReset { State.afterReset straps stop docks pwmPhase freeCount pending with phase := phase } where
  clock := rfl
  time := ⟨rfl, rfl⟩
  identity := rfl
  keys i h := by simp [State.afterReset]
  referrals := rfl
  tables := ⟨rfl, rfl, rfl⟩
  queue := rfl
  supply := rfl
  sense := rfl
  log := rfl
  events := rfl
  marks := rfl
  station := ⟨rfl, rfl, rfl, rfl, rfl, rfl⟩
  dockPort := rfl
  stop := ⟨rfl, rfl⟩
  loader := rfl

/-- The docks of a full reset that samples the raw levels as they stand (R7). -/
theorem State.fullReset_dock (s : State) (straps : BitVec 3) (d : DockId) :
    ((s.fullReset straps).dock d).AfterReset (s.dock d).bike.raw (s.dock d).latch.raw :=
  s.dock_map (fun k => .atReset k.bike.raw k.latch.raw) d

theorem State.coilHigh_inReset {s : State} (h : s.phase = .inReset) (d : DockId) : s.coilHigh d = false := by
  simp [State.coilHigh, h]

/-- Settles O4: both resets build the state from the reset values of every block. -/
theorem fullReset : Obligations.FullReset := by
  unfold Obligations.FullReset
  refine fun straps stop bike latch s => ⟨⟨_, rfl, ?_⟩, ⟨_, rfl, ?_⟩⟩
  · refine ⟨State.afterReset_meets _ _ _ _ _ _ .starting, rfl, rfl, rfl, fun d => ?_, rfl⟩
    simp only [Dock.AfterReset, State.dock, State.afterReset, Vector.getElem_ofFn]
    rfl
  · exact ⟨State.afterReset_meets _ _ _ _ _ _ .inReset, rfl, rfl, rfl, s.fullReset_dock s.straps,
      State.coilHigh_inReset rfl, rfl⟩

/-- Settles O10. -/
theorem resetMeetsInvariants : Obligations.ResetMeetsInvariants := by
  unfold Obligations.ResetMeetsInvariants
  refine ⟨.emptied, State.LinkOk.congr (fullReset_link State.reset 0) rfl rfl id rfl, ?_⟩
  exact .afterReset _ _ _ _ _ _ (fun d => ⟨false, false, by simp⟩) .starting

end Sys2Proof.Machine
end

section
/-! Bytes and frames (O11): numbers and their bytes invert each other, and a header holds the fields it was built of. -/

set_option Elab.async false

namespace Sys2Proof.Machine

/-! ### Numbers in bytes, most significant byte first (00 section 5) -/

theorem numberOf_cons (b : Byte) (bs : List Byte) : numberOf (b :: bs) = b.toNat * 256 ^ bs.length + numberOf bs := by
  induction bs using List.reverseRecOn with
  | nil => simp [numberOf]
  | append_singleton bs last ih =>
    rw [← List.cons_append, numberOf_append, ih, numberOf_append, List.length_append, List.length_singleton, pow_succ]
    ring

theorem numberOf_bytesOf (k n : Nat) : numberOf (bytesOf k n) = n % 256 ^ k := by
  induction k with
  | zero => simp [bytesOf, numberOf, Nat.mod_one]
  | succ k ih =>
    rw [bytesOf, numberOf_cons, ih, bytesOf_length, BitVec.toNat_ofNat]
    rw [show 256 ^ (k + 1) = 256 ^ k * 256 from pow_succ .., Nat.mod_mul]
    ring

theorem bytesOf_mod (k n : Nat) : bytesOf k (n % 256 ^ k) = bytesOf k n := by
  suffices ∀ j ≤ k, bytesOf j (n % 256 ^ k) = bytesOf j n from this k le_rfl
  intro j
  induction j with
  | zero => exact fun _ => rfl
  | succ j ih =>
    intro below
    have digit : n % 256 ^ k / 256 ^ j % 2 ^ 8 = n / 256 ^ j % 2 ^ 8 := by
      obtain ⟨i, rfl⟩ : ∃ i, k = j + 1 + i := ⟨k - (j + 1), by omega⟩
      rw [pow_add, pow_succ, mul_assoc, Nat.mod_mul_right_div_self]
      exact Nat.mod_mul_right_mod _ 256 _
    rw [bytesOf, bytesOf, ih (by omega)]
    congr 1
    exact BitVec.eq_of_toNat_eq (by simpa only [BitVec.toNat_ofNat] using digit)

theorem bytesOf_numberOf (bs : List Byte) : bytesOf bs.length (numberOf bs) = bs := by
  induction bs with
  | nil => rfl
  | cons b bs ih =>
    have below := numberOf_lt bs
    have first : (b.toNat * 256 ^ bs.length + numberOf bs) / 256 ^ bs.length = b.toNat := by
      rw [Nat.add_comm, Nat.add_mul_div_right _ _ (by positivity), Nat.div_eq_of_lt below, Nat.zero_add]
    have others : (b.toNat * 256 ^ bs.length + numberOf bs) % 256 ^ bs.length = numberOf bs := by
      rw [Nat.add_comm, Nat.add_mul_mod_self_right, Nat.mod_eq_of_lt below]
    rw [List.length_cons, bytesOf, numberOf_cons, first, ← bytesOf_mod, others, ih]
    simp

/-! ### The fields of a header (R170) -/

/-- The bits of a header, from the length in the low bits of byte 3 up to the priority in the high bits of byte 0. -/
theorem Frame.header_getLsbD (f : Frame) (i : Nat) : f.header.getLsbD i =
    if i < 6 then (BitVec.ofNat 6 f.payload.length).getLsbD i
    else if i < 8 then false
    else if i < 14 then f.kind.getLsbD (i - 8)
    else if i < 16 then false
    else if i < 22 then f.source.getLsbD (i - 16)
    else if i < 24 then false
    else if i < 30 then f.dest.getLsbD (i - 24)
    else f.priority.getLsbD (i - 30) := by
  show BitVec.getLsbD (w := 2 + 6 + 2 + 6 + 2 + 6 + 2 + 6)
    (f.priority ++ f.dest ++ 0#2 ++ f.source ++ 0#2 ++ f.kind ++ 0#2 ++ BitVec.ofNat 6 f.payload.length) i = _
  simp only [BitVec.getLsbD_append, BitVec.getLsbD_zero]
  grind

theorem Frame.headerPriority_header (f : Frame) : headerPriority f.header = f.priority := by
  ext i hi
  simp only [headerPriority, BitVec.getElem_extractLsb', f.header_getLsbD]
  grind

theorem Frame.headerDest_header (f : Frame) : headerDest f.header = f.dest := by
  ext i hi
  simp only [headerDest, BitVec.getElem_extractLsb', f.header_getLsbD]
  grind

theorem Frame.headerSource_header (f : Frame) : headerSource f.header = f.source := by
  ext i hi
  simp only [headerSource, BitVec.getElem_extractLsb', f.header_getLsbD]
  grind

theorem Frame.headerKind_header (f : Frame) : headerKind f.header = f.kind := by
  ext i hi
  simp only [headerKind, BitVec.getElem_extractLsb', f.header_getLsbD]
  grind

theorem Frame.headerLength_header (f : Frame) (h : f.payload.length ≤ 32) :
    headerLength f.header = f.payload.length := by
  have low : f.header.extractLsb' 0 6 = BitVec.ofNat 6 f.payload.length := by
    ext i hi
    simp only [BitVec.getElem_extractLsb', f.header_getLsbD]
    grind
  rw [headerLength, low, BitVec.toNat_ofNat]
  omega

theorem Frame.headerReservedClear_header (f : Frame) : headerReservedClear f.header = true := by
  have clear (at_ : Nat) (place : at_ = 6 ∨ at_ = 14 ∨ at_ = 22) : f.header.extractLsb' at_ 2 = 0#2 := by
    ext i hi
    simp only [BitVec.getElem_extractLsb', f.header_getLsbD]
    grind
  simp [headerReservedClear, clear]

theorem Frame.headerHasNoEnd_header (f : Frame) (h : f.payload.length ≤ 32) : headerHasNoEnd f.header = false := by
  rw [headerHasNoEnd, f.headerLength_header h, f.headerReservedClear_header]
  simpa using h

theorem Frame.receivedFrame_header (f : Frame) (h : f.payload.length ≤ 32) :
    receivedFrame f.header f.payload f.check = some f := by
  have sound : (headerHasNoEnd f.header || f.check != frameCheck (bytesOf 4 f.header.toNat ++ f.payload)) = false := by
    rw [f.headerHasNoEnd_header h, Frame.check, Bool.false_or]
    exact bne_self_eq_false _
  rw [receivedFrame, sound, f.headerPriority_header, f.headerDest_header, f.headerSource_header, f.headerKind_header]
  rfl

/-- Settles O11. -/
theorem frameRoundTrip : Obligations.FrameRoundTrip := by
  unfold Obligations.FrameRoundTrip
  refine ⟨fun f h => ⟨f.receivedFrame_header h, f.headerLength_header h, f.headerHasNoEnd_header h⟩,
    fun k n below => ?_, bytesOf_numberOf⟩
  rw [numberOf_bytesOf, Nat.mod_eq_of_lt below]

end Sys2Proof.Machine
end

section
/-! Frames that wait and requests refused: what every taker of station frames leaves waiting, and the statuses that
answer a request without another effect (R20, R35, R180, R185, R193, R195). -/

set_option Elab.async false

namespace Sys2Proof.Machine

/-! ### Frames that wait -/

section
variable {s : State}

/-- While the pass store is busy, outside RUNNING and after a RESTART no station frame is taken (R35, R193, R195). -/
theorem State.takeStation_waiting (waits : s.rearrangement.isSome ∨ s.phase ≠ .running ∨ s.marks.restart = true)
    (accepts : Frame → Bool) (act : Frame → State → State) : s.takeStation accepts act = s := by
  obtain unchanged | ⟨_, running, restart, notBusy, _⟩ := s.takeStation_cases accepts act
  · exact unchanged
  · simp [running, restart, notBusy] at waits

/-- Outside RUNNING and after a RESTART no dock frame is taken (R193, R195). -/
theorem State.takeDock_waiting (waits : s.phase ≠ .running ∨ s.marks.restart = true)
    (accepts : Frame → Bool) (act : Frame → State → State) : s.takeDock accepts act = s := by
  obtain unchanged | ⟨_, running, restart, _⟩ := s.takeDock_cases accepts act
  · exact unchanged
  · simp [running, restart] at waits

/-- A command that takes a station frame answers the state unchanged while its frame waits. -/
theorem exec_station_waiting {c : Instr} {accepts : Frame → Bool} {act : Frame → State → State}
    (arm : exec c s = s.perform fun t => t.takeStation accepts act)
    (waits : s.rearrangement.isSome ∨ s.phase ≠ .running ∨ s.marks.restart = true) : exec c s = .next s :=
  arm.trans (State.perform_unchanged (State.takeStation_waiting waits accepts act))

theorem exec_dock_waiting {c : Instr} {accepts : Frame → Bool} {act : Frame → State → State}
    (arm : exec c s = s.perform fun t => t.takeDock accepts act)
    (waits : s.phase ≠ .running ∨ s.marks.restart = true) : exec c s = .next s :=
  arm.trans (State.perform_unchanged (State.takeDock_waiting waits accepts act))

theorem exec_tap (s : State) : exec .tap s = execTap s := rfl

/-- A TAP waits in the dock buffer, but for a busy pass store too (R35). -/
theorem exec_tap_waiting (waits : s.rearrangement.isSome ∨ s.phase ≠ .running ∨ s.marks.restart = true) :
    exec .tap s = .next s := by
  rw [exec_tap, execTap]
  refine State.perform_unchanged ?_
  by_cases busy : s.busy = true
  · exact if_pos busy
  · rw [if_neg busy]
    exact State.takeDock_waiting (waits.resolve_left busy) _ _

end

/-- Settles O22: the takers leave the buffers alone; the TAP, the last of the first list, waits for the pass store though
it stands in the dock buffer. -/
theorem framesLeftWaiting : Obligations.FramesLeftWaiting := by
  unfold Obligations.FramesLeftWaiting
  refine fun s => ⟨fun c mem waits => ?_, fun c mem waits => ?_⟩
  · fin_cases mem
    on_goal 32 => exact exec_tap_waiting waits
    all_goals exact exec_station_waiting rfl waits
  · fin_cases mem
    all_goals exact exec_dock_waiting rfl waits

/-! ### Requests that are answered with a status alone -/

section
variable {s : State} {f : Frame}

/-- A request of another length than its kind's is answered BAD_LENGTH (R185). -/
theorem State.Request.badLength {c : Instr} {k : Kind} {n : Nat} {act : List Byte → State → State} {priority : BitVec 2}
    (request : s.Request k f) (wrong : f.payload.length ≠ n)
    (arm : exec c s = s.perform fun t => t.takeRequest k n act)
    (ofKind : replyPriority k.code = priority) : exec c s = .next (s.replied f priority 11) := by
  rw [arm, State.perform_running request.running, request.takeRequest act, if_neg wrong]
  exact congrArg _ (State.reply_of_kind request.head request.kind .badLength ofKind)

/-- STOP_ALL, which a broadcast may carry too, is an addressed request here. -/
theorem State.Request.stopAll_badLength (request : s.Request .stopAll f) (wrong : f.payload.length ≠ 0) :
    exec .stopAll s = .next (s.replied f 2 11) := by
  show execStopAll s = _
  have addressed : f.isBroadcast = false := by simpa [Frame.isBroadcast] using request.addressed
  rw [execStopAll, State.perform_running request.running,
    request.takeStation (by simp [request.accepted]), if_neg (by simp [addressed]), if_neg wrong]
  exact congrArg _ (State.reply_of_kind request.head request.kind .badLength)

/-- What a dock command does: BAD_LENGTH with another length, BAD_VALUE for a dock above 15, and its act for a dock of
the row (R20, R185). -/
theorem State.Request.command {c : Instr} {k : DockCommand} {act : DockId → List Byte → State → State}
    (request : s.Request .dockCommand f) (named : dockCommandOf (fieldAt f.payload 0 1) = some k)
    (arm : exec c s = s.perform fun t => t.takeCommand k act) :
    (f.payload.length ≠ k.length → exec c s = .next (s.replied f 2 11)) ∧
    (f.payload.length = k.length → 16 ≤ fieldAt f.payload 1 1 → exec c s = .next (s.replied f 2 3)) ∧
    (f.payload.length = k.length → ∀ d : DockId, fieldAt f.payload 1 1 = d.val →
      exec c s = .next (act d f.payload s)) := by
  rw [arm, State.perform_running request.running, request.takeCommand named]
  refine ⟨fun wrong => ?_, fun right above => ?_, fun right d ofRow => ?_⟩
  · rw [if_pos wrong]
    exact congrArg _ (State.reply_of_kind request.head request.kind .badLength)
  · rw [if_neg (not_not.2 right), dockOf_none above]
    exact congrArg _ (State.reply_of_kind request.head request.kind .badValue)
  · rw [if_neg (not_not.2 right), ofRow, dockOf_val]

/-- A dock command that its row takes with a status of its own, whatever the dock holds. -/
theorem State.Request.command_badLength {c : Instr} {k : DockCommand} {act : DockId → List Byte → State → State}
    (request : s.Request .dockCommand f) (named : dockCommandOf (fieldAt f.payload 0 1) = some k)
    (wrong : f.payload.length ≠ k.length) (arm : exec c s = s.perform fun t => t.takeCommand k act) :
    exec c s = .next (s.replied f 2 11) := (request.command named arm).1 wrong

theorem State.Request.command_aboveRow {c : Instr} {k : DockCommand} {act : DockId → List Byte → State → State}
    (request : s.Request .dockCommand f) (named : dockCommandOf (fieldAt f.payload 0 1) = some k)
    (right : f.payload.length = k.length) (above : 16 ≤ fieldAt f.payload 1 1)
    (arm : exec c s = s.perform fun t => t.takeCommand k act) :
    exec c s = .next (s.replied f 2 3) := (request.command named arm).2.1 right above

/-- A dock command for a dock of the row is handed on. -/
theorem State.Request.command_act {c : Instr} {k : DockCommand} {act : DockId → List Byte → State → State} {d : DockId}
    (request : s.Request .dockCommand f) (named : dockCommandOf (fieldAt f.payload 0 1) = some k)
    (right : f.payload.length = k.length) (ofRow : fieldAt f.payload 1 1 = d.val)
    (arm : exec c s = s.perform fun t => t.takeCommand k act) :
    exec c s = .next (act d f.payload s) := (request.command named arm).2.2 right d ofRow

/-- A referral answer of a named code: another length than the code's is BAD_LENGTH, and the rest is the match's. -/
theorem State.Request.takeAnswer (request : s.Request .referralAnswer f) {a : AnswerCode}
    (coded : answerCodeOf f.payload = some a) (n : Nat) (act : Referral → List Byte → State → State) :
    s.takeAnswer a n act = if f.payload.length ≠ n then s.reply .badLength
      else match s.matchedReferral f.payload with
        | none => s.reply .noReferral
        | some r => act r f.payload s := by
  unfold State.takeAnswer
  exact request.takeStation (by simp [request.accepted, coded]) _

theorem State.Request.answer_badLength {c : Instr} {a : AnswerCode} {n : Nat} {act : Referral → List Byte → State → State}
    (request : s.Request .referralAnswer f) (coded : answerCodeOf f.payload = some a) (wrong : f.payload.length ≠ n)
    (arm : exec c s = s.perform fun t => t.takeAnswer a n act) : exec c s = .next (s.replied f 2 11) := by
  rw [arm, State.perform_running request.running, request.takeAnswer coded, if_pos wrong]
  exact congrArg _ (State.reply_of_kind request.head request.kind .badLength)

end

theorem answerCodeOf_admitted {p : List Byte} (long : 8 ≤ p.length) (code : fieldAt p 7 1 = 1) :
    answerCodeOf p = some .admitted := by
  simp [answerCodeOf, code, Nat.not_lt.2 long]

theorem answerCodeOf_refuse {p : List Byte} (long : 8 ≤ p.length) (code : fieldAt p 7 1 = 2) :
    answerCodeOf p = some .refuse := by
  simp [answerCodeOf, code, Nat.not_lt.2 long]

/-- An answer names no code if it is too short for one, or carries another than ADMIT's and REFUSE's. -/
theorem answerCodeOf_eq_none {p : List Byte} :
    answerCodeOf p = none ↔ (8 ≤ p.length → fieldAt p 7 1 ≠ 1 ∧ fieldAt p 7 1 ≠ 2) := by
  unfold answerCodeOf
  split
  · simp; omega
  · split <;> simp_all

theorem dockCommandOf_eq_none {n : Nat} (unknown : n ∉ [1, 2, 3, 4, 5]) : dockCommandOf n = none := by
  unfold dockCommandOf
  split <;> simp_all

/-- A kind code that is neither MESSAGE's nor among the requests' 0x10 to 0x23 names no taker. -/
theorem badKind_of_code (kind : KindCode) (notMessage : kind ≠ 0x05)
    (notRequest : ¬(0x10 ≤ kind.toNat ∧ kind.toNat ≤ 0x23)) :
    badKind kind = true ∧ replyPriority kind = 2 := by
  revert kind
  decide

section
variable {s : State} {f : Frame}

theorem exec_badKind_eq (running : s.phase = .running) (restart : s.marks.restart = false)
    (notBusy : s.rearrangement = none) (head : s.station.rx.head? = some f) (addressed : f.dest ≠ 0)
    (notMessage : f.kind ≠ 0x05) (notRequest : ¬(0x10 ≤ f.kind.toNat ∧ f.kind.toNat ≤ 0x23)) :
    exec .badKind s = .next (s.replied f 2 10) := by
  obtain ⟨bad, priority⟩ := badKind_of_code f.kind notMessage notRequest
  show execBadKind s = _
  rw [execBadKind, State.perform_running running,
    State.takeStation_eq _ running restart notBusy head (by simpa [Frame.isBroadcast, bad] using addressed),
    State.reply_eq head, priority]
  rfl

/-- UNKNOWN_DOCK_COMMAND's answer to a command that names nothing, or that names a dock above 15. -/
theorem exec_unknownDockCommand_eq (request : s.Request .dockCommand f) (unknown : unknownCommand f.payload = true) :
    exec .unknownDockCommand s = .next (s.replied f 2 (if f.payload.length = 0 then 11 else 3)) := by
  show execUnknownDockCommand s = _
  rw [execUnknownDockCommand, State.perform_running request.running,
    request.takeStation (by simp [request.accepted, unknown])]
  refine congrArg _ ?_
  split
  · exact State.reply_of_kind request.head request.kind .badLength
  · exact State.reply_of_kind request.head request.kind .badValue

theorem unknownCommand_of_code {p : List Byte} (unknown : fieldAt p 0 1 ∉ [1, 2, 3, 4, 5]) :
    unknownCommand p = true := by
  rw [unknownCommand, dockCommandOf_eq_none unknown]

theorem unknownCommand_of_dock {p : List Byte} {c : DockCommand} (named : dockCommandOf (fieldAt p 0 1) = some c)
    (right : p.length = c.length) (above : 16 ≤ fieldAt p 1 1) : unknownCommand p = true := by
  simp [unknownCommand, named, right, dockOf_none above]

theorem exec_referralAnswerBadCode_eq (request : s.Request .referralAnswer f) (uncoded : answerCodeOf f.payload = none) :
    exec .referralAnswerBadCode s = .next (s.replied f 2 (if f.payload.length < 8 then 11 else 3)) := by
  show execReferralAnswerBadCode s = _
  rw [execReferralAnswerBadCode, State.perform_running request.running,
    request.takeStation (by simp [request.accepted, uncoded])]
  refine congrArg _ ?_
  split
  · exact State.reply_of_kind request.head request.kind .badLength
  · exact State.reply_of_kind request.head request.kind .badValue

end

/-- Settles O21: each row refuses by its length, its code or its dock before it acts. -/
theorem requestsRefused : Obligations.RequestsRefused := by
  unfold Obligations.RequestsRefused
  refine fun f s => ⟨fun x mem request wrong => ?_, fun x mem request code wrong => ?_,
    fun x mem request code right above => ?_, fun request long => ⟨fun code wrong => ?_, fun code wrong => ?_⟩,
    exec_badKind_eq, fun request => ⟨fun empty => ?_, fun nonempty unknown => ?_, fun x mem code right above => ?_⟩,
    fun request => ⟨fun short => ?_, fun long notAdmit notRefuse => ?_⟩⟩
  · fin_cases mem
    on_goal 17 => exact request.stopAll_badLength wrong
    all_goals exact request.badLength wrong rfl rfl
  · fin_cases mem
    all_goals exact request.command_badLength ((congrArg dockCommandOf code).trans rfl) wrong rfl
  · fin_cases mem
    all_goals exact request.command_aboveRow ((congrArg dockCommandOf code).trans rfl) right above rfl
  · exact request.answer_badLength (answerCodeOf_admitted long code) wrong rfl
  · exact request.answer_badLength (answerCodeOf_refuse long code) wrong rfl
  · rw [exec_unknownDockCommand_eq request (unknownCommand_of_code (by rw [empty]; decide)), if_pos (by rw [empty]; rfl)]
  · rw [exec_unknownDockCommand_eq request (unknownCommand_of_code unknown), if_neg (by simpa using nonempty)]
  · have known : unknownCommand f.payload = true ∧ f.payload.length ≠ 0 := by
      fin_cases mem
      all_goals exact ⟨unknownCommand_of_dock ((congrArg dockCommandOf code).trans rfl) right above, by rw [right]; decide⟩
    rw [exec_unknownDockCommand_eq request known.1, if_neg known.2]
  · rw [exec_referralAnswerBadCode_eq request (answerCodeOf_eq_none.2 (by omega)), if_pos short]
  · rw [exec_referralAnswerBadCode_eq request (answerCodeOf_eq_none.2 fun _ => ⟨notAdmit, notRefuse⟩),
      if_neg (by omega)]

end Sys2Proof.Machine
end

section
/-! Grants: what one grant changes, and the whole of a grant evaluation (R102, R103, R117). -/

set_option Elab.async false

namespace Sys2Proof.Machine

section
variable {s : State} {o : Order} {rest : List Order}

theorem State.dock_grant_self : (s.grant o rest).dock o.dock =
    ({ s.dock o.dock with state := .pulling } : Dock).computePullIn s.latestSupply o :=
  State.dock_modDock_self ..

theorem State.dock_grant_ne {d : DockId} (other : d ≠ o.dock) : (s.grant o rest).dock d = s.dock d :=
  State.dock_modDock_ne _ _ _ _ other

/-- A grant makes one more dock PULLING. -/
theorem State.OrdersOk.pullingCount_grant (h : s.OrdersOk) (queue : s.queue = o :: rest) :
    (s.grant o rest).pullingCount = s.pullingCount + 1 := by
  have isQueued : (s.dock o.dock).state = .queued := (h.queued o (by simp [queue])).2
  have counts := State.countP_one (s := s) (t := s.grant o rest) o.dock (fun k => k.state == .pulling)
    fun x other => State.dock_grant_ne other
  rw [show ((s.dock o.dock).state == .pulling) = false by rw [isQueued]; rfl,
    show (((s.grant o rest).dock o.dock).state == .pulling) = true by rw [State.dock_grant_self]; rfl] at counts
  exact counts

/-- The oldest order is granted while STOP is released and a slot is free; then the grants still due are one fewer. -/
theorem State.OrdersOk.grantable_grant (h : s.OrdersOk) (queue : s.queue = o :: rest)
    (released : s.stopAsserted = false) (free : s.pullingCount < s.supply.effective) :
    s.grantable = (s.grant o rest).grantable + 1 := by
  have count := h.pullingCount_grant queue
  have stop : (s.grant o rest).stopAsserted = false := released
  have left : (s.grant o rest).queue.length = rest.length := rfl
  have slots : (s.grant o rest).supply.effective = s.supply.effective := rfl
  unfold State.grantable
  rw [if_neg (by simp [released]), if_neg (by simp [stop]), queue, count, left, slots, List.length_cons]
  omega

/-- Nothing is granted while STOP is asserted or no slot is free. -/
theorem State.grantable_eq_zero (held : ¬(s.stopAsserted = false ∧ s.pullingCount < s.supply.effective)) :
    s.grantable = 0 := by
  unfold State.grantable
  split
  · rfl
  · have : ¬s.pullingCount < s.supply.effective := fun free => held ⟨by simpa using ‹¬s.stopAsserted = true›, free⟩
    omega

theorem State.GrantsMade.none (none : s.grantable = 0) : s.GrantsMade s where
  granted o mem := by simp [none] at mem
  others _ _ := rfl
  elsewhere := by simp [none]

/-- A grant to the oldest order and then those to the rest are the grants of the whole queue. -/
theorem State.GrantsMade.cons {t : State} (h : s.OrdersOk) (queue : s.queue = o :: rest)
    (due : s.grantable = (s.grant o rest).grantable + 1) (after : (s.grant o rest).GrantsMade t) : s.GrantsMade t := by
  obtain ⟨distinct, _⟩ : (∀ x ∈ rest, x.dock ≠ o.dock) ∧ _ := by
    have := h.queueDocks
    rw [queue, List.map_cons, List.nodup_cons] at this
    exact ⟨fun x mem same => this.1 (same ▸ List.mem_map_of_mem mem), this.2⟩
  have taken : s.queue.take s.grantable = o :: rest.take (s.grant o rest).grantable := by
    rw [queue, due, List.take_succ_cons]
  have left : s.queue.drop s.grantable = rest.drop (s.grant o rest).grantable := by
    rw [queue, due, List.drop_succ_cons]
  have queueAfter : (s.grant o rest).queue = rest := rfl
  have supply : (s.grant o rest).latestSupply = s.latestSupply := rfl
  refine ⟨fun x mem => ?_, fun d outside => ?_, ?_⟩
  · rw [taken, List.mem_cons] at mem
    obtain rfl | later := mem
    · rw [after.others x.dock fun y mem => distinct y (List.mem_of_mem_take (queueAfter ▸ mem)),
        State.dock_grant_self]
      rfl
    · rw [after.granted x (by rw [queueAfter]; exact later),
        State.dock_grant_ne (distinct x (List.mem_of_mem_take later)), supply]
  · rw [taken] at outside
    rw [after.others d fun y mem => outside y (List.mem_cons_of_mem _ (by rwa [queueAfter] at mem)),
      State.dock_grant_ne (Ne.symm (outside o List.mem_cons_self))]
  · rw [left]
    exact after.elsewhere

end

/-- The grants to a queue, oldest first, until STOP or the slots end them. -/
theorem State.OrdersOk.grantLoop_made {queue : List Order} {s : State} (h : s.OrdersOk) (isQueue : s.queue = queue) :
    s.GrantsMade (State.grantLoop queue s) := by
  induction queue generalizing s with
  | nil => exact .none (by simp [State.grantable, isQueue])
  | cons o rest ih =>
    unfold State.grantLoop
    split
    · rename_i granted
      obtain ⟨released, free⟩ : s.stopAsserted = false ∧ s.pullingCount < s.supply.effective := by simpa using granted
      have below : s.pullingCount < 4 := by have := h.slots; omega
      exact .cons h isQueue (h.grantable_grant isQueue released free) (ih (h.grant isQueue below) rfl)
    · rename_i held
      exact .none (State.grantable_eq_zero (by simpa using held))

theorem State.OrdersOk.grantsMade {s : State} (h : s.OrdersOk) : s.GrantsMade s.evaluateGrants := h.grantLoop_made rfl

/-- Settles O20, by induction over the queue. -/
theorem grantEvaluation : Obligations.GrantEvaluation := by
  unfold Obligations.GrantEvaluation
  exact fun s orders => orders.grantsMade

/-- A dock with no order in the queue is left alone by grants. -/
theorem State.GrantsMade.dock_unqueued {s t : State} (h : s.GrantsMade t) {d : DockId}
    (unqueued : ∀ o ∈ s.queue, o.dock ≠ d) : t.dock d = s.dock d :=
  h.others d fun o mem => unqueued o (List.mem_of_mem_take mem)

end Sys2Proof.Machine
end

section
/-! The end of an order as a whole: an ending keeps docks and orders in agreement, so that grants may follow it, and
leaves its dock as it is named (R102, R108 to R110, R119). -/

set_option Elab.async false

namespace Sys2Proof.Machine

/-! ### What the ATTENTION rule and a latching leave alone -/

/-- The table of R163 leaves one state. -/
theorem State.Attended.eq {s t : State} (h : s.Attended t) : t = s.attend := by
  obtain ⟨noneUnmasked, notArmed, armed⟩ := h
  obtain ⟨noneUnmasked', notArmed', armed'⟩ := s.attend_attended
  by_cases unmasked : s.events.pending &&& ~~~s.events.mask = 0
  · rw [noneUnmasked unmasked, noneUnmasked' unmasked]
  by_cases attention : s.events.attention = .armed
  · rcases Nat.lt_or_ge (s.station.tx.length + s.station.reserved) 8 with slot | full
    · rw [(armed unmasked attention).1 slot, (armed' unmasked attention).1 slot]
    · rw [(armed unmasked attention).2 full, (armed' unmasked attention).2 full]
  · rw [notArmed unmasked attention, notArmed' unmasked attention]

/-- So does a set of kinds that latches. -/
theorem State.Latched.eq {s t : State} {kinds : EventSet} (h : s.Latched t kinds) : t = s.latchSet kinds := by
  by_cases running : s.phase = .running
  · rw [(h.1 running).eq, ((s.latchSet_latched kinds).1 running).eq]
  · rw [h.2 running, (s.latchSet_latched kinds).2 running]

theorem State.Latched.quiet {s t : State} {kinds : EventSet} (h : s.Latched t kinds) : s.Quiet t :=
  h.eq ▸ .latchSet s kinds

theorem State.Quiet.of_latchedIf {s t : State} {kinds : EventSet} {p : Prop} (latched : p → s.Latched t kinds)
    (same : ¬p → t = s) : s.Quiet t := by
  by_cases told : p
  · exact (latched told).quiet
  · exact same told ▸ .refl s

/-! ### Orders and their docks -/

/-- The order of a dock: in the queue for it, or held with its record (R92). -/
def State.OrderOf (s : State) (d : DockId) (o : Order) : Prop :=
  s.queue.find? (fun x => x.dock == d) = some o ∨ (s.dock d).order = some o

section
variable {s : State} {d : DockId} {o : Order} (h : s.OrdersOk)
include h

theorem State.OrdersOk.queuedState (queued : s.queue.find? (fun x => x.dock == d) = some o) :
    (s.dock d).state = .queued := by
  have ofDock : o.dock = d := by simpa using List.find?_some queued
  exact ofDock ▸ (h.queued o (List.mem_of_find?_eq_some queued)).2

theorem State.OrdersOk.bound (own : s.OrderOf d o) : o.Bound d (s.dock d) := by
  obtain queued | held := own
  · have ofDock : o.dock = d := by simpa using List.find?_some queued
    exact ofDock ▸ (h.queued o (List.mem_of_find?_eq_some queued)).1
  · exact h.held d o held

/-- A QUEUED dock holds no order with its record, and its coil is off. -/
theorem State.OrdersOk.queued_rest (isQueued : (s.dock d).state = .queued) :
    (s.dock d).order = none ∧ (s.dock d).Off := by
  refine ⟨?_, (h.docks d).off (by rw [isQueued]; rfl)⟩
  have := (h.docks d).order
  rw [isQueued] at this
  simpa [DockState.withDrive] using this

end

/-! ### The dock that an ending leaves -/

/-- The state of an ending once its coil is off (R119). -/
def State.coilEnded (s : State) (d : DockId) : State :=
  if (s.dock d).state = .queued then s
  else State.setActivity (s.withDock d fun k => { k with chan := ⟨0, 0, none, .stopped⟩ }) d .inactive

theorem State.coilEnded_of_drive {s : State} {d : DockId} (drive : (s.dock d).state ≠ .queued) :
    s.coilEnded d = (s.modDock d Dock.leaveDrive).setActivity d .inactive := if_neg drive

theorem State.coilEnded_of_queued {s : State} {d : DockId} (queued : (s.dock d).state = .queued) : s.coilEnded d = s :=
  if_pos queued

theorem State.Steady.coilEnded (s : State) (d : DockId) : s.Steady (s.coilEnded d) := by
  by_cases queued : (s.dock d).state = .queued
  · rw [State.coilEnded_of_queued queued]
    exact .refl s
  · rw [State.coilEnded_of_drive queued]
    exact .leave s d

theorem State.OrdersOk.coilEnded_off {s : State} (h : s.OrdersOk) (d : DockId) : ((s.coilEnded d).dock d).Off := by
  by_cases queued : (s.dock d).state = .queued
  · rw [State.coilEnded_of_queued queued]
    exact (h.queued_rest queued).2
  · rw [State.coilEnded_of_drive queued]
    exact s.leave_off d

/-- Ending the coil changes one dock, and of it the channels alone. -/
theorem State.coilEnded_dock (s : State) (d x : DockId) : ∃ chan sense,
    (s.coilEnded d).dock x = { s.dock x with chan := chan, sense := sense } := by
  by_cases queued : (s.dock d).state = .queued
  · rw [State.coilEnded_of_queued queued]
    exact ⟨_, _, rfl⟩
  · rw [State.coilEnded_of_drive queued, setActivity_dock]
    split
    · rename_i same
      rw [same, State.dock_modDock_self]
      exact ⟨_, _, rfl⟩
    · rename_i other
      rw [State.dock_modDock_ne _ _ _ _ other]
      exact ⟨_, _, rfl⟩

theorem State.coilEnded_outside (s : State) (d : DockId) : ∃ docks sense,
    s.coilEnded d = { s with docks := docks, sense := sense } := by
  by_cases queued : (s.dock d).state = .queued
  · rw [State.coilEnded_of_queued queued]
    exact ⟨_, _, rfl⟩
  · obtain ⟨docks, sense, outside⟩ := (s.modDock d Dock.leaveDrive).setActivity_outside d .inactive
    rw [State.coilEnded_of_drive queued, outside]
    exact ⟨_, _, rfl⟩

theorem Rests.settledAs (k : Dock) (named : Option FaultKind) : Rests k (k.settledAs named) := by
  cases named with
  | none =>
    show Rests k k.fromSensors
    rw [← k.takeFromSensors_eq]
    exact .takeFromSensors k
  | some f => exact .takeService k f

@[simp] theorem State.dock_withDock_self (s : State) (d : DockId) (f : Dock → Dock) :
    (s.withDock d f).dock d = f (s.dock d) := s.dock_modDock_self d f

theorem State.dock_withDock_ne (s : State) {d x : DockId} (f : Dock → Dock) (other : x ≠ d) :
    (s.withDock d f).dock x = s.dock x := s.dock_modDock_ne d x f other

/-- A dock that an order has left, no longer bound and as its ending names it (R110). -/
def Dock.releasedAs (named : Option FaultKind) (k : Dock) : Dock :=
  { k with boundPass := none, boundSerial := none, origin := none, order := none }.settledAs named

theorem Dock.settledAs_none (k : Dock) : (k.settledAs none).AtSensors := k.fromSensors_atSensors

theorem Dock.settledAs_bike (k : Dock) (named : Option FaultKind) : (k.settledAs named).bike = k.bike := by
  cases named with
  | none =>
    unfold Dock.settledAs Dock.fromSensors
    dsimp only
    split <;> rfl
  | some f => rfl

/-- A settled entry has its id, and one dock in flight fewer if the order's pass is its own (R38, R40). -/
theorem Order.settledEntry_counts (o : Order) (refunded : Bool) (e : PassEntry) :
    (o.settledEntry refunded e).id = e.id ∧
      (o.settledEntry refunded e).inFlight = e.inFlight - if o.passToSettle = some e.id then 1 else 0 := by
  have settles : o.passToSettle = some e.id ↔ o.origin ≠ .staff ∧ some e.id = o.passId := Order.passToSettle_eq_some
  unfold Order.settledEntry
  by_cases own : o.origin ≠ .staff ∧ some e.id = o.passId
  · simp [if_pos own, settles.2 own]
  · simp [if_neg own, mt settles.1 own]

section
variable {s t : State} {d : DockId} {o : Order} {closed : Bool} {kind : OutcomeKind} {reason : Option Reason}
  {event : Option Nat} {named : Option FaultKind}

/-- An ending in the parts that later proofs read: the event told, the entries settled, the record in the log, the dock
released. -/
theorem State.EndedAt.parts (h : s.EndedAt t d o closed kind reason event named) :
    ∃ (told written logged : State) (refunded : Bool) (station : Port) (record : OutcomeRecord) (dockPort : Port),
      (s.coilEnded d).Quiet told ∧
      written = { told with
        passes := s.passes.map (o.settledEntry refunded), station := station, log := s.log ++ [record] } ∧
      written.Quiet logged ∧
      t = { logged.withDock d (Dock.releasedAs named) with
        dockPort := dockPort, queue := s.queue.filter fun x => x.dock ≠ d } := by
  obtain ⟨refunded, told, logged, -, silent, latched, high, notHigh, ended⟩ := h
  have toldQuiet : (s.coilEnded d).Quiet told := by
    cases event with
    | none => exact silent rfl ▸ .refl _
    | some n => exact (latched n rfl).quiet
  exact ⟨told, _, logged, refunded, _, _, _, toldQuiet, rfl, .of_latchedIf high notHigh, ended⟩

/-- The dock of an ending takes what it names; its bike-present level stays. -/
theorem State.EndedAt.dock_self (h : s.EndedAt t d o closed kind reason event named) :
    ∃ k : Dock, k.bike = (s.dock d).bike ∧ t.dock d = k.settledAs named := by
  obtain ⟨told, written, logged, refunded, station, record, dockPort, quiet, rfl, quietLog, rfl⟩ := h.parts
  obtain ⟨chan, sense, coil⟩ := s.coilEnded_dock d d
  refine ⟨_, ?_, logged.dock_withDock_self d (Dock.releasedAs named)⟩
  show (logged.dock d).bike = _
  rw [quietLog.dock]
  show (told.dock d).bike = _
  rw [quiet.dock, coil]

theorem State.EndedAt.queue (h : s.EndedAt t d o closed kind reason event named) :
    t.queue = s.queue.filter fun x => x.dock ≠ d := by
  obtain ⟨_, _, _, _, _, _, _, _, _, _, rfl⟩ := h.parts
  rfl

theorem State.EndedAt.unqueued (h : s.EndedAt t d o closed kind reason event named) : ∀ x ∈ t.queue, x.dock ≠ d := by
  rw [h.queue]
  exact fun x mem => by simpa using (List.mem_filter.1 mem).2

/-- An ending keeps docks, orders, referrals, pass entries and the log in agreement. -/
theorem State.EndedAt.ordersOk (h : s.EndedAt t d o closed kind reason event named) (orders : s.OrdersOk)
    (own : s.OrderOf d o) : t.OrdersOk := by
  obtain ⟨told, written, logged, refunded, station, record, dockPort, quiet, rfl, quietLog, rfl⟩ := h.parts
  obtain ⟨docks, sense, outside⟩ := s.coilEnded_outside d
  obtain ⟨chan, channel, coil⟩ := s.coilEnded_dock d d
  have toldOk : told.OrdersOk := (orders.steady (.coilEnded s d)).steady quiet.steady
  have toldDock : told.dock d = { s.dock d with chan := chan, sense := channel } := by rw [quiet.dock, coil]
  have bound : o.Bound d (told.dock d) := by
    rw [toldDock]
    obtain ⟨dock, origin, passId, serial, staff⟩ := orders.bound own
    exact ⟨dock, origin, passId, serial, staff⟩
  have off : (told.dock d).Off := quiet.dock d ▸ orders.coilEnded_off d
  have loggedDock (x) : logged.dock x = told.dock x := quietLog.dock x
  have kept : told.passes = s.passes ∧ told.log = s.log ∧ told.queue = s.queue := by
    rw [quiet.passes, quiet.log, quiet.queue, outside]
    exact ⟨rfl, rfl, rfl⟩
  refine toldOk.released d o bound off ?_ (fun x other => ?_) ?_
    ⟨o.settledEntry refunded, ?_, o.settledEntry_counts refunded⟩ ?_ ?_ ?_ ?_ ?_
  · show Rests _ ((logged.withDock d (Dock.releasedAs named)).dock d)
    rw [State.dock_withDock_self, loggedDock]
    exact .settledAs _ named
  · exact (logged.dock_withDock_ne _ other).trans (loggedDock x)
  · rw [kept.2.2]
    exact List.filter_congr fun x _ => by simp [bne, Bool.beq_eq_decide_eq]
  · rw [kept.1]
    exact quietLog.passes
  · rw [kept.2.1]
    exact (congrArg List.length quietLog.log).trans (by simp)
  · exact quietLog.referrals
  · exact quietLog.rearrangement
  · exact quietLog.supply
  · exact quietLog.phase

end

/-! ### Endings with the grants that follow -/

section
variable {s t : State} {d : DockId} {o : Order} {closed : Bool} {kind : OutcomeKind} {reason : Option Reason}
  {event : Option Nat} {named : Option FaultKind}

theorem State.Ended.dock_self (h : s.Ended t d o closed kind reason event named) :
    ∃ k : Dock, k.bike = (s.dock d).bike ∧ t.dock d = k.settledAs named := by
  obtain ⟨u, ended, grants, noGrants⟩ := h
  obtain ⟨k, bike, settled⟩ := ended.dock_self
  refine ⟨k, bike, ?_⟩
  by_cases pulling : (s.dock d).state = .pulling
  · rw [(grants pulling).dock_unqueued ended.unqueued, settled]
  · rw [noGrants pulling, settled]

/-- A dock whose ending names a resting state stands at its sensors. -/
theorem State.Ended.atSensors (h : s.Ended t d o closed kind reason event none) : (t.dock d).AtSensors := by
  obtain ⟨k, -, settled⟩ := h.dock_self
  rw [settled]
  exact k.settledAs_none

/-- A dock without a bike then is VACANT. -/
theorem State.Ended.vacant (h : s.Ended t d o closed kind reason event none)
    (absent : (s.dock d).bike.level = false) : (t.dock d).state = .vacant := by
  obtain ⟨k, bike, settled⟩ := h.dock_self
  have level : (t.dock d).bike.level = false := by rw [settled, Dock.settledAs_bike, bike, absent]
  rw [h.atSensors.2.2.1, if_pos level]

/-- A dock whose ending names a fault kind is in SERVICE with it. -/
theorem State.Ended.service {f : FaultKind} (h : s.Ended t d o closed kind reason event (some f)) :
    (t.dock d).state = .service ∧ (t.dock d).fault = some f ∧ (t.dock d).reservation = none := by
  obtain ⟨k, -, settled⟩ := h.dock_self
  rw [settled]
  exact ⟨rfl, rfl, rfl⟩

end

section
variable {s : State} {d : DockId} {o : Order} (h : s.OrdersOk)
include h

/-- The order-end rule at a QUEUED dock, its event latched first. -/
theorem State.OrdersOk.endOrder_ended (queued : s.queue.find? (fun x => x.dock == d) = some o)
    (event : Option EventKind) (e : Ending) (reasoned : e.kind = .unlockFailed → e.reason.isSome) :
    s.Ended ((s.latchOption event).endOrder d e) d o false (e.settleKind o).kind (e.settleKind o).reason
      (event.map EventKind.number) e.named.fault := by
  have isQueued := h.queuedState queued
  have ended : s.EndedAt ((s.latchOption event).endOrder d e) d o false (e.settleKind o).kind (e.settleKind o).reason
      (event.map EventKind.number) e.named.fault := by
    cases event with
    | none => exact .endOrder queued isQueued (h.queued_rest isQueued).1 e reasoned (.refl s) rfl (fun _ => rfl) nofun
    | some k =>
      refine .endOrder queued isQueued (h.queued_rest isQueued).1 e reasoned (.latch s k) ?_ nofun fun n told => ?_
      · exact (congrArg State.dockPort (s.latch_dockPort s.dockPort k) :)
      · cases told
        exact s.latch_latched k
  exact ⟨_, ended, fun pulling => absurd (isQueued.symm.trans pulling) (by decide), fun _ => rfl⟩

/-- An ending by the drive unit, with the grants on the slot of a PULLING dock. -/
theorem State.OrdersOk.driveEnd_ended (held : (s.dock d).order = some o) (event : Option EventKind) (closed : Bool)
    (e : Ending) (reasoned : e.kind = .unlockFailed → e.reason.isSome) :
    s.Ended (s.driveEnd d event closed e) d o closed (e.settleKind o).kind (e.settleKind o).reason
      (event.map EventKind.number) e.named.fault := by
  obtain ⟨u, ended, driven, -⟩ := State.EndedAt.driveEnd h held event closed e reasoned
  refine ⟨u, ended, fun pulling => ?_, fun notPulling => ?_⟩
  · rw [driven, if_pos pulling]
    exact (ended.ordersOk h (.inr held)).grantsMade
  · rw [driven, if_neg notPulling]

end

end Sys2Proof.Machine
end

section
/-! Dock commands and profiles: RESERVE, CANCEL_RESERVE, CLEAR_SERVICE, SET_SERVICE, STAFF_UNLOCK and PROFILE_WRITE
(R17, R19 to R23, R187, R188). -/

set_option Elab.async false

namespace Sys2Proof.Machine

/-! ### The REPLY behind an effect -/

theorem State.Calm.stationRx {s t : State} (h : s.Calm t) : t.station.rx = s.station.rx := by
  obtain ⟨_, grown, _⟩ := h.station
  rw [grown]

theorem State.Calm.withDock (s : State) (d : DockId) (f : Dock → Dock) : s.Calm (s.withDock d f) := .modDock s d f

/-- The REPLY that follows a calm effect answers the request that stands at the head still. -/
theorem State.Request.reply_after {s t : State} {k : Kind} {f : Frame} {priority : BitVec 2} (request : s.Request k f)
    (calm : s.Calm t) (st : Status) (ofKind : replyPriority k.code = priority := by decide) :
    t.reply st = t.replied f priority st.code :=
  State.reply_of_kind (calm.stationRx ▸ request.head) request.kind st ofKind

/-- The REPLY to a request with no effect. -/
theorem State.Request.reply_alone {s : State} {k : Kind} {f : Frame} {priority : BitVec 2} (request : s.Request k f)
    (st : Status) (ofKind : replyPriority k.code = priority := by decide) : s.reply st = s.replied f priority st.code :=
  State.reply_of_kind request.head request.kind st ofKind

/-! ### Orders, referrals and docks of a command -/

theorem Dock.inFlight_iff (k : Dock) : k.inFlight = true ↔ k.state ∈ [DockState.queued, .pulling, .opened, .closing] := by
  unfold Dock.inFlight
  cases k.state <;> simp [DockState.inFlight]

theorem State.referralAt_isSome (s : State) (d : DockId) : (s.referralAt d).isSome = true ↔ ∃ r ∈ s.referrals, r.dock = d := by
  simp [State.referralAt]

theorem State.roomForOrder_iff (s : State) : s.roomForOrder = true ↔ s.log.length + s.inFlight ≤ 63 := decide_eq_true_iff

theorem State.queueOrder_eq (s : State) (d : DockId) (origin : Origin) (passId serial : Option Nat) :
    s.queueOrder d origin passId serial = (s.orderQueued d origin passId serial).evaluateGrants := rfl

/-- The STOP state is none of what docks, orders, referrals, pass entries and the log agree on. -/
theorem State.OrdersOk.withStop {s : State} (h : s.OrdersOk) (stop : Bool) :
    State.OrdersOk { s with stopAsserted := stop } := h.steady .outside

/-- An order that joins the queue at a dock that can take it keeps the agreement, before any grant. -/
theorem State.OrdersOk.orderQueued {s : State} (h : s.OrdersOk) {d : DockId} {origin : Origin}
    {passId serial : Option Nat} {passes : List PassEntry}
    (counts : ∀ e ∈ passes, e.inFlight = s.boundInFlight e.id + if passId = some e.id then 1 else 0)
    (free : (s.dock d).inFlight = false) (unreferred : ∀ r ∈ s.referrals, r.dock ≠ d) (room : s.logSum ≤ 63)
    (notBusy : s.rearrangement = none) (staff : origin = .staff ↔ passId = none) (phase : s.phase ≠ .starting) :
    (State.orderQueued { s with passes := passes } d origin passId serial).OrdersOk := by
  have joined := (h.withStop true).join d origin passId serial passes counts free unreferred room notBusy staff phase
  rw [State.queueOrder_eq, evaluateGrants_stop rfl] at joined
  exact joined.withStop s.stopAsserted

/-! ### RESERVE and CANCEL_RESERVE -/

theorem State.untilPassed_iff (s : State) (untilTime : Nat) :
    s.untilPassed untilTime = true ↔ s.timeKnown = true ∧ untilTime ≤ s.stationTime := by
  unfold State.untilPassed State.now
  cases s.timeKnown <;> simp

section
variable {s : State} {d : DockId} {r : Reservation}

theorem State.reserveDock_refused (refused : r.passId = 0 ∨ s.timeKnown = true ∧ r.untilTime ≤ s.stationTime) :
    s.reserveDock d r = s.reply .badValue :=
  if_pos (refused.imp_right (s.untilPassed_iff _).2)

section
variable (valid : ¬(r.passId = 0 ∨ s.untilPassed r.untilTime = true))
include valid

theorem State.reserveDock_taken (resting : (s.dock d).state ∈ [DockState.parked, .reserved])
    (unreferred : ∀ x ∈ s.referrals, x.dock ≠ d) :
    s.reserveDock d r = (s.withDock d fun k => { k with state := .reserved, reservation := some r }).reply .ok := by
  have noReferral : (s.referralAt d).isSome = false := by
    simpa [State.referralAt] using unreferred
  unfold State.reserveDock
  rw [if_neg valid]
  split
  · rw [noReferral]
    rfl
  · rw [noReferral]
    rfl
  · simp_all

theorem State.reserveDock_badState
    (notFree : (s.dock d).state ∉ [DockState.parked, .reserved] ∨ ∃ x ∈ s.referrals, x.dock = d) :
    s.reserveDock d r = s.reply .badState := by
  unfold State.reserveDock
  rw [if_neg valid]
  split
  · rename_i parked
    rw [if_pos ((s.referralAt_isSome d).2 (notFree.resolve_left (by simp [parked])))]
  · rename_i reserved
    rw [if_pos ((s.referralAt_isSome d).2 (notFree.resolve_left (by simp [reserved])))]
  · rfl

end

end

/-- Settles O23. -/
theorem reserveAndCancel : Obligations.ReserveAndCancel := by
  unfold Obligations.ReserveAndCancel
  refine fun f d s request ofRow => ⟨fun code right => ?_, fun code right => ?_⟩
  · intro id untilTime
    have handed : exec .reserve s = .next (s.reserveDock d ⟨id, untilTime⟩) :=
      (request.command_act (c := .reserve) ((congrArg dockCommandOf code).trans rfl) right ofRow rfl :)
    refine ⟨fun refused => ?_, fun nonzero ahead => ?_⟩
    · rw [handed, State.reserveDock_refused refused, request.reply_alone (priority := 2) .badValue]
      rfl
    · have valid : ¬(id = 0 ∨ s.untilPassed untilTime = true) := by
        rw [s.untilPassed_iff]
        rintro (zero | ⟨known, passed⟩)
        · exact nonzero zero
        · exact absurd (ahead known) (by omega)
      refine ⟨fun resting unreferred => ?_, fun notFree => ?_⟩
      · rw [handed, State.reserveDock_taken valid resting unreferred]
        exact congrArg _ (request.reply_after (.withDock ..) .ok)
      · rw [handed, State.reserveDock_badState valid notFree, request.reply_alone (priority := 2) .badState]
        rfl
  · refine ⟨fun reserved => ?_, fun notReserved => ?_⟩
    · rw [request.command_act ((congrArg dockCommandOf code).trans rfl) right ofRow rfl, reserved]
      exact congrArg _ (request.reply_after (.modDock ..) .ok)
    · rw [request.command_act ((congrArg dockCommandOf code).trans rfl) right ofRow rfl]
      split
      · exact absurd (by assumption) notReserved
      · exact congrArg _ (request.reply_alone .badState)

/-! ### CLEAR_SERVICE -/

/-- Settles O24. -/
theorem clearService : Obligations.ClearService := by
  unfold Obligations.ClearService
  intro f d s request ofRow code right
  have handed := request.command_act (c := .clearService) ((congrArg dockCommandOf code).trans rfl) right ofRow rfl
  refine ⟨fun x mem isService hasFault => ?_, fun kept => ?_⟩
  · have configured : x ≠ .unconfigured := by
      rintro rfl
      exact absurd mem (by decide)
    rw [handed, if_pos ⟨isService, by simpa [hasFault] using configured⟩, funext Dock.takeFromSensors_eq,
      request.reply_after (priority := 2) (.modDock ..) .ok]
    rfl
  · rw [handed, if_neg fun ⟨isService, configured⟩ => kept.elim (· isService) configured]
    exact congrArg _ (request.reply_alone .badState)

/-! ### SET_SERVICE -/

section
variable {s : State} {d : DockId} {o : Order}

theorem State.serviceDock_resting (resting : (s.dock d).state ∈ [DockState.vacant, .loose, .parked, .reserved]) :
    s.serviceDock d = (s.referralCleared d).withDock d fun k =>
      { k with state := .service, fault := some .staffSet, reservation := none } := by
  rw [← State.endReferralAt_eq]
  unfold State.serviceDock
  simp only [List.mem_cons, List.not_mem_nil, or_false] at resting
  rcases resting with state | state | state | state
  all_goals
    rw [state]
    rfl

theorem State.serviceDock_service (isService : (s.dock d).state = .service) :
    s.serviceDock d = s.referralCleared d := by
  rw [← State.endReferralAt_eq, State.serviceDock, isService]

/-- SET_SERVICE at a dock with an order ends it ABORTED_SERVICE, the dock in SERVICE. -/
theorem State.OrdersOk.serviceDock_ended (h : s.OrdersOk) (own : s.OrderOf d o) :
    s.Ended (s.serviceDock d) d o false .unlockFailed (some .abortedService) none (some .staffSet) := by
  have reasoned : (Ending.failed .abortedService (.service .staffSet)).kind = .unlockFailed →
      (Ending.failed .abortedService (.service .staffSet)).reason.isSome := fun _ => rfl
  obtain queued | held := own
  · rw [State.serviceDock, h.queuedState queued]
    exact h.endOrder_ended queued none _ reasoned
  · have drive : (s.dock d).state.withDrive = true := (h.docks d).order.1 (by rw [held]; rfl)
    have driven : s.serviceDock d = s.driveEnd d none false (.failed .abortedService (.service .staffSet)) := by
      unfold State.serviceDock
      cases state : (s.dock d).state
      case pulling | opened | closing => rfl
      all_goals exact absurd drive (by rw [state]; decide)
    rw [driven]
    exact h.driveEnd_ended held none false _ reasoned

end

/-- Settles O25: a dock at rest, one in SERVICE, and one with an order. -/
theorem setService : Obligations.SetService := by
  unfold Obligations.SetService
  intro f d s orders request ofRow code right
  have handed : exec .setService s = .next ((s.serviceDock d).reply .ok) :=
    (request.command_act (c := .setService) ((congrArg dockCommandOf code).trans rfl) right ofRow rfl :)
  rw [request.reply_after (priority := 2) (.serviceDock s d) .ok] at handed
  refine ⟨fun resting => ?_, fun isService => ?_, fun o own => ?_⟩
  · rw [handed, State.serviceDock_resting resting]
    rfl
  · rw [handed, State.serviceDock_service isService]
    rfl
  · have ended := orders.serviceDock_ended own
    exact ⟨_, handed, ended, ended.service⟩

/-! ### STAFF_UNLOCK -/

section
variable {s : State} {d : DockId}

/-- The checks of STAFF_UNLOCK with the statuses of their failures (R23). -/
def State.unlockChecks (s : State) (d : DockId) : List (Prop × Nat) :=
  [(s.stopAsserted = true, 4), ((s.dock d).state ∈ [DockState.queued, .pulling, .opened, .closing], 4),
    ((s.dock d).state = .service ∧
      (s.dock d).fault ∈ [some FaultKind.unconfigured, some .overcurrent, some .undercurrent], 5),
    (¬s.log.length + s.inFlight ≤ 63, 6)]

theorem State.unlockRefusal_of_firstCase {v : Nat} (first : FirstCase (s.unlockChecks d) v) :
    ∃ st, s.unlockRefusal d = some st ∧ st.code = v := by
  unfold State.unlockRefusal
  obtain ⟨stop, rfl⟩ | ⟨released, ⟨busy, rfl⟩ | ⟨free, ⟨faulty, rfl⟩ | ⟨sound, ⟨full, rfl⟩ | ⟨_, ⟨⟩⟩⟩⟩⟩ := first
  · exact ⟨.badState, if_pos stop, rfl⟩
  · refine ⟨.badState, ?_, rfl⟩
    rw [if_neg released, if_pos ((s.dock d).inFlight_iff.2 busy)]
  · refine ⟨.dockFault, ?_, rfl⟩
    rw [if_neg released, if_neg (mt (s.dock d).inFlight_iff.1 free), if_pos faulty]
  · refine ⟨.logFull, ?_, rfl⟩
    rw [if_neg released, if_neg (mt (s.dock d).inFlight_iff.1 free), if_neg sound,
      if_neg (mt s.roomForOrder_iff.1 full)]

theorem State.unlockRefusal_of_noCase (passes : NoCase (s.unlockChecks d)) : s.unlockRefusal d = none := by
  obtain ⟨released, free, sound, room, -⟩ : ¬_ ∧ ¬_ ∧ ¬_ ∧ ¬_ ∧ True := by
    simpa only [NoCase, State.unlockChecks, List.forall_mem_cons, List.not_mem_nil, false_imp_iff, implies_true]
      using passes
  unfold State.unlockRefusal
  rw [if_neg released, if_neg (mt (s.dock d).inFlight_iff.1 free), if_neg sound,
    if_pos (s.roomForOrder_iff.2 (not_not.1 room))]

/-- A dock that STAFF_UNLOCK's checks pass can take an order once its referral has ended. -/
theorem State.OrdersOk.staffQueued (h : s.OrdersOk) (passes : s.unlockRefusal d = none)
    (notBusy : s.rearrangement = none) (phase : s.phase ≠ .starting) :
    ((s.referralCleared d).orderQueued d .staff none none).OrdersOk := by
  have checked : (s.dock d).inFlight = false ∧ s.logSum ≤ 63 := by
    simp only [State.unlockRefusal, State.roomForOrder] at passes
    grind
  obtain ⟨samePhase, sameWork⟩ := s.endReferralAt_same d
  rw [← State.endReferralAt_eq]
  refine (h.endReferralAt d).orderQueued (passes := (s.endReferralAt d).passes) (fun e mem => ?_) ?_
    (h.endReferralAt_gone d) ?_ (sameWork.trans notBusy) (by simp) (samePhase ▸ phase)
  · simpa using (h.endReferralAt d).passCounts e mem
  · rw [Dock.inFlight, (s.endReferralAt_docks d d).1]
    exact checked.1
  · rw [s.endReferralAt_logSum]
    exact checked.2

end

/-- Settles O26. -/
theorem staffUnlock : Obligations.StaffUnlock := by
  unfold Obligations.StaffUnlock
  intro f d s orders request ofRow code right
  have handed := request.command_act (c := .staffUnlock) ((congrArg dockCommandOf code).trans rfl) right ofRow rfl
  refine ⟨fun v first => ?_, fun none => ?_⟩
  · obtain ⟨st, refused, rfl⟩ := State.unlockRefusal_of_firstCase first
    rw [handed, refused]
    exact congrArg _ (request.reply_alone st)
  · have passes := State.unlockRefusal_of_noCase none
    refine ⟨_, (orders.staffQueued passes request.notBusy (by rw [request.running]; decide)).grantsMade, ?_⟩
    rw [handed, passes, ← State.endReferralAt_eq]
    exact congrArg _ (request.reply_after ((State.Calm.endReferralAt s d).trans (.queueOrder ..)) .ok)

/-! ### PROFILE_WRITE -/

/-- The six profile bytes, clamped, are the clamped profile of the statement (R187). -/
theorem profileOf_eq (p : List Byte) (off : Nat) : profileOf p off =
    Profile.clamped (fieldAt p off 1) (fieldAt p (off + 1) 1) (fieldAt p (off + 2) 1) (fieldAt p (off + 3) 1)
      (fieldAt p (off + 4) 1) (fieldAt p (off + 5) 1) := by
  simp [profileOf, Profile.clamped, clamp]

/-- A dock that a profile is written to (R188). -/
theorem Dock.writeProfile_eq (p : Profile) (k : Dock) : k.writeProfile p =
    (let w := { k with configured := true, profile := p }
     if k.state = .service ∧ k.fault = some .unconfigured then w.fromSensors else w) := by
  unfold Dock.writeProfile
  dsimp only
  rw [Dock.takeFromSensors_eq]

/-- Settles O27. -/
theorem profileWritten : Obligations.ProfileWritten := by
  unfold Obligations.ProfileWritten
  intro f s request length
  have handed : exec .profileWrite s = .next (match dockOf (fieldAt f.payload 0 1) with
      | some d => (s.modDock d (Dock.writeProfile (profileOf f.payload 1))).reply .ok
      | none => s.reply .badValue) := request.perform length _
  refine ⟨fun above => ?_, fun d ofRow => ?_⟩
  · rw [handed, dockOf_none above]
    exact congrArg _ (request.reply_alone .badValue)
  · rw [handed, ofRow, dockOf_val, profileOf_eq, funext (Dock.writeProfile_eq _)]
    exact congrArg _ (request.reply_after (.modDock ..) .ok)

end Sys2Proof.Machine
end

section
/-! Collection, events, status and restart: COLLECT, EVENT_READ, EVENT_CLEAR, EVENT_MASK, EVENT_FORCE, STATUS_READ and
RESTART (R154, R158 to R163, R190, R192, R201). -/

set_option Elab.async false

namespace Sys2Proof.Machine

/-! ### COLLECT -/

theorem flagBit_eq (n : Nat) (b : Bool) : flagBit n b = b.toNat * 2 ^ n := by
  cases b <;> simp [flagBit]

/-- The bytes of an outcome record are its layout (R201). -/
theorem OutcomeRecord.bytes_eq (r : OutcomeRecord) : r.bytes = r.layout := by
  have reason : BitVec.ofNat 8 ((r.reason.map Reason.code).getD 0) = (match r.reason with
      | none => (0 : Byte) | some .supplyTimeout => 1 | some .latchJam => 2 | some .noOpenLowSupply => 3
      | some .overcurrent => 4 | some .undercurrent => 5 | some .abortedStop => 6 | some .abortedService => 7
      | some .tampered => 8) := by
    cases r.reason with
    | none => rfl
    | some x => cases x <;> rfl
  have kind : BitVec.ofNat 8 r.kind.code =
      (match r.kind with | .rideStart => (1 : Byte) | .notTaken => 2 | .unlockFailed => 3 | .returned => 4) := by
    cases r.kind <;> rfl
  have origin : BitVec.ofNat 8 r.origin.code = (match r.origin with | .rider => (1 : Byte) | .referred => 2 | .staff => 3) := by
    cases r.origin <;> rfl
  simp only [OutcomeRecord.bytes, OutcomeRecord.layout, bytesOf_one, reason, kind, origin, flagBit_eq, List.append_assoc,
    List.cons_append, List.nil_append]
  simp only [pow_zero, mul_one, pow_one, Nat.mul_comm _ 2, Nat.mul_comm _ (2 ^ 2)]
  rfl

/-- A REPLY with data, queued behind a change that leaves the buffer alone. -/
theorem State.Request.replyWith_after {s t : State} {k : Kind} {f : Frame} {priority : BitVec 2}
    (request : s.Request k f) (same : t.station.rx = s.station.rx) (st : Status) (data : List Byte) (owner : Owner)
    (ofKind : replyPriority k.code = priority := by decide) :
    t.replyWith st data owner = t.replied f priority st.code data owner := by
  rw [State.replyWith_eq (same ▸ request.head), request.kind, ofKind]

/-- Settles O52. -/
theorem collectAnswered : Obligations.CollectAnswered := by
  unfold Obligations.CollectAnswered
  intro f s request empty
  have handed := request.perform (n := 0) (by rw [empty]; rfl) fun _ u =>
    if u.marks.collect then u.reply .busyCollect
    else match u.log with
      | [] => u.reply .empty
      | r :: rest => State.replyWith { u with marks := { u.marks with collect := true } } .ok
          (r.bytes ++ bytesOf 1 rest.length) .collect
  refine ⟨fun out => ?_, fun free none => ?_, fun r rest free first => ?_⟩
  · refine handed.trans (congrArg _ ?_)
    rw [if_pos out]
    exact request.reply_alone .busyCollect
  · refine handed.trans (congrArg _ ?_)
    rw [if_neg (by simp [free]), none]
    exact request.reply_alone .empty
  · refine handed.trans (congrArg _ ?_)
    rw [if_neg (by simp [free]), first, ← r.bytes_eq, ← bytesOf_one]
    exact request.replyWith_after (t := { s with log := r :: rest, marks := { s.marks with collect := true } }) (priority := 3)
      rfl .ok _ .collect

/-! ### EVENT_CLEAR, EVENT_MASK and EVENT_FORCE -/

theorem eventSetOf_inside {p : List Byte} (inside : fieldAt p 0 2 < 4096) :
    eventSetOf p = some (BitVec.ofNat 12 (fieldAt p 0 2)) := if_pos inside

theorem eventSetOf_outside {p : List Byte} (outside : 4096 ≤ fieldAt p 0 2) : eventSetOf p = none :=
  if_neg (Nat.not_lt.2 outside)

/-- A request with an event set: a position outside the twelve kinds is BAD_VALUE, and otherwise the REPLY OK follows the
effect. -/
theorem State.Request.eventSet {s : State} {f : Frame} {k : Kind} {c : Instr} {effect : EventSet → State → State}
    (request : s.Request k f) (length : f.payload.length = 2) (priority : replyPriority k.code = 2)
    (calm : ∀ kinds, s.Calm (effect kinds s))
    (arm : exec c s = s.perform fun t => t.takeRequest k 2 fun p u =>
      match eventSetOf p with
      | some kinds => (effect kinds u).reply .ok
      | none => u.reply .badValue) :
    (4096 ≤ fieldAt f.payload 0 2 → exec c s = .next (s.replied f 2 3)) ∧
    (fieldAt f.payload 0 2 < 4096 →
      exec c s = .next ((effect (BitVec.ofNat 12 (fieldAt f.payload 0 2)) s).replied f 2 0)) := by
  rw [arm, request.perform length]
  refine ⟨fun outside => ?_, fun inside => ?_⟩
  · rw [eventSetOf_outside outside]
    exact congrArg _ (request.reply_alone .badValue priority)
  · rw [eventSetOf_inside inside]
    exact congrArg _ (request.reply_after (calm _) .ok priority)

/-- Settles O54. -/
theorem eventCleared : Obligations.EventCleared := by
  unfold Obligations.EventCleared
  intro f s request length
  obtain ⟨outside, inside⟩ := request.eventSet (c := .eventClear) (effect := fun kinds u => (u.removePending kinds).attend)
    length rfl (fun kinds => ((State.Quiet.of_events ..).trans (.attend _)).calm) rfl
  exact ⟨outside, fun valid => ⟨_, State.attend_attended _, inside valid⟩⟩

/-- Settles O55: a forced set latches at once, in a part that is RUNNING. -/
theorem eventsMaskedAndForced : Obligations.EventsMaskedAndForced := by
  unfold Obligations.EventsMaskedAndForced
  refine fun f s length => ⟨fun request => ?_, fun request => ?_⟩
  · obtain ⟨outside, inside⟩ := request.eventSet (c := .eventMask)
      (effect := fun kinds u => State.attend { u with events := { u.events with mask := kinds } })
      length rfl (fun kinds => ((State.Quiet.of_events ..).trans (.attend _)).calm) rfl
    exact ⟨outside, fun valid => ⟨_, State.attend_attended _, inside valid⟩⟩
  · obtain ⟨outside, inside⟩ := request.eventSet (c := .eventForce) (effect := fun kinds u => u.latchSet kinds)
      length rfl (fun kinds => (State.Quiet.latchSet ..).calm) rfl
    exact ⟨outside, fun valid => ⟨_, (s.latchSet_latched _).1 request.running, inside valid⟩⟩

/-! ### EVENT_READ -/

/-- The report of EVENT_READ, field by field (R158). -/
theorem State.eventReport_eq (s : State) : s.eventReport =
    bytesOf 2 s.events.pending.toNat ++ bytesOf 2 s.events.mask.toNat ++
      [match s.supply.level with | .normal => (0 : Byte) | .low => 1 | .belowFloor => 3,
        match s.events.clearMode with | .readClears => (0 : Byte) | .clearByRequest => 1] ++
      (match s.events.lastDuplicate with
        | none => [0, 0, 0, 0, 0, 0, 0, 0]
        | some l => [1] ++ bytesOf 4 l.passId ++ bytesOf 2 l.serial ++ [l.sibling.setWidth 8]) := by
  have level : bytesOf 1 s.supply.level.presentStates =
      [match s.supply.level with | .normal => (0 : Byte) | .low => 1 | .belowFloor => 3] := by
    cases s.supply.level <;> rfl
  have mode : bytesOf 1 s.events.clearMode.code =
      [match s.events.clearMode with | .readClears => (0 : Byte) | .clearByRequest => 1] := by
    cases s.events.clearMode <;> rfl
  rw [State.eventReport, level, mode]
  cases s.events.lastDuplicate with
  | none => simp [bytesOf, flagBit]
  | some l => simp [flagBit, bytesOf_one, BitVec.ofNat_toNat]

/-! ### STATUS_READ -/

theorem fieldAt_append_of_le {a b : List Byte} {off size : Nat} (behind : a.length ≤ off) :
    fieldAt (a ++ b) off size = fieldAt b (off - a.length) size := by
  rw [fieldAt, List.drop_append, List.drop_eq_nil_of_le behind, List.nil_append, fieldAt]

theorem fieldAt_bytesOf_append (k n : Nat) (b : List Byte) : fieldAt (bytesOf k n ++ b) 0 k = n % 256 ^ k := by
  rw [fieldAt, List.drop_zero, List.take_append_of_le_length (bytesOf_length k n).ge,
    List.take_of_length_le (bytesOf_length k n).le, numberOf_bytesOf]

theorem fieldAt_bytesOf (k n : Nat) : fieldAt (bytesOf k n) 0 k = n % 256 ^ k := by
  rw [← List.append_nil (bytesOf k n), fieldAt_bytesOf_append]

/-- A field of one byte. -/
theorem fieldAt_byte {p : List Byte} {off : Nat} {b : Byte} (h : p[off]? = some b) : fieldAt p off 1 = b.toNat := by
  obtain ⟨inside, rfl⟩ := List.getElem?_eq_some_iff.1 h
  rw [fieldAt, List.drop_eq_getElem_cons inside]
  simp only [List.take_succ_cons, List.take_zero, numberOf, List.foldl_cons, List.foldl_nil, Nat.zero_mul, Nat.zero_add]

theorem dockStateBytes_getElem? (docks : List Dock) (j : Nat) (a b : Dock) (even : docks[2 * j]? = some a)
    (odd : docks[2 * j + 1]? = some b) :
    (dockStateBytes docks)[j]? = some (BitVec.ofNat 8 (a.state.code * 16 + b.state.code)) := by
  induction docks using dockStateBytes.induct generalizing j with
  | case1 x y rest ih =>
    cases j with
    | zero =>
      obtain rfl : x = a := by simpa using even
      obtain rfl : y = b := by simpa using odd
      rfl
    | succ j => exact ih j even odd
  | case2 docks short =>
    match docks with
    | [] => simp at even
    | [x] => simp at odd
    | x :: y :: rest => exact absurd rfl (short x y rest)

theorem dockStateBytes_length (docks : List Dock) : (dockStateBytes docks).length = docks.length / 2 := by
  induction docks using dockStateBytes.induct with
  | case1 x y rest ih => simp only [dockStateBytes, List.length_cons, ih]; omega
  | case2 docks short =>
    match docks with
    | [] => rfl
    | [x] => simp [dockStateBytes]
    | x :: y :: rest => exact absurd rfl (short x y rest)

theorem DockState.code_le (st : DockState) : st.code ≤ 8 := by cases st <;> decide

section
variable (s : State)

theorem State.dockStates_length : (dockStateBytes s.docks.toList).length = 8 := by
  rw [dockStateBytes_length, Vector.length_toList]

/-- Each dock's state stands in its half of a byte of the report (section 12.4). -/
theorem State.dockStates_half (i : Fin 16) :
    ∃ high low, (dockStateBytes s.docks.toList)[i.val / 2]? = some (BitVec.ofNat 8 (high * 16 + low)) ∧
      high ≤ 8 ∧ low ≤ 8 ∧ (if i.val % 2 = 0 then high else low) = (s.dock i).state.code := by
  have dock (n : Nat) (below : n < 16) : s.docks.toList[n]? = some (s.dock ⟨n, below⟩) := by
    simp [State.dock, below]
  refine ⟨_, _, dockStateBytes_getElem? _ (i.val / 2) _ _ (dock _ (by omega)) (dock _ (by omega)),
    DockState.code_le _, DockState.code_le _, ?_⟩
  split
  · congr 3
    exact Fin.ext (by dsimp only; omega)
  · congr 3
    exact Fin.ext (by dsimp only; omega)

/-- The code of each dock's state, read from its half of a byte. -/
theorem State.dockStates_code (i : Fin 16) (rest : List Byte) :
    fieldAt (dockStateBytes s.docks.toList ++ rest) (i.val / 2) 1 / (if i.val % 2 = 0 then 16 else 1) % 16 =
      (s.dock i).state.code := by
  obtain ⟨high, low, byte, highLe, lowLe, code⟩ := s.dockStates_half i
  have number : (BitVec.ofNat 8 (high * 16 + low)).toNat = high * 16 + low := by
    rw [BitVec.toNat_ofNat]
    exact Nat.mod_eq_of_lt (by omega)
  rw [fieldAt_byte ((List.getElem?_append_left (by rw [s.dockStates_length]; omega)).trans byte), ← code, number]
  split <;> omega

/-- The items of the report behind the dock states (section 12.4). -/
def State.statusTail (s : State) : List Byte :=
  bytesOf 1 s.queue.length ++ (bytesOf 1 s.log.length ++ (bytesOf 1 s.supply.level.code ++
    (bytesOf 2 ((s.sense.latest.map BitVec.toNat).getD 0) ++ (bytesOf 1 s.supply.effective ++
      (bytesOf 1 (flagBit 0 s.timeKnown) ++ (bytesOf 1 s.loader.status.code ++ (bytesOf 1 s.loader.status.index ++
        (bytesOf 2 s.passes.length ++ bytesOf 2 s.denies.length))))))))

theorem State.statusReport_eq : s.statusReport = bytesOf 1 s.station.address.toNat ++
    (bytesOf 2 s.identity.group ++ (dockStateBytes s.docks.toList ++ s.statusTail)) := by
  simp only [State.statusReport, State.statusTail, List.append_assoc]

theorem State.statusReport_length : s.statusReport.length = 24 := by
  simp only [State.statusReport_eq, State.statusTail, List.length_append, bytesOf_length, s.dockStates_length]

/-- A field of the report behind the dock states is one of the tail. -/
theorem State.statusReport_tail (off size : Nat) :
    fieldAt s.statusReport (11 + off) size = fieldAt s.statusTail off size := by
  have offset : 11 + off - 1 - 2 - 8 = off := by omega
  rw [s.statusReport_eq, fieldAt_append_of_le (by rw [bytesOf_length]; omega),
    fieldAt_append_of_le (by simp only [bytesOf_length]; omega),
    fieldAt_append_of_le (by simp only [bytesOf_length, s.dockStates_length]; omega)]
  simp only [bytesOf_length, s.dockStates_length, offset]

end

/-- The items behind the dock states, each in the field of its place (R190, section 12.4). -/
theorem State.statusTail_fields (s : State) :
    fieldAt s.statusTail 0 1 = s.queue.length % 256 ∧ fieldAt s.statusTail 1 1 = s.log.length % 256 ∧
      fieldAt s.statusTail 2 1 = s.supply.level.code % 256 ∧
      fieldAt s.statusTail 3 2 = ((s.sense.latest.map BitVec.toNat).getD 0) % 65536 ∧
      fieldAt s.statusTail 5 1 = s.supply.effective % 256 ∧ fieldAt s.statusTail 6 1 = flagBit 0 s.timeKnown % 256 ∧
      fieldAt s.statusTail 7 1 = s.loader.status.code % 256 ∧ fieldAt s.statusTail 8 1 = s.loader.status.index % 256 ∧
      fieldAt s.statusTail 9 2 = s.passes.length % 65536 ∧ fieldAt s.statusTail 11 2 = s.denies.length % 65536 := by
  unfold State.statusTail
  simp [fieldAt_append_of_le, fieldAt_bytesOf_append, fieldAt_bytesOf, bytesOf_length]

/-- Settles O53. -/
theorem readsAnswered : Obligations.ReadsAnswered := by
  unfold Obligations.ReadsAnswered
  intro f s empty
  have length : f.payload.length = 0 := by rw [empty]; rfl
  refine ⟨fun request => ?_, fun request => ?_, fun request => ?_⟩
  · have handed := request.perform length fun _ u =>
      match u.events.clearMode with
      | .clearByRequest => u.replyWith .ok u.eventReport .none
      | .readClears =>
        if u.marks.eventRead then u.reply .busyCollect
        else State.replyWith { u with
          marks := { u.marks with eventRead := true }
          events := { u.events with carried := u.events.pending } } .ok u.eventReport .eventRead
    intro e report
    have same : s.eventReport = report := s.eventReport_eq
    refine ⟨fun byRequest => handed.trans (congrArg _ ?_), fun readClears => ⟨fun out => handed.trans (congrArg _ ?_),
      fun free => handed.trans (congrArg _ ?_)⟩⟩
    · rw [show s.events.clearMode = .clearByRequest from byRequest, same]
      exact request.replyWith_after rfl .ok report .none
    · rw [show s.events.clearMode = .readClears from readClears, if_pos out]
      exact request.reply_alone .busyCollect
    · split
      · rename_i byRequest
        exact absurd (byRequest.symm.trans readClears) (by decide)
      · rw [if_neg (by simp [free]), same]
        exact request.replyWith_after (t := { s with
          marks := { s.marks with eventRead := true }, events := { s.events with carried := s.events.pending } })
          (priority := 2) rfl .ok report .eventRead
  · refine ⟨s.statusReport, ?_, s.statusReport_length, ?_⟩
    · refine (request.perform length fun _ u => u.replyWith .ok u.statusReport .none).trans (congrArg _ ?_)
      exact request.replyWith_after rfl .ok _ .none
    · obtain ⟨queue, log, level, supply, effective, known, status, index, passes, denies⟩ := s.statusTail_fields
      refine ⟨?_, ?_, fun i => ?_, ?_, ?_, ?_, ?_, ?_, ?_, fun loaded => ?_, ?_, ?_, ?_⟩
      · rw [s.statusReport_eq, fieldAt_bytesOf_append]
        exact Nat.mod_eq_of_lt (by have := s.station.address.isLt; omega)
      · rw [s.statusReport_eq, fieldAt_append_of_le (by rw [bytesOf_length]), bytesOf_length, fieldAt_bytesOf_append]
        rfl
      · have offset : 3 + i.val / 2 - 1 - 2 = i.val / 2 := by omega
        rw [s.statusReport_eq, fieldAt_append_of_le (by rw [bytesOf_length]; omega),
          fieldAt_append_of_le (by simp only [bytesOf_length]; omega), bytesOf_length, bytesOf_length, offset]
        exact s.dockStates_code i _
      · exact (s.statusReport_tail 0 1).trans queue
      · exact (s.statusReport_tail 1 1).trans log
      · refine (s.statusReport_tail 2 1).trans (level.trans ?_)
        cases s.supply.level <;> rfl
      · refine (s.statusReport_tail 3 2).trans (supply.trans ?_)
        cases s.sense.latest with
        | none => rfl
        | some c => exact Nat.mod_eq_of_lt (by have := c.isLt; simp; omega)
      · exact (s.statusReport_tail 5 1).trans effective
      · refine (s.statusReport_tail 6 1).trans (known.trans ?_)
        cases s.timeKnown <;> rfl
      · refine (s.statusReport_tail 7 1).trans (status.trans ?_)
        cases state : s.loader.status
        case loading => exact absurd state loaded
        all_goals rfl
      · refine (s.statusReport_tail 8 1).trans (index.trans ?_)
        cases s.loader.status <;> rfl
      · exact (s.statusReport_tail 9 2).trans passes
      · exact (s.statusReport_tail 11 2).trans denies
  · refine (request.perform length fun _ u =>
      State.replyWith { u with marks := { u.marks with restart := true } } .ok [] .restart).trans (congrArg _ ?_)
    exact request.replyWith_after (t := { s with marks := { s.marks with restart := true } }) (priority := 2) rfl .ok [] .restart

end Sys2Proof.Machine
end

section
/-! The pass store's writes: PASS_WRITE, PASS_DELETE and DENY_WRITE, an entry's place in its table, and the settings of
the supply (R29 to R32, R44, R189). -/

set_option Elab.async false

namespace Sys2Proof.Machine

/-! ### An entry's place in its table -/

/-- Insertion in front of the first higher key puts an entry between the lower keys of an ascending table and the
higher ones. -/
theorem insert_eq_filters {α : Type} {key : α → Nat} {e : α} {ins : List α → List α} (nil : ins [] = [e])
    (cons : ∀ x xs, ins (x :: xs) = if key e < key x then e :: x :: xs else x :: ins xs) {table : List α}
    (order : table.Pairwise fun a b => key a < key b) (absent : ∀ x ∈ table, key x ≠ key e) :
    ins table = table.filter (fun x => key x < key e) ++ e :: table.filter fun x => key e < key x := by
  induction table with
  | nil => exact nil
  | cons x xs ih =>
    obtain ⟨above, rest⟩ := List.pairwise_cons.1 order
    obtain ⟨other, others⟩ := List.forall_mem_cons.1 absent
    rw [cons]
    by_cases lower : key e < key x
    · have noneLower : xs.filter (fun y => key y < key e) = [] :=
        List.filter_eq_nil_iff.2 fun y mem => by have := above y mem; simp; omega
      have allHigher : xs.filter (fun y => key e < key y) = xs :=
        List.filter_eq_self.2 fun y mem => by have := above y mem; simp; omega
      rw [if_pos lower, List.filter_cons_of_neg (by simp; omega), List.filter_cons_of_pos (by simpa using lower),
        noneLower, allHigher, List.nil_append]
    · have higher : key x < key e := by omega
      rw [if_neg lower, ih rest others, List.filter_cons_of_pos (by simpa using higher),
        List.filter_cons_of_neg (by simp; omega), List.cons_append]

theorem State.boundInFlight_eq (s : State) (id : Nat) : s.boundInFlight id = s.docksOf id := by
  rw [State.boundInFlight, s.countP_docks, State.docksOf, allDocks]
  exact List.countP_congr fun d _ => by simp

/-- An inserted pass entry stands in ascending order with its docks in flight counted (R30). -/
theorem State.insertPass_eq {s : State} {w : PassEntry} (tables : s.TablesOk) (absent : ∀ e ∈ s.passes, e.id ≠ w.id) :
    s.insertPass w = s.passInserted w := by
  have inserted := insert_eq_filters (key := PassEntry.id) (e := s.countedEntry w)
    (ins := insertPassEntry (s.countedEntry w)) rfl (fun _ _ => rfl) tables.passOrder absent
  rw [State.insertPass, inserted, State.countedEntry, State.boundInFlight_eq]
  rfl

theorem insertDenyEntry_eq {s : State} {w : DenyEntry} (tables : s.TablesOk) (absent : ∀ e ∈ s.denies, e.id ≠ w.id) :
    { s with denies := insertDenyEntry w s.denies } = s.denyInserted w := by
  rw [insert_eq_filters (key := DenyEntry.id) (ins := insertDenyEntry w) rfl (fun _ _ => rfl) tables.denyOrder absent]
  rfl

/-! ### Written entries -/

/-- The carried dates are crossed if valid until is present and below valid from (R29). -/
theorem carriedEntry_datesCrossed (id : Nat) (cls : PassClass) (p : List Byte) (off : Nat) :
    (carriedEntry id cls p off).datesCrossed = true ↔
      fieldAt p (off + 5) 4 ≠ 0 ∧ fieldAt p (off + 5) 4 < fieldAt p (off + 1) 4 := by
  unfold PassEntry.datesCrossed carriedEntry
  dsimp only
  by_cases none : fieldAt p (off + 5) 4 = 0
  · simp [none]
  · simp [none]

/-- A replaced entry keeps its in-flight count and the larger last serial with its source (R31). -/
theorem PassEntry.replaceWith_eq (held : PassEntry) {written : PassEntry} (source : written.source = .written) :
    held.replaceWith written = held.replacedBy written := by
  unfold PassEntry.replaceWith PassEntry.replacedBy
  split
  · rw [Nat.max_eq_right (by omega), ← source]
  · rw [Nat.max_eq_left (by omega)]

/-- The table with the entry of a written id replaced. -/
theorem State.replacePass_eq (s : State) {w : PassEntry} (source : w.source = .written) :
    (s.modPass w.id fun e => e.replaceWith w) = s.passReplaced w := by
  simp only [State.modPass, State.passReplaced, PassEntry.replaceWith_eq _ source]

theorem classOf_code (cls : PassClass) : classOf cls.code = some cls := by cases cls <;> rfl

theorem classOf_eq_none {n : Nat} : classOf n = none ↔ n ∉ [1, 2] := by
  unfold classOf
  split <;> simp_all

theorem classOf_eq_some {n : Nat} {cls : PassClass} (named : classOf n = some cls) : n = cls.code := by
  revert named
  unfold classOf
  split <;> simp +contextual [PassClass.code, eq_comm]

/-! ### PASS_WRITE -/

section
variable {s : State} {w : PassEntry}

theorem State.writePass_refused (refused : w.id = 0 ∨ w.datesCrossed = true) : s.writePass w = s.reply .badValue :=
  if_pos refused

section
variable (valid : ¬(w.id = 0 ∨ w.datesCrossed = true))
include valid

theorem State.writePass_held (source : w.source = .written) (held : ∃ e ∈ s.passes, e.id = w.id) :
    s.writePass w = (s.passReplaced w).reply .ok := by
  obtain ⟨e, found⟩ : ∃ e, s.findPass w.id = some e :=
    Option.isSome_iff_exists.1 (by simpa [State.findPass] using held)
  rw [State.writePass, if_neg valid, found]
  exact congrArg (·.reply .ok) (s.replacePass_eq source)

theorem State.writePass_full (absent : ∀ e ∈ s.passes, e.id ≠ w.id) (full : 1024 ≤ s.passes.length) :
    s.writePass w = s.reply .tableFull := by
  rw [State.writePass, if_neg valid, State.findPass_eq_none absent]
  exact if_pos full

theorem State.writePass_inserted (absent : ∀ e ∈ s.passes, e.id ≠ w.id) (room : s.passes.length < 1024) :
    s.writePass w = s.rearrange (s.passesAbove w.id) (.passInsert w) := by
  rw [State.writePass, if_neg valid, State.findPass_eq_none absent]
  exact if_neg (Nat.not_le.2 room)

end

end

/-- A deletion by comparing ids is the deletion of the statements. -/
theorem State.passes_filter_bne (s : State) (id : Nat) :
    (s.passes.filter fun e => e.id != id) = s.passes.filter fun e => e.id ≠ id :=
  List.filter_congr fun e _ => by simp [bne, Bool.beq_eq_decide_eq]

/-- Settles O35. -/
theorem passTableWritten : Obligations.PassTableWritten := by
  unfold Obligations.PassTableWritten
  intro f s tables id above
  refine ⟨fun request length => ?_, fun request length => ?_⟩
  · intro validUntil crossed
    have handed := request.perform length fun p u =>
      match classOf (fieldAt p 4 1) with
      | none => u.reply .badValue
      | some cls => u.writePass (writtenEntry (fieldAt p 0 4) cls p 4)
    have taken (cls : PassClass) (code : fieldAt f.payload 4 1 = cls.code) :
        exec .passWrite s = .next (s.writePass (carriedEntry id cls f.payload 4)) := by
      refine handed.trans (congrArg _ ?_)
      rw [code, classOf_code]
      rfl
    refine ⟨fun refused => ?_, fun cls nonzero code straight => ?_⟩
    · cases class_ : classOf (fieldAt f.payload 4 1) with
      | none =>
        refine handed.trans (congrArg _ ?_)
        rw [class_]
        exact request.reply_alone .badValue
      | some cls =>
        have known : fieldAt f.payload 4 1 ∈ [1, 2] := by
          by_contra unknown
          rw [classOf_eq_none.2 unknown] at class_
          cases class_
        rw [taken cls (classOf_eq_some class_), State.writePass_refused]
        · exact congrArg _ (request.reply_alone .badValue)
        · exact refused.imp_right fun other =>
            (carriedEntry_datesCrossed id cls f.payload 4).2 (other.resolve_left (not_not.2 known))
    · intro w
      have valid : ¬(w.id = 0 ∨ w.datesCrossed = true) := fun refused =>
        refused.elim nonzero fun dates => straight ((carriedEntry_datesCrossed id cls f.payload 4).1 dates)
      rw [taken cls code]
      refine ⟨fun held => ?_, fun absent => ⟨fun full => ?_, fun room last => ?_, fun room moved => ?_⟩⟩
      · rw [State.writePass_held valid rfl held]
        exact congrArg _ (State.reply_of_kind (s := s.passReplaced w) request.head request.kind .ok)
      · rw [State.writePass_full valid absent full]
        exact congrArg _ (request.reply_alone .tableFull)
      · rw [State.writePass_inserted valid absent room, show s.passesAbove w.id = 0 from last,
          State.rearrange_none_moved, State.finishWork, State.insertPass_eq tables absent]
        exact congrArg _ (State.reply_of_kind (s := s.passInserted w) request.head request.kind .ok)
      · rw [State.writePass_inserted valid absent room]
        exact congrArg _ (State.rearrange_moved s moved (.passInsert w))
  · intro removed
    have handed := request.perform length fun p u =>
      let id := fieldAt p 0 4
      if id = 0 then u.reply .badValue
      else match u.findPass id with
        | none => u.reply .notFound
        | some _ =>
          State.rearrange { u with passes := u.passes.filter fun e => e.id != id } (u.passesAbove id) .passDelete
    refine ⟨fun zero => handed.trans (congrArg _ ?_), fun nonzero absent => handed.trans (congrArg _ ?_),
      fun nonzero held => ?_⟩
    · exact (if_pos zero).trans (request.reply_alone .badValue)
    · refine (if_neg nonzero).trans ?_
      rw [State.findPass_eq_none absent]
      exact request.reply_alone .notFound
    · have deleted : exec .passDelete s = .next (removed.rearrange above .passDelete) := by
        obtain ⟨e, found⟩ : ∃ e, s.findPass id = some e :=
          Option.isSome_iff_exists.1 (by simpa [State.findPass] using held)
        refine handed.trans (congrArg _ ((if_neg nonzero).trans ?_))
        rw [found]
        dsimp only
        rw [s.passes_filter_bne]
        rfl
      refine ⟨fun last => ?_, fun moved => ?_⟩
      · rw [deleted, last]
        exact congrArg _ (State.reply_of_kind (s := removed) request.head request.kind .ok)
      · rw [deleted]
        exact congrArg _ (State.rearrange_moved removed moved .passDelete)

/-! ### DENY_WRITE -/

/-- Settles O37. -/
theorem denyWritten : Obligations.DenyWritten := by
  unfold Obligations.DenyWritten
  intro f s tables request length id w above
  have handed := request.perform length fun p u =>
    let w : DenyEntry := ⟨fieldAt p 0 4, optionalField (fieldAt p 4 2)⟩
    if w.id = 0 then u.reply .badValue
    else match u.findDeny w.id with
      | some _ => State.reply { u with denies := u.denies.map fun e => if e.id = w.id then w else e } .ok
      | none =>
        if 256 ≤ u.denies.length then u.reply .tableFull
        else u.rearrange (u.deniesAbove w.id) (.denyInsert w)
  refine ⟨fun zero => handed.trans (congrArg _ ?_), fun nonzero held => handed.trans (congrArg _ ?_),
    fun nonzero absent => ?_⟩
  · exact (if_pos zero).trans (request.reply_alone .badValue)
  · obtain ⟨e, found⟩ := State.findDeny_isSome held
    refine (if_neg nonzero).trans ?_
    rw [found]
    exact State.reply_of_kind (s := { s with denies := s.denies.map fun e => if e.id = id then w else e })
      request.head request.kind .ok
  · have inserted : exec .denyWrite s = .next (if 256 ≤ s.denies.length then s.reply .tableFull
        else s.rearrange above (.denyInsert w)) := by
      refine handed.trans (congrArg _ ((if_neg nonzero).trans ?_))
      rw [State.findDeny_eq_none absent]
      rfl
    rw [inserted]
    refine ⟨fun full => ?_, fun room last => ?_, fun room moved => ?_⟩
    · rw [if_pos full]
      exact congrArg _ (request.reply_alone .tableFull)
    · rw [if_neg (Nat.not_le.2 room), last, State.rearrange_none_moved, State.finishWork, insertDenyEntry_eq tables absent]
      exact congrArg _ (State.reply_of_kind (s := s.denyInserted w) request.head request.kind .ok)
    · rw [if_neg (Nat.not_le.2 room)]
      exact congrArg _ (State.rearrange_moved s moved (.denyInsert w))

end Sys2Proof.Machine
end

section
/-! The STOP input, the supply's settings, and the figures of the row: duties, levels, periods and violations (R98, R99,
R105, R107, R112, R114, R143, R189). -/

set_option Elab.async false

namespace Sys2Proof.Machine

/-! ### The STOP input (R105) -/

section
variable {s : State} {asserted : Bool} {effects : State → State}

/-- A level that is not the input's is a change of the input, and its 1 ms begins. -/
theorem State.stopInput_turned (other : s.stopLevel ≠ asserted) :
    s.stopInput asserted effects = { s with stopLevel := asserted, stopChange := some (s.clock / 2048) } :=
  if_neg other

/-- A level that has held is the STOP state from then on, and in RUNNING has its effects. -/
theorem State.stopInput_held {changed : Nat} (level : s.stopLevel = asserted) (other : s.stopAsserted ≠ asserted)
    (change : s.stopChange = some changed) :
    s.stopInput asserted effects =
      (if s.phase = .running then effects else id)
        { s with clock := max s.clock ((changed + 10) * 2048), stopAsserted := asserted } := by
  have edge : Filter.edgeTo ⟨s.stopLevel, s.stopAsserted, s.stopChange⟩ asserted = some changed := by
    simp [Filter.edgeTo, level, other, change]
  rw [State.stopInput, if_pos level, State.stopHeld, edge]
  cases phase : s.phase
  case running => simp [phase, State.advanceToCount, State.advanceTo, stepsPerCount]
  all_goals simp [phase, State.advanceToCount, State.advanceTo, stepsPerCount]

/-- With no change that has held there is nothing to take (entry 2). -/
theorem State.stopInput_quiet (level : s.stopLevel = asserted) (none : s.stopAsserted = asserted ∨ s.stopChange = none) :
    s.stopInput asserted effects = s := by
  have edge : Filter.edgeTo ⟨s.stopLevel, s.stopAsserted, s.stopChange⟩ asserted = Option.none := by
    obtain same | unchanged := none
    · simp [Filter.edgeTo, same]
    · simp [Filter.edgeTo, unchanged]
  rw [State.stopInput, if_pos level, State.stopHeld, edge]

end

/-! ### SUPPLY_WRITE -/

/-- The supply settings of a payload, each clamped (R189). -/
def Supply.written (u : Supply) (slots lowMark floor : Nat) : Supply :=
  { u with
    slots := max 1 (min 4 slots)
    lowMark := max 60 (min 400 lowMark)
    floor := max 50 (min (max 60 (min 400 lowMark) - 5) floor)
    effective := match u.level with
      | .normal => max 1 (min 4 slots)
      | .low => max 1 (max 1 (min 4 slots) / 2)
      | .belowFloor => 0 }

theorem supplySettingsOf_recount (p : List Byte) (off : Nat) (u : Supply) :
    (supplySettingsOf p off u).recount =
      u.written (fieldAt p off 1) (fieldAt p (off + 1) 2) (fieldAt p (off + 3) 2) := by
  unfold supplySettingsOf Supply.recount Supply.written effectiveSlots clamp
  rfl

/-- Settles O42. -/
theorem stopReleasedAndSupplyWritten : Obligations.StopReleasedAndSupplyWritten := by
  unfold Obligations.StopReleasedAndSupplyWritten
  refine fun s => ⟨fun phase => ?_, fun f request length => ?_⟩
  · have taken : exec .stopRelease s = .next (s.stopInput false State.evaluateGrants) := State.perform_eq phase _
    refine ⟨fun level => ?_, fun changed level asserted change => ⟨fun starting => ?_, fun running orders => ?_⟩,
      fun level none => ?_⟩
    · rw [taken, State.stopInput_turned (by simp [level])]
    · rw [taken, State.stopInput_held level (by simp [asserted]) change, if_neg (by simp [starting])]
      rfl
    · refine ⟨_, by rw [taken, State.stopInput_held level (by simp [asserted]) change, if_pos running], ?_⟩
      exact ((orders.steady (.advanceToCount s (changed + 10))).withStop false).grantsMade
    · rw [taken, State.stopInput_quiet level none]
  · refine (request.perform length fun p u =>
      State.reply { u with supply := (supplySettingsOf p 0 u.supply).recount } .ok).trans (congrArg _ ?_)
    rw [supplySettingsOf_recount]
    exact State.reply_of_kind (priority := 3)
      (s := { s with supply := s.supply.written (fieldAt f.payload 0 1) (fieldAt f.payload 1 2) (fieldAt f.payload 3 2) })
      request.head request.kind .ok

/-! ### Figures -/

/-- A target duty is the quotient rounded up (R114). -/
theorem targetDuty_of_lt {v vs : Nat} (below : v < vs) (n : Nat) : targetDuty v vs ≤ n ↔ v * 1024 ≤ n * vs := by
  have positive : 0 < vs := by omega
  rw [targetDuty, if_neg (by omega), Nat.div_le_iff_le_mul_add_pred positive, Nat.mul_comm vs n]
  omega

theorem targetDuty_of_le {v vs : Nat} (above : vs ≤ v) : targetDuty v vs = 1024 := if_pos above

/-- The steps from the present one to the next period start of a channel, fewer than a period (R112). -/
theorem nextPeriodStart_spec (clock phase : Nat) :
    (clock + (phase % 1024 + 1024 - clock % 1024) % 1024) % 1024 = phase % 1024 ∧
      (phase % 1024 + 1024 - clock % 1024) % 1024 < 1024 := by
  omega

/-- Settles O44. -/
theorem rowFigures : Obligations.RowFigures := by
  unfold Obligations.RowFigures
  refine ⟨fun v vs => ⟨targetDuty_of_le, fun below => ⟨(targetDuty_of_lt below _).1 le_rfl,
    fun n => (targetDuty_of_lt below n).2⟩, fun setting supply => ⟨?_, targetDuty_le v vs⟩⟩,
    fun u vs apart => ⟨?_, ?_⟩, fun s d => ?_, fun s d => ⟨fun held => ?_, fun free periodEnd aligned ahead near => ?_⟩⟩
  · rcases Nat.lt_or_ge v vs with below | above
    · by_contra small
      have atFifty := (targetDuty_of_lt below 50).1 (by omega)
      omega
    · rw [targetDuty_of_le above]
      decide
  · unfold Supply.nextLevel
    cases u.level <;> simp only <;> grind
  · unfold Supply.nextLevel
    cases u.level <;> simp only <;> grind
  · unfold State.nextPeriodStart periodSteps
    obtain ⟨aligned, within⟩ := nextPeriodStart_spec s.clock (s.pwmPhase + 64 * d.val)
    exact ⟨by omega, aligned, fun n ahead same => by omega⟩
  · simp [State.coilHigh, held]
  · have position : (s.clock + 1024 - (s.pwmPhase + 64 * d.val) % 1024) % 1024 = s.clock + 1024 - periodEnd := by
      omega
    simp only [State.coilHigh, periodSteps, position]
    simp [free]
    omega

/-! ### Violations -/

/-- Settles O50: the two limits are the two conditions. -/
theorem violations : Obligations.Violations := by
  unfold Obligations.Violations
  intro p c high low
  have overEq : p.overLimit c = decide high := rfl
  have pullInNever : p.underLimit .pullIn c = false := rfl
  have under : p.underLimit .hold c = decide low := by
    simp [Profile.underLimit, low, Bool.decide_and]
  refine ⟨fun n => ⟨fun h => ?_, fun h => ?_, fun h l => ?_, fun h l => ?_, fun h l => ?_, fun h l => ?_⟩,
    fun h l => ⟨⟨0, ?_⟩, 1, ?_⟩⟩
  case refine_6 =>
    simp only [violationOf, overEq, under, h, l, decide_true]
    exact (Nat.mod_two_eq_zero_or_one n).imp (fun even => if_pos even) fun odd => if_neg (by omega)
  case refine_1 | refine_2 => simp [violationOf, overEq, pullInNever, h]
  all_goals simp [violationOf, overEq, under, h, l]

end Sys2Proof.Machine
end

section
/-! The sense unit: the converter's turns, changes of a channel's activity, sampling points, and what a completed
conversion does (R98 to R101, R115, R116, R133 to R144). -/

set_option Elab.async false

namespace Sys2Proof.Machine

/-! ### The channel a coil turn chooses (R135) -/

/-- The first dock of the row that a test accepts is the lowest. -/
theorem allDocks_find?_eq_some {p : DockId → Bool} {d : DockId} (accepted : p d = true)
    (lowest : ∀ x, p x = true → d ≤ x) : allDocks.find? p = some d :=
  find?_eq_some_of_lowest Fin.val (List.pairwise_lt_finRange 16) (List.mem_finRange d) accepted
    fun x _ other => lowest x other

theorem allDocks_find?_eq_none {p : DockId → Bool} (refused : ∀ x, p x = false) : allDocks.find? p = none := by
  simp [refused]

/-- The lowest active channel above the pointer, or else the lowest active one. -/
theorem State.chosenChannel_eq (s : State) : s.chosenChannel =
    (allDocks.find? fun x => (s.dock x).active && decide (∀ p ∈ s.sense.pointer, p < x)).or
      (allDocks.find? fun x => (s.dock x).active) := by
  unfold State.chosenChannel State.activeChannels
  rw [List.head?_filter]
  cases pointer : s.sense.pointer with
  | none => simp
  | some p =>
    have both : (fun x => (s.dock x).active && decide (∀ q ∈ some p, q < x)) =
        fun x => decide ((s.dock x).active = true ∧ decide (p < x) = true) := by
      funext x
      simp
    rw [both]
    simp only [List.find?_filter]
    cases allDocks.find? fun x => decide ((s.dock x).active = true ∧ decide (p < x) = true) <;> rfl

theorem Dock.active_iff (k : Dock) : k.active = true ↔ k.sense.activity ≠ .inactive := by
  simp [Dock.active]

section
variable {s : State}

theorem State.chosenChannel_eq_none (idle : ∀ d, (s.dock d).sense.activity = .inactive) : s.chosenChannel = none := by
  have inactive (x) : (s.dock x).active = false := by simp [Dock.active, idle x]
  rw [s.chosenChannel_eq, allDocks_find?_eq_none fun x => by rw [inactive]; rfl, allDocks_find?_eq_none inactive]
  rfl

theorem State.chosenChannel_eq_some {d : DockId} (active : (s.dock d).sense.activity ≠ .inactive)
    (lowest : (((s.dock d).sense.activity ≠ .inactive ∧ ∀ p ∈ s.sense.pointer, p < d) ∧
        ∀ x, ((s.dock x).sense.activity ≠ .inactive ∧ ∀ p ∈ s.sense.pointer, p < x) → d ≤ x) ∨
      ((∀ x, ¬((s.dock x).sense.activity ≠ .inactive ∧ ∀ p ∈ s.sense.pointer, p < x)) ∧
        ∀ x, (s.dock x).sense.activity ≠ .inactive → d ≤ x)) : s.chosenChannel = some d := by
  have above_iff (x : DockId) : ((s.dock x).active && decide (∀ p ∈ s.sense.pointer, p < x)) = true ↔
      (s.dock x).sense.activity ≠ .inactive ∧ ∀ p ∈ s.sense.pointer, p < x := by
    rw [Bool.and_eq_true, Dock.active_iff, decide_eq_true_iff]
  rw [s.chosenChannel_eq]
  obtain ⟨above, first⟩ | ⟨noneAbove, first⟩ := lowest
  · rw [allDocks_find?_eq_some ((above_iff d).2 above) fun x other => first x ((above_iff x).1 other)]
    rfl
  · rw [allDocks_find?_eq_none fun x => Bool.eq_false_iff.2 (mt (above_iff x).1 (noneAbove x)),
      allDocks_find?_eq_some ((s.dock d).active_iff.2 active) fun x other => first x ((s.dock x).active_iff.1 other)]
    rfl

/-- With an active channel a coil turn has one to choose. -/
theorem State.chosenChannel_isSome {d : DockId} (active : (s.dock d).sense.activity ≠ .inactive) :
    ∃ x, s.chosenChannel = some x := by
  rw [s.chosenChannel_eq]
  obtain ⟨x, found⟩ : ∃ x, (allDocks.find? fun x => (s.dock x).active) = some x :=
    Option.isSome_iff_exists.1 (List.find?_isSome.2 ⟨d, List.mem_finRange d, (s.dock d).active_iff.2 active⟩)
  rw [found]
  cases allDocks.find? fun x => (s.dock x).active && decide (∀ p ∈ s.sense.pointer, p < x) with
  | none => exact ⟨x, rfl⟩
  | some y => exact ⟨y, rfl⟩

end

/-! ### Turns and activity (R133, R134, R136, R140, R141) -/

/-- A coil turn on an active channel begins alike, whatever turn was to come next. -/
theorem State.beginCoilTurn_eq_endTurn {s : State} {d : DockId} (active : (s.dock d).sense.activity ≠ .inactive) :
    s.beginCoilTurn = State.endTurn { s with sense := { s.sense with nextTurn := .coil } } := by
  obtain ⟨x, chosen⟩ := State.chosenChannel_isSome active
  show s.beginCoilTurn = State.beginCoilTurn { s with sense := { s.sense with nextTurn := .coil } }
  have same : State.chosenChannel { s with sense := { s.sense with nextTurn := .coil } } = some x := chosen
  rw [State.beginCoilTurn, State.beginCoilTurn, chosen, same]
  rfl

/-- Settles O48. -/
theorem turnsAndActivity : Obligations.TurnsAndActivity := by
  unfold Obligations.TurnsAndActivity
  refine ⟨fun s => ⟨fun supply => ?_, fun coil => ⟨fun idle => ?_, fun d active => ?_⟩⟩,
    fun s d a => ⟨fun same => if_pos same, fun other => ?_⟩⟩
  · rw [State.endTurn, supply]
    rfl
  · rw [State.endTurn, coil]
    show s.beginCoilTurn = _
    rw [State.beginCoilTurn, State.chosenChannel_eq_none idle]
    rfl
  · intro above lowest
    rw [State.endTurn, coil]
    show s.beginCoilTurn = _
    rw [State.beginCoilTurn, State.chosenChannel_eq_some active lowest]
    rfl
  · intro u turn
    have changed : s.setActivity d a = u.converterAtChange d a := if_neg other
    have active : (u.dock d).sense.activity = a := congrArg (·.sense.activity) (s.dock_withDock_self d _)
    have same : u.sense.converter = s.sense.converter := rfl
    rw [changed, State.converterAtChange, same]
    cases s.sense.converter with
    | idle =>
      by_cases inactive : a = .inactive
      · rw [if_pos inactive, if_pos inactive]
      · rw [if_neg inactive, if_neg inactive]
        exact State.beginCoilTurn_eq_endTurn (active ▸ inactive)
    | convertingSupply sampledAt => rfl
    | waiting e instant noted => rfl
    | convertingCoil e sampledAt noted => rfl

end Sys2Proof.Machine
end

section
/-! Sampling points and completed conversions, and the drive unit's period starts and timers (R98 to R101, R112 to R118,
R120, R122, R129, R136 to R144). -/

set_option Elab.async false

namespace Sys2Proof.Machine

/-! ### Sampling points -/

/-- Settles O49. -/
theorem samplingPoints : Obligations.SamplingPoints := by
  unfold Obligations.SamplingPoints
  refine fun s phase => ⟨fun d changed waiting => ?_, fun d instant changed waiting => ?_, fun idle => ?_⟩
  · intro u v
    have fixed : exec .fixingPeriodStart s = .next (if (v.dock d).chan.applied < 64 then v.endTurn
        else v.setConverter (.waiting d (some (v.clock + (v.dock d).chan.applied / 2)) false)) := by
      refine (State.perform_eq phase _).trans (congrArg _ ?_)
      rw [waiting]
      rfl
    have duty : (v.dock d).chan.applied = (s.dock d).chan.pending :=
      congrArg (·.chan.applied) (u.dock_withDock_self d _)
    rw [fixed, duty]
    exact ⟨fun short => by rw [if_pos short], fun long => by rw [if_neg (Nat.not_lt.2 long)]; rfl⟩
  · refine (State.perform_eq phase _).trans (congrArg _ ?_)
    rw [waiting]
    rfl
  · refine (State.perform_eq phase _).trans (congrArg _ ?_)
    rw [idle]
    rfl

/-! ### The supply level -/

/-- The state after a move of the level, its events still to latch (R98, R99, R101). -/
def State.levelMoved (s : State) (vs count : Nat) : State :=
  { s with
    supply := { s.supply with
      level := s.supply.nextLevel vs
      effective := effectiveSlots (s.supply.nextLevel vs) s.supply.slots }
    freeCount := count }

theorem State.OrdersOk.levelMoved {s : State} (h : s.OrdersOk) (vs count : Nat) : (s.levelMoved vs count).OrdersOk := by
  obtain ⟨positive, atMost, _⟩ := h.slots
  refine h.steady ⟨fun _ => .refl _, fun _ => id, rfl, .refl _, rfl, .refl _, rfl, fun _ => ?_, id⟩
  exact ⟨positive, atMost, effectiveSlots_le _ positive⟩

/-- SUPPLY_LOW and SUPPLY_FLOOR at a direct fall latch in either order or at once (entry 7). -/
theorem State.latchBothSupply_latched (s : State) : ∃ count,
    (∃ v, State.Latched { s with freeCount := count } v (kindSet 4) ∧ v.Latched s.latchBothSupply (kindSet 5)) ∨
    (∃ v, State.Latched { s with freeCount := count } v (kindSet 5) ∧ v.Latched s.latchBothSupply (kindSet 4)) ∨
    State.Latched { s with freeCount := count } s.latchBothSupply (kindSet 4 ||| kindSet 5) := by
  unfold State.latchBothSupply
  split
  · split
    · exact ⟨s.freeCount + 1, .inl ⟨_, State.latch_latched _ .supplyLow, State.latch_latched _ .supplyFloor⟩⟩
    · exact ⟨s.freeCount + 1, .inr (.inl ⟨_, State.latch_latched _ .supplyFloor, State.latch_latched _ .supplyLow⟩)⟩
    · exact ⟨s.freeCount + 1, .inr (.inr (State.latchSet_latched _ _))⟩
  · exact ⟨s.freeCount, .inl ⟨_, State.latch_latched _ .supplyLow, State.latch_latched _ .supplyFloor⟩⟩

theorem State.latchLevelMove_direct {u : State} {before after : SupplyLevel} (normal : before = .normal)
    (below : after = .belowFloor) : u.latchLevelMove before after = u.latchBothSupply := by
  rw [normal, below]
  rfl

/-- A level that stays, or that rises, has no event (R100). -/
theorem State.latchLevelMove_silent (u : State) {before after : SupplyLevel}
    (quiet : after = before ∨ before = .belowFloor ∨ after = .normal) : u.latchLevelMove before after = u := by
  unfold State.latchLevelMove
  split
  case h_4 => rfl
  all_goals simp at quiet

/-- An evaluation of the level moves it, latches the events of the move, and grants on a changed slot count. -/
theorem State.evaluateLevel_evaluated {s : State} (vs : Nat)
    (grants : ∀ u, (s.levelMoved vs s.freeCount).Quiet u → u.GrantsMade u.evaluateGrants) :
    s.LevelEvaluated (s.evaluateLevel vs) vs := by
  have evaluated : s.evaluateLevel vs =
      (let told := (s.levelMoved vs s.freeCount).latchLevelMove s.supply.level (s.supply.nextLevel vs)
       if effectiveSlots (s.supply.nextLevel vs) s.supply.slots = s.supply.effective then told
       else told.evaluateGrants) := rfl
  refine ⟨_, fun before after => ?_, fun before after => ?_, fun before after => ?_, fun quiet => ?_,
    fun same => evaluated.trans (if_pos same), fun changed => ?_⟩
  · show (s.levelMoved vs s.freeCount).Latched _ _
    rw [before, after]
    exact State.latch_latched _ .supplyLow
  · show (s.levelMoved vs s.freeCount).Latched _ _
    rw [before, after]
    exact State.latch_latched _ .supplyFloor
  · rw [State.latchLevelMove_direct before after]
    exact (s.levelMoved vs s.freeCount).latchBothSupply_latched
  · exact State.latchLevelMove_silent _ quiet
  · rw [evaluated]
    refine (congrArg _ (if_neg changed)).mpr ?_
    exact grants _ (State.Quiet.latchLevelMove ..)

theorem State.OrdersOk.evaluateLevel_evaluated {s : State} (h : s.OrdersOk) (vs : Nat) :
    s.LevelEvaluated (s.evaluateLevel vs) vs :=
  State.evaluateLevel_evaluated vs fun _ quiet => ((h.levelMoved vs s.freeCount).steady quiet.steady).grantsMade

end Sys2Proof.Machine
end

section
/-! Completed conversions, and the drive unit's period starts, extension and hold (R98 to R101, R112, R115 to R118,
R120, R122, R126, R129, R138 to R144). -/

set_option Elab.async false

namespace Sys2Proof.Machine

/-! ### A completed supply conversion -/

/-- A supply delivery recomputes the duty of a PULLING and of an OPEN dock (R115, R116). -/
theorem Dock.recompute_eq (vs : Nat) (k : Dock) : k.recompute vs = k.atSupply vs := by
  unfold Dock.recompute Dock.atSupply
  rfl

/-- Settles O43. -/
theorem supplyDelivered : Obligations.SupplyDelivered := by
  unfold Obligations.SupplyDelivered
  refine fun code s phase => ⟨fun sampledAt converting => ?_, fun other => ?_⟩
  · intro u
    have completed : exec (.supplyConversionComplete code) s = .next (u.deliverSupply code).endTurn := by
      refine (State.perform_eq phase _).trans (congrArg _ ?_)
      rw [converting]
      rfl
    refine ⟨fun starting => ?_, fun running orders => ?_⟩
    · rw [completed, State.deliverSupply, show u.phase = .starting from starting]
    · have steady : s.Steady u := .outside
      refine ⟨_, (orders.steady steady).evaluateLevel_evaluated _, ?_⟩
      rw [completed, State.deliverSupply, show u.phase = .running from running]
      dsimp only
      rw [State.recomputeDuties, funext (Dock.recompute_eq _)]
      rfl
  · refine (State.perform_eq phase _).trans (congrArg _ ?_)
    split
    · rename_i sampledAt converting
      exact absurd converting (other sampledAt)
    · rfl

/-! ### A completed coil conversion -/

theorem State.modDock_withDock (s : State) (d : DockId) (f g : Dock → Dock) :
    (s.withDock d f).modDock d g = s.withDock d fun k => g (f k) := by
  have same : (s.withDock d f).dock d = f (s.dock d) := s.dock_withDock_self d f
  simp only [State.withDock, State.modDock] at same ⊢
  simp [same]

/-- The latest sample and the violation counter of a channel (R140, R144). -/
def State.sampleStored (s : State) (d : DockId) (code : Code) (n : Nat) : State :=
  s.withDock d fun k => { k with sense := { k.sense with latest := some code, violations := n } }

theorem State.setViolations_sampleStored (s : State) (d : DockId) (code : Code) (n m : Nat) :
    (s.sampleStored d code n).setViolations d m = s.sampleStored d code m := by
  rw [State.setViolations, State.sampleStored, State.modDock_withDock]
  rfl

/-- What a compared sample does to the counter: a passing one makes it 0, a violation raises it, and the third makes a
report and the counter 0 (R144). -/
theorem State.compareSample_sampleStored (s : State) (d : DockId) (code : Code) (n : Nat) (v : Option CoilFault) :
    (s.sampleStored d code n).compareSample d v = (match v with
      | none => s.sampleStored d code 0
      | some fault => if 2 ≤ n then
          { s.sampleStored d code 0 with sense := { s.sense with reports := s.sense.reports ++ [(d, fault)] } }
        else s.sampleStored d code (n + 1)) := by
  have counter : ((s.sampleStored d code n).dock d).sense.violations = n :=
    congrArg (·.sense.violations) (s.dock_withDock_self d _)
  unfold State.compareSample
  rw [counter]
  cases v with
  | none => exact s.setViolations_sampleStored d code n 0
  | some fault =>
    dsimp only
    rw [State.setViolations_sampleStored, State.setViolations_sampleStored]
    rfl

theorem Dock.blanked_iff (k : Dock) (sampledAt : Nat) : k.blanked sampledAt = true ↔
    k.sense.activity = .pullIn ∧ ∃ start ∈ k.chan.pullInStart, sampledAt / 2048 < start + 200 := by
  unfold Dock.blanked stepsPerCount
  cases k.sense.activity <;> cases k.chan.pullInStart <;> simp

/-- Settles O51. -/
theorem coilJudged : Obligations.CoilJudged := by
  unfold Obligations.CoilJudged
  intro d sampledAt changed code s phase converting u k stored compared
  have completed : exec (.coilConversionComplete code) s =
      .next (State.endTurn (if changed then u else u.judgeSample d sampledAt code)) := by
    refine (State.perform_eq phase _).trans (congrArg _ ?_)
    rw [converting]
    rfl
  refine ⟨fun discarded => by rw [completed, if_pos discarded], fun kept o held => ?_⟩
  rw [completed, if_neg (by simp [kept])]
  have order : (u.dock d).order = some o := held
  have judged : u.judgeSample d sampledAt code = if k.blanked sampledAt then stored k.sense.violations
      else State.compareSample { stored k.sense.violations with freeCount := s.freeCount + 1 } d
        (violationOf o.profile k.sense.activity code (s.free 0)) := by
    rw [State.judgeSample, order]
    rfl
  intro blanked
  refine ⟨fun early => ?_, fun late => ⟨s.free 0, ?_⟩⟩
  · rw [judged, if_pos ((k.blanked_iff sampledAt).2 early)]
  · have judgement := State.compareSample_sampleStored { u with freeCount := s.freeCount + 1 } d code
      k.sense.violations (violationOf o.profile k.sense.activity code (s.free 0))
    rw [judged, if_neg (mt (k.blanked_iff sampledAt).1 late)]
    refine ⟨fun passes => ?_, fun fault violates => ⟨fun few => ?_, fun third => ?_⟩⟩
    · rw [passes] at judgement ⊢
      exact congrArg (fun t => Host.Outcome.next (State.endTurn t)) judgement
    · rw [violates] at judgement ⊢
      exact congrArg (fun t => Host.Outcome.next (State.endTurn t)) (judgement.trans (if_neg (Nat.not_le.2 few)))
    · rw [violates] at judgement ⊢
      exact congrArg (fun t => Host.Outcome.next (State.endTurn t)) (judgement.trans (if_pos third))

/-! ### Period starts -/

/-- The pull-in start sets PULL_LIMIT unless an edge captured before has set the extension (R118, R120). -/
theorem Dock.startPullIn_eq (n : Nat) (o : Order) (k : Dock) : k.startPullIn n o =
    { k with chan := { k.chan with
      applied := k.chan.pending
      pullInStart := some n
      timer := if k.chan.timer = .stopped then .pullLimit (n + 40 * o.profile.maxPullIn) else k.chan.timer } } := by
  unfold Dock.startPullIn
  cases k.chan.timer <;> rfl

/-- Settles O45. -/
theorem periodStarts : Obligations.PeriodStarts := by
  unfold Obligations.PeriodStarts
  intro d s phase u
  refine ⟨fun o pulling held fresh => ?_, fun other => ?_⟩
  · refine (State.perform_eq phase _).trans (congrArg _ ?_)
    rw [pulling, fresh, held]
    dsimp only
    rw [funext (Dock.startPullIn_eq _ o)]
    rfl
  · exact (State.perform_eq phase _).trans (congrArg _ (if_neg other))

/-! ### The extension and the hold -/

/-- Settles O46. -/
theorem openThenClosing : Obligations.OpenThenClosing := by
  unfold Obligations.OpenThenClosing
  intro d o due s phase held u
  refine ⟨fun orders pulling extension => ?_, fun isOpen hold => ?_⟩
  · intro v
    have port : v.dockPort = s.dockPort := by
      obtain ⟨docks, sense, outside⟩ := (u.modDock d (Dock.enterOpen u.uptime u.latestSupply o)).setActivity_outside d .hold
      exact (congrArg State.dockPort outside :)
    have vOk : v.OrdersOk := by
      refine .of (.setActivity _ d .hold fun _ => ?_)
        (.of (.enterOpen (s := u) pulling u.uptime u.latestSupply o) (orders.advanceToCount due))
      rw [State.dock_withDock_self]
      rfl
    have opened : exec (.extensionExpiry d) s = .next (v.result d .opened 0).evaluateGrants := by
      refine (State.perform_eq phase _).trans (congrArg _ ?_)
      rw [pulling, extension, held]
      rfl
    refine ⟨_, ?_, opened⟩
    have told := State.result_eq v d .opened 0
    rw [port] at told
    exact told ▸ (vOk.steady (State.Quiet.result v d .opened 0).steady).grantsMade
  · refine (State.perform_eq phase _).trans (congrArg _ ?_)
    rw [isOpen, hold]
    have unmarked (x : Option Order) : (x.map fun o => { o with stopMark := o.stopMark || false }) = x := by
      cases x <;> simp
    show u.beginClosing d false = _
    unfold State.beginClosing
    simp only [unmarked]
    rfl

end Sys2Proof.Machine
end

section
/-! Sensors, returns and bike identities: the debounced edges, the return handling and the RETURN record, the edges that
end an order, and BIKE_ID (R1 to R16, R24, R95, R96, R119 to R130). -/

set_option Elab.async false

namespace Sys2Proof.Machine

/-! ### The edges -/

theorem State.modDock_congr {s : State} {d : DockId} {f g : Dock → Dock} (same : f (s.dock d) = g (s.dock d)) :
    s.modDock d f = s.modDock d g := by
  unfold State.modDock
  rw [same]

/-- A debounced edge of bike-present is stored, and in RUNNING delivered (R4, R6, R7). -/
theorem State.bikeEdge_eq {s : State} {d : DockId} {level : Bool} {c : Nat}
    (edge : (s.dock d).bike = ⟨level, !level, some c⟩) (deliver : State → State) :
    s.bikeEdge d level deliver =
      if s.phase = .running then deliver (s.bikeStored d level c) else s.bikeStored d level c := by
  have captured : (s.dock d).bike.edgeTo level = some c := by rw [edge]; cases level <;> rfl
  have stored : (s.advanceToCount (c + 500)).modDock d (fun k => { k with bike := { k.bike with level := level } }) =
      s.bikeStored d level c := by
    refine (State.modDock_congr (g := fun k => { k with bike := ⟨level, level, some c⟩ }) ?_).trans rfl
    show ({ s.dock d with bike := { (s.dock d).bike with level := level } } : Dock) = _
    rw [edge]
    rfl
  unfold State.bikeEdge
  rw [captured]
  dsimp only
  rw [stored, show (s.bikeStored d level c).phase = s.phase from rfl]
  cases s.phase <;> rfl

/-- A debounced edge of latch-open is stored, and in RUNNING delivered with its capture timestamp (R5 to R7). -/
theorem State.latchEdge_eq {s : State} {d : DockId} {level : Bool} {c : Nat}
    (edge : (s.dock d).latch = ⟨level, !level, some c⟩) (deliver : Nat → State → State) :
    s.latchEdge d level deliver =
      if s.phase = .running then deliver c (s.latchStored d level c) else s.latchStored d level c := by
  have captured : (s.dock d).latch.edgeTo level = some c := by rw [edge]; cases level <;> rfl
  have stored : (s.advanceToCount (c + 50)).modDock d (fun k => { k with latch := { k.latch with level := level } }) =
      s.latchStored d level c := by
    refine (State.modDock_congr (g := fun k => { k with latch := ⟨level, level, some c⟩ }) ?_).trans rfl
    show ({ s.dock d with latch := { (s.dock d).latch with level := level } } : Dock) = _
    rw [edge]
    rfl
  unfold State.latchEdge
  rw [captured]
  dsimp only
  rw [stored, show (s.latchStored d level c).phase = s.phase from rfl]
  cases s.phase <;> rfl

/-- The dock of a stored bike-present edge. -/
theorem State.dock_bikeStored (s : State) (d : DockId) (level : Bool) (c : Nat) :
    (s.bikeStored d level c).dock d = { s.dock d with bike := ⟨level, level, some c⟩ } :=
  (s.advanceToCount (c + 500)).dock_withDock_self d fun k => { k with bike := ⟨level, level, some c⟩ }

theorem State.dock_latchStored (s : State) (d : DockId) (level : Bool) (c : Nat) :
    (s.latchStored d level c).dock d = { s.dock d with latch := ⟨level, level, some c⟩ } :=
  (s.advanceToCount (c + 50)).dock_withDock_self d fun k => { k with latch := ⟨level, level, some c⟩ }

theorem State.OrdersOk.bikeStored {s : State} (h : s.OrdersOk) (d : DockId) (level : Bool) (c : Nat) :
    (s.bikeStored d level c).OrdersOk :=
  (h.advanceToCount (c + 500)).steady (.aside _ d fun k => { k with bike := ⟨level, level, some c⟩ })

theorem State.OrdersOk.latchStored {s : State} (h : s.OrdersOk) (d : DockId) (level : Bool) (c : Nat) :
    (s.latchStored d level c).OrdersOk :=
  (h.advanceToCount (c + 50)).steady (.aside _ d fun k => { k with latch := ⟨level, level, some c⟩ })

section
variable {s : State} {d : DockId} {c : Nat} (running : s.phase = .running)
include running

theorem exec_bikePresentRise_running (edge : (s.dock d).bike = ⟨true, false, some c⟩) :
    exec (.bikePresentRise d) s = .next (((s.bikeStored d true c).returnOnRise d).ownBikeRise d) :=
  (State.perform_running running _).trans (congrArg _ ((State.bikeEdge_eq edge _).trans (if_pos running)))

theorem exec_bikePresentFall_running (edge : (s.dock d).bike = ⟨false, true, some c⟩) :
    exec (.bikePresentFall d) s = .next (((s.bikeStored d false c).returnOnFall d).ownBikeFall d) :=
  (State.perform_running running _).trans (congrArg _ ((State.bikeEdge_eq edge _).trans (if_pos running)))

theorem exec_latchOpenRise_running (edge : (s.dock d).latch = ⟨true, false, some c⟩) :
    exec (.latchOpenRise d) s = .next ((s.latchStored d true c).ownLatchRise d c) :=
  (State.perform_running running _).trans (congrArg _ ((State.latchEdge_eq edge _).trans (if_pos running)))

theorem exec_latchOpenFall_running (edge : (s.dock d).latch = ⟨false, true, some c⟩) :
    exec (.latchOpenFall d) s = .next ((s.latchStored d false c).ownLatchFall d) :=
  (State.perform_running running _).trans (congrArg _ ((State.latchEdge_eq edge _).trans (if_pos running)))

end

/-- Settles O12: each edge in STARTING is stored by its filter and goes no further. -/
theorem levelsStored : Obligations.LevelsStored := by
  unfold Obligations.LevelsStored
  intro d s released
  refine ⟨(State.perform_eq released _).trans rfl, (State.perform_eq released _).trans rfl, fun starting c => ?_⟩
  have notRunning : s.phase ≠ .running := by rw [starting]; decide
  refine ⟨fun edge => ?_, fun edge => ?_, fun edge => ?_, fun edge => ?_⟩
  · exact (State.perform_eq released _).trans (congrArg _ ((State.bikeEdge_eq edge _).trans (if_neg notRunning)))
  · exact (State.perform_eq released _).trans (congrArg _ ((State.bikeEdge_eq edge _).trans (if_neg notRunning)))
  · exact (State.perform_eq released _).trans (congrArg _ ((State.latchEdge_eq edge _).trans (if_neg notRunning)))
  · exact (State.perform_eq released _).trans (congrArg _ ((State.latchEdge_eq edge _).trans (if_neg notRunning)))

/-! ### The RETURN record -/

/-- A RETURN record that enters the log (R151 to R153). -/
theorem State.logReturn_returnLogged (s : State) (r : OutcomeRecord) : s.ReturnLogged (s.logReturn r) r := by
  have latched := State.latch_latched { s with log := s.log ++ [r] } .bikeReturned
  obtain ⟨high, notHigh⟩ := State.testLogHigh_latched (State.latch { s with log := s.log ++ [r] } .bikeReturned)
  have length : (State.latch { s with log := s.log ++ [r] } .bikeReturned).log.length = s.log.length + 1 := by
    rw [latched.quiet.log]
    simp
  exact ⟨_, latched, fun full => high (by omega), fun room => notHigh (by omega)⟩

/-- A RETURN record handed to the log unit (R151). -/
theorem State.handOverReturn_handedOver (s : State) (d : DockId) (r : OutcomeRecord) :
    s.HandedOver (s.handOverReturn d r) d r := by
  unfold State.handOverReturn
  constructor
  · intro room
    rw [if_pos room]
    exact s.logReturn_returnLogged r
  · intro full empty
    rw [if_neg (by omega), if_neg (by simp [empty])]
    rfl
  · intro full held
    rw [if_neg (by omega), if_pos held]
    exact State.latch_latched _ .logOverrun

/-- A record handed over changes its dock's pending return slot at most, and neither the queue nor the phase. -/
theorem State.HandedOver.frame {s t : State} {d : DockId} {r : OutcomeRecord} (h : s.HandedOver t d r) :
    (∃ slot, t.dock d = { s.dock d with pendingReturn := slot }) ∧ t.queue = s.queue := by
  rcases Nat.lt_or_ge s.logSum 64 with room | full
  · obtain ⟨u, latched, high, notHigh⟩ := h.room room
    have quiet : State.Quiet { s with log := s.log ++ [r] } t := by
      refine latched.quiet.trans ?_
      by_cases length : s.log.length = 47
      · exact (high length).quiet
      · exact notHigh length ▸ .refl u
    exact ⟨⟨(s.dock d).pendingReturn, quiet.dock d⟩, quiet.queue⟩
  · cases slot : (s.dock d).pendingReturn with
    | none =>
      rw [h.slotEmpty full slot]
      exact ⟨⟨_, s.dock_withDock_self d _⟩, rfl⟩
    | some held =>
      have quiet := (h.slotHeld full (by rw [slot]; rfl)).quiet
      exact ⟨⟨some r, (quiet.dock d).trans (s.dock_withDock_self d _)⟩, quiet.queue⟩

/-- The return handling of a fall (R15). -/
theorem State.returnOnFall_fallHandled (s : State) (d : DockId) : s.FallHandled (s.returnOnFall d) d := by
  unfold State.returnOnFall
  constructor
  · intro due timer
    rw [timer]
    exact ⟨_, s.handOverReturn_handedOver d _, rfl⟩
  · intro notWaiting
    split
    · exact absurd (by assumption) (notWaiting _)
    · rfl

/-- The return handling of a fall changes the dock's timer and pending return slot at most. -/
theorem State.FallHandled.frame {s t : State} {d : DockId} (h : s.FallHandled t d) :
    (∃ timer slot, t.dock d = { s.dock d with returnTimer := timer, pendingReturn := slot }) ∧ t.queue = s.queue := by
  by_cases waiting : ∃ due, (s.dock d).returnTimer = .runningForBike due
  · obtain ⟨due, timer⟩ := waiting
    obtain ⟨u, handed, rfl⟩ := h.waiting due timer
    obtain ⟨⟨slot, dock⟩, queue⟩ := handed.frame
    refine ⟨⟨.stopped, slot, ?_⟩, queue⟩
    rw [State.dock_withDock_self, dock]
  · rw [h.otherwise fun due timer => waiting ⟨due, timer⟩]
    exact ⟨⟨_, _, rfl⟩, rfl⟩

/-! ### Docks at rest -/

theorem State.withDock_same {s : State} {d : DockId} {f : Dock → Dock} (same : f (s.dock d) = s.dock d) :
    s.withDock d f = s := by
  unfold State.withDock
  rw [same]
  unfold State.dock
  simp

theorem Dock.takeRest_vacant : Dock.takeRest .vacant = Dock.vacated := rfl

/-- A rise at the owner of a dock's state (R8). -/
theorem State.ownBikeRise_eq (s : State) (d : DockId) : s.ownBikeRise d = s.withDock d Dock.arrived := by
  unfold State.ownBikeRise
  split
  · rename_i vacant
    refine State.modDock_congr ?_
    unfold Dock.arrived
    rw [if_pos vacant]
    cases (s.dock d).latch.level <;> rfl
  · rename_i notVacant
    exact (State.withDock_same (if_neg notVacant)).symm

/-- A latching and a change of a dock do not meet. -/
theorem State.Attended.withDock {s t : State} (h : s.Attended t) (d : DockId) (f : Dock → Dock) :
    (s.withDock d f).Attended (t.withDock d f) := by
  obtain ⟨noneUnmasked, notArmed, armed⟩ := h
  refine ⟨fun none => ?_, fun some sent => ?_, fun some attention => ⟨fun slot => ?_, fun full => ?_⟩⟩
  · rw [noneUnmasked none]; rfl
  · rw [notArmed some sent]
  · rw [(armed some attention).1 slot]; rfl
  · rw [(armed some attention).2 full]; rfl

theorem State.Latched.withDock {s t : State} {kinds : EventSet} (h : s.Latched t kinds) (d : DockId) (f : Dock → Dock) :
    (s.withDock d f).Latched (t.withDock d f) kinds :=
  ⟨fun running => (h.1 running).withDock d f, fun notRunning => by rw [h.2 notRunning]; rfl⟩

/-- Settles O13: the return handling of a rise, then the VACANT dock's own. -/
theorem bikeArrives : Obligations.BikeArrives := by
  unfold Obligations.BikeArrives
  intro d c s running edge u
  have dock := s.dock_bikeStored d true c
  refine ⟨fun timer noId => ?_, fun due timer => ⟨u.handOverReturn d (u.returnOf d (s.dock d).bikeId),
    u.handOverReturn_handedOver d _, ?_⟩⟩
  · refine (exec_bikePresentRise_running running edge).trans (congrArg _ ?_)
    have handled : u.returnOnRise d = u.setReturnTimer d (.runningForBike (u.uptime + returnInterval)) := by
      unfold State.returnOnRise
      rw [show (u.dock d).returnTimer = .stopped from (congrArg Dock.returnTimer dock).trans timer,
        show (u.dock d).bikeId = none from (congrArg Dock.bikeId dock).trans noId]
    rw [handled, State.ownBikeRise_eq]
    exact u.modDock_withDock d (fun k => { k with returnTimer := .runningForBike (u.uptime + returnInterval) }) _
  · refine (exec_bikePresentRise_running running edge).trans (congrArg _ ?_)
    have handled : u.returnOnRise d =
        (u.handOverReturn d (u.returnRecord d (s.dock d).bikeId)).setReturnTimer d .stopped := by
      unfold State.returnOnRise
      rw [show (u.dock d).returnTimer = .runningForId due from (congrArg Dock.returnTimer dock).trans timer,
        show (u.dock d).bikeId = (s.dock d).bikeId from (congrArg Dock.bikeId dock).trans rfl]
    rw [handled, State.ownBikeRise_eq]
    exact State.modDock_withDock _ d (fun k => { k with returnTimer := .stopped }) _

/-- Settles O14: the return handling of a fall, then the resting dock's own. -/
theorem bikeLeavesRest : Obligations.BikeLeavesRest := by
  unfold Obligations.BikeLeavesRest
  intro d c s running edge
  have fall := exec_bikePresentFall_running running edge
  set v := (s.bikeStored d false c).returnOnFall d
  have handled : (s.bikeStored d false c).FallHandled v d := State.returnOnFall_fallHandled _ d
  have state : (v.dock d).state = (s.dock d).state := by
    obtain ⟨⟨timer, slot, dock⟩, -⟩ := handled.frame
    rw [dock, s.dock_bikeStored]
  have own {st : DockState} (isState : (s.dock d).state = st) : v.ownBikeFall d = (match st with
      | .vacant => v
      | .loose => (v.modDock d (Dock.takeRest .vacant)).latch .bikeRemoved
      | .parked | .reserved => (v.modDock d (Dock.takeRest .vacant)).latch .tamper
      | .service => (v.latch .bikeRemoved).setBikeId d none
      | .queued => (v.latch .tamper).endOrder d (.failed .tampered .vacant)
      | .pulling | .opened | .closing => v.driveEnd d (some .bikeRemoved) false ⟨.rideStart, none, .vacant⟩) := by
    unfold State.ownBikeFall
    rw [state.trans isState]
    cases st <;> rfl
  refine ⟨fun loose => ⟨v, _, handled, fall, ?_⟩, fun resting => ⟨v, _, handled, fall, ?_⟩,
    fun service => ⟨v, _, handled, fall, ?_⟩, fun vacant => ⟨v, handled, fall.trans (congrArg _ (own vacant))⟩⟩
  · rw [own loose, Dock.takeRest_vacant]
    exact State.latch_latched _ .bikeRemoved
  · have tampered : v.ownBikeFall d = (v.withDock d Dock.vacated).latch .tamper := by
      rcases resting with parked | reserved
      · exact own parked
      · exact own reserved
    rw [tampered]
    exact State.latch_latched _ .tamper
  · rw [own service]
    exact (v.latch_latched .bikeRemoved).withDock d fun k => { k with bikeId := none }

/-! ### Edges that end an order -/

/-- The return handling of a stored fall leaves the dock's order and state, and the dock has no bike. -/
theorem State.FallHandled.afterStored {s v : State} {d : DockId} {c : Nat}
    (h : (s.bikeStored d false c).FallHandled v d) :
    (v.dock d).state = (s.dock d).state ∧ (v.dock d).order = (s.dock d).order ∧ (v.dock d).bike.level = false ∧
      v.queue = s.queue := by
  obtain ⟨⟨timer, slot, dock⟩, queue⟩ := h.frame
  rw [dock, s.dock_bikeStored]
  exact ⟨rfl, rfl, rfl, queue⟩

theorem DockState.withDrive_iff {st : DockState} :
    st.withDrive = true ↔ st = .pulling ∨ st = .opened ∨ st = .closing := by
  cases st <;> simp [DockState.withDrive]

/-- Settles O15: the drive unit's ending with BIKE_REMOVED, at a dock whose bike is gone. -/
theorem rideStarts : Obligations.RideStarts := by
  unfold Obligations.RideStarts
  intro d c o s orders running edge held
  have handled := (s.bikeStored d false c).returnOnFall_fallHandled d
  have vOrders := (orders.bikeStored d false c).returnOnFall d
  obtain ⟨state, order, level, -⟩ := handled.afterStored
  have ended := vOrders.driveEnd_ended (order.trans held) (some .bikeRemoved) false ⟨.rideStart, none, .vacant⟩ nofun
  have settled : Ending.settleKind ⟨.rideStart, none, .vacant⟩ o = ⟨.rideStart, none, .vacant⟩ := rfl
  rw [settled] at ended
  have drive := DockState.withDrive_iff.1 ((orders.docks d).order.1 (by rw [held]; rfl))
  refine ⟨_, _, handled, exec_bikePresentFall_running running edge, ?_⟩
  have own : ((s.bikeStored d false c).returnOnFall d).ownBikeFall d =
      ((s.bikeStored d false c).returnOnFall d).driveEnd d (some .bikeRemoved) false ⟨.rideStart, none, .vacant⟩ := by
    unfold State.ownBikeFall
    rcases drive with pulling | opened | closing
    · rw [state, pulling]
    · rw [state, opened]
    · rw [state, closing]
  rw [own]
  exact ⟨ended, ended.atSensors, ended.vacant level⟩

/-- Settles O16: the latch-open edges at each dock state but QUEUED and CLOSING. -/
theorem latchMoves : Obligations.LatchMoves := by
  unfold Obligations.LatchMoves
  intro d c s running
  constructor
  · intro edge u
    have rise := exec_latchOpenRise_running running edge
    have dock : u.dock d = _ := s.dock_latchStored d true c
    have state : (u.dock d).state = (s.dock d).state := by rw [dock]
    refine ⟨fun elsewhere => rise.trans (congrArg _ ?_), fun resting => ⟨_, rise, ?_⟩,
      fun o pulling held => ⟨fun captured => rise.trans (congrArg _ ?_), fun first => rise.trans (congrArg _ ?_)⟩⟩
    · unfold State.ownLatchRise
      simp only [List.mem_cons, List.not_mem_nil, or_false] at elsewhere
      rcases elsewhere with isState | isState | isState | isState | isState <;> rw [state, isState]
    · have tampered : u.ownLatchRise d c = (u.withDock d (Dock.restAt .loose)).latch .tamper := by
        unfold State.ownLatchRise
        simp only [List.mem_cons, List.not_mem_nil, or_false] at resting
        rcases resting with parked | reserved
        · rw [state, parked]; rfl
        · rw [state, reserved]; rfl
      show State.Latched _ (u.ownLatchRise d c) _
      rw [tampered]
      exact State.latch_latched _ .tamper
    · show u.ownLatchRise d c = u
      unfold State.ownLatchRise State.captureEdge
      rw [state, pulling, dock]
      simp [held, captured]
    · show u.ownLatchRise d c = _
      unfold State.ownLatchRise State.captureEdge
      rw [state, pulling, show (u.dock d).order = some o from (congrArg Dock.order dock).trans held]
      simp only [first, Option.isSome_none, Bool.false_eq_true, if_false]
      rfl
  · intro edge u
    have fall := exec_latchOpenFall_running running edge
    have state : (u.dock d).state = (s.dock d).state := by rw [s.dock_latchStored]
    refine ⟨fun elsewhere => fall.trans (congrArg _ ?_), fun loose => fall.trans (congrArg _ ?_)⟩
    · unfold State.ownLatchFall
      simp only [List.mem_cons, List.not_mem_nil, or_false] at elsewhere
      rcases elsewhere with isState | isState | isState | isState | isState | isState | isState <;> rw [state, isState]
    · unfold State.ownLatchFall
      rw [state, loose]
      rfl

/-- Settles O17: one case for each state of the timer. -/
theorem returnTimerExpires : Obligations.ReturnTimerExpires := by
  unfold Obligations.ReturnTimerExpires
  intro d s released
  refine ⟨?_, fun due timer => (State.perform_eq released _).trans (congrArg _ ?_),
    fun timer => (State.perform_eq released _).trans (congrArg _ ?_)⟩
  · intro due timer u
    refine ⟨_, u.handOverReturn_handedOver d _, (State.perform_eq released _).trans (congrArg _ ?_)⟩
    rw [timer]; rfl
  · rw [timer]
    exact State.modDock_withDock _ d (fun k => { k with bikeId := none }) _
  · rw [timer]

/-! ### BIKE_ID -/

/-- A frame at the dock buffer's head that a taker of its kind accepts is taken (R180, R193). -/
theorem State.DockFrame.perform {s : State} {k : Kind} {f : Frame} (h : s.DockFrame k f) (act : Frame → State → State) :
    s.perform (fun t => t.takeDock (fun x => x.isAddressed k) act) = .next (act f s) :=
  (State.perform_running h.running _).trans (congrArg _ (State.takeDock_eq act h.running h.restart h.head h.accepted))

theorem State.takeBikeId_stopped {s : State} {d : DockId} (timer : (s.dock d).returnTimer = .stopped)
    (present : (s.dock d).bike.level = true) (id : Nat) : s.takeBikeId d id = s.setBikeId d (some id) := by
  unfold State.takeBikeId
  rw [timer, present]

theorem State.takeBikeId_absent {s : State} {d : DockId} (timer : ∀ due, (s.dock d).returnTimer ≠ .runningForBike due)
    (absent : (s.dock d).bike.level = false) (id : Nat) :
    s.takeBikeId d id = (s.setBikeId d (some id)).setReturnTimer d (.runningForId (s.uptime + returnInterval)) := by
  unfold State.takeBikeId
  rw [absent]
  cases isTimer : (s.dock d).returnTimer with
  | stopped => rfl
  | runningForId due => rfl
  | runningForBike due => exact absurd isTimer (timer due)

/-- Settles O18: a frame that R12 discards has no valid dock and id; a valid one is taken by the table. -/
theorem bikeIdTaken : Obligations.BikeIdTaken := by
  unfold Obligations.BikeIdTaken
  intro f s frame
  have taken := frame.perform fun f u => State.release (if f.payload.length = 5 ∧ fieldAt f.payload 1 4 ≠ 0 then
    match dockOf (fieldAt f.payload 0 1) with
    | some d => u.takeBikeId d (fieldAt f.payload 1 4)
    | none => u
  else u) .dock
  refine ⟨fun discarded => taken.trans (congrArg _ ?_), ?_⟩
  · by_cases shaped : f.payload.length = 5 ∧ fieldAt f.payload 1 4 ≠ 0
    · rw [if_pos shaped, dockOf_none (by omega)]
      rfl
    · rw [if_neg shaped]
      rfl
  · intro d length ofDock valid id
    rw [if_pos ⟨length, valid⟩, ofDock, dockOf_val] at taken
    refine ⟨fun due timer present => ?_, fun timer present => ?_, fun timer absent => ?_⟩
    · refine ⟨_, State.handOverReturn_handedOver (s.setBikeId d (some id)) d _, taken.trans (congrArg _ ?_)⟩
      dsimp only
      unfold State.takeBikeId
      rw [timer, present]
      rfl
    · refine taken.trans (congrArg _ ?_)
      dsimp only
      rw [State.takeBikeId_stopped timer present]
      rfl
    · refine taken.trans (congrArg _ ?_)
      dsimp only
      rw [State.takeBikeId_absent timer absent]
      exact congrArg (State.release · .dock)
        (State.modDock_withDock s d (fun k => { k with bikeId := some id }) fun k =>
          { k with returnTimer := .runningForId (s.uptime + returnInterval) })

end Sys2Proof.Machine
end

section
/-! The station clock with the reservation check, and the endings of orders by their own clocks, by the latch and by the
drive (R18, R49, R50, R95, R96, R123, R124, R129, R130). -/

set_option Elab.async false

namespace Sys2Proof.Machine

/-! ### The station clock -/

/-- The reservation of a RESERVED dock has passed at a station time (R18). -/
theorem Dock.reservationExpired_iff (k : Dock) (now : Nat) :
    k.reservationExpired now = true ↔ k.state = .reserved ∧ ∃ r ∈ k.reservation, r.untilTime < now := by
  unfold Dock.reservationExpired
  cases k.reservation <;> simp

/-- The reservation check where time is known (R18). -/
theorem State.checkReservations_checked {s : State} (known : s.timeKnown = true) :
    s.ReservationsChecked s.checkReservations := by
  have now : s.now = some s.stationTime := if_pos known
  let checked : State := { s with docks := s.docks.map (Dock.expireReservation s.stationTime) }
  have passed (d : DockId) := (s.dock d).reservationExpired_iff s.stationTime
  have dock (d : DockId) : checked.dock d = (s.dock d).expireReservation s.stationTime := s.dock_map _ d
  have ended : s.checkReservations =
      if s.docks.any (Dock.reservationExpired s.stationTime) then checked.latch .reservationExpired else checked := by
    unfold State.checkReservations
    rw [now]
  have some_iff : s.docks.any (Dock.reservationExpired s.stationTime) = true ↔
      ∃ d, (s.dock d).reservationExpired s.stationTime = true := by
    rw [Vector.any_eq_true]
    exact ⟨fun ⟨i, inside, expired⟩ => ⟨⟨i, inside⟩, expired⟩, fun ⟨d, expired⟩ => ⟨d.val, d.isLt, expired⟩⟩
  refine ⟨fun ⟨d, expired⟩ => ⟨checked, ?_, rfl, fun d => ⟨fun expired => ?_, fun kept => ?_⟩⟩, fun kept => ?_⟩
  · rw [ended, if_pos (some_iff.2 ⟨d, (passed d).2 expired⟩)]
    exact State.latch_latched _ .reservationExpired
  · rw [dock]
    exact if_pos ((passed d).2 expired)
  · rw [dock]
    exact if_neg (mt (passed d).1 kept)
  · rw [ended, if_neg fun some => (some_iff.1 some).elim fun d expired => kept d ((passed d).1 expired)]
    have docks : checked.docks = s.docks :=
      checked.ext_docks s fun d => (dock d).trans (if_neg (mt (passed d).1 (kept d)))
    show ({ s with docks := checked.docks } : State) = s
    rw [docks]

/-- Settles O19: each of the two rows ends with the reservation check. -/
theorem stationTime : Obligations.StationTime := by
  unfold Obligations.StationTime
  intro s
  refine ⟨fun released known => ⟨_, (State.perform_eq released _).trans (congrArg _ (if_pos known)),
    State.checkReservations_checked known⟩, fun unknown => ?_, fun f request length => ⟨_, ?_,
    State.checkReservations_checked rfl⟩⟩
  · show Host.Outcome.next (s.unlessReset _) = _
    unfold State.unlessReset
    split
    · rfl
    · exact congrArg _ (if_neg (by simp [unknown]))
  · have calm : s.Calm (State.checkReservations { s with
        stationTime := fieldAt f.payload 0 4, timeKnown := true, secondFrom := s.clock / 2048 }) :=
      State.Calm.trans (t := { s with
        stationTime := fieldAt f.payload 0 4, timeKnown := true, secondFrom := s.clock / 2048 }) (.inside (.refl _))
        (.checkReservations _)
    exact (request.perform length _).trans (congrArg _ (request.reply_after calm .ok))

/-! ### Orders that end without the coil -/

/-- A NOT_TAKEN ending is settled by the order's stop mark (R108). -/
theorem Ending.settleKind_notTaken (o : Order) (n : NamedState) :
    (Ending.settleKind ⟨.notTaken, none, n⟩ o).kind = (if o.stopMark then .unlockFailed else .notTaken) ∧
      (Ending.settleKind ⟨.notTaken, none, n⟩ o).reason = if o.stopMark then some .abortedStop else none := by
  unfold Ending.settleKind
  cases o.stopMark <;> exact ⟨rfl, rfl⟩

/-- A CLOSING dock's order ends as its stop mark says (R108, R129, R130). -/
theorem State.OrdersOk.closing_ended {s : State} {d : DockId} {o : Order} (h : s.OrdersOk)
    (held : (s.dock d).order = some o) (closed : Bool) (n : NamedState) :
    s.Ended (s.driveEnd d none closed ⟨.notTaken, none, n⟩) d o closed (if o.stopMark then .unlockFailed else .notTaken)
      (if o.stopMark then some .abortedStop else none) none n.fault := by
  obtain ⟨kind, reason⟩ := Ending.settleKind_notTaken o n
  exact kind ▸ reason ▸ h.driveEnd_ended held none closed ⟨.notTaken, none, n⟩ nofun

/-- Settles O28: the order-end rule at a QUEUED dock, and the drive unit's ending at a CLOSING one. -/
theorem queuedOrClosingOrderEnds : Obligations.QueuedOrClosingOrderEnds := by
  unfold Obligations.QueuedOrClosingOrderEnds
  intro d o s orders
  refine ⟨fun queued => ⟨fun c running edge => ?_, fun c running edge => ?_, fun released => ?_⟩, ?_⟩
  · have handled := (s.bikeStored d false c).returnOnFall_fallHandled d
    obtain ⟨state, -, -, queue⟩ := handled.afterStored
    have ended := ((orders.bikeStored d false c).returnOnFall d).endOrder_ended (queue ▸ queued) (some .tamper)
      (.failed .tampered .vacant) fun _ => rfl
    have own : ((s.bikeStored d false c).returnOnFall d).ownBikeFall d =
        (((s.bikeStored d false c).returnOnFall d).latch .tamper).endOrder d (.failed .tampered .vacant) := by
      unfold State.ownBikeFall
      rw [state, orders.queuedState queued]
    refine ⟨_, _, handled, exec_bikePresentFall_running running edge, ?_⟩
    rw [own]
    exact ⟨ended, ended.atSensors⟩
  · have ended := (orders.latchStored d true c).endOrder_ended queued (some .tamper) (.failed .tampered .loose)
      fun _ => rfl
    have own : (s.latchStored d true c).ownLatchRise d c =
        ((s.latchStored d true c).latch .tamper).endOrder d (.failed .tampered .loose) := by
      unfold State.ownLatchRise
      rw [show ((s.latchStored d true c).dock d).state = .queued from
        (congrArg Dock.state (s.dock_latchStored d true c)).trans (orders.queuedState queued)]
    refine ⟨_, exec_latchOpenRise_running running edge, ?_⟩
    rw [own]
    exact ⟨ended, ended.atSensors⟩
  · have ended := (orders.advanceToCount (o.admitUptime + 50000)).endOrder_ended queued none
      (.failed .supplyTimeout .parked) fun _ => rfl
    refine ⟨_, (State.perform_eq released _).trans (congrArg _ ?_), ended, ended.atSensors⟩
    rw [queued]
    rfl
  · intro closing held kind reason
    refine ⟨fun c running edge => ?_, fun due released timer => ?_⟩
    · have ended := (orders.latchStored d false c).closing_ended
        ((congrArg Dock.order (s.dock_latchStored d false c)).trans held) true .parked
      have own : (s.latchStored d false c).ownLatchFall d =
          (s.latchStored d false c).driveEnd d none true ⟨.notTaken, none, .parked⟩ := by
        unfold State.ownLatchFall
        rw [show ((s.latchStored d false c).dock d).state = .closing from
          (congrArg Dock.state (s.dock_latchStored d false c)).trans closing]
      refine ⟨_, exec_latchOpenFall_running running edge, ?_⟩
      rw [own]
      exact ⟨ended, ended.atSensors⟩
    · have ended := (orders.advanceToCount due).closing_ended held (!(s.dock d).latch.level) .loose
      refine ⟨_, (State.perform_eq released _).trans (congrArg _ ?_), ended, ended.atSensors⟩
      rw [closing, timer]

/-! ### Drives that fail -/

/-- Settles O47: the drive unit's ending with the reason of each failure. -/
theorem driveFailures : Obligations.DriveFailures := by
  unfold Obligations.DriveFailures
  intro d s orders released
  constructor
  · intro o due pulling held timer u
    have expired : exec (.pullLimitExpiry d) s = .next (if o.underdriven then
        u.driveEnd d none false (.failed .noOpenLowSupply .parked)
      else u.driveEnd d (some .latchFault) false (.failed .latchJam (.service .latchJam))) := by
      refine (State.perform_eq released _).trans (congrArg _ ?_)
      rw [pulling, timer, held]
      rfl
    have uOrders : u.OrdersOk := orders.advanceToCount due
    refine ⟨fun underdriven => ?_, fun driven => ?_⟩
    · have ended := uOrders.driveEnd_ended held none false (.failed .noOpenLowSupply .parked) fun _ => rfl
      rw [if_pos underdriven] at expired
      exact ⟨_, expired, ended, ended.atSensors⟩
    · have ended := uOrders.driveEnd_ended held (some .latchFault) false (.failed .latchJam (.service .latchJam))
        fun _ => rfl
      rw [if_neg (by simp [driven])] at expired
      obtain ⟨state, fault, -⟩ := ended.service
      exact ⟨_, expired, ended, state, fault⟩
  · intro fault rest reports u reason kind
    have taken : exec .coilFaultReport s = .next (u.takeCoilFault d fault) := by
      refine (State.perform_eq released _).trans (congrArg _ ?_)
      rw [reports]
      rfl
    refine ⟨fun o drive held => ?_, fun elsewhere => taken.trans (congrArg _ ?_)⟩
    · have uOrders : u.OrdersOk := orders.steady .outside
      have ended := uOrders.driveEnd_ended held (some .latchFault) false
        (.failed fault.reason (.service fault.faultKind)) fun _ => rfl
      have driven : u.takeCoilFault d fault =
          u.driveEnd d (some .latchFault) false (.failed fault.reason (.service fault.faultKind)) := by
        unfold State.takeCoilFault
        rcases drive with pulling | opened
        · rw [show (u.dock d).state = .pulling from pulling]
        · rw [show (u.dock d).state = .opened from opened]
      obtain ⟨state, faultKind, -⟩ := ended.service
      refine ⟨_, taken, ?_⟩
      rw [driven]
      exact ⟨ended, state, faultKind⟩
    · unfold State.takeCoilFault
      show (match (s.dock d).state with | .pulling | .opened => _ | _ => u) = u
      cases state : (s.dock d).state <;> simp [state] at elsewhere ⊢

end Sys2Proof.Machine
end

section
/-! Referrals that end by themselves, sibling notices, and the frames that are forwarded or discarded (R82, R83, R86,
R89 to R91, R180 to R182). -/

set_option Elab.async false

namespace Sys2Proof.Machine

/-! ### Referrals that end -/

section
variable {s : State} {p : List Byte}

/-- The referral an answer matches is the first of the list that the statement's own test finds (R83). -/
theorem State.matchedReferral_eq (s : State) (p : List Byte) :
    s.matchedReferral p = s.referrals.find? fun r => decide (r.dock.val = fieldAt p 0 1 ∧
      (tokenOf r.token).passId = fieldAt p 1 4 ∧ (tokenOf r.token).serial = fieldAt p 5 2) := by
  unfold State.matchedReferral
  congr 1
  funext r
  rw [Bool.eq_iff_iff]
  simp [and_assoc]

end

/-- Settles O33: an answer that refuses ends its match, a timeout the referral of its dock. -/
theorem referralEnds : Obligations.ReferralEnds := by
  unfold Obligations.ReferralEnds
  constructor
  · intro f s request length code matching
    have taken : exec .referralAnswerRefuse s = .next (match s.referrals.find? matching with
        | none => s.reply .noReferral
        | some r => (s.endReferral r .refusedByStation (fieldAt f.payload 8 1)).replyWith .ok
            (bytesOf 1 Verdict.refusedByStation.code) .none) := by
      refine (State.perform_running request.running _).trans (congrArg _ ?_)
      rw [request.takeAnswer (answerCodeOf_refuse (by omega) code), if_neg (by simp [length]), s.matchedReferral_eq]
        <;> rfl
    refine ⟨fun noMatch => taken.trans (congrArg _ ?_), fun r found => taken.trans (congrArg _ ?_)⟩
    · rw [List.find?_eq_none.2 fun r mem => by simp [noMatch r mem]]
      exact request.reply_alone .noReferral
    · rw [found]
      dsimp only
      rw [State.endReferral_eq]
      exact request.replyWith_after (t := s.referralEnded r _ _) rfl .ok _ _
  · intro d r s released own u
    have ended (t : State) : t.endReferral r .noAnswer 0 = t.referralEnded r 23 0 := t.endReferral_eq r .noAnswer 0
    have expired : exec (.referralTimeout d) s = .next (match r.state with
        | .awaitingAnswer => (u.referralEnded r 23 0).latch .referralTimeout
        | .awaitingSend => u.referralEnded r 23 0) := by
      refine (State.perform_eq released _).trans (congrArg _ ?_)
      rw [show s.referralAt d = some r from own]
      dsimp only
      rw [ended]
      rfl
    refine ⟨fun awaiting => ?_, fun awaiting => ⟨_, expired, ?_⟩⟩
    · rw [expired, awaiting]
    · rw [awaiting]
      exact State.latch_latched _ .referralTimeout

/-! ### Sibling notices -/

/-- An entry that a notice of a serial and a delta has reached (R90). -/
theorem PassEntry.noticed_eq (e : PassEntry) (serial : Nat) (delta : Int) :
    e.noticed serial delta = { e with
      lastSerial := max e.lastSerial serial
      source := if e.lastSerial < serial then .notice else e.source
      ridesLeft := if e.ridesLeft = 65535 then 65535 else (min 65534 ((e.ridesLeft : Int) + delta)).toNat } := by
  have saturated : min 65534 ((e.ridesLeft : Int) + delta).toNat = (min 65534 ((e.ridesLeft : Int) + delta)).toNat := by
    omega
  unfold PassEntry.noticed PassEntry.addDelta
  by_cases greater : e.lastSerial < serial
  · simp only [if_pos greater, saturated, Nat.max_eq_right greater.le]
    split
    · rename_i unlimited
      rw [← unlimited]
    · rfl
  · simp only [if_neg greater, saturated, Nat.max_eq_left (Nat.le_of_not_lt greater)]
    split
    · rename_i unlimited
      rw [← unlimited]
    · rfl

/-- A latching and a change of the pass table do not meet. -/
theorem State.Attended.modPass {s t : State} (h : s.Attended t) (id : Nat) (f : PassEntry → PassEntry) :
    (s.modPass id f).Attended (t.modPass id f) := by
  obtain ⟨noneUnmasked, notArmed, armed⟩ := h
  refine ⟨fun none => ?_, fun some sent => ?_, fun some attention => ⟨fun slot => ?_, fun full => ?_⟩⟩
  · rw [noneUnmasked none]; rfl
  · rw [notArmed some sent]
  · rw [(armed some attention).1 slot]; rfl
  · rw [(armed some attention).2 full]; rfl

theorem State.Latched.modPass {s t : State} {kinds : EventSet} (h : s.Latched t kinds) (id : Nat)
    (f : PassEntry → PassEntry) : (s.modPass id f).Latched (t.modPass id f) kinds :=
  ⟨fun running => (h.1 running).modPass id f, fun notRunning => by rw [h.2 notRunning]; rfl⟩

theorem deltaOf_eq_none {p : List Byte} (other : fieldAt p 6 1 ∉ [0, 1, 255]) : deltaOf p = none := by
  unfold deltaOf
  simp only [List.mem_cons, List.not_mem_nil, or_false, not_or] at other
  split
  · omega
  · omega
  · omega
  · rfl

/-- Settles O34: what is discarded, what is applied, and the duplicate use. -/
theorem noticeTaken : Obligations.NoticeTaken := by
  unfold Obligations.NoticeTaken
  intro f s running restart idle head broadcast kind id serial ignored
  have taken : exec .notice s = .next (State.release (if f.source = s.station.address ∨ f.payload.length ≠ 7 then s
      else match deltaOf f.payload with
        | none => s
        | some delta => s.applyNotice id serial delta f.source) .station) := by
    refine (State.perform_running running _).trans (congrArg _ ?_)
    exact State.takeStation_eq _ running restart idle head (by
      simp [Frame.isBroadcastOf, Frame.isBroadcast, broadcast, kind, Kind.code])
  constructor
  · intro discarded
    refine taken.trans (congrArg _ ?_)
    by_cases own : f.source = s.station.address ∨ f.payload.length ≠ 7
    · rw [if_pos own]; rfl
    · rw [if_neg own, deltaOf_eq_none (by tauto)]; rfl
  · intro foreign length x mem carried
    have delta : deltaOf f.payload = some x.2 := by
      simp only [List.mem_cons, List.not_mem_nil, or_false] at mem
      unfold deltaOf
      rcases mem with rfl | rfl | rfl <;> rw [carried] <;> rfl
    rw [if_neg (by tauto), delta] at taken
    refine ⟨fun absent => taken.trans (congrArg _ ?_), fun e held => ?_⟩
    · dsimp only
      unfold State.applyNotice
      rw [State.findPass_eq_none absent]
      rfl
    · intro noticed
      have applied (t : State) : t.modPass id (fun y => y.noticed serial x.2) = { t with
          passes := t.passes.map fun e => if e.id = id then
            { e with
              lastSerial := max e.lastSerial serial
              source := if e.lastSerial < serial then .notice else e.source
              ridesLeft := if e.ridesLeft = 65535 then 65535 else (min 65534 ((e.ridesLeft : Int) + x.2)).toNat }
            else e } := by
        unfold State.modPass
        simp only [PassEntry.noticed_eq]
      have shows : e.showsDuplicate serial x.2 = true ↔ e.lastSerial = serial ∧ x.2 = -1 ∧ e.source = .localUse := by
        simp [PassEntry.showsDuplicate, and_assoc]
      have noticedState : s.applyNotice id serial x.2 f.source =
          (if e.showsDuplicate serial x.2 then s.noteDuplicate id serial f.source else s).modPass id
            fun y => y.noticed serial x.2 := by
        unfold State.applyNotice
        rw [show s.findPass id = some e from held]
      dsimp only at taken
      rw [noticedState] at taken
      refine ⟨fun duplicate => ?_, fun single => taken.trans (congrArg _ ?_)⟩
      · rw [if_pos (shows.2 duplicate)] at taken
        refine ⟨_, taken, ?_⟩
        have latched := State.latch_latched
          { s with events := { s.events with lastDuplicate := some ⟨id, serial, f.source⟩ } } .duplicateUse
        have told := latched.modPass id fun y => y.noticed serial x.2
        rw [applied { s with events := _ }] at told
        exact told
      · rw [if_neg (mt shows.1 single), applied]
        rfl

/-! ### Forwarded and discarded frames -/

/-- Settles O56: a MESSAGE takes its reserved slot; a frame with no taker leaves its buffer. -/
theorem framesForwardedOrDiscarded : Obligations.FramesForwardedOrDiscarded := by
  unfold Obligations.FramesForwardedOrDiscarded
  intro f s
  refine ⟨fun frame => frame.perform _, fun request => ?_, fun running restart head noTaker => ?_,
    fun running restart idle head broadcast noTaker => ?_⟩
  · refine (State.perform_running request.running _).trans (congrArg _ ?_)
    rw [request.takeStation request.accepted, List.drop_one]
    rfl
  · refine (State.perform_running running _).trans (congrArg _ ?_)
    exact State.takeDock_eq _ running restart head (by
      rcases noTaker with broadcast | kind
      · simp [Frame.noDockTaker, Frame.isBroadcast, broadcast]
      · simpa [Frame.noDockTaker, Kind.code] using Or.inr kind)
  · simp only [List.mem_cons, List.not_mem_nil, or_false, not_or] at noTaker
    refine (State.perform_running running _).trans (congrArg _ ?_)
    exact State.takeStation_eq _ running restart idle head (by
      simpa [Frame.noStationTaker, Frame.isBroadcast, Kind.code, broadcast] using ⟨noTaker.2, noTaker.1⟩)

end Sys2Proof.Machine
end

section
/-! Token admission: the check chain judged case by case, what an admission writes, and what a TAP does
(R54 to R74, R79). -/

set_option Elab.async false

namespace Sys2Proof.Machine

/-! ### Tests and cases -/

/-- A test answers the first of a list of cases that holds, and passes when none does. -/
def Judged (cases : List (Prop × Nat)) (found : Option Verdict) : Prop :=
  (∀ v, FirstCase cases v → ∃ w, found = some w ∧ w.code = v) ∧ (NoCase cases → found = none)

section
variable {c : Prop} {n : Nat} {found : Option Verdict} {cases rest : List (Prop × Nat)}

theorem Judged.nil (passed : found = none) : Judged [] found := ⟨nofun, fun _ => passed⟩

/-- A case that answers with its code when it holds, the rest judged when it does not. -/
theorem Judged.case (holds : c → ∃ w, found = some w ∧ w.code = n) (fails : ¬c → Judged rest found) :
    Judged ((c, n) :: rest) found := by
  refine ⟨fun v first => ?_, fun none => ?_⟩
  · obtain ⟨hc, rfl⟩ | ⟨hc, first⟩ := first
    · exact holds hc
    · exact (fails hc).1 v first
  · obtain ⟨notFirst, noneRest⟩ := List.forall_mem_cons.1 none
    exact (fails notFirst).2 noneRest

theorem noCase_append {a b : List (Prop × Nat)} : NoCase (a ++ b) ↔ NoCase a ∧ NoCase b := List.forall_mem_append

theorem firstCase_append {a b : List (Prop × Nat)} {v : Nat} :
    FirstCase (a ++ b) v ↔ FirstCase a v ∨ (NoCase a ∧ FirstCase b v) := by
  induction a with
  | nil => simp [FirstCase, NoCase]
  | cons x xs ih =>
    obtain ⟨c, n⟩ := x
    simp only [List.cons_append, FirstCase, ih, NoCase, List.forall_mem_cons]
    tauto

/-- The step of a chain that fails first gives the verdict. -/
theorem Judged.append {a b : List (Prop × Nat)} {x y : Option Verdict} (first : Judged a x) (second : Judged b y) :
    Judged (a ++ b) (x.or y) := by
  refine ⟨fun v case => ?_, fun none => ?_⟩
  · obtain inFirst | ⟨noneFirst, inSecond⟩ := firstCase_append.1 case
    · obtain ⟨w, rfl, code⟩ := first.1 v inFirst
      exact ⟨w, rfl, code⟩
    · rw [first.2 noneFirst]
      exact second.1 v inSecond
  · obtain ⟨noneFirst, noneSecond⟩ := noCase_append.1 none
    rw [first.2 noneFirst]
    exact second.2 noneSecond

end

theorem firstRefusal_cons (x : Option Verdict) (rest : List (Option Verdict)) :
    firstRefusal (x :: rest) = x.or (firstRefusal rest) := by cases x <;> rfl

theorem firstRefusal_nil : firstRefusal [] = none := rfl

/-! ### The steps of the chain -/

section
variable (s : State) (d : DockId) (t : Token) (p : List Byte) (e : PassEntry)

/-- What step 2 answers, with what it makes of a verdict that is given again. -/
def DockTest.judge (again : Verdict → Verdict) : DockTest → Option Verdict
  | .refuse v => some v
  | .again v => some (again v)
  | .pass _ => none

theorem DockTest.judge_busy (x : DockTest) : x.judge (fun _ => .dockBusy) = x.refusal := by cases x <;> rfl

theorem DockTest.judge_eq_none {x : DockTest} {again : Verdict → Verdict} (passed : x.judge again = none) :
    ∃ d, x = .pass d := by
  cases x with
  | pass d => exact ⟨d, rfl⟩
  | refuse v => cases passed
  | again v => cases passed

theorem Dock.bindingMatches_iff (k : Dock) (t : Token) :
    k.bindingMatches t = true ↔ k.boundPass = some t.passId ∧ k.boundSerial = some t.serial := by
  simp [Dock.bindingMatches]

/-- The rows of R58 for a configured dock in flight. -/
theorem State.dockRows_inFlight {s : State} {d : DockId} (flying : (s.dock d).inFlight = true) (t : Token) :
    s.dockRows d t = if (s.dock d).bindingMatches t then .again .admitted else .refuse .dockBusy := by
  have states := (s.dock d).inFlight_iff.1 flying
  simp only [List.mem_cons, List.not_mem_nil, or_false] at states
  unfold State.dockRows
  rcases states with state | state | state | state <;> rw [state]

/-- Steps 1 and 2 at a dock (R56 to R58). -/
theorem State.dockJudged (ofDock : t.dock = d.val) (again : Verdict → Verdict) :
    Judged (s.dockCases d t (again .admitted).code (again .pending).code)
      (s.stopTest.or ((s.dockTest t).judge again)) := by
  refine .case (fun stopped => ⟨.stopped, by simp [State.stopTest, stopped], rfl⟩) fun released => ?_
  have first : s.stopTest.or ((s.dockTest t).judge again) = (s.dockTest t).judge again := by
    simp [State.stopTest, released]
  have test : s.dockTest t = if (s.dock d).configured then s.dockRows d t else .refuse .dockService := by
    unfold State.dockTest
    rw [ofDock, dockOf_val]
  rw [first, test]
  refine .case (fun unconfigured => ⟨.dockService, by simp [unconfigured, DockTest.judge], rfl⟩) fun configured => ?_
  rw [if_pos (by simpa using configured)]
  refine .case (fun vacant => ⟨.dockEmpty, by simp [State.dockRows, vacant, DockTest.judge], rfl⟩) fun notVacant => ?_
  refine .case (fun loose => ⟨.dockNotReady, by simp [State.dockRows, loose, DockTest.judge], rfl⟩) fun notLoose => ?_
  refine .case (fun service => ⟨.dockService, by simp [State.dockRows, service, DockTest.judge], rfl⟩)
    fun notService => ?_
  refine .case (fun ⟨flying, bound⟩ => ⟨again .admitted, ?_, rfl⟩) fun notBound => ?_
  · rw [State.dockRows_inFlight flying, if_pos ((Dock.bindingMatches_iff _ _).2 bound)]
    rfl
  refine .case (fun flying => ⟨.dockBusy, ?_, rfl⟩) fun notFlying => ?_
  · rw [State.dockRows_inFlight flying, if_neg fun bound => notBound ⟨flying, (Dock.bindingMatches_iff _ _).1 bound⟩]
    rfl
  have ready : (s.dock d).state = .parked ∨ (s.dock d).state = .reserved := by
    rw [Dock.inFlight_iff] at notFlying
    cases state : (s.dock d).state <;> simp_all
  have rows : s.dockRows d t = if (s.referralAt d).isSome then
      if (s.dock d).bindingMatches t then .again .pending else .refuse .dockBusy
    else (s.dock d).reservationTest d t := by
    unfold State.dockRows
    rcases ready with parked | reserved
    · rw [parked]
    · rw [reserved]
  rw [rows]
  refine .case (fun ⟨referred, bound⟩ => ⟨again .pending, ?_, rfl⟩) fun notBound => ?_
  · rw [if_pos ((s.referralAt_isSome d).2 referred), if_pos ((Dock.bindingMatches_iff _ _).2 bound)]
    rfl
  refine .case (fun referred => ⟨.dockBusy, ?_, rfl⟩) fun notReferred => ?_
  · rw [if_pos ((s.referralAt_isSome d).2 referred),
      if_neg fun bound => notBound ⟨referred, (Dock.bindingMatches_iff _ _).1 bound⟩]
    rfl
  rw [if_neg (mt (s.referralAt_isSome d).1 notReferred)]
  refine .case (fun ⟨reserved, r, held, other⟩ => ⟨.reserved, ?_, rfl⟩) fun notOther => .nil ?_
  · simp only [Option.mem_def] at held
    simp [Dock.reservationTest, reserved, held, other, DockTest.judge]
  · rcases ready with parked | reserved
    · simp [Dock.reservationTest, parked, DockTest.judge]
    · cases held : (s.dock d).reservation with
      | none => simp [Dock.reservationTest, held, DockTest.judge]
      | some r =>
        have same : r.passId = t.passId := by
          by_contra other
          exact notOther ⟨reserved, r, held, other⟩
        simp [Dock.reservationTest, reserved, held, same, DockTest.judge]

/-- Step 3 (R60). -/
theorem State.roomJudged : Judged [(64 ≤ s.logSum, 9)] s.roomTest := by
  have sum : s.logSum = s.log.length + s.inFlight := rfl
  refine .case (fun full => ⟨.stationBusy, if_neg ?_, rfl⟩) fun room => .nil (if_pos ?_)
  · rw [s.roomForOrder_iff]
    omega
  · rw [s.roomForOrder_iff]
    omega

/-- Steps 3 to 6 (R60 to R63, R43, R53). -/
theorem State.tokenJudged : Judged (s.tokenCases p)
    (firstRefusal [s.roomTest, s.keyTest p, s.scopeTest (tokenOf p), s.denyTest (tokenOf p)]) := by
  have key : (∃ h : (tokenOf p).keySlot < 4, ∃ key ∈ s.keys[(tokenOf p).keySlot],
      checkCode key (tokenBytes p) = (tokenOf p).check) ↔ s.keyTest p = none := by
    unfold State.keyTest State.keyAt
    by_cases inside : (tokenOf p).keySlot < 4
    · simp only [inside, dite_true, exists_true_left]
      cases s.keys[(tokenOf p).keySlot] <;> simp
    · simp [inside]
  have keyRefuses : s.keyTest p = none ∨ s.keyTest p = some .badToken := by
    unfold State.keyTest
    split
    · split
      · exact .inl rfl
      · exact .inr rfl
    · exact .inr rfl
  simp only [firstRefusal_cons, firstRefusal_nil]
  refine Judged.append (a := [_]) s.roomJudged (.append (a := [_]) ?_ (.append (a := [_]) ?_ (.append (a := [_]) ?_ (.nil rfl))))
  · refine .case (fun wrong => ⟨.badToken, keyRefuses.resolve_left (mt key.2 wrong), rfl⟩) fun right => .nil ?_
    exact key.1 (not_not.1 right)
  · refine .case (fun ⟨isScoped, other⟩ => ⟨.wrongStation, if_neg (by simp [isScoped, other]), rfl⟩) fun own => .nil ?_
    exact if_pos (by tauto)
  · have revoked : s.revoked (tokenOf p).passId (tokenOf p).serial = true ↔
        ∃ e ∈ s.denies.find? (fun e => e.id == (tokenOf p).passId), ∀ n ∈ e.floor, (tokenOf p).serial < n := by
      unfold State.revoked State.findDeny
      cases s.denies.find? (fun e => e.id == (tokenOf p).passId) with
      | none => simp
      | some e => cases floor : e.floor <;> simp [floor]
    exact .case (fun denied => ⟨.revoked, if_pos (revoked.2 denied), rfl⟩)
      fun allowed => .nil (if_neg (mt revoked.1 allowed))

/-- Rides left is consumed by no admission (R39, R70). -/
theorem PassEntry.unmetered_iff : e.unmetered = true ↔ e.ridesLeft = 65535 ∨ e.cls = .staff := by
  simp [PassEntry.unmetered]

/-- Steps 8 to 12 (R65 to R69). -/
theorem State.entryJudged : Judged (s.entryCases t e) (s.entryTests t e) := by
  unfold State.entryTests
  simp only [firstRefusal_cons, firstRefusal_nil]
  refine Judged.append (a := [_, _]) ?_ (.append (a := [_]) ?_ (.append (a := [_]) ?_ (.append (a := [_]) ?_
    (.append (a := [_]) ?_ (.nil rfl)))))
  · refine .case (fun ⟨unknown, rider⟩ => ⟨.timeUnknown, ?_, rfl⟩) fun tested => ?_
    · simp [State.windowTest, State.now, unknown, rider]
    refine .case (fun ⟨known, outside⟩ => ⟨.expired, ?_, rfl⟩) fun within => .nil ?_
    · simp only [State.windowTest, State.now, known, if_true]
      exact if_neg (by omega)
    · cases known : s.timeKnown with
      | false =>
        cases cls : e.cls with
        | rider => exact absurd ⟨known, cls⟩ tested
        | staff => simp [State.windowTest, State.now, known, cls]
      | true =>
        simp only [State.windowTest, State.now, known, if_true]
        exact if_pos (by simp only [known, true_and, not_not] at within; omega)
  · refine .case (fun ⟨known, outside⟩ => ⟨.passNotValid, ?_, rfl⟩) fun within => .nil ?_
    · simp only [State.datesTest, State.now, known, if_true]
      exact if_neg outside
    · cases known : s.timeKnown with
      | false => simp [State.datesTest, State.now, known]
      | true =>
        simp only [State.datesTest, State.now, known, if_true]
        exact if_pos (by simpa [known] using within)
  · exact .case (fun used => ⟨.tokenUsed, if_neg (by omega), rfl⟩) fun fresh => .nil (if_pos (by omega))
  · refine .case (fun ⟨empty, rider⟩ => ⟨.noRides, if_neg ?_, rfl⟩) fun ride => .nil (if_pos ?_)
    · rw [e.unmetered_iff]
      simp [empty, rider]
    · rw [e.unmetered_iff]
      cases cls : e.cls with
      | staff => exact .inr (.inr rfl)
      | rider => exact .inl (Nat.pos_of_ne_zero fun empty => ride ⟨empty, cls⟩)
  · exact .case (fun full => ⟨.limit, if_neg (by omega), rfl⟩) fun room => .nil (if_pos (by omega))

end

end Sys2Proof.Machine
end

section
/-! What a TAP does: the verdict of its first failing check, the admission, the referral (R54, R64, R70 to R74, R79). -/

set_option Elab.async false

namespace Sys2Proof.Machine

/-! ### Admission -/

/-- What an admission changes in the pass entry, its class and rides left read as the statements do (R70). -/
theorem PassEntry.consume_eq (e : PassEntry) (serial : Nat) : e.consume serial = { e with
    ridesLeft := if e.ridesLeft = 65535 ∨ e.cls = .staff then e.ridesLeft else e.ridesLeft - 1
    lastSerial := serial, source := .localUse, inFlight := e.inFlight + 1 } := by
  unfold PassEntry.consume
  simp only [PassEntry.unmetered_iff]

/-- An admission at a dock that can take an order (R70 to R74). -/
theorem State.OrdersOk.admitted_admitted {s : State} (h : s.OrdersOk) {d : DockId} {origin : Origin} (t : Token)
    (e : PassEntry) (reader : Address) (free : (s.dock d).inFlight = false) (unreferred : ∀ r ∈ s.referrals, r.dock ≠ d)
    (room : s.logSum ≤ 63) (idle : s.rearrangement = none) (rider : origin ≠ .staff) (phase : s.phase ≠ .starting) :
    s.Admitted (s.admitted d t origin e reader) d t origin e reader := by
  unfold State.Admitted
  intro unmetered used
  have consumed : s.modPass t.passId (fun x => x.consume t.serial) = used := by
    unfold State.modPass
    simp only [PassEntry.consume_eq]
    rfl
  have counts : ∀ x ∈ used.passes,
      x.inFlight = s.boundInFlight x.id + if some t.passId = some x.id then 1 else 0 := by
    intro x mem
    obtain ⟨y, held, rfl⟩ := List.mem_map.1 mem
    have count := h.passCounts y held
    by_cases same : y.id = t.passId
    · rw [same] at count
      simp [same, count]
    · simp [same, Ne.symm same, count]
  have grants := (h.orderQueued (origin := origin) (serial := some t.serial) counts free unreferred room idle
    (by simp [rider]) phase).grantsMade
  refine ⟨_, grants, ?_⟩
  have noticed : deltaByte (if e.unmetered then 0 else -1) = if unmetered then 0 else 0xFF := by
    have same : e.unmetered = unmetered := by rw [Bool.eq_iff_iff, e.unmetered_iff, decide_eq_true_iff]
    rw [same]
    cases unmetered <;> rfl
  have admission : s.admitted d t origin e reader =
      (State.verdict (State.evaluateGrants (used.orderQueued d origin (some t.passId) (some t.serial)))
        reader t.dock t.passId t.serial .admitted 0).sendNotice t.passId t.serial (if e.unmetered then 0 else -1) := by
    unfold State.admitted
    rw [consumed, State.queueOrder_eq]
  obtain ⟨-, -, elsewhere⟩ := grants
  rw [admission, State.verdict_eq, State.sendNotice_eq, noticed]
  generalize State.evaluateGrants _ = u at elsewhere
  rw [elsewhere]
  rfl

/-! ### The chain of a TAP -/

section
variable {s : State} {p : List Byte} {d : DockId} (reader : Address)

/-- What the checks of steps 1 to 6 refuse or answer again. -/
def State.tapRefusal (s : State) (p : List Byte) : Option Verdict :=
  (s.stopTest.or ((s.dockTest (tokenOf p)).judge id)).or
    (firstRefusal [s.roomTest, s.keyTest p, s.scopeTest (tokenOf p), s.denyTest (tokenOf p)])

theorem State.tapJudged (s : State) (p : List Byte) (ofDock : (tokenOf p).dock = d.val) :
    Judged (s.dockCases d (tokenOf p) 1 2 ++ s.tokenCases p) (s.tapRefusal p) :=
  (s.dockJudged d (tokenOf p) ofDock id).append (s.tokenJudged p)

theorem State.decideTap_refused {v : Verdict} (refused : s.tapRefusal p = some v) :
    s.decideTap p reader = s.verdict reader (tokenOf p).dock (tokenOf p).passId (tokenOf p).serial v 0 := by
  unfold State.tapRefusal at refused
  unfold State.decideTap State.chainFromRoom
  dsimp only
  cases stop : s.stopTest with
  | some w =>
    rw [stop] at refused
    cases refused
    rfl
  | none =>
    rw [stop] at refused
    cases test : s.dockTest (tokenOf p) with
    | refuse w =>
      rw [test] at refused
      cases refused
      rfl
    | again w =>
      rw [test] at refused
      cases refused
      rfl
    | pass x =>
      rw [test] at refused
      have tokens : firstRefusal [s.roomTest, s.keyTest p, s.scopeTest (tokenOf p), s.denyTest (tokenOf p)] =
        some v := refused
      simp only [tokens]

/-- A TAP that steps 1 to 6 pass is decided against the pass table. -/
theorem State.decideTap_passed (ofDock : (tokenOf p).dock = d.val) (passed : s.tapRefusal p = none) :
    s.decideTap p reader = match s.findPass (tokenOf p).passId with
      | none => s.referOrRefuse d p reader
      | some e => match s.entryTests (tokenOf p) e with
        | some v => s.verdict reader (tokenOf p).dock (tokenOf p).passId (tokenOf p).serial v 0
        | none => s.admitted d (tokenOf p) .rider e reader := by
  obtain ⟨firstSteps, tokens⟩ := Option.or_eq_none_iff.1 passed
  obtain ⟨stop, judged⟩ := Option.or_eq_none_iff.1 firstSteps
  obtain ⟨x, test⟩ := DockTest.judge_eq_none judged
  obtain ⟨isDock, -⟩ := dockTest_pass test
  have same : d = x := Option.some.inj (by rw [← dockOf_val d, ← ofDock, isDock])
  unfold State.decideTap
  dsimp only
  rw [stop, test, ← same]
  dsimp only
  unfold State.chainFromRoom
  dsimp only
  rw [tokens] <;> rfl

/-- What passing the first steps says of the dock and the log. -/
theorem State.tapRefusal_none (ofDock : (tokenOf p).dock = d.val) (passed : s.tapRefusal p = none) :
    (s.dock d).inFlight = false ∧ (∀ r ∈ s.referrals, r.dock ≠ d) ∧ s.logSum ≤ 63 := by
  obtain ⟨firstSteps, tokens⟩ := Option.or_eq_none_iff.1 passed
  obtain ⟨-, judged⟩ := Option.or_eq_none_iff.1 firstSteps
  obtain ⟨x, test⟩ := DockTest.judge_eq_none judged
  obtain ⟨isDock, free, unreferred⟩ := dockTest_pass test
  have same : d = x := Option.some.inj (by rw [← dockOf_val d, ← ofDock, isDock])
  exact same ▸ ⟨free, unreferred, roomTest_none (firstRefusal_none tokens _ (.head _))⟩

end

/-! ### TAP -/

/-- A TAP at the head of the dock buffer, with the pass store not busy (R35, R54). -/
theorem State.DockFrame.tap {s : State} {f : Frame} (frame : s.DockFrame .tap f) (idle : s.rearrangement = none) :
    exec .tap s = .next (State.release (if f.payload.length = 20 then s.decideTap f.payload f.source else s) .dock) := by
  refine (State.perform_running frame.running _).trans (congrArg _ ?_)
  rw [if_neg (by simp [State.busy, idle])]
  exact State.takeDock_eq _ frame.running frame.restart frame.head frame.accepted

/-- Settles O29: the chain's cases are its tests. -/
theorem tapRefused : Obligations.TapRefused := by
  unfold Obligations.TapRefused
  intro f s frame idle t answered
  have taken := frame.tap idle
  have verdict (v : Verdict) : (s.verdict f.source t.dock t.passId t.serial v 0).release .dock = answered v.code := by
    rw [State.verdict_eq]
    rfl
  refine ⟨fun wrong => taken.trans (congrArg _ (by rw [if_neg wrong]; rfl)), fun length => ?_⟩
  rw [if_pos length] at taken
  have refusedBy {v : Verdict} (refused : s.tapRefusal f.payload = some v) : exec .tap s = .next (answered v.code) := by
    rw [taken, State.decideTap_refused _ refused]
    exact congrArg _ (verdict v)
  refine ⟨fun stopped => refusedBy (v := .stopped) ?_, fun released above => refusedBy (v := .dockService) ?_,
    fun d v ofDock => ⟨fun first => ?_, fun e none held first => ?_⟩⟩
  · simp [State.tapRefusal, State.stopTest, stopped]
  · have outside : s.dockTest (tokenOf f.payload) = .refuse .dockService := by
      unfold State.dockTest
      rw [dockOf_none above]
    simp [State.tapRefusal, State.stopTest, released, outside, DockTest.judge]
  · obtain ⟨w, refused, rfl⟩ := (s.tapJudged f.payload ofDock).1 v first
    exact refusedBy refused
  · obtain ⟨w, refused, rfl⟩ := (s.entryJudged t e).1 v first
    rw [taken, State.decideTap_passed _ ofDock ((s.tapJudged f.payload ofDock).2 none),
      show s.findPass (tokenOf f.payload).passId = some e from held]
    dsimp only
    rw [refused]
    exact congrArg _ (verdict w)

/-- Settles O30. -/
theorem tapAdmitted : Obligations.TapAdmitted := by
  unfold Obligations.TapAdmitted
  intro f d e s orders frame idle length t ofDock none held noneEntry
  have passed := (s.tapJudged f.payload ofDock).2 none
  obtain ⟨free, unreferred, room⟩ := State.tapRefusal_none ofDock passed
  refine ⟨_, orders.admitted_admitted t e f.source free unreferred room idle nofun (by rw [frame.running]; decide), ?_⟩
  rw [frame.tap idle, if_pos length, State.decideTap_passed _ ofDock passed,
    show s.findPass (tokenOf f.payload).passId = some e from held]
  dsimp only
  rw [(s.entryJudged t e).2 noneEntry]
  rfl

/-- Settles O31: the three rows of a pass that is not held. -/
theorem tapReferred : Obligations.TapReferred := by
  unfold Obligations.TapReferred
  intro f d s frame idle length t answered ofDock none absent
  have taken : exec .tap s = .next (State.release (s.referOrRefuse d f.payload f.source) .dock) := by
    rw [frame.tap idle, if_pos length,
      State.decideTap_passed _ ofDock ((s.tapJudged f.payload ofDock).2 none), State.findPass_eq_none absent]
  have verdict (v : Verdict) : (s.verdict f.source t.dock t.passId t.serial v 0).release .dock =
      { s with dockPort := answered v.code } := by
    rw [State.verdict_eq]
    rfl
  unfold State.referOrRefuse at taken
  refine ⟨fun disabled => taken.trans (congrArg _ ?_), fun enabled full => taken.trans (congrArg _ ?_),
    fun enabled few slot => taken.trans (congrArg _ ?_)⟩
  · rw [disabled]
    exact verdict .unknownPass
  · rw [enabled]
    rw [if_neg (by decide), if_pos (by rw [Port.free_eq_zero]; exact full)]
    exact verdict .busy
  · rw [enabled]
    rw [if_neg (by decide), if_neg (by rw [Port.free_eq_zero]; omega)]
    have sent (x : TxFrame) : { s.station with tx := s.station.tx ++ [x] } = s.station.offered x := (if_pos slot).symm
    unfold State.createReferral
    dsimp only
    rw [State.verdict_eq, State.offer_station_eq, sent]
    rfl

end Sys2Proof.Machine
end

section
/-! The decision on an ADMIT answer, at once and at the end of a rearrangement (R34, R83 to R85). -/

set_option Elab.async false

namespace Sys2Proof.Machine

theorem dockOf_eq_some {n : Nat} {d : DockId} : dockOf n = some d ↔ n = d.val := by
  refine ⟨fun named => ?_, fun named => named ▸ dockOf_val d⟩
  unfold dockOf at named
  split at named
  · exact congrArg Fin.val (Option.some.inj named)
  · cases named

/-! ### The decision -/

/-- An admission leaves the station receive buffer. -/
theorem State.Admitted.stationRx {s t : State} {d : DockId} {k : Token} {origin : Origin} {e : PassEntry}
    {reader : Address} (h : s.Admitted t d k origin e reader) : t.station.rx = s.station.rx := by
  obtain ⟨u, -, rfl⟩ := h
  unfold Port.offeredIf Port.offered
  dsimp only
  split_ifs <;> rfl

/-- The cases of a decision are its tests (R85). -/
theorem State.answerJudged (s : State) {d : DockId} (t : Token) (e : PassEntry) (ofDock : t.dock = d.val) :
    Judged (s.dockCases d t 7 7 ++ [(64 ≤ s.logSum, 9)] ++ s.entryCases t e) (s.answerTests t e) := by
  have judged := ((s.dockJudged d t ofDock fun _ => .dockBusy).append s.roomJudged).append (s.entryJudged t e)
  have chain : s.answerTests t e =
      ((s.stopTest.or ((s.dockTest t).judge fun _ => .dockBusy)).or s.roomTest).or (s.entryTests t e) := by
    unfold State.answerTests
    simp only [firstRefusal_cons, firstRefusal_nil, DockTest.judge_busy, Option.or_assoc, Option.or_none]
  exact chain ▸ judged

/-- An ADMIT answer is decided (R85). -/
theorem State.OrdersOk.decideAnswer_decided {s : State} {f : Frame} {d : DockId} {token : List Byte} {e : PassEntry}
    (h : s.OrdersOk) (head : s.station.rx.head? = some f) (kind : f.kind = 0x1B)
    (ofDock : dockOf (tokenOf token).dock = some d) (idle : s.rearrangement = none) (phase : s.phase ≠ .starting)
    (status : Status) : s.Decided (s.decideAnswer d token e status) f d token e status.code := by
  have isDock := dockOf_eq_some.1 ofDock
  have judged := s.answerJudged (tokenOf token) e isDock
  have priority : replyPriority f.kind = 2 := by rw [kind]; rfl
  have replied (t : State) (same : t.station.rx = s.station.rx) (v : Verdict) :
      t.replyWith status (bytesOf 1 v.code) .none = t.replied f 2 status.code [BitVec.ofNat 8 v.code] := by
    rw [State.replyWith_eq (same ▸ head), priority, bytesOf_one]
  unfold State.Decided
  intro k reader cases
  refine ⟨fun v first => ?_, fun none => ?_⟩
  · obtain ⟨w, refused, rfl⟩ := judged.1 v first
    unfold State.decideAnswer
    dsimp only
    rw [refused]
    dsimp only
    rw [State.verdict_eq, readerOf_eq]
    exact (replied _ (by rfl) w).trans (by rfl)
  · have passed := judged.2 none
    have tests := firstRefusal_none passed
    have room := roomTest_none (tests _ (.tail _ (.tail _ (.head _))))
    have refusal : (s.dockTest k).judge (fun _ => .dockBusy) = Option.none :=
      (DockTest.judge_busy _).trans (tests _ (.tail _ (.head _)))
    obtain ⟨x, test⟩ := DockTest.judge_eq_none refusal
    obtain ⟨testDock, free, unreferred⟩ := dockTest_pass test
    have same : d = x := Option.some.inj (ofDock.symm.trans testDock)
    rw [← same] at free unreferred
    have admitted := h.admitted_admitted k e (readerOf d) free unreferred room idle (origin := .referred) nofun phase
    rw [readerOf_eq] at admitted
    refine ⟨_, admitted, ?_⟩
    unfold State.decideAnswer
    dsimp only
    rw [passed, readerOf_eq]
    exact replied _ admitted.stationRx .admitted

/-! ### REARRANGEMENT_END -/

/-- The tables of a state whose rearrangement has ended. -/
theorem State.TablesOk.ended {s : State} (h : s.TablesOk) (clock : Nat) :
    State.TablesOk { s with clock := clock, rearrangement := none } :=
  ⟨h.passOrder, h.passCount, h.passRange, h.denyOrder, h.denyCount, h.denyRange, nofun⟩

/-- Settles O40: each kind of work ends as its request was to end. -/
theorem rearrangementEnds : Obligations.RearrangementEnds := by
  unfold Obligations.RearrangementEnds
  intro f r s tables orders phase head busy u
  have ended : exec .rearrangementEnd s = .next (u.finishWork r.work) := exec_rearrangementEnd_eq phase busy
  have fits := tables.work r busy
  have uTables : u.TablesOk := tables.ended _
  have uOrders : u.OrdersOk := orders.withWork _ none nofun
  have replied (t : State) (same : t.station.rx = s.station.rx) (priority : BitVec 2)
      (ofKind : replyPriority f.kind = priority) : t.reply .ok = t.replied f priority 0 := by
    rw [State.reply_eq (same ▸ head), ofKind]
    rfl
  refine ⟨fun e work kind => ended.trans (congrArg _ ?_), fun work kind => ended.trans (congrArg _ ?_),
    fun e work kind => ended.trans (congrArg _ ?_), fun work kind => ended.trans (congrArg _ ?_),
    fun e d token work kind => ⟨_, ended, ?_⟩⟩
  · rw [work] at fits ⊢
    show State.reply _ _ = _
    rw [State.insertPass_eq uTables fits.2.2]
    exact replied _ (by rfl) 3 (by rw [kind]; rfl)
  · rw [work]
    exact replied _ (by rfl) 3 (by rw [kind]; rfl)
  · rw [work] at fits ⊢
    show State.reply _ _ = _
    rw [insertDenyEntry_eq uTables fits.2.2]
    exact replied _ (by rfl) 3 (by rw [kind]; rfl)
  · rw [work]
    exact replied _ (by rfl) 3 (by rw [kind]; rfl)
  · have answer := orders.answer r busy
    rw [work] at fits answer ⊢
    obtain ⟨started, ofDock, -, -⟩ := answer
    have inserted : u.insertPass e = u.passInserted e := State.insertPass_eq uTables fits.2.2
    have counted : u.countedEntry e = { e with inFlight := s.docksOf e.id } := by
      rw [State.countedEntry, State.boundInFlight_eq]
      rfl
    show State.Decided _ (State.decideAnswer _ _ _ _ _) _ _ _ _ _
    rw [counted, inserted]
    have insertedOrders : (u.passInserted e).OrdersOk := inserted ▸ uOrders.insertPass e
    exact insertedOrders.decideAnswer_decided head kind ofDock rfl started .ok

/-! ### REFERRAL_ANSWER_ADMIT -/

/-- A referral has left the list, its dock still bound (R84). -/
def State.answeredReferral (s : State) (r : Referral) : State :=
  { s with referrals := s.referrals.filter fun x => x.number ≠ r.number }

theorem State.admitAnswer_eq (s : State) (r : Referral) (p : List Byte) : s.admitAnswer r p =
    match classOf (fieldAt p 8 1) with
    | none => s.reply .badValue
    | some cls =>
      if (carriedEntry (fieldAt p 1 4) cls p 8).datesCrossed then s.reply .badValue
      else (s.answeredReferral r).writeAnswered r (carriedEntry (fieldAt p 1 4) cls p 8) := by
  have left : { s with referrals := s.referrals.filter fun x => x.number != r.number } = s.answeredReferral r := by
    unfold State.answeredReferral
    congr 1
    exact List.filter_congr fun x _ => by simp [bne, Bool.beq_eq_decide_eq]
  unfold State.admitAnswer
  rw [← left]
  rfl

section
variable {s : State} {r : Referral}

/-- The dock of an answered referral has no other, and the rest agrees (R78). -/
theorem State.OrdersOk.answeredReferral (h : s.OrdersOk) (idle : s.rearrangement = none) :
    (s.answeredReferral r).OrdersOk := by
  refine ⟨h.docks, h.held, h.queued, h.inQueue, h.queueDocks, h.referralDocks.sublist (List.filter_sublist.map _),
    (List.length_filter_le _ _).trans h.referralCount, fun x kept => h.referrals x (List.mem_filter.1 kept).1,
    fun x busy => ?_, h.passCounts, h.room, h.slotsHeld, h.slots, h.pulling, h.starting⟩
  rw [show (s.answeredReferral r).rearrangement = none from idle] at busy
  cases busy

end

/-- Settles O32: the checks, the three ways of writing, and the decision. -/
theorem answerAdmit : Obligations.AnswerAdmit := by
  unfold Obligations.AnswerAdmit
  intro f s orders tables request length code id matching validUntil
  have idle := request.notBusy
  have kind : f.kind = 0x1B := request.kind
  have taken : exec .referralAnswerAdmit s = .next (match s.referrals.find? matching with
      | none => s.reply .noReferral
      | some r => s.admitAnswer r f.payload) := by
    refine (State.perform_running request.running _).trans (congrArg _ ?_)
    rw [request.takeAnswer (answerCodeOf_admitted (by omega) code), if_neg (by simp [length]), s.matchedReferral_eq]
      <;> rfl
  refine ⟨fun noMatch => taken.trans (congrArg _ ?_), fun r found => ?_⟩
  · rw [List.find?_eq_none.2 fun r mem => by simp [noMatch r mem]]
    exact request.reply_alone .noReferral
  rw [found] at taken
  dsimp only at taken
  rw [State.admitAnswer_eq] at taken
  refine ⟨fun bad => taken.trans (congrArg _ ?_), ?_⟩
  · cases named : classOf (fieldAt f.payload 8 1) with
    | none => exact request.reply_alone .badValue
    | some cls =>
      have dates := bad.resolve_left fun unknown => by rw [classOf_eq_none.2 unknown] at named; cases named
      dsimp only
      rw [if_pos ((carriedEntry_datesCrossed ..).2 dates)]
      exact request.reply_alone .badValue
  · intro cls isClass dates w u above
    rw [isClass, classOf_code] at taken
    dsimp only at taken
    rw [if_neg fun crossed => (dates.elim (fun zero => ((carriedEntry_datesCrossed ..).1 crossed).1 zero) fun ordered =>
      absurd ((carriedEntry_datesCrossed ..).1 crossed).2 (Nat.not_lt.2 ordered))] at taken
    have mem := List.mem_of_find?_eq_some found
    have uOrders : u.OrdersOk := orders.answeredReferral idle
    have uTables : u.TablesOk := ⟨tables.passOrder, tables.passCount, tables.passRange, tables.denyOrder,
      tables.denyCount, tables.denyRange, fun x busy => by rw [show u.rearrangement = none from idle] at busy; cases busy⟩
    have ofDock := (orders.referrals r mem).token
    have started : s.phase ≠ .starting := by rw [request.running]; decide
    have counted : u.countedEntry w = { w with inFlight := s.docksOf id } := by
      rw [State.countedEntry, State.boundInFlight_eq]
      rfl
    have written : exec .referralAnswerAdmit s = .next (u.writeAnswered r w) := taken
    unfold State.writeAnswered at written
    refine ⟨fun held valid stored => ⟨_, written, ?_⟩, fun valid absent room => ?_, fun cannot => ⟨_, written, ?_⟩⟩
    · rw [show u.findPass w.id = some held from stored]
      dsimp only
      rw [if_neg (show ¬w.id = 0 from valid), State.replacePass_eq u rfl, PassEntry.replaceWith_eq held rfl]
      have replaced : (u.passReplaced w).OrdersOk := State.replacePass_eq u (w := w) rfl ▸ uOrders.replacePass w
      exact replaced.decideAnswer_decided request.head kind ofDock idle started .ok
    · rw [show u.findPass w.id = none from State.findPass_eq_none absent] at written
      dsimp only at written
      rw [if_neg (by rintro (zero | full); exacts [valid zero, absurd room (Nat.not_lt.2 full)])] at written
      refine ⟨fun last => ⟨_, written, ?_⟩, fun moved => written.trans (congrArg _ (State.rearrange_moved _ moved _))⟩
      rw [show u.passesAbove w.id = 0 from last, State.rearrange_none_moved]
      show State.Decided _ (State.decideAnswer _ _ _ _ _) _ _ _ _ _
      have inserted : u.insertPass w = u.passInserted w := State.insertPass_eq uTables absent
      have insertedOrders : (u.passInserted w).OrdersOk := inserted ▸ uOrders.insertPass w
      rw [counted, inserted]
      exact insertedOrders.decideAnswer_decided request.head kind ofDock idle started .ok
    · have full : State.writeAnswered u r w = u.decideAnswer r.dock r.token (u.countedEntry w) .tableFull := by
        unfold State.writeAnswered
        rcases cannot with zero | ⟨absent, full⟩
        · split
          · exact if_pos zero
          · exact if_pos (.inl zero)
        · rw [show u.findPass w.id = none from State.findPass_eq_none absent]
          exact if_pos (.inr full)
      unfold State.writeAnswered at full
      rw [full, counted]
      exact uOrders.decideAnswer_decided request.head kind ofDock idle started .tableFull

end Sys2Proof.Machine
end

section
/-! The settings load: the records it applies, the ways it ends, and the entry into RUNNING (R196 to R199). -/

set_option Elab.async false

namespace Sys2Proof.Machine

/-! ### Records -/

/-- The records whose tag is above the one before (R197). -/
theorem Loader.tagRises_iff (l : Loader) (tag : Nat) : l.tagRises tag = true ↔ ∀ x ∈ l.lastTag, x < tag := by
  unfold Loader.tagRises
  cases l.lastTag <;> simp

theorem recordKindOf_profile {tag : Nat} {d : DockId} (named : tag = 16 + d.val) : recordKindOf tag = .profile d := by
  have inside := d.isLt
  unfold recordKindOf
  rw [if_neg (by omega), if_neg (by omega), if_neg (by omega), if_pos (by omega),
    show tag - 0x10 = d.val by omega, dockOf_val]

theorem recordKindOf_unknown {tag : Nat}
    (unknown : tag = 0 ∨ (3 ≤ tag ∧ tag < 16) ∨ (32 ≤ tag ∧ tag < 255)) : recordKindOf tag = .unknown := by
  unfold recordKindOf
  rw [if_neg (by omega), if_neg (by omega), if_neg (by omega)]
  split
  · rw [dockOf_none (by omega)]
  · rfl

section
variable (s : State) (tag b1 b2 b3 b4 b5 b6 b7 : Byte)

theorem fieldAt_tag (rest : List Byte) : fieldAt (tag :: rest) 0 1 = tag.toNat := by
  simp [fieldAt, numberOf]

/-- An identity record sets the values of its bytes (R197). -/
theorem State.applyIdentity_eq :
    s.applyIdentity [tag, b1, b2, b3, b4, b5, b6, b7] = s.identitySet b1 b2 b3 b4 b5 b6 := by
  simp only [State.applyIdentity, State.identitySet, fieldAt, List.drop, List.take, numberOf, List.foldl, Nat.zero_mul,
    Nat.zero_add]
  rfl

theorem State.applySupply_eq :
    s.applySupply [tag, b1, b2, b3, b4, b5, b6, b7] = s.supplySet b1 b2 b3 b4 b5 := by
  unfold State.applySupply
  rw [supplySettingsOf_recount]
  simp only [State.supplySet, Supply.written, fieldAt, List.drop, List.take, numberOf, List.foldl, Nat.zero_mul,
    Nat.zero_add] <;> rfl

theorem State.applyProfile_eq (d : DockId) :
    s.applyProfile d [tag, b1, b2, b3, b4, b5, b6, b7] = s.profileSet d b1 b2 b3 b4 b5 b6 b7 := by
  have configured : (b7.toNat != 0) = (b7 != 0) := by
    rw [Bool.eq_iff_iff, bne_iff_ne, bne_iff_ne, ne_eq, ne_eq, ← BitVec.toNat_inj]
    rfl
  unfold State.applyProfile
  rw [profileOf_eq]
  simp only [fieldAt, List.drop, List.take, numberOf, List.foldl, Nat.zero_mul, Nat.zero_add, configured]
  rfl

end

/-! ### A record in STARTING -/

section
variable {s : State} {record : List Byte} (starting : s.phase = .starting)
include starting

theorem exec_settingsRecordRead_late (length : record.length = 8) (late : (s.loader.startedAt + 100) * 2048 < s.clock) :
    exec (.settingsRecordRead record) s = .next (s.endLoad s.loader.failedStatus) := by
  refine (if_pos length).trans (congrArg _ ?_)
  rw [starting]
  exact if_pos (decide_eq_true late)

theorem exec_settingsRecordRead_judged (length : record.length = 8)
    (inTime : s.clock ≤ (s.loader.startedAt + 100) * 2048) :
    exec (.settingsRecordRead record) s = .next (s.judgeRecord record) := by
  refine (if_pos length).trans (congrArg _ ?_)
  rw [starting]
  exact if_neg fun late => absurd (of_decide_eq_true late) (Nat.not_lt.2 inTime)

end

section
variable {s : State} {tag : Byte} {rest : List Byte}

theorem State.judgeRecord_falling (falls : ∃ x ∈ s.loader.lastTag, tag.toNat ≤ x) :
    s.judgeRecord (tag :: rest) = s.endLoad (.error s.loader.index) := by
  obtain ⟨x, last, le⟩ := falls
  unfold State.judgeRecord
  dsimp only
  rw [fieldAt_tag, if_neg]
  rw [Loader.tagRises_iff]
  exact fun rises => absurd (rises x last) (Nat.not_lt.2 le)

section
variable (rises : ∀ x ∈ s.loader.lastTag, x < tag.toNat)
include rises

theorem State.judgeRecord_rising : s.judgeRecord (tag :: rest) = match recordKindOf tag.toNat with
    | .endOfList => s.endLoad .complete
    | .unknown => s.endLoad (.error s.loader.index)
    | k => (s.applyRecord k (tag :: rest)).nextRecord tag.toNat := by
  unfold State.judgeRecord
  dsimp only
  rw [fieldAt_tag, if_pos ((s.loader.tagRises_iff _).2 rises)] <;> rfl

end
end

/-- The three records that set values, in the words of the statements. -/
theorem State.judgeRecord_applied {s : State} {tag : Byte} (b1 b2 b3 b4 b5 b6 b7 : Byte)
    (rises : ∀ x ∈ s.loader.lastTag, x < tag.toNat) :
    (tag = 0x01 → s.judgeRecord [tag, b1, b2, b3, b4, b5, b6, b7] =
      (s.identitySet b1 b2 b3 b4 b5 b6).nextRecord tag.toNat) ∧
    (tag = 0x02 → s.judgeRecord [tag, b1, b2, b3, b4, b5, b6, b7] =
      (s.supplySet b1 b2 b3 b4 b5).nextRecord tag.toNat) ∧
    (∀ d : DockId, tag.toNat = 16 + d.val → s.judgeRecord [tag, b1, b2, b3, b4, b5, b6, b7] =
      (s.profileSet d b1 b2 b3 b4 b5 b6 b7).nextRecord tag.toNat) := by
  refine ⟨fun identity => ?_, fun supply => ?_, fun d profile => ?_⟩
  · rw [State.judgeRecord_rising rises, show recordKindOf tag.toNat = .identity by rw [identity]; rfl,
      ← s.applyIdentity_eq tag b1 b2 b3 b4 b5 b6 b7]
    rfl
  · rw [State.judgeRecord_rising rises, show recordKindOf tag.toNat = .supply by rw [supply]; rfl,
      ← s.applySupply_eq tag b1 b2 b3 b4 b5 b6 b7]
    rfl
  · rw [State.judgeRecord_rising rises, recordKindOf_profile profile, ← s.applyProfile_eq tag b1 b2 b3 b4 b5 b6 b7 d]
    rfl

/-- Settles O5. -/
theorem settingsRecordApplied : Obligations.SettingsRecordApplied := by
  unfold Obligations.SettingsRecordApplied
  refine ⟨fun s => ⟨fun starting => ?_, fun elsewhere => ?_⟩, ?_⟩
  · unfold State.addressBytes
    rw [starting]
    rfl
  · unfold State.addressBytes
    split
    · exact absurd (by assumption) elsewhere
    · rfl
  · intro s tag b1 b2 b3 b4 b5 b6 b7 starting notLast inTime rises result goesOn
    have judged : result = .next (s.judgeRecord [tag, b1, b2, b3, b4, b5, b6, b7]) :=
      exec_settingsRecordRead_judged starting rfl inTime
    obtain ⟨identity, supply, profile⟩ := State.judgeRecord_applied b1 b2 b3 b4 b5 b6 b7 rises
    have next (t : State) (index : t.loader.index = s.loader.index) (clock : t.clock = s.clock) :
        t.nextRecord tag.toNat = goesOn t :=
      (if_neg (index ▸ notLast)).trans (congrArg₂ (fun (i n : Nat) => ({ t with loader := { t.loader with
        index := i + 1, lastTag := some tag.toNat, startedAt := n / 2048 } } : State)) index clock)
    exact ⟨
      fun isTag => judged.trans (congrArg _ ((identity isTag).trans (next (s.identitySet b1 b2 b3 b4 b5 b6) rfl rfl))),
      fun isTag => judged.trans (congrArg _ ((supply isTag).trans (next (s.supplySet b1 b2 b3 b4 b5) rfl rfl))),
      fun d isTag => judged.trans (congrArg _ ((profile d isTag).trans
        (next (s.profileSet d b1 b2 b3 b4 b5 b6 b7) rfl rfl)))⟩

/-! ### The entry into RUNNING -/

section
variable {u : State} (empty : u.queue = [])
include empty

/-- With no order queued a grant evaluation grants none. -/
theorem State.grantsMade_of_empty : u.GrantsMade u.evaluateGrants := by
  have same : u.evaluateGrants = u := by
    unfold State.evaluateGrants
    rw [empty]
    rfl
  have grantNone : u.queue.take u.grantable = [] := by rw [empty]; exact List.take_nil
  rw [same]
  constructor
  · rw [grantNone]
    nofun
  · exact fun _ _ => rfl
  · rw [empty, List.drop_nil, ← empty]

/-- The level evaluated once from the latest supply sample, if there is one (R98). -/
theorem State.evaluateFromLatest_evaluated :
    (∀ c, u.sense.latest = some c → u.LevelEvaluated u.evaluateFromLatest (10 * c.toNat)) ∧
      (u.sense.latest = none → u.evaluateFromLatest = u) := by
  unfold State.evaluateFromLatest
  refine ⟨fun c latest => ?_, fun latest => by rw [latest]⟩
  rw [latest]
  exact State.evaluateLevel_evaluated _ fun v quiet => State.grantsMade_of_empty (quiet.queue.trans empty)

end

/-- The end of a load and the entry into RUNNING that follows (R198, R199). -/
theorem State.endLoad_entered {s : State} (starting : s.phase = .starting) (empty : s.queue = []) (status : LoadStatus) :
    s.EnteredRunning status (s.endLoad status) := by
  unfold State.EnteredRunning
  intro entered evaluated
  have classified : Dock.classify = fun k => if k.configured = true then k.fromSensors else k := by
    funext k
    unfold Dock.classify
    rw [Dock.takeFromSensors_eq]
  have ended : s.endLoad status = (entered s.freeCount).evaluateAndAttend := by
    have told : (State.latch { s with loader := { s.loader with status := status } } .loadError) =
        State.withKinds { s with loader := { s.loader with status := status } } (kindSet 9) :=
      (State.latch_latched { s with loader := { s.loader with status := status } } .loadError).2
        (by rw [show State.phase { s with loader := _ } = _ from starting]; decide)
    cases status with
    | complete =>
      show State.enterRunning _ = _
      unfold State.enterRunning
      rw [classified]
      rfl
    | _ =>
      show State.enterRunning (State.latch _ _) = _
      rw [told]
      unfold State.enterRunning
      rw [classified]
      rfl
  have evaluatedOf (v : State) (emptyQueue : v.queue = []) (latest : v.sense = s.sense) :
      evaluated v v.evaluateFromLatest := by
    obtain ⟨sampled, unsampled⟩ := State.evaluateFromLatest_evaluated emptyQueue
    show (match s.sense.latest with
      | some c => v.LevelEvaluated v.evaluateFromLatest (10 * c.toNat)
      | none => v.evaluateFromLatest = v)
    cases sample : s.sense.latest with
    | some c => exact sampled c ((congrArg Sense.latest latest).trans sample)
    | none => exact unsampled ((congrArg Sense.latest latest).trans sample)
  rw [ended]
  unfold State.evaluateAndAttend
  split
  · split
    · have quiet := State.Quiet.attend (entered (s.freeCount + 1))
      exact ⟨s.freeCount + 1, _, .inl ⟨State.attend_attended _, evaluatedOf _ (quiet.queue.trans empty) quiet.sense⟩⟩
    · exact ⟨s.freeCount + 1, _, .inr ⟨evaluatedOf (entered (s.freeCount + 1)) empty rfl, State.attend_attended _⟩⟩
  · have quiet := State.Quiet.attend (entered s.freeCount)
    exact ⟨s.freeCount, _, .inl ⟨State.attend_attended _, evaluatedOf _ (quiet.queue.trans empty) quiet.sense⟩⟩

/-- Settles O6: each ending of a load is an entry into RUNNING. -/
theorem loadEnds : Obligations.LoadEnds := by
  unfold Obligations.LoadEnds
  intro s starting empty failed due
  refine ⟨fun cause => ?_, fun record length late => ?_, fun tag b1 b2 b3 b4 b5 b6 b7 inTime => ?_⟩
  · refine ⟨State.endLoad (if cause = .timedOut then { s with clock := max s.clock due } else s) failed, ?_,
      State.endLoad_entered ?_ ?_ failed⟩
    · refine (congrArg (fun phase => Host.Outcome.next (match phase, cause with
        | Phase.starting, I2cFailure.timedOut =>
          (s.advanceToCount (s.loader.startedAt + 100)).endLoad s.loader.failedStatus
        | .starting, _ => s.endLoad s.loader.failedStatus
        | _, _ => s)) starting).trans ?_
      cases cause <;> rfl
    · split
      · exact starting
      · exact starting
    · split
      · exact empty
      · exact empty
  · exact ⟨_, exec_settingsRecordRead_late starting length late, State.endLoad_entered starting empty failed⟩
  · intro result
    have judged : result = .next (s.judgeRecord [tag, b1, b2, b3, b4, b5, b6, b7]) :=
      exec_settingsRecordRead_judged starting rfl inTime
    refine ⟨fun falls => ⟨_, judged, ?_⟩, fun rises => ⟨fun last => ⟨_, judged, ?_⟩, fun unknown => ⟨_, judged, ?_⟩,
      fun full => ?_⟩⟩
    · rw [State.judgeRecord_falling falls]
      exact State.endLoad_entered starting empty _
    · rw [State.judgeRecord_rising rises, show recordKindOf tag.toNat = .endOfList by rw [last]; rfl]
      exact State.endLoad_entered starting empty _
    · have kind : recordKindOf tag.toNat = .unknown :=
        recordKindOf_unknown (unknown.imp_left fun zero => by rw [zero]; rfl)
      rw [State.judgeRecord_rising rises, kind]
      exact State.endLoad_entered starting empty _
    · obtain ⟨identity, supply, profile⟩ := State.judgeRecord_applied b1 b2 b3 b4 b5 b6 b7 rises
      have ends (t : State) (index : t.loader.index = s.loader.index) :
          t.nextRecord tag.toNat = t.endLoad (.error 32) := if_pos (index.trans full)
      refine ⟨fun isTag => ⟨_, judged, ?_⟩, fun isTag => ⟨_, judged, ?_⟩, fun d isTag => ⟨_, judged, ?_⟩⟩
      · rw [identity isTag, ends (s.identitySet b1 b2 b3 b4 b5 b6) rfl]
        exact State.endLoad_entered (s := s.identitySet b1 b2 b3 b4 b5 b6) starting empty _
      · rw [supply isTag, ends (s.supplySet b1 b2 b3 b4 b5) rfl]
        exact State.endLoad_entered (s := s.supplySet b1 b2 b3 b4 b5) starting empty _
      · rw [profile d isTag, ends (s.profileSet d b1 b2 b3 b4 b5 b6 b7) rfl]
        exact State.endLoad_entered (s := s.profileSet d b1 b2 b3 b4 b5 b6 b7) starting empty _

end Sys2Proof.Machine
end

section
/-! The link: how a received frame is judged, and the line states of a port with arbitration (R168 to R174, R178,
R179). -/

set_option Elab.async false

namespace Sys2Proof.Machine

/-! ### Judging a received frame -/

section
variable (s : State) (p : PortId)

theorem State.canReceive_iff : s.canReceive p = true ↔
    s.phase = .running ∧ s.marks.restart = false ∧ (s.port p).rx.length < 2 := by
  simp [State.canReceive, and_assoc]

theorem State.hasSlot_iff : s.hasSlot (some p) = true ↔ (s.port p).tx.length + (s.port p).reserved < 8 := by
  simp only [State.hasSlot, bne_iff_ne, ne_eq, Port.free_eq_zero, Nat.not_le]

/-- A line state is none of a port's buffers, queues and addresses. -/
theorem State.port_setLine (l : LineState) (q : PortId) :
    ((s.setLine p l).port q).tx = (s.port q).tx ∧ ((s.setLine p l).port q).reserved = (s.port q).reserved ∧
      ((s.setLine p l).port q).rx = (s.port q).rx ∧ ((s.setLine p l).port q).address = (s.port q).address := by
  cases p <;> cases q <;> exact ⟨rfl, rfl, rfl, rfl⟩

variable {s p} {f : Frame}

/-- A broadcast is placed if it can be taken (R171, R179). -/
theorem State.judgeFrame_broadcast (broadcast : f.dest = 0) :
    s.judgeFrame p f = if s.canReceive p then s.modPort p (·.place f) else s :=
  if_pos (by simp [Frame.isBroadcast, broadcast])

theorem State.judgeFrame_foreign (addressed : f.dest ≠ 0) (foreign : f.dest ≠ (s.port p).address) :
    s.judgeFrame p f = s :=
  (if_neg (by simpa [Frame.isBroadcast] using addressed)).trans (if_neg foreign)

/-- A frame to the port is placed with its slot reserved if the port acknowledges it (R178). -/
theorem State.judgeFrame_own (addressed : f.dest ≠ 0) (own : f.dest = (s.port p).address) :
    s.judgeFrame p f =
      if s.acknowledges p f then (s.reserveOn (f.reservesOn p)).modPort p (·.place f) else s :=
  (if_neg (by simpa [Frame.isBroadcast] using addressed)).trans (if_pos own)

/-- A frame that is no MESSAGE needs a buffer slot, and at the station port the slot of its REPLY. -/
theorem State.acknowledges_iff (other : f.kind ≠ 0x05) :
    s.acknowledges p f = true ↔ s.canReceive p = true ∧ s.hasSlot (f.reservesOn p) = true := by
  have notMessage : (f.kind != Kind.message.code) = true := bne_iff_ne.2 other
  unfold State.acknowledges
  rw [notMessage]
  simp

/-- A MESSAGE must be one that the port can forward, too. -/
theorem State.acknowledges_message (message : f.kind = 0x05) : s.acknowledges p f = true ↔
    s.canReceive p = true ∧ f.forwardable p = true ∧ s.hasSlot (some (otherPort p)) = true := by
  simp [State.acknowledges, Frame.reservesOn, Kind.code, message, and_assoc]

theorem Frame.reservesOn_message (message : f.kind = 0x05) : f.reservesOn p = some (otherPort p) := if_pos message

theorem Frame.reservesOn_other (other : f.kind ≠ 0x05) : f.reservesOn p = match p with
    | .station => some .station
    | .dock => none := if_neg other

end

/-- A frame that the port judges, by its step of the header (R169, R171). -/
theorem exec_frameReceived {s : State} {p : PortId} {header : BitVec 32} {payload : List Byte} {since : Nat}
    (phase : s.phase ≠ .inReset) (length : payload.length = headerLength header) (ends : headerHasNoEnd header = false)
    (line : (s.port p).line = .receiving since none) (check : BitVec 16) :
    exec (.frameReceived p header payload check) s = .next (s.receive p since header payload check) := by
  refine (if_pos length).trans ((State.perform_eq phase _).trans (congrArg _ ?_))
  rw [line]
  exact if_neg (by simp [ends])

/-- Settles O57: the judging of the frame where the port reads on. -/
theorem frameReceived : Obligations.FrameReceived := by
  unfold Obligations.FrameReceived
  intro p header payload check since s phase length ends line bits bitTime u placed reserving result open_ slot
  have received : result = .next (match receivedFrame header payload check with
      | some f => u.judgeFrame p f
      | none => u) := exec_frameReceived phase length ends line check
  have port := fun q => State.port_setLine { s with clock := max s.clock (since + (bits * bitTime * 512 + 24) / 25) } p
    (.receiving since (some payload.length)) q
  have clocked (q : PortId) : State.port { s with clock := max s.clock (since + (bits * bitTime * 512 + 24) / 25) } q =
      s.port q := by cases q <;> rfl
  have canReceive : u.canReceive p = true ↔ open_ := by
    rw [State.canReceive_iff, (port p).2.2.1, clocked]
    cases p <;> exact Iff.rfl
  have hasSlot (q : PortId) : u.hasSlot (some q) = true ↔ slot q := by
    rw [State.hasSlot_iff, (port q).1, (port q).2.1, clocked]
  have address : (u.port p).address = (s.port p).address := by rw [(port p).2.2.2, clocked]
  refine ⟨fun bad => by rw [received, bad], fun f good => ?_⟩
  rw [good] at received
  dsimp only at received
  refine ⟨fun broadcast => ?_, fun addressed foreign => ?_, fun addressed own => ?_⟩
  · rw [State.judgeFrame_broadcast broadcast] at received
    exact ⟨fun taken => by rw [received, if_pos (canReceive.2 taken)]; rfl,
      fun full => by rw [received, if_neg (mt canReceive.1 full)]⟩
  · rw [received, State.judgeFrame_foreign addressed (address ▸ foreign)]
  · rw [State.judgeFrame_own addressed (address ▸ own)] at received
    have notTaken (full : ¬open_) : u.acknowledges p f = false := by
      refine Bool.eq_false_iff.2 fun acknowledged => full (canReceive.1 ?_)
      by_cases message : f.kind = 0x05
      · exact ((State.acknowledges_message message).1 acknowledged).1
      · exact ((State.acknowledges_iff message).1 acknowledged).1
    refine ⟨fun full => by rw [received, notTaken full]; rfl, fun taken other isDock => ?_,
      fun taken other isStation => ?_, fun taken message isDock => ?_, fun taken message isStation => ?_⟩
    · subst isDock
      rw [received, if_pos ((State.acknowledges_iff other).2 ⟨canReceive.2 taken, ?_⟩), Frame.reservesOn_other other]
      · rfl
      · rw [Frame.reservesOn_other other]
        rfl
    · subst isStation
      have acknowledges : u.acknowledges .station f = true ↔ slot .station := by
        rw [State.acknowledges_iff other, Frame.reservesOn_other other, hasSlot]
        exact and_iff_right (canReceive.2 taken)
      refine ⟨fun free => ?_, fun full => by rw [received, if_neg (mt acknowledges.1 full)]⟩
      rw [received, if_pos (acknowledges.2 free), Frame.reservesOn_other other]
      rfl
    · subst isDock
      intro forwards
      have acknowledges : u.acknowledges .dock f = true ↔ forwards := by
        rw [State.acknowledges_message message, hasSlot, and_iff_right (canReceive.2 taken)]
        simp [Frame.forwardable, forwards, otherPort, and_assoc]
      refine ⟨fun can => ?_, fun cannot => by rw [received, if_neg (mt acknowledges.1 cannot)]⟩
      rw [received, if_pos (acknowledges.2 can), Frame.reservesOn_message message]
      rfl
    · subst isStation
      intro forwards
      have acknowledges : u.acknowledges .station f = true ↔ forwards := by
        rw [State.acknowledges_message message, hasSlot, and_iff_right (canReceive.2 taken)]
        simp [Frame.forwardable, forwards, otherPort, and_assoc]
      refine ⟨fun can => ?_, fun cannot => by rw [received, if_neg (mt acknowledges.1 cannot)]⟩
      rw [received, if_pos (acknowledges.2 can), Frame.reservesOn_message message]
      rfl

/-! ### The line -/

/-- The bit in which two arbitration fields first differ decides which is the lower and where the port withdraws
(R174). -/
theorem arbitration_lost {a b : BitVec 16} {i : Nat} (inside : i < 16) (low : a.getMsbD i = false)
    (high : b.getMsbD i = true) (same : ∀ j, j < i → a.getMsbD j = b.getMsbD j) :
    a < b ∧ firstDifference a b = i := by
  have bit (x : BitVec 16) {j : Nat} (j_lt : j < 16) : x.toNat.testBit (15 - j) = x.getMsbD j := by
    simp [BitVec.getMsbD, BitVec.getLsbD, j_lt]
  have above {j : Nat} (j_lt : 15 - i < j) : a.toNat.testBit j = b.toNat.testBit j := by
    by_cases outside : 16 ≤ j
    · rw [Nat.testBit_lt_two_pow (a.isLt.trans_le (Nat.pow_le_pow_right (by decide) outside)),
        Nat.testBit_lt_two_pow (b.isLt.trans_le (Nat.pow_le_pow_right (by decide) outside))]
    · have reversed : j = 15 - (15 - j) := by omega
      rw [reversed, bit a (by omega), bit b (by omega)]
      exact same _ (by omega)
  have lowBit : a.toNat.testBit (15 - i) = false := (bit a inside).trans low
  have highBit : b.toNat.testBit (15 - i) = true := (bit b inside).trans high
  refine ⟨BitVec.lt_def.2 (Nat.lt_of_testBit (15 - i) lowBit highBit fun j lt => above lt), ?_⟩
  have differ : (a ^^^ b).toNat.testBit (15 - i) = true := by
    rw [BitVec.toNat_xor, Nat.testBit_xor, lowBit, highBit]
    rfl
  have least : 2 ^ (15 - i) ≤ (a ^^^ b).toNat := Nat.ge_two_pow_of_testBit differ
  have greatest : (a ^^^ b).toNat < 2 ^ (15 - i + 1) := by
    refine Nat.lt_pow_two_of_testBit _ fun j ge => ?_
    rw [BitVec.toNat_xor, Nat.testBit_xor, above (by omega)]
    exact bne_self_eq_false _
  have positive : (a ^^^ b).toNat ≠ 0 := by have := Nat.two_pow_pos (15 - i); omega
  have log : Nat.log2 (a ^^^ b).toNat = 15 - i := (Nat.log2_eq_iff positive).2 ⟨least, greatest⟩
  unfold firstDifference
  rw [log]
  omega

/-- Settles O58: each row at its line state. -/
theorem lineFollowed : Obligations.LineFollowed := by
  unfold Obligations.LineFollowed
  intro p s phase bitTime after at_
  have performed (effect : State → State) : s.perform effect = .next (effect s) := State.perform_eq phase effect
  refine ⟨fun countFrom waiting => ⟨?_, ?_⟩, fun idle => ⟨?_, fun queued => ?_⟩, fun since sending => ?_,
    fun since receiving => ?_, fun since head lineHeader i sending first inside low high same => ?_,
    fun since header receiving noEnd => ?_, fun since n receiving => ?_⟩
  · refine (performed _).trans (congrArg _ ?_)
    rw [waiting]
    rfl
  · refine (performed _).trans (congrArg _ ?_)
    rw [waiting]
  · refine (performed _).trans (congrArg _ ?_)
    rw [idle]
  · refine (performed _).trans (congrArg _ ?_)
    obtain ⟨x, xs, queue⟩ := List.exists_cons_of_ne_nil queued
    rw [idle, queue]
  · refine (performed _).trans (congrArg _ ?_)
    rw [sending]
  · intro bitEnd
    have sameStart : s.sameStart p since = decide (s.clock < bitEnd) := by
      unfold State.sameStart Port.bitsAfter
      rw [Nat.one_mul]
      rfl
    refine ⟨fun queued within => (performed _).trans (congrArg _ ?_), fun later => (performed _).trans (congrArg _ ?_)⟩
    · obtain ⟨x, xs, queue⟩ := List.exists_cons_of_ne_nil queued
      rw [receiving, queue]
      dsimp only
      rw [sameStart, if_pos (decide_eq_true within)]
    · rw [receiving]
      cases (s.port p).tx with
      | nil => rfl
      | cons x xs =>
        dsimp only
        rw [sameStart, if_neg (by simpa using later)]
  · obtain ⟨lower, position⟩ := arbitration_lost inside low high same
    obtain ⟨rest, queue⟩ : ∃ rest, (s.port p).tx = head :: rest := by
      cases queue : (s.port p).tx with
      | nil => rw [queue] at first; cases first
      | cons x xs => rw [queue] at first; cases first; exact ⟨xs, rfl⟩
    refine (performed _).trans (congrArg _ ?_)
    rw [sending, queue]
    dsimp only
    rw [if_pos lower, position]
    rfl
  · refine (performed _).trans (congrArg _ ?_)
    rw [receiving]
    exact if_pos noEnd
  · refine (performed _).trans (congrArg _ ?_)
    rw [receiving]
    rfl

end Sys2Proof.Machine
end

section
/-! Departures from the transmit queues: what the owner of a frame does, and the ATTENTION that is OWED (R81, R152, R155,
R159, R164, R175, R176, R192). -/

set_option Elab.async false

namespace Sys2Proof.Machine

/-! ### The log after a record has left -/

/-- The lowest-numbered dock with a pending return (R152). -/
theorem State.firstPendingReturn_eq_some {s : State} {d : DockId} {r : OutcomeRecord}
    (held : (s.dock d).pendingReturn = some r) (lowest : ∀ x, x < d → (s.dock x).pendingReturn = none) :
    s.firstPendingReturn = some (d, r) := by
  have found : allDocks.find? (fun x => (s.dock x).pendingReturn.isSome) = some d :=
    allDocks_find?_eq_some (by rw [held]; rfl) fun x other => by
      by_contra below
      rw [lowest x (not_le.1 below)] at other
      cases other
  obtain ⟨_, before, after, split, none⟩ := List.find?_eq_some_iff_append.1 found
  unfold State.firstPendingReturn
  rw [List.findSome?_eq_some_iff]
  refine ⟨before, d, after, split, by rw [held]; rfl, fun x mem => ?_⟩
  have empty : (s.dock x).pendingReturn = Option.none := by simpa using none x mem
  rw [empty]
  rfl

/-- A pending return slot is emptied into the log (R152). -/
theorem State.drainReturn_drained (s : State) : s.Drained s.drainReturn := by
  unfold State.drainReturn
  refine ⟨fun empty => ?_, fun d r held lowest => ?_⟩
  · have none : s.firstPendingReturn = Option.none := by
      unfold State.firstPendingReturn
      rw [List.findSome?_eq_none_iff]
      intro x _
      rw [empty x]
      rfl
    rw [none]
  · rw [State.firstPendingReturn_eq_some held lowest]
    exact State.logReturn_returnLogged _ r

/-! ### Owners -/

/-- An ATTENTION that is OWED is queued when a slot is free (R164). -/
theorem State.attendOwed_owedPaid (s : State) : s.OwedPaid s.attendOwed := by
  unfold State.attendOwed
  refine ⟨fun ⟨owed, kinds, slot⟩ => ?_, fun notDue => ?_⟩
  · rw [owed]
    dsimp only
    have ready : ¬(s.events.unmasked = 0 ∨ s.station.free = 0) := by
      rw [Port.free_eq_zero]
      rintro (none | full)
      · exact kinds none
      · omega
    rw [if_neg ready, State.offer_station_eq, Port.offered, if_pos slot]
    rfl
  · cases attention : s.events.attention with
    | owed =>
      refine if_pos ?_
      rw [Port.free_eq_zero]
      by_contra ready
      obtain ⟨kinds, slot⟩ := not_or.1 ready
      exact notDue ⟨attention, kinds, Nat.not_le.1 slot⟩
    | armed => rfl
    | sent => rfl

theorem State.attendOwed_of_notOwed {s : State} (notOwed : s.events.attention ≠ .owed) : s.attendOwed = s :=
  s.attendOwed_owedPaid.2 fun ⟨owed, _⟩ => notOwed owed

/-- A frame is acknowledged if it was addressed and its ack slot was dominant (R175). -/
theorem Frame.departure_acknowledged (f : Frame) (r : ReadBack) :
    f.departure r = .acknowledged ↔ r = .ackDominant ∧ f.dest ≠ 0 := by
  have broadcast : f.isBroadcast = true ↔ f.dest = 0 := beq_iff_eq
  unfold Frame.departure
  cases r with
  | mismatch => simp
  | ackDominant =>
    rw [ne_eq, ← broadcast]
    cases f.isBroadcast <;> simp
  | ackRecessive => cases f.isBroadcast <;> simp

section
variable (s : State) (w : Departure)

/-- The departure of a REFERRAL at its referral (R81). -/
theorem State.referralDeparted_told (n : Nat) (straps : BitVec 3) :
    s.Told (s.referralDeparted n w) (.referral n) (w = .acknowledged) straps := by
  unfold State.referralDeparted
  refine ⟨fun absent => ?_, fun r found => ⟨fun acknowledged => ?_, fun notAcknowledged => ?_⟩⟩
  · rw [List.find?_eq_none.2 fun r mem => by simpa using absent r mem]
  · rw [found, acknowledged]
  · rw [found]
    cases w with
    | acknowledged => exact absurd rfl notAcknowledged
    | unacknowledged => exact s.endReferral_eq r .noAnswer 0
    | sent => exact s.endReferral_eq r .noAnswer 0

/-- The departure of the REPLY to a COLLECT (R155). -/
theorem State.collectDeparted_told (straps : BitVec 3) :
    s.Told (s.collectDeparted w) .collect (w = .acknowledged) straps := by
  unfold State.collectDeparted
  refine ⟨fun acknowledged => ?_, fun notAcknowledged => ?_⟩
  · rw [acknowledged]
    exact State.drainReturn_drained _
  · cases w with
    | acknowledged => exact absurd rfl notAcknowledged
    | unacknowledged => rfl
    | sent => rfl

/-- The departure of the REPLY that carries a read (R159). -/
theorem State.eventReadDeparted_told (straps : BitVec 3) :
    s.Told (s.eventReadDeparted w) .eventRead (w = .acknowledged) straps := by
  unfold State.eventReadDeparted
  refine ⟨fun acknowledged => ?_, fun notAcknowledged => ?_⟩
  · rw [acknowledged]
    exact State.attend_attended _
  · cases w with
    | acknowledged => exact absurd rfl notAcknowledged
    | unacknowledged => rfl
    | sent => rfl

/-- The owner of a frame is told how it left (R176). -/
theorem State.tellOwner_told (owner : Owner) (straps : BitVec 3) :
    s.Told (s.tellOwner owner w straps) owner (w = .acknowledged) straps := by
  cases owner with
  | none => rfl
  | referral n => exact s.referralDeparted_told w n straps
  | collect => exact s.collectDeparted_told w straps
  | eventRead => exact s.eventReadDeparted_told w straps
  | restart =>
    exact ⟨State.afterReset_meets _ _ _ _ _ _ .starting, rfl, rfl, rfl, fun d => s.fullReset_dock straps d, rfl⟩

variable (owner : Owner) (straps : BitVec 3)

theorem State.stationDeparture_notOwed (notOwed : s.events.attention ≠ .owed) :
    s.stationDeparture owner w straps = s.tellOwner owner w straps := by
  unfold State.stationDeparture
  split
  · exact State.attendOwed_of_notOwed notOwed
  · exact absurd (by assumption) notOwed
  · rfl

/-- With an ATTENTION that is OWED the owner and the event unit both act, in either order (entry 8). -/
theorem State.stationDeparture_owed (owed : s.events.attention = .owed) : ∃ (u : State) (count : Nat),
    (State.Told { s with freeCount := count } u owner (w = .acknowledged) straps ∧
      u.OwedPaid (s.stationDeparture owner w straps)) ∨
    (State.OwedPaid { s with freeCount := count } u ∧
      u.Told (s.stationDeparture owner w straps) owner (w = .acknowledged) straps) := by
  by_cases noOwner : owner = .none
  · subst noOwner
    exact ⟨s, s.freeCount, .inl ⟨rfl, s.attendOwed_owedPaid⟩⟩
  · have both : s.stationDeparture owner w straps =
        if s.free 0 % 2 = 0 then ((s.spendFree 1).tellOwner owner w straps).attendOwed
        else (s.spendFree 1).attendOwed.tellOwner owner w straps := by
      unfold State.stationDeparture
      rw [owed]
      cases owner with
      | none => exact absurd rfl noOwner
      | _ => rfl
    rw [both]
    split
    · exact ⟨_, s.freeCount + 1, .inl ⟨(s.spendFree 1).tellOwner_told w owner straps, State.attendOwed_owedPaid _⟩⟩
    · exact ⟨_, s.freeCount + 1, .inr ⟨(s.spendFree 1).attendOwed_owedPaid, State.tellOwner_told _ w owner straps⟩⟩

end

/-- The head frame has left a queue whose port takes a line state (R175). -/
theorem State.popTx_setLine {s : State} {p : PortId} {head : TxFrame} {rest : List TxFrame}
    (queue : (s.port p).tx = head :: rest) (l : LineState) :
    (s.setLine p l).popTx p = s.modPort p fun q => { q with line := l, tx := rest } := by
  have popped (q : Port) (tx : q.tx = head :: rest) :
      ({ q with line := l, tx := q.tx.tail } : Port) = { q with line := l, tx := rest } := by rw [tx]; rfl
  cases p with
  | station => exact congrArg (fun q => { s with station := q }) (popped s.station queue)
  | dock => exact congrArg (fun q => { s with dockPort := q }) (popped s.dockPort queue)

/-- Settles O59: the attempt ends, then the owner and the event unit are told. -/
theorem frameDeparts : Obligations.FrameDeparts := by
  unfold Obligations.FrameDeparts
  intro p levels since head rest s phase sending queue n bitTime ended left acknowledged
  have leaves : (s.endAttempt p since n levels.readBack).popTx p = left := by
    have queueLater : (State.port { s with clock := ended } p).tx = head :: rest := by cases p <;> exact queue
    show _ = (match levels.readBack with
      | .mismatch => s.modPort p fun q => { q with line := .receiving since (some n), tx := rest }
      | _ => State.modPort { s with clock := ended } p fun q => { q with line := .waiting ended, tx := rest })
    cases levels.readBack with
    | mismatch => exact State.popTx_setLine queue _
    | ackDominant => exact State.popTx_setLine queueLater _
    | ackRecessive => exact State.popTx_setLine queueLater _
  have departs : exec (.frameDeparture p levels) s = .next (match (generalizing := false) p with
      | .station => left.stationDeparture head.owner (head.frame.departure levels.readBack) levels.straps
      | .dock => left) := by
    refine (State.perform_eq phase _).trans (congrArg _ ?_)
    rw [sending, queue]
    dsimp only
    rw [leaves] <;> rfl
  have isAcknowledged : (head.frame.departure levels.readBack = .acknowledged) = acknowledged :=
    propext (head.frame.departure_acknowledged levels.readBack)
  have attention : left.events = s.events := by
    rw [← leaves]
    unfold State.endAttempt
    cases levels.readBack <;> cases p <;> rfl
  refine ⟨fun isDock => ?_, fun isStation notOwed => ?_, fun isStation owed => ?_⟩
  · subst isDock
    exact departs
  · subst isStation
    refine ⟨_, departs, ?_⟩
    dsimp only
    rw [State.stationDeparture_notOwed _ _ _ _ (by rw [attention]; exact notOwed), ← isAcknowledged]
    exact left.tellOwner_told _ _ _
  · subst isStation
    obtain ⟨u, count, told⟩ := left.stationDeparture_owed (head.frame.departure levels.readBack) head.owner
      levels.straps (by rw [attention]; exact owed)
    rw [isAcknowledged] at told
    exact ⟨_, u, count, departs, told⟩

end Sys2Proof.Machine
end

section
/-! What an assertion of STOP ends: the acts and their endings, counted by block (R87, R106; entry 5). -/

set_option Elab.async false

namespace Sys2Proof.Machine

/-! ### Lists in an order left open -/

section
variable {α β : Type} {free : Nat → Nat} {g : α → Option β}

theorem insertFree_perm (n : Nat) (x : α) (l : List α) : (insertFree n x l).Perm (x :: l) := by
  unfold insertFree
  refine List.perm_middle.trans ?_
  rw [List.take_append_drop]

theorem arrangeFree_perm (k : Nat) (l : List α) : (arrangeFree free k l).Perm l := by
  induction l generalizing k with
  | nil => exact .refl _
  | cons x l ih =>
    cases l with
    | nil => exact .refl _
    | cons z l => exact (insertFree_perm (free k) x _).trans ((ih (k + 1)).cons x)

/-- The head of the first list stands behind some of the second. -/
theorem mergeFree_cons (k : Nat) (x : α) (xs ys : List α) : ∃ n,
    mergeFree free k (x :: xs) ys = ys.take n ++ x :: mergeFree free (k + 1) xs (ys.drop n) := by
  cases ys with
  | nil => exact ⟨0, by cases xs <;> simp [mergeFree]⟩
  | cons y ys => exact ⟨_, rfl⟩

theorem mergeFree_nil (k : Nat) (ys : List α) : mergeFree free k [] ys = ys := by
  cases ys <;> simp [mergeFree]

theorem mergeFree_perm (k : Nat) (xs ys : List α) : (mergeFree free k xs ys).Perm (xs ++ ys) := by
  induction xs generalizing k ys with
  | nil => rw [mergeFree_nil]; exact .refl _
  | cons x xs ih =>
    obtain ⟨n, merged⟩ := mergeFree_cons (free := free) k x xs ys
    rw [merged]
    calc ys.take n ++ x :: mergeFree free (k + 1) xs (ys.drop n)
      _ |>.Perm (x :: (ys.take n ++ mergeFree free (k + 1) xs (ys.drop n))) := List.perm_middle
      _ |>.Perm (x :: (ys.take n ++ (xs ++ ys.drop n))) := ((ih _ _).append_left _).cons x
      _ |>.Perm (x :: (xs ++ (ys.take n ++ ys.drop n))) := by
        rw [← List.append_assoc, ← List.append_assoc]
        exact (List.perm_append_comm.append_right _).cons x
      _ |>.Perm (x :: xs ++ ys) := by rw [List.take_append_drop]; exact .refl _

/-- What is read of the first list alone is read in its order. -/
theorem filterMap_mergeFree_left (k : Nat) (xs : List α) {ys : List α} (skip : ∀ y ∈ ys, g y = none) :
    (mergeFree free k xs ys).filterMap g = xs.filterMap g := by
  induction xs generalizing k ys with
  | nil => rw [mergeFree_nil, List.filterMap_eq_nil_iff.2 skip]; rfl
  | cons x xs ih =>
    obtain ⟨n, merged⟩ := mergeFree_cons (free := free) k x xs ys
    rw [merged, List.filterMap_append, List.filterMap_eq_nil_iff.2 fun y mem => skip y (List.mem_of_mem_take mem),
      List.nil_append, List.filterMap_cons, List.filterMap_cons,
      ih (k + 1) fun y mem => skip y (List.mem_of_mem_drop mem)]

theorem filterMap_mergeFree_right (k : Nat) {xs : List α} (ys : List α) (skip : ∀ x ∈ xs, g x = none) :
    (mergeFree free k xs ys).filterMap g = ys.filterMap g := by
  induction xs generalizing k ys with
  | nil => rw [mergeFree_nil]
  | cons x xs ih =>
    obtain ⟨n, merged⟩ := mergeFree_cons (free := free) k x xs ys
    obtain ⟨first, others⟩ := List.forall_mem_cons.1 skip
    rw [merged, List.filterMap_append, List.filterMap_cons_none first, ih (k + 1) _ others, ← List.filterMap_append,
      List.take_append_drop]

/-- A relation that a function meets where it has a value relates a list to its values. -/
theorem forall₂_filterMap {R : α → β → Prop} {l : List α} (meets : ∀ a ∈ l, ∃ e, g a = some e ∧ R a e) :
    List.Forall₂ R l (l.filterMap g) := by
  induction l with
  | nil => exact .nil
  | cons a l ih =>
    obtain ⟨first, others⟩ := List.forall_mem_cons.1 meets
    obtain ⟨e, value, related⟩ := first
    rw [List.filterMap_cons_some value]
    exact .cons related (ih others)

/-- Values that keep a key of their own stand in the order of the keys. -/
theorem map_filterMap_sublist {γ : Type} {key : α → γ} {keyOf : β → γ} {l : List α}
    (same : ∀ a ∈ l, ∀ b, g a = some b → keyOf b = key a) : ((l.filterMap g).map keyOf).Sublist (l.map key) := by
  induction l with
  | nil => exact .slnil
  | cons a l ih =>
    obtain ⟨first, others⟩ := List.forall_mem_cons.1 same
    cases value : g a with
    | none =>
      rw [List.filterMap_cons_none value]
      exact (ih others).cons _
    | some b =>
      rw [List.filterMap_cons_some value, List.map_cons, List.map_cons, first b value]
      exact (ih others).cons_cons _

end

/-! ### The endings of the acts -/

/-- The order that an act of STOP ends. -/
def StopAct.order (s : State) : StopAct → Option Order
  | .queued d => s.queue.find? fun x => x.dock == d
  | .pulling d => (s.dock d).order
  | .referral _ => none

/-- What an act of STOP ends, in the terms of the statements. -/
def StopAct.ending (s : State) : StopAct → Option (Order ⊕ Referral)
  | .referral r => some (.inr r)
  | a => (a.order s).map .inl

/-- The endings of an assertion of STOP, in the order in which they come (R106). -/
def State.stopEnds (s : State) : List (Order ⊕ Referral) := s.stopActs.filterMap (StopAct.ending s)

/-- The orders that an assertion of STOP ends. -/
def State.stopOrders (s : State) : List Order := s.stopActs.filterMap (StopAct.order s)

theorem State.stopEnds_left (s : State) : s.stopEnds.filterMap Sum.getLeft? = s.stopOrders := by
  unfold State.stopEnds State.stopOrders
  rw [List.filterMap_filterMap]
  congr 1
  funext a
  cases a with
  | queued d => cases found : s.queue.find? fun x => x.dock == d <;> simp [StopAct.ending, StopAct.order, found]
  | pulling d => cases held : (s.dock d).order <;> simp [StopAct.ending, StopAct.order, held]
  | referral r => rfl

/-- The referrals of an assertion end oldest first (R87). -/
theorem State.stopEnds_right (s : State) : s.stopEnds.filterMap Sum.getRight? = s.referrals := by
  have silent (d : DockId) : ((StopAct.pulling d).ending s).bind Sum.getRight? = none := by
    show (((StopAct.pulling d).order s).map Sum.inl).bind Sum.getRight? = none
    cases (StopAct.pulling d).order s <;> rfl
  unfold State.stopEnds State.stopActs
  rw [List.filterMap_filterMap, filterMap_mergeFree_right, filterMap_mergeFree_left, List.filterMap_map]
  · exact List.filterMap_some
  · intro a mem
    obtain ⟨d, -, rfl⟩ := List.mem_map.1 ((arrangeFree_perm 0 _).mem_iff.1 mem)
    exact silent d
  · intro a mem
    obtain ⟨o, -, rfl⟩ := List.mem_map.1 mem
    show (((StopAct.queued o.dock).order s).map Sum.inl).bind Sum.getRight? = none
    cases (StopAct.queued o.dock).order s <;> rfl

theorem State.mem_docksIn {s : State} {st : DockState} {d : DockId} : d ∈ s.docksIn st ↔ (s.dock d).state = st := by
  simp only [State.docksIn, List.mem_filter, beq_iff_eq, and_iff_right_iff_imp]
  exact fun _ => List.mem_finRange d

section
variable {s : State} (h : s.OrdersOk)
include h

/-- The order in the queue of a dock is the one that the queue finds for it (R94). -/
theorem State.OrdersOk.find_queued {o : Order} (mem : o ∈ s.queue) :
    s.queue.find? (fun x => x.dock == o.dock) = some o := by
  obtain ⟨x, found⟩ := Option.isSome_iff_exists.1
    (List.find?_isSome (p := fun x : Order => x.dock == o.dock) |>.2 ⟨o, mem, beq_self_eq_true o.dock⟩)
  have sameDock : x.dock = o.dock := by simpa using List.find?_some found
  rw [found, nodup_map_unique h.queueDocks (List.mem_of_find?_eq_some found) mem sameDock]

/-- The order of a dock in PULLING. -/
theorem State.OrdersOk.pulling_order {d : DockId} (pulling : (s.dock d).state = .pulling) :
    ∃ o, (s.dock d).order = some o ∧ o.dock = d := by
  obtain ⟨o, held⟩ := Option.isSome_iff_exists.1 ((h.docks d).order.2 (by rw [pulling]; rfl))
  exact ⟨o, held, (h.held d o held).dock⟩

/-- Each act of an assertion has its ending. -/
theorem State.OrdersOk.ending_ends {a : StopAct} (mem : a ∈ s.stopActs) :
    ∃ e, a.ending s = some e ∧ a.Ends s e := by
  rcases mem_stopActs.1 mem with ⟨o, queued, rfl⟩ | ⟨r, listed, rfl⟩ | ⟨d, pulling, rfl⟩
  · have found := h.find_queued queued
    exact ⟨.inl o, congrArg (Option.map Sum.inl) found, (h.queued o queued).2, found⟩
  · exact ⟨.inr r, rfl, rfl⟩
  · obtain ⟨o, held, -⟩ := h.pulling_order pulling
    exact ⟨.inl o, congrArg (Option.map Sum.inl) held, pulling, held⟩

/-- An order that an act ends is of the act's dock. -/
theorem State.OrdersOk.order_dock {a : StopAct} {o : Order} (ended : a.order s = some o) : o.dock = a.dock := by
  cases a with
  | queued d =>
    have dock : o.dock = d := by simpa using List.find?_some ended
    exact dock
  | pulling d => exact (h.held d o ended).dock
  | referral r => cases ended

/-- Each dock has one act at most. -/
theorem State.OrdersOk.stopActs_docks : (s.stopActs.map StopAct.dock).Nodup := by
  have blocks : (s.stopActs.map StopAct.dock).Perm
      (s.queue.map (·.dock) ++ (s.referrals.map (·.dock) ++ s.docksIn .pulling)) := by
    have acts : s.stopActs.Perm (s.queue.map (fun o => .queued o.dock) ++
        (s.referrals.map .referral ++ (s.docksIn .pulling).map .pulling)) :=
      (mergeFree_perm _ _ _).trans (((mergeFree_perm _ _ _).trans
        ((arrangeFree_perm _ _).append_left _)).append_left _)
    refine (acts.map StopAct.dock).trans (.of_eq ?_)
    simp only [List.map_append, List.map_map]
    congr 2
    exact List.map_id _
  rw [blocks.nodup_iff, List.nodup_append, List.nodup_append]
  refine ⟨h.queueDocks, ⟨h.referralDocks, (List.nodup_finRange 16).filter _, ?_⟩, ?_⟩
  · rintro d referred x pulling rfl
    obtain ⟨r, mem, rfl⟩ := List.mem_map.1 referred
    have resting := (h.referrals r mem).resting
    unfold Dock.inFlight at resting
    rw [State.mem_docksIn.1 pulling] at resting
    cases resting
  · rintro d queued x other rfl
    obtain ⟨o, mem, rfl⟩ := List.mem_map.1 queued
    have isQueued := (h.queued o mem).2
    rcases List.mem_append.1 other with referred | pulling
    · obtain ⟨r, listed, same⟩ := List.mem_map.1 referred
      have resting := (h.referrals r listed).resting
      unfold Dock.inFlight at resting
      rw [same, isQueued] at resting
      cases resting
    · rw [State.mem_docksIn.1 pulling] at isQueued
      cases isQueued

theorem State.OrdersOk.stopOrders_docks : (s.stopOrders.map (·.dock)).Nodup :=
  (map_filterMap_sublist fun _ _ _ ended => h.order_dock ended).nodup h.stopActs_docks

/-- An order that an assertion ends is queued, or held by a dock in PULLING. -/
theorem State.OrdersOk.mem_stopOrders {o : Order} : o ∈ s.stopOrders ↔
    o ∈ s.queue ∨ (s.dock o.dock).state = .pulling ∧ (s.dock o.dock).order = some o := by
  unfold State.stopOrders
  rw [List.mem_filterMap]
  constructor
  · rintro ⟨a, mem, ended⟩
    rcases mem_stopActs.1 mem with ⟨x, queued, rfl⟩ | ⟨r, listed, rfl⟩ | ⟨d, pulling, rfl⟩
    · exact .inl (List.mem_of_find?_eq_some ended)
    · cases ended
    · have dock : o.dock = d := (h.held d o ended).dock
      exact .inr ⟨dock ▸ pulling, dock ▸ ended⟩
  · rintro (queued | ⟨pulling, held⟩)
    · exact ⟨.queued o.dock, mem_stopActs.2 (.inl ⟨o, queued, rfl⟩), h.find_queued queued⟩
    · exact ⟨.pulling o.dock, mem_stopActs.2 (.inr (.inr ⟨o.dock, pulling, rfl⟩)), held⟩

/-- The queued orders end oldest first (R106). -/
theorem State.OrdersOk.stopOrders_queued :
    s.stopOrders.filter (fun o => (s.dock o.dock).state = .queued) = s.queue := by
  unfold State.stopOrders State.stopActs
  rw [List.filter_filterMap, filterMap_mergeFree_left, List.filterMap_map]
  · refine (List.filterMap_congr fun o mem => ?_).trans List.filterMap_some
    show Option.filter _ (s.queue.find? fun x => x.dock == o.dock) = some o
    rw [h.find_queued mem]
    exact if_pos (decide_eq_true (h.queued o mem).2)
  · intro a mem
    rcases mem_mergeFree.1 mem with listed | arranged
    · obtain ⟨r, -, rfl⟩ := List.mem_map.1 listed
      rfl
    · obtain ⟨d, pullingDock, rfl⟩ := List.mem_map.1 (mem_arrangeFree.1 arranged)
      have pulling := State.mem_docksIn.1 pullingDock
      obtain ⟨o, held, rfl⟩ := h.pulling_order pulling
      show Option.filter _ (s.dock o.dock).order = none
      rw [held]
      exact if_neg (by simp [pulling])

/-- Every dock in PULLING has its order ended. -/
theorem State.OrdersOk.stopOrders_pulling :
    ((s.stopOrders.filter fun o => (s.dock o.dock).state = .pulling).map (·.dock)).Perm
      ((List.finRange 16).filter fun d => (s.dock d).state = .pulling) := by
  refine (List.perm_ext_iff_of_nodup ?_ ((List.nodup_finRange 16).filter _)).2 fun d => ?_
  · exact (List.filter_sublist.map _).nodup h.stopOrders_docks
  · simp only [List.mem_map, List.mem_filter, decide_eq_true_eq, List.mem_finRange, true_and, h.mem_stopOrders]
    constructor
    · rintro ⟨o, ⟨-, pulling⟩, rfl⟩
      exact pulling
    · intro pulling
      obtain ⟨o, held, rfl⟩ := h.pulling_order pulling
      exact ⟨o, ⟨.inr ⟨pulling, held⟩, pulling⟩, rfl⟩

end

end Sys2Proof.Machine
end

section
/-! STOP_ASSERTION and STOP_ALL: the sequence of endings, what it leaves of each dock, and the closing of the OPEN docks
(R87, R105, R106, R126, R191). -/

set_option Elab.async false

namespace Sys2Proof.Machine

/-! ### What the sequence of endings leaves -/

/-- What no ending of a STOP changes: the clocks, the supply, the STOP input, and of each pass entry its id and serial. -/
structure State.StopKept (s t : State) : Prop where
  clock : t.clock = s.clock
  stationTime : t.stationTime = s.stationTime
  timeKnown : t.timeKnown = s.timeKnown
  supply : t.supply = s.supply
  stopLevel : t.stopLevel = s.stopLevel
  stopChange : t.stopChange = s.stopChange
  passIds : t.passes.map (·.id) = s.passes.map (·.id)
  passSerials : t.passes.map (·.lastSerial) = s.passes.map (·.lastSerial)

theorem State.StopKept.refl (s : State) : s.StopKept s := ⟨rfl, rfl, rfl, rfl, rfl, rfl, rfl, rfl⟩

theorem State.StopKept.trans {s t u : State} (first : s.StopKept t) (second : t.StopKept u) : s.StopKept u where
  clock := second.clock.trans first.clock
  stationTime := second.stationTime.trans first.stationTime
  timeKnown := second.timeKnown.trans first.timeKnown
  supply := second.supply.trans first.supply
  stopLevel := second.stopLevel.trans first.stopLevel
  stopChange := second.stopChange.trans first.stopChange
  passIds := second.passIds.trans first.passIds
  passSerials := second.passSerials.trans first.passSerials

theorem State.Quiet.stopKept {s t : State} (h : s.Quiet t) : s.StopKept t where
  clock := h.clock
  stationTime := h.stationTime
  timeKnown := h.timeKnown
  supply := h.supply
  stopLevel := h.stopLevel
  stopChange := h.stopChange
  passIds := by rw [h.passes]
  passSerials := by rw [h.passes]

section
variable {s t : State} {d : DockId} {o : Order} {closed : Bool} {kind : OutcomeKind} {reason : Option Reason}
  {event : Option Nat} {named : Option FaultKind}

theorem Order.settledEntry_lastSerial (o : Order) (refunded : Bool) (e : PassEntry) :
    (o.settledEntry refunded e).lastSerial = e.lastSerial := by
  unfold Order.settledEntry
  split <;> rfl

theorem State.EndedAt.stopKept (h : s.EndedAt t d o closed kind reason event named) : s.StopKept t := by
  obtain ⟨told, written, logged, refunded, station, record, dockPort, quiet, rfl, quietLog, rfl⟩ := h.parts
  obtain ⟨docks, sense, outside⟩ := s.coilEnded_outside d
  have coil : s.StopKept (s.coilEnded d) := by rw [outside]; exact ⟨rfl, rfl, rfl, rfl, rfl, rfl, rfl, rfl⟩
  have toTold := coil.trans quiet.stopKept
  have fromLogged := quietLog.stopKept
  refine State.StopKept.trans (t := { told with
    passes := s.passes.map (o.settledEntry refunded), station := station, log := s.log ++ [record] })
    ⟨toTold.clock, toTold.stationTime, toTold.timeKnown, toTold.supply, toTold.stopLevel, toTold.stopChange, ?_, ?_⟩
    ⟨fromLogged.clock, fromLogged.stationTime, fromLogged.timeKnown, fromLogged.supply, fromLogged.stopLevel,
      fromLogged.stopChange, fromLogged.passIds, fromLogged.passSerials⟩
  · simp only [List.map_map]
    exact List.map_congr_left fun e _ => (o.settledEntry_counts refunded e).1
  · simp only [List.map_map]
    exact List.map_congr_left fun e _ => o.settledEntry_lastSerial refunded e

/-- An ending puts one record at the tail of the log (R108). -/
theorem State.EndedAt.log (h : s.EndedAt t d o closed kind reason event named) : ∃ record : OutcomeRecord,
    t.log = s.log ++ [record] ∧ record.kind = kind ∧ record.reason = reason ∧ record.dock = d := by
  obtain ⟨refunded, told, logged, -, -, -, high, notHigh, rfl⟩ := h
  exact ⟨_, (State.Quiet.of_latchedIf high notHigh).log, rfl, rfl, rfl⟩

theorem Dock.fromSensors_keeps (k : Dock) : k.fromSensors.order = k.order ∧ k.fromSensors.boundPass = k.boundPass ∧
    k.fromSensors.boundSerial = k.boundSerial ∧ k.fromSensors.origin = k.origin ∧ k.fromSensors.chan = k.chan := by
  unfold Dock.fromSensors
  split <;> exact ⟨rfl, rfl, rfl, rfl, rfl⟩

/-- A dock that has left its ending: at its sensors, unbound, without an order, its coil off. -/
def Dock.LeftAlone (k : Dock) : Prop :=
  k.AtSensors ∧ k.order = none ∧ k.boundPass = none ∧ k.boundSerial = none ∧ k.origin = none ∧
    k.chan.applied = 0 ∧ k.chan.pending = 0

theorem Dock.releasedAs_none {k : Dock} (off : k.Off) : (k.releasedAs none).LeftAlone := by
  obtain ⟨order, pass, serial, origin, chan⟩ := Dock.fromSensors_keeps
    { k with boundPass := none, boundSerial := none, origin := none, order := none }
  exact ⟨Dock.settledAs_none _, order, pass, serial, origin, (congrArg (·.applied) chan).trans off.applied,
    (congrArg (·.pending) chan).trans off.pending⟩

/-- The dock of an ending at the sensors is unbound, without an order, and its coil is off (R110, R119). -/
theorem State.EndedAt.leftAlone (h : s.EndedAt t d o closed kind reason event none) (orders : s.OrdersOk) :
    (t.dock d).LeftAlone := by
  obtain ⟨told, written, logged, refunded, station, record, dockPort, quiet, rfl, quietLog, rfl⟩ := h.parts
  have same : logged.dock d = (s.coilEnded d).dock d := (quietLog.dock d).trans (quiet.dock d)
  show ((State.withDock logged d (Dock.releasedAs none)).dock d).LeftAlone
  rw [State.dock_withDock_self]
  exact Dock.releasedAs_none (same ▸ orders.coilEnded_off d)

end

/-! ### The sequence of endings -/

section
variable {s t : State} {ends : List (Order ⊕ Referral)}

theorem State.StopSequence.stopKept (h : s.StopSequence ends t) : s.StopKept t := by
  induction ends generalizing s with
  | nil => cases h; exact .refl _
  | cons e ends ih =>
    cases e with
    | inl o =>
      obtain ⟨u, ended, later⟩ := h
      exact ended.stopKept.trans (ih later)
    | inr r => exact State.StopKept.trans (t := s.referralEnded r 3 0) ⟨rfl, rfl, rfl, rfl, rfl, rfl, rfl, rfl⟩ (ih h)

/-- The records of the sequence: one for each order, in their sequence, UNLOCK_FAILED with ABORTED_STOP. -/
theorem State.StopSequence.log (h : s.StopSequence ends t) : ∃ records : List OutcomeRecord,
    t.log = s.log ++ records ∧ (∀ x ∈ records, x.kind = .unlockFailed ∧ x.reason = some .abortedStop) ∧
      records.map (·.dock) = (ends.filterMap Sum.getLeft?).map (·.dock) := by
  induction ends generalizing s with
  | nil => cases h; exact ⟨[], by simp, by simp, rfl⟩
  | cons e ends ih =>
    cases e with
    | inl o =>
      obtain ⟨u, ended, later⟩ := h
      obtain ⟨record, first, kind, reason, dock⟩ := ended.log
      obtain ⟨records, rest, all, docks⟩ := ih later
      refine ⟨record :: records, by rw [rest, first, List.append_assoc]; rfl,
        List.forall_mem_cons.2 ⟨⟨kind, reason⟩, all⟩, ?_⟩
      rw [List.map_cons, docks, dock]
      rfl
    | inr r => exact ih (s := s.referralEnded r 3 0) h

end

/-! ### One act among the others -/

section
variable {s : State} {acts : List StopAct}

/-- Acts about other docks leave a dock apart. -/
theorem State.Apart.applyStops (h : s.OrdersOk) (stop : s.stopAsserted = true) (able : ∀ a ∈ acts, s.Actable a)
    {x : DockId} (other : x ∉ acts.map StopAct.dock) : s.Apart (acts.foldl State.applyStop s) x := by
  induction acts generalizing s with
  | nil => exact ⟨rfl, rfl⟩
  | cons a acts ih =>
    obtain ⟨notFirst, notLater⟩ := List.ne_and_not_mem_of_not_mem_cons other
    obtain ⟨first, others⟩ := List.forall_mem_cons.1 able
    obtain ⟨kept, frame⟩ := h.applyStop stop first
    exact (State.Apart.applyStop stop notFirst).trans
      (ih kept (frame.stop.trans stop) (fun b mem => (others b mem).frame frame) notLater)

/-- An act comes in a state that is as it was at the act's dock, and the acts behind it leave its dock apart. -/
theorem State.OrdersOk.act_among (h : s.OrdersOk) (stop : s.stopAsserted = true) (able : ∀ a ∈ acts, s.Actable a)
    (docks : (acts.map StopAct.dock).Nodup) {a : StopAct} (mem : a ∈ acts) : ∃ m : State, m.OrdersOk ∧
      m.stopAsserted = true ∧ s.Apart m a.dock ∧ (m.applyStop a).Apart (acts.foldl State.applyStop s) a.dock ∧
      StopFrame (m.applyStop a) (acts.foldl State.applyStop s) := by
  induction acts generalizing s with
  | nil => cases mem
  | cons b acts ih =>
    obtain ⟨alone, docks⟩ := List.nodup_cons.1 docks
    obtain ⟨first, others⟩ := List.forall_mem_cons.1 able
    obtain ⟨kept, frame⟩ := h.applyStop stop first
    have stop' : (s.applyStop b).stopAsserted = true := frame.stop.trans stop
    have able' (c) (later : c ∈ acts) : (s.applyStop b).Actable c := (others c later).frame frame
    obtain rfl | later := List.mem_cons.1 mem
    · exact ⟨s, h, stop, ⟨rfl, rfl⟩, .applyStops kept stop' able' alone, (kept.applyStops stop' able').2⟩
    · obtain ⟨m, ok, asserted, before, after⟩ := ih kept stop' able' docks later
      have other : a.dock ≠ b.dock := fun same => alone (same ▸ List.mem_map_of_mem later)
      exact ⟨m, ok, asserted, (State.Apart.applyStop stop other).trans before, after⟩

end

/-! ### The closing of the OPEN docks -/

/-- An OPEN dock that a STOP closes, its channel inactive (R126, R133, R136). -/
def Dock.stopClosed (clock : Nat) (k : Dock) : Dock :=
  { k with
    state := .closing
    order := k.order.map fun o => { o with stopMark := true }
    chan := { k.chan with applied := 0, pending := 0, timer := .closingLimit (clock / 2048 + 10000) }
    sense := if k.sense.activity = .inactive then k.sense else ⟨.inactive, none, 0⟩ }

theorem State.stopClosed_self (s : State) (d : DockId) : (s.stopClosed d).dock d = (s.dock d).stopClosed s.clock := by
  unfold State.stopClosed
  rw [setActivity_dock, if_pos rfl, State.dock_withDock_self]
  rfl

theorem State.stopClosed_ne (s : State) {d x : DockId} (other : x ≠ d) : (s.stopClosed d).dock x = s.dock x := by
  unfold State.stopClosed
  rw [setActivity_dock, if_neg other, State.dock_withDock_ne _ _ other]

theorem State.stopClosed_outside (s : State) (d : DockId) : ∃ docks sense,
    s.stopClosed d = { s with docks := docks, sense := sense } := by
  obtain ⟨docks, sense, outside⟩ := State.setActivity_outside (s.withDock d fun k =>
    { k with
      state := .closing
      order := k.order.map fun o => { o with stopMark := true }
      chan := { k.chan with
        applied := 0, pending := 0, timer := .closingLimit (s.clock / 2048 + 10000) } }) d .inactive
  exact ⟨docks, sense, outside⟩

theorem State.stopClosed_clock (s : State) (d : DockId) : (s.stopClosed d).clock = s.clock := by
  obtain ⟨_, _, outside⟩ := s.stopClosed_outside d
  rw [outside]

theorem State.closeStopped_outside (closing : List DockId) (s : State) : ∃ docks sense,
    closing.foldl State.stopClosed s = { s with docks := docks, sense := sense } := by
  induction closing generalizing s with
  | nil => exact ⟨_, _, rfl⟩
  | cons d closing ih =>
    obtain ⟨_, _, first⟩ := s.stopClosed_outside d
    obtain ⟨_, _, later⟩ := ih (s.stopClosed d)
    rw [List.foldl_cons, later, first]
    exact ⟨_, _, rfl⟩

theorem State.closeStopped_ne {closing : List DockId} {x : DockId} (other : x ∉ closing) (s : State) :
    (closing.foldl State.stopClosed s).dock x = s.dock x := by
  induction closing generalizing s with
  | nil => rfl
  | cons d closing ih =>
    obtain ⟨notFirst, notLater⟩ := List.ne_and_not_mem_of_not_mem_cons other
    exact (ih notLater _).trans (s.stopClosed_ne notFirst)

theorem State.closeStopped_self {closing : List DockId} (once : closing.Nodup) {d : DockId} (mem : d ∈ closing)
    (s : State) : (closing.foldl State.stopClosed s).dock d = (s.dock d).stopClosed s.clock := by
  induction closing generalizing s with
  | nil => cases mem
  | cons x closing ih =>
    obtain ⟨alone, once⟩ := List.nodup_cons.1 once
    rw [List.foldl_cons]
    obtain rfl | later := List.mem_cons.1 mem
    · rw [State.closeStopped_ne alone, State.stopClosed_self]
    · have other : d ≠ x := fun same => alone (same ▸ later)
      rw [ih once later, State.stopClosed_ne _ other, State.stopClosed_clock]

end Sys2Proof.Machine
end

section
/-! STOP_ASSERTION and STOP_ALL: the state that their effects leave (R87, R105, R106, R126, R191). -/

set_option Elab.async false

namespace Sys2Proof.Machine

/-! ### The effects of an assertion -/

/-- The state of an assertion of STOP once its endings have come. -/
def State.stopEnded (s : State) : State := s.stopActs.foldl State.applyStop (s.spendFree 64)

/-- The OPEN docks, in ascending order. -/
def State.openedDocks (s : State) : List DockId := (List.finRange 16).filter fun d => (s.dock d).state = .opened

theorem State.stopEffects_eq (s : State) : s.stopEffects = s.openedDocks.foldl State.stopClosed s.stopEnded := by
  have docks : s.docksIn .opened = s.openedDocks := List.filter_congr fun d _ => by simp [Bool.beq_eq_decide_eq]
  unfold State.stopEffects
  rw [docks]
  congr 1
  funext t d
  exact t.beginClosing_eq d

theorem State.mem_openedDocks {s : State} {d : DockId} : d ∈ s.openedDocks ↔ (s.dock d).state = .opened := by
  simp [State.openedDocks]

theorem State.openedDocks_nodup (s : State) : s.openedDocks.Nodup := (List.nodup_finRange 16).filter _

theorem State.stopEffects_outside (s : State) : ∃ docks sense,
    s.stopEffects = { s.stopEnded with docks := docks, sense := sense } := by
  rw [s.stopEffects_eq]
  exact State.closeStopped_outside _ _

theorem State.stopEffects_dock_of_notOpened {s : State} {d : DockId} (other : (s.dock d).state ≠ .opened) :
    s.stopEffects.dock d = s.stopEnded.dock d := by
  rw [s.stopEffects_eq, State.closeStopped_ne (mt State.mem_openedDocks.1 other)]

section
variable {s : State} (h : s.OrdersOk) (stop : s.stopAsserted = true)
include h stop

theorem State.OrdersOk.stopEnded_sequence :
    ({ s with freeCount := s.freeCount + 64 } : State).StopSequence s.stopEnds s.stopEnded :=
  State.StopSequence.applyStops (s := s.spendFree 64) (h.steady (State.Quiet.spendFree ..).steady) stop
    (fun _ mem => State.Actable.frame (.quiet (.spendFree ..)) (h.actable mem)) h.stopActs_docks
    (StopAct.Ends.allApart (fun _ _ => .quiet (.spendFree ..) _) (forall₂_filterMap fun _ mem => h.ending_ends mem))

theorem State.OrdersOk.stopEnded_frame : StopFrame s s.stopEnded :=
  .trans (.quiet (.spendFree ..)) (State.OrdersOk.applyStops (s := s.spendFree 64)
    (h.steady (State.Quiet.spendFree ..).steady) stop
    fun _ mem => State.Actable.frame (.quiet (.spendFree ..)) (h.actable mem)).2

theorem State.OrdersOk.stopEnded_apart {d : DockId} (other : d ∉ s.stopActs.map StopAct.dock) :
    s.Apart s.stopEnded d :=
  .trans (.quiet (.spendFree ..) d) (State.Apart.applyStops (s := s.spendFree 64)
    (h.steady (State.Quiet.spendFree ..).steady) stop
    (fun _ mem => State.Actable.frame (.quiet (.spendFree ..)) (h.actable mem)) other)

theorem State.OrdersOk.stopEnded_among {a : StopAct} (mem : a ∈ s.stopActs) : ∃ m : State, m.OrdersOk ∧
    m.stopAsserted = true ∧ s.Apart m a.dock ∧ (m.applyStop a).Apart s.stopEnded a.dock ∧
      StopFrame (m.applyStop a) s.stopEnded := by
  obtain ⟨m, ok, asserted, before, after⟩ := State.OrdersOk.act_among (s := s.spendFree 64)
    (h.steady (State.Quiet.spendFree ..).steady) stop
    (fun _ mem => State.Actable.frame (.quiet (.spendFree ..)) (h.actable mem)) h.stopActs_docks mem
  exact ⟨m, ok, asserted, .trans (.quiet (.spendFree ..) _) before, after⟩

/-- The dock of an order that ended. -/
theorem State.OrdersOk.stopEnded_leftAlone {o : Order} (mem : o ∈ s.stopOrders) :
    (s.stopEnded.dock o.dock).LeftAlone := by
  obtain ⟨a, act, ended⟩ := List.mem_filterMap.1 mem
  have dock : o.dock = a.dock := h.order_dock ended
  obtain ⟨e, ending, ends⟩ := h.ending_ends act
  obtain ⟨m, ok, asserted, before, after, -⟩ := h.stopEnded_among stop act
  have one := State.StopSequence.applyStop ok asserted (ends.apart before) (rest := []) rfl
  have isOrder : e = .inl o := by
    cases a with
    | referral r => cases ended
    | queued d => exact (Option.some.inj (ending.symm.trans (congrArg (Option.map Sum.inl) ended)))
    | pulling d => exact (Option.some.inj (ending.symm.trans (congrArg (Option.map Sum.inl) ended)))
  subst isOrder
  obtain ⟨u, single, same⟩ := one
  have same : m.applyStop a = u := same
  rw [dock, after.dock, same, ← dock]
  exact single.leftAlone ok

/-- The dock of a referral that ended is not bound any more (R87). -/
theorem State.OrdersOk.stopEnded_referral {r : Referral} (mem : r ∈ s.referrals) :
    s.stopEnded.dock r.dock = { s.dock r.dock with boundPass := none, boundSerial := none } := by
  obtain ⟨m, -, -, before, after, -⟩ := h.stopEnded_among stop (a := .referral r)
    (mem_stopActs.2 (.inr (.inl ⟨r, mem, rfl⟩)))
  have ended : m.applyStop (.referral r) = m.referralEnded r 3 0 := m.endReferral_eq r .stopped 0
  have unbound : (m.referralEnded r 3 0).dock r.dock = { m.dock r.dock with boundPass := none, boundSerial := none } :=
    m.dock_withDock_self r.dock fun k => { k with boundPass := none, boundSerial := none }
  have same : s.stopEnded.dock r.dock = (m.applyStop (.referral r)).dock r.dock := after.dock
  have first : m.dock r.dock = s.dock r.dock := before.dock
  rw [same, ended, unbound, first]

theorem State.OrdersOk.stopEnded_referrals : s.stopEnded.referrals = [] := by
  refine List.eq_nil_iff_forall_not_mem.2 fun r left => ?_
  have mem := (h.stopEnded_frame stop).referrals r left
  obtain ⟨m, -, -, -, -, frame⟩ := h.stopEnded_among stop (a := .referral r)
    (mem_stopActs.2 (.inr (.inl ⟨r, mem, rfl⟩)))
  have ended : m.applyStop (.referral r) = m.referralEnded r 3 0 := m.endReferral_eq r .stopped 0
  have still : r ∈ (m.referralEnded r 3 0).referrals := ended ▸ frame.referrals r left
  simpa using (List.mem_filter.1 still).2

/-- A dock with no order to end and no referral is as it was. -/
theorem State.OrdersOk.stopEnded_other {d : DockId} (queued : (s.dock d).state ≠ .queued)
    (pulling : (s.dock d).state ≠ .pulling) (referred : ∀ r ∈ s.referrals, r.dock ≠ d) :
    s.stopEnded.dock d = s.dock d := by
  refine (h.stopEnded_apart stop fun acts => ?_).dock
  obtain ⟨a, mem, rfl⟩ := List.mem_map.1 acts
  rcases mem_stopActs.1 mem with ⟨o, inQueue, rfl⟩ | ⟨r, listed, rfl⟩ | ⟨d, drawn, rfl⟩
  · exact queued (h.queued o inQueue).2
  · exact referred r listed rfl
  · exact pulling drawn

omit stop in
/-- The docks whose orders end are those in QUEUED and PULLING. -/
theorem State.OrdersOk.mem_stopOrders_docks {d : DockId} : d ∈ s.stopOrders.map (·.dock) ↔
    (s.dock d).state = .queued ∨ (s.dock d).state = .pulling := by
  simp only [List.mem_map, h.mem_stopOrders]
  constructor
  · rintro ⟨o, queued | ⟨pulling, -⟩, rfl⟩
    · exact .inl (h.queued o queued).2
    · exact .inr pulling
  · rintro (queued | pulling)
    · obtain ⟨o, mem, dock⟩ := h.inQueue d queued
      exact ⟨o, .inl mem, dock⟩
    · obtain ⟨o, held, rfl⟩ := h.pulling_order pulling
      exact ⟨o, .inr ⟨pulling, held⟩, rfl⟩

omit stop in
/-- A dock with a referral is at rest, and so not in a state that an assertion ends. -/
theorem State.OrdersOk.referred_resting {r : Referral} (mem : r ∈ s.referrals) :
    (s.dock r.dock).state ∉ [DockState.queued, .pulling, .opened] := by
  have resting := (h.referrals r mem).resting
  unfold Dock.inFlight at resting
  revert resting
  cases (s.dock r.dock).state <;> simp [DockState.inFlight]

/-- The endings leave the state of a dock that has no order to end. -/
theorem State.OrdersOk.stopEnded_state {d : DockId} (queued : (s.dock d).state ≠ .queued)
    (pulling : (s.dock d).state ≠ .pulling) : (s.stopEnded.dock d).state = (s.dock d).state := by
  by_cases referred : ∃ r ∈ s.referrals, r.dock = d
  · obtain ⟨r, mem, rfl⟩ := referred
    rw [h.stopEnded_referral stop mem]
  · rw [h.stopEnded_other stop queued pulling fun r mem same => referred ⟨r, mem, same⟩]

theorem State.OrdersOk.stopEnded_opened {d : DockId} (opened : (s.dock d).state = .opened) :
    s.stopEnded.dock d = s.dock d :=
  h.stopEnded_other stop (by simp [opened]) (by simp [opened]) fun r mem same =>
    h.referred_resting mem (by simp [same, opened])

theorem State.OrdersOk.stopEffects_ended {d : DockId}
    (ended : (s.dock d).state = .queued ∨ (s.dock d).state = .pulling) : (s.stopEffects.dock d).LeftAlone := by
  obtain ⟨o, mem, rfl⟩ := List.mem_map.1 (h.mem_stopOrders_docks.2 ended)
  rw [State.stopEffects_dock_of_notOpened (by rcases ended with same | same <;> simp [same])]
  exact h.stopEnded_leftAlone stop mem

theorem State.OrdersOk.stopEffects_opened {d : DockId} (opened : (s.dock d).state = .opened) :
    s.stopEffects.dock d = (s.dock d).stopClosed s.clock := by
  rw [s.stopEffects_eq, State.closeStopped_self s.openedDocks_nodup (State.mem_openedDocks.2 opened),
    h.stopEnded_opened stop opened, (h.stopEnded_sequence stop).stopKept.clock]

/-- No order is left in the queue (R106). -/
theorem State.OrdersOk.stopEffects_queue : s.stopEffects.queue = [] := by
  refine List.eq_nil_iff_forall_not_mem.2 fun o left => ?_
  have queued : (s.stopEffects.dock o.dock).state = .queued := ((h.stopEffects stop).queued o left).2
  by_cases ended : (s.dock o.dock).state = .queued ∨ (s.dock o.dock).state = .pulling
  · obtain ⟨⟨-, -, state, -⟩, -⟩ := h.stopEffects_ended stop ended
    rw [queued] at state
    split at state
    · cases state
    · split at state <;> cases state
  · by_cases opened : (s.dock o.dock).state = .opened
    · rw [h.stopEffects_opened stop opened] at queued
      cases queued
    · obtain ⟨notQueued, notPulling⟩ := not_or.1 ended
      rw [State.stopEffects_dock_of_notOpened opened, h.stopEnded_state stop notQueued notPulling] at queued
      exact notQueued queued

theorem State.OrdersOk.stopEffects_stop : s.stopEffects.stopAsserted = true := by
  obtain ⟨docks, sense, outside⟩ := s.stopEffects_outside
  rw [outside]
  exact (h.stopEnded_frame stop).stop.trans stop

/-- The effects of an assertion, from a state whose STOP is asserted. -/
theorem State.OrdersOk.stopTaken_of_asserted : s.StopTaken s.stopEffects := by
  obtain ⟨docks, sense, outside⟩ := s.stopEffects_outside
  have sequence := h.stopEnded_sequence stop
  have kept := sequence.stopKept
  have calm := State.Calm.stopEffects s
  have left := s.stopEnds_left
  refine {
    sequence := ⟨s.freeCount + 64, s.stopEnds, s.openedDocks, s.stopEnded, ?_, s.stopEnds_right, ?_, fun o mem => ?_,
      ?_, .refl _, ?_, fun d other => State.stopEffects_dock_of_notOpened other⟩
    queue := h.stopEffects_queue stop
    referrals := ?_
    ended := fun d ended => h.stopEffects_ended stop ended
    opened := fun d opened => h.stopEffects_opened stop opened
    referred := fun r mem => ?_
    others := fun d other referred => ?_
    log := ?_
    passes := ?_
    elsewhere := ?_ }
  · have same : ({ s with stopAsserted := true, freeCount := s.freeCount + 64 } : State) =
        { s with freeCount := s.freeCount + 64 } :=
      congrArg (fun b => { s with stopAsserted := b, freeCount := s.freeCount + 64 }) stop.symm
    rw [same]
    exact sequence
  · rw [left]
    exact h.stopOrders_queued
  · have ended : o ∈ s.stopOrders := left ▸ List.mem_filterMap.2 ⟨.inl o, mem, rfl⟩
    exact (h.mem_stopOrders.1 ended).imp_left fun queued => (h.queued o queued).2
  · rw [left]
    exact h.stopOrders_pulling
  · rw [← s.stopEffects_eq]
  · rw [outside]
    exact h.stopEnded_referrals stop
  · have resting := h.referred_resting mem
    rw [State.stopEffects_dock_of_notOpened fun opened => resting (by simp [opened])]
    exact h.stopEnded_referral stop mem
  · simp only [List.mem_cons, List.not_mem_nil, or_false, not_or] at other
    obtain ⟨queued, pulling, opened⟩ := other
    rw [State.stopEffects_dock_of_notOpened opened]
    exact h.stopEnded_other stop queued pulling referred
  · obtain ⟨records, log, all, docks⟩ := sequence.log
    rw [left] at docks
    refine ⟨records, ?_, all, docks ▸ h.stopOrders_docks, ?_, fun d => docks ▸ h.mem_stopOrders_docks⟩
    · rw [outside]
      exact log
    · rw [docks, List.filter_map]
      exact congrArg (List.map _) h.stopOrders_queued
  · rw [outside]
    exact ⟨kept.passIds, kept.passSerials⟩
  · refine ⟨calm.phase, ?_, ?_, ?_, calm.identity, calm.keys, calm.denies, calm.rearrangement, ?_, calm.marks,
      calm.loader, calm.station.rx, calm.dockPort.rx, ?_, ?_, calm.pending⟩
    all_goals rw [outside]
    exacts [kept.clock, kept.stationTime, kept.timeKnown, kept.supply, kept.stopLevel, kept.stopChange]

end

section
variable {s t : State}

/-- What an assertion does is said of the state before the STOP state changes. -/
theorem State.StopTaken.of_asserted (taken : State.StopTaken { s with stopAsserted := true } t) : s.StopTaken t :=
  ⟨taken.sequence, taken.queue, taken.referrals, taken.ended, taken.opened, taken.referred, taken.others, taken.log,
    taken.passes, taken.elsewhere⟩

/-- It says nothing of the STOP state that is left. -/
theorem State.StopTaken.withStop (taken : s.StopTaken t) (b : Bool) : s.StopTaken { t with stopAsserted := b } := by
  obtain ⟨count, ends, closing, u, endings, referrals, queued, orders, pulling, opened, left, docks⟩ := taken.sequence
  have left : ({ t with stopAsserted := b } : State) = { closing.foldl State.stopClosed u with stopAsserted := b } :=
    congrArg (fun t : State => { t with stopAsserted := b }) left
  exact ⟨⟨count, ends, closing, u, endings, referrals, queued, orders, pulling, opened, left, docks⟩, taken.queue,
    taken.referrals, taken.ended, taken.opened, taken.referred, taken.others, taken.log, taken.passes, taken.elsewhere⟩

/-- The effects of an assertion once the STOP state is ASSERTED (R105, R106, R126). -/
theorem State.OrdersOk.stopTaken (h : s.OrdersOk) :
    s.StopTaken (State.stopEffects { s with stopAsserted := true }) ∧
      (State.stopEffects { s with stopAsserted := true }).stopAsserted = true :=
  have asserted : State.OrdersOk { s with stopAsserted := true } := h.steady .outside
  ⟨(asserted.stopTaken_of_asserted rfl).of_asserted, asserted.stopEffects_stop rfl⟩

/-- STOP_ALL's effects are an assertion's; no order is left for the grants that follow (R107, R191). -/
theorem State.OrdersOk.stopAllTaken (h : s.OrdersOk) :
    s.StopTaken s.stopAllEffects ∧ s.stopAllEffects.stopAsserted = s.stopAsserted := by
  have taken := h.stopTaken.1.withStop s.stopAsserted
  have same : s.stopAllEffects =
      { State.stopEffects { s with stopAsserted := true } with stopAsserted := s.stopAsserted } := by
    unfold State.stopAllEffects
    split
    · rfl
    · exact congrArg (fun queue => State.grantLoop queue
        { State.stopEffects { s with stopAsserted := true } with stopAsserted := s.stopAsserted }) taken.queue
  rw [same]
  exact ⟨taken, rfl⟩

end

/-- Settles O41: the STOP input's turn and its held level by the cases of `State.stopInput`, the effects by the sequence
of endings and the closing of the OPEN docks. -/
theorem stopTaken : Obligations.StopTaken := by
  unfold Obligations.StopTaken
  intro s phase
  have taken : exec .stopAssertion s = .next (s.stopInput true State.stopEffects) := State.perform_eq phase _
  refine ⟨fun level => ?_, fun changed level asserted change => ⟨fun starting => ?_, fun running orders => ?_⟩,
    fun level none => ?_, fun f orders request length => ?_, fun f orders running restart idle head broadcast kind => ?_⟩
  · rw [taken, State.stopInput_turned (by simp [level])]
  · rw [taken, State.stopInput_held level (by simp [asserted]) change, if_neg (by simp [starting])]
    rfl
  · obtain ⟨effects, stopped⟩ := (orders.steady (.advanceToCount s (changed + 10))).stopTaken
    refine ⟨_, ?_, effects, stopped⟩
    rw [taken, State.stopInput_held level (by simp [asserted]) change, if_pos running, State.advanceToCount]
    rfl
  · rw [taken, State.stopInput_quiet level none]
  · have addressed : f.isBroadcast = false := by simpa [Frame.isBroadcast] using request.addressed
    refine ⟨s.stopAllEffects, (State.perform_eq phase _).trans (congrArg _ ?_), orders.stopAllTaken⟩
    rw [request.takeStation (by simp [request.accepted]), if_neg (by simp [addressed]), if_pos (by simp [length])]
    exact request.reply_after (.stopAllEffects s) .ok
  · refine ⟨s.stopAllEffects, (State.perform_eq phase _).trans (congrArg _ ?_), orders.stopAllTaken⟩
    have isBroadcast : f.isBroadcast = true := by simp [Frame.isBroadcast, broadcast]
    rw [State.takeStation_eq _ running restart idle head (by simp [Frame.isBroadcastOf, Kind.code, isBroadcast, kind]),
      if_pos isBroadcast]
    rfl

end Sys2Proof.Machine
end
